-- ==== Sys2Proof/Word.lean ====
section
/-! DEFINITION. The words of the station link: bytes, carrier IDs and the policy key. -/

namespace Sys2Proof

/-- One data byte of a telegram (01, R1). -/
abbrev Byte := BitVec 8

/-- A carrier ID: a 64-bit label number (02, section 2.3). -/
abbrev CarrierId := BitVec 64

/-- A lookup key, key value or key mask of the Policy Matcher (02, section 2.8). -/
abbrev Key := BitVec 56

/-- The check word of R10. -/
abbrev CheckWord := BitVec 16

end Sys2Proof
end

