-- ==== Sys2Proof/Syntax.lean ====
section
/-! DEFINITION. The commands of the part: one constructor of `Instr` for each row of spec/opcode_table.json. -/

namespace Sys2Proof

/-- The two link ports (01). -/
inductive LinkPort where
  | floor
  | plant
  deriving DecidableEq, Repr

/-- The line levels of one bit period at phases 7, 8 and 9; `true` is high (R4). -/
structure Samples where
  at7 : Bool
  at8 : Bool
  at9 : Bool
  deriving DecidableEq, Repr

/-- What a receiver samples of one character: the start bit, eight data bits (least significant first), the mark bit and
the first stop bit (R1, R4). -/
structure LineChar where
  start : Samples
  d0 : Samples
  d1 : Samples
  d2 : Samples
  d3 : Samples
  d4 : Samples
  d5 : Samples
  d6 : Samples
  d7 : Samples
  mark : Samples
  stop : Samples
  deriving DecidableEq, Repr

/-- The steps of the part (95_what_each_step_holds.md). A command says that its step takes place now. -/
inductive Instr where
  /-- CHARACTER_RECEIVED: a start edge in SEEK, followed by these line levels (R5). -/
  | characterReceived (port : LinkPort) (line : LineChar)
  /-- BREAK: the line of an all-zero character is still low after 24 bit periods (R7). -/
  | breakDetected (port : LinkPort)
  /-- BREAK_END: after a break the line has been high for one bit period (R7). -/
  | breakEnd (port : LinkPort)
  /-- LINE_BREAK: the Plant line has been low for 50 ms (R8). -/
  | lineBreak
  /-- INTER_CHARACTER_TIMEOUT: 48 bit periods have passed with the timer running (R13). -/
  | interCharacterTimeout (port : LinkPort)
  /-- TELEGRAM_SENT: the second check character has been sent (R15). -/
  | telegramSent (port : LinkPort)
  /-- STARTING_END: the start break and its idle have been sent (R19). -/
  | startingEnd (port : LinkPort)
  /-- PLANT_ROUTING_TAKE (R23). -/
  | plantRoutingTake
  /-- TRANSACTION_TAKE (R126). -/
  | transactionTake
  /-- SAMPLE_INTAKE (R62). -/
  | sampleIntake
  /-- CARRIER_LOOKUP (R42). -/
  | carrierLookup
  /-- RING_SEARCH (R52). -/
  | ringSearch
  /-- FREE_RECORD_PROBE (R43). -/
  | freeRecordProbe
  /-- SETTLE_REQUEST (R70). -/
  | settleRequest
  /-- POLICY_LOOKUP (R118). -/
  | policyLookup
  /-- COMMIT (R143). -/
  | commit
  /-- COMMIT_RELIST (R96). -/
  | commitRelist
  /-- CREATE (R44). -/
  | create
  /-- DELETE (R45). -/
  | delete
  /-- UNLINK (R99). -/
  | unlink
  /-- BATCH_JOIN (R158). -/
  | batchJoin
  /-- BATCH_LEAVE (R162). -/
  | batchLeave
  /-- OUTPUT_PLACE (R152). -/
  | outputPlace
  /-- ADVANCE_TIMER_EXPIRY of a zone (R68). -/
  | advanceTimerExpiry (zone : Nat)
  /-- TIMER_REQUEST of a zone (R68). -/
  | timerRequest (zone : Nat)
  /-- STALE_TIMER_EXPIRY of a batch (R163). -/
  | staleTimerExpiry (batch : Nat)
  /-- BAKE_STALE of a batch (R163). -/
  | bakeStale (batch : Nat)
  /-- UNKNOWN_OP: a request refused at decoding (R32). -/
  | unknownOp
  /-- READ_STATUS (R174). -/
  | readStatus
  /-- SET_MODE (R177). -/
  | setMode
  /-- SET_TIME (R179). -/
  | setTime
  /-- READ_ROW (R34). -/
  | readRow
  /-- STATION_WRITE (R178). -/
  | stationWrite
  /-- PART_CONFIGURATION_WRITE (R36). -/
  | partConfigurationWrite
  /-- ZONE_CONFIGURATION_WRITE (R72). -/
  | zoneConfigurationWrite
  /-- GRID_WRITE: a grid or threshold row (R73). -/
  | gridWrite
  /-- CLASS_WRITE (R178). -/
  | classWrite
  /-- POLICY_TABLE_WRITE: a rule, checker or pass default row (R125). -/
  | policyTableWrite
  /-- READ_RECORD (R54). -/
  | readRecord
  /-- WRITE_RECORD_CLASS: WRITE-RECORD with class selected (R56). -/
  | writeRecordClass
  /-- WRITE_RECORD_CONSUMED: WRITE-RECORD with consumed selected (R56). -/
  | writeRecordConsumed
  /-- WRITE_RECORD_BAKE_COUNT: WRITE-RECORD with bake count selected (R56). -/
  | writeRecordBakeCount
  /-- WRITE_RECORD_RETIRE: WRITE-RECORD with retire selected (R56). -/
  | writeRecordRetire
  /-- DELETE_RECORD (R57). -/
  | deleteRecord
  /-- READ_ZONE (R71). -/
  | readZone
  /-- LIST_ZONE (R104). -/
  | listZone
  /-- READ_BATCH (R156). -/
  | readBatch
  /-- CLEAR_RULE_COUNTERS (R124). -/
  | clearRuleCounters
  /-- CLEAR_FAULT_COUNTERS (R151). -/
  | clearFaultCounters
  /-- SAVE_IMAGE (R181). -/
  | saveImage
  /-- SAVE_IMAGE_COMPLETE (R181). -/
  | saveImageComplete
  /-- LOAD_IMAGE (R182). -/
  | loadImage
  /-- LOAD_IMAGE_REPLACE (R182). -/
  | loadImageReplace
  /-- COMPARE_IMAGE (R183). -/
  | compareImage
  /-- COMPARE_IMAGE_COMPLETE (R183). -/
  | compareImageComplete
  /-- CLEAR_START_CAUSE (R187). -/
  | clearStartCause
  /-- RESET_PART (R189). -/
  | resetPart
  /-- REPLY_PLACE (R175). -/
  | replyPlace
  /-- SUPPLY_FAIL (R184). -/
  | supplyFail
  /-- SUPPLY_RECOVER (R184). -/
  | supplyRecover
  /-- FREEZE: the 2 ms of FAIL-PENDING have passed (R184, R185). -/
  | freeze
  /-- FREEZE_STOP: the work in hand has ended (R185). -/
  | freezeStop
  /-- QUIESCE_STOP: the work in hand of a quiesce has ended (R189). -/
  | quiesceStop
  /-- SUPPLY_RETURN (R184). -/
  | supplyReturn
  /-- SUPPLY_DROP (R184). -/
  | supplyDrop
  /-- POWER_APPLIED (R184). -/
  | powerApplied
  /-- BACKUP_LOSS (R187). -/
  | backupLoss
  /-- START_SEQUENCE: the 50 ms of RESTORE-PENDING have passed, or a quiesce has ended (R188). -/
  | startSequence
  /-- MONOTONIC_TICK: one second of the 32.768 kHz crystal (R179). -/
  | monotonicTick
  /-- ZERO_CHARACTER_LINE_HIGH: the line of an all-zero character went high before 24 bit periods (R6). -/
  | zeroCharacterLineHigh (port : LinkPort)
  /-- MAIN_SUPPLY_LOSS: the part stops before the check word is written (R185). -/
  | mainSupplyLoss
  deriving DecidableEq, Repr

end Sys2Proof
end

