-- ==== Sys2Proof/Config.lean ====
section
/-! DEFINITION. The constants the spec fixes (00_scope.md section 6) and the free values it leaves open. -/

namespace Sys2Proof.Config

/-- The Floor receive queue holds up to 8 telegrams (R14). -/
def floorReceiveCap : Nat := 8
/-- The Plant receive queue holds up to 4 telegrams (R14). -/
def plantReceiveCap : Nat := 4
/-- Upstream relay queue (01, section 1.6). -/
def upRelayCap : Nat := 16
/-- Downstream relay queue (01, section 1.6). -/
def downRelayCap : Nat := 16
/-- Floor answer queue (01, section 1.6). -/
def answerCap : Nat := 16
/-- Management reply queue (01, section 1.6). -/
def replyCap : Nat := 4
/-- Notice Queue (R166). -/
def noticeCap : Nat := 32
/-- The longest body a receiver takes (R9). -/
def maxReceivedBody : Nat := 48
/-- The relay streak at which a low notice goes first (R17). -/
def streakLimit : Nat := 8
/-- Closed-carrier ring (R51). -/
def ringCap : Nat := 16
/-- Members of one batch (R155). -/
def batchMembers : Nat := 64
/-- Carrier records (R41). -/
def recordCount : Nat := 4096
/-- Records 0..3071 are the ways, 3072..4095 the pool (R41). -/
def poolBase : Nat := 3072
/-- Sets of three ways (R40). -/
def setCount : Nat := 1024

/-- Top of an 8-bit count. -/
def max8 : Nat := 255
/-- Top of a 16-bit count (R18). -/
def max16 : Nat := 65535
/-- Top of a 32-bit quantity: consumed, D, counters, monotonic time. -/
def max32 : Nat := 4294967295
/-- Top of the wear clock, 2^48 - 1 (R60). -/
def max48 : Nat := 281474976710655

/-- Wear units in a nominal minute (00, section 4.3). -/
def unitsPerMinute : Nat := 3840
/-- Wear units in a nominal second (00, section 4.3). -/
def unitsPerSecond : Nat := 64

/-- The reference clock in Hz (R2). -/
def referenceClock : Nat := 14745600

/-- FREE VALUE (log entry 9). The station table has rows 0..254 (02, section 2.8), yet the source byte of a telegram can
be 255. The class code of that source is not given. -/
opaque classOfSource255 : Fin 8

/-- FREE VALUE (log entry 9). The home zone of source 255 is not given. -/
opaque homeOfSource255 : Option (Fin 32)

end Sys2Proof.Config
end

