-- ==== Sys2Proof/Machine/Types.lean ====
section
/-! DEFINITION. The data of the part: enumerations, telegrams, table rows, records, notices and working values. -/

namespace Sys2Proof.Machine

/-! ### Enumerations (02, section 2.5) -/

/-- Operating mode (00, section 5.1). -/
inductive Mode where
  | setup | watch | enforce
  deriving DecidableEq, Repr

/-- Station class. -/
inductive StationClass where
  | unassigned | dryStore | kitting | line | oven | sensor | supervisor | other
  deriving DecidableEq, Repr

/-- Zone kind; `unset` is the spec's NONE. -/
inductive ZoneKind where
  | unset | floor | dry | line
  deriving DecidableEq, Repr

/-- Carrier state (03, section 3.2). -/
inductive CarrierState where
  | dry | exposed | mounted | overrun | baking | expired | retired
  deriving DecidableEq, Repr

/-- Verdict of a policy lookup. -/
inductive Verdict where
  | pass | mark | hold
  deriving DecidableEq, Repr

/-- Stored outcome of a repeat memory (R49). -/
inductive RepeatOutcome where
  | relayed | relayedMarked | refused
  deriving DecidableEq, Repr

/-- Notice kind (10, section 10.1). -/
inductive NoticeKind where
  | warn | limit | overrunEnd | retired | bakeShort | bakeStale | policy | copy | zoneStale | zoneFresh | restart
  deriving DecidableEq, Repr

/-- Source of a range checker (R114). -/
inductive RangeSource where
  | pct | remaining | dwell | bakeCount | zoneRh | zoneTemp | cls | station
  deriving DecidableEq, Repr

/-- Notice field of an action (R117). -/
inductive NoticeOption where
  | off | low | high
  deriving DecidableEq, Repr

/-- The sixteen fault codes 0x01..0x10 (02, section 2.5). -/
inductive FaultCode where
  | malformed | stationUnknown | stationKind | unknownCarrier | duplicateId | zoneUnknown | zoneKind | classUnknown
  | illegalTransition | tableFull | bakeTier | tierMismatch | ovenFull | batchFull | notInOven | notPermitted
  deriving DecidableEq, Repr

/-- The accounted kinds that are transactions: the kind index of the policy key, 0 OPEN .. 9 CLOSE (R110). -/
inductive TxKind where
  | open_ | store | issue | move | mount | demount | bakeIn | bakeOut | split | close
  deriving DecidableEq, Repr

/-- Status of a management reply (02, section 2.7). -/
inductive MgmtStatus where
  | done | unknownOp | badTable | badRow | badValue | wrongMode | rowBusy | storeBusy | inUse | invalidTables | imageBad
  | notFound
  deriving DecidableEq, Repr

/-- Status of an ANSWER (02, section 2.6). -/
inductive AnswerStatus where
  | ok | malformed | unknownCarrier | notPermitted
  deriving DecidableEq, Repr

/-! ### Link (01) -/

/-- A telegram: header and body; the length L is the length of the body (02, section 2.1). -/
structure Telegram where
  dest : Byte
  source : Byte
  kind : Byte
  seq : Byte
  body : List Byte
  deriving DecidableEq, Repr

/-- A character: its data bits and its mark bit (R1). -/
structure LinkChar where
  mark : Bool
  data : Byte
  deriving DecidableEq, Repr

/-- Receiver states of section 1.3, and `disabled`: before the start sequence enables it (R19) or after a receiver stop
(R20). `char` is the wait of R6 after an all-zero character; a CHAR that ends in a character lies inside one command. -/
inductive RxState where
  | disabled | seek | char | brk
  deriving DecidableEq, Repr

/-- Assembler states of section 1.4 with the bytes collected so far. -/
inductive AsmState where
  /-- NONE. -/
  | idle
  /-- HEADER: the destination address, then the fields collected, in line order (at most three: source, kind, sequence). -/
  | header (dest : Byte) (fields : List Byte)
  /-- BODY: the header (an empty-bodied telegram), the length L, the body bytes collected so far. -/
  | body (hdr : Telegram) (len : Nat)
  /-- CHECK: the telegram, and the high byte of the received check word once it has come. -/
  | check (tel : Telegram) (high : Option Byte)
  deriving DecidableEq, Repr

/-- The telegram assembler of a port. -/
structure Assembler where
  stage : AsmState
  /-- Skipping (R12). -/
  skipping : Bool
  /-- A character of the open telegram was marked noisy (R10). -/
  noisy : Bool
  /-- The inter-character timer is running (R13). -/
  timer : Bool
  deriving DecidableEq, Repr

/-- The nine error counts of a port (R18). -/
structure PortCounts where
  framing : Nat
  noise : Nat
  check : Nat
  overrun : Nat
  cut : Nat
  stray : Nat
  timeout : Nat
  length : Nat
  brk : Nat
  deriving DecidableEq, Repr

/-- Link settings of a port (R3); `x64` is the speed select, `twoStops` the stop-bit count. -/
structure LinkSettings where
  divisor : Byte
  x64 : Bool
  twoStops : Bool
  deriving DecidableEq, Repr

/-- The queue a transmitter took its telegram from (01, section 1.6). -/
inductive TxSource where
  | answer | downRelay | notice | reply | upRelay
  deriving DecidableEq, Repr

/-- Transmitter states of section 1.6; SENDING holds the characters of the telegram on the line (R15). -/
inductive TxState where
  | starting
  | idle
  | sending (src : TxSource) (chars : List LinkChar)
  | stopped
  deriving DecidableEq, Repr

/-- One link port. -/
structure PortState where
  rx : RxState
  asm : Assembler
  counts : PortCounts
  queue : List Telegram
  link : LinkSettings
  tx : TxState
  deriving DecidableEq, Repr

/-- Preference of the Floor transmitter (R16). -/
inductive FloorPref where
  | answer | relay
  deriving DecidableEq, Repr

/-! ### Table rows (02, section 2.8) -/

structure StationRow where
  cls : StationClass
  home : Option (Fin 32)
  deriving DecidableEq, Repr

structure ZoneConfig where
  kind : ZoneKind
  staleness : Nat
  interval : Nat
  fallback : Nat
  blackout : Nat
  deriving DecidableEq, Repr

structure GridCell where
  rate : Nat
  dry : Bool
  deriving DecidableEq, Repr

/-- A class row (R78). -/
structure ClassRow where
  floorLife : Nat
  warnPercent : Nat
  grace : Nat
  ratio : Nat
  ceiling : Nat
  bake : Vector Nat 4
  bakeLimit : Nat
  deriving DecidableEq, Repr

/-- An action of a rule entry or pass default (R117); `worst` is combine WORST. -/
structure Action where
  verdict : Verdict
  reason : Byte
  notice : NoticeOption
  final : Bool
  worst : Bool
  copy : Bool
  copyOnce : Bool
  count : Bool
  counter : Fin 64
  deriving DecidableEq, Repr

structure RuleRow where
  valid : Bool
  value : Key
  mask : Key
  action : Action
  deriving DecidableEq, Repr

structure CheckerRow where
  source : RangeSource
  low : BitVec 16
  high : BitVec 16
  deriving DecidableEq, Repr

/-- The part configuration row (R36); `floor` and `plant` are the written link settings. -/
structure PartConfig where
  own : Byte
  supervisor : Byte
  startMode : Mode
  floor : LinkSettings
  plant : LinkSettings
  lineReset : Bool
  deriving DecidableEq, Repr

/-- The nine imaged tables, 0x01 to 0x09 (R180). -/
structure Tables where
  stations : Vector StationRow 255
  zones : Vector ZoneConfig 32
  grid : Vector GridCell 48
  rhThresholds : Vector Nat 7
  tempThresholds : Vector Int 5
  classes : Vector ClassRow 16
  rules : Vector RuleRow 128
  checkers : Vector CheckerRow 8
  defaults : Vector Action 2
  part : PartConfig
  deriving DecidableEq, Repr

/-! ### Carrier records (03) -/

/-- Repeat memory (R49); `reason` is absent for RELAYED. -/
structure RepeatMemory where
  source : Byte
  seq : Byte
  kind : Byte
  outcome : RepeatOutcome
  reason : Option Byte
  deriving DecidableEq, Repr

/-- Zone part (R38). The watch links are the neighbours in the zone's list (log entry 7). -/
structure ZonePart where
  zone : Fin 32
  stamp : Nat
  key : Nat
  entered : Nat
  deriving DecidableEq, Repr

/-- Bake part (R38). -/
structure BakePart where
  oven : Byte
  tier : Fin 4
  entered : Nat
  preState : CarrierState
  deriving DecidableEq, Repr

/-- A carrier record in use (R37, R38) with its hold mark (R47). -/
structure Record where
  id : CarrierId
  cls : Fin 16
  state : CarrierState
  consumed : Nat
  bakeCount : Nat
  warnIssued : Bool
  eligible : Bool
  lastBakeShort : Bool
  memory : Option RepeatMemory
  zonePart : Option ZonePart
  /-- Entry dry stamp of the dry part. -/
  dryPart : Option Nat
  bakePart : Option BakePart
  held : Bool
  deriving DecidableEq, Repr

/-- An entry of the closed-carrier ring (R51). -/
structure RingEntry where
  id : CarrierId
  source : Byte
  seq : Byte
  outcome : RepeatOutcome
  reason : Option Byte
  deriving DecidableEq, Repr

/-- The Carrier Table (R41). `records` lists the records in use by index and `chains` the non-empty overflow chains by
set, both with keys strictly rising; `ring` has its oldest entry first. -/
structure CarrierTable where
  records : List (Nat × Record)
  chains : List (Nat × List Nat)
  poolFree : List Nat
  ring : List RingEntry
  classCounts : Vector Nat 16
  deriving DecidableEq, Repr

/-! ### Zones (04) -/

/-- A reading slot (R60). -/
structure Slot where
  temp : Int
  rh : Nat
  arrival : Nat
  valid : Bool
  deriving DecidableEq, Repr

/-- Fused conditions and bands of a zone that is not stale (R63, R64). -/
structure Fused where
  temp : Int
  rh : Nat
  rhBand : Nat
  tempBand : Nat
  deriving DecidableEq, Repr

/-- Live state of a zone (R60); `watch` is its watch list, head first (R93). -/
structure Zone where
  slots : Vector Slot 3
  fused : Option Fused
  stale : Bool
  rate : Nat
  dryOn : Bool
  wear : Nat
  dry : Nat
  lastAdvance : Nat
  watch : List Nat
  deriving DecidableEq, Repr

/-- A request waiting for the Zone Engine (R69): a zone's timer request, the Transaction Engine's one request, the
Management Agent's one request. -/
inductive ZoneRequest where
  | timer (zone : Fin 32)
  | engine
  | agent
  deriving DecidableEq, Repr

/-! ### Batches (09) -/

/-- An open batch (R155). -/
structure Batch where
  oven : Byte
  tier : Fin 4
  openTime : Nat
  members : List Nat
  longest : Nat
  deadline : Nat
  stalePosted : Bool
  deriving DecidableEq, Repr

/-- How a BAKE-OUT ends (R160). -/
inductive BakeOutcome where
  /-- Complete, within the bake limit: a zone state. -/
  | complete
  /-- Complete, past the bake limit: RETIRED. -/
  | retired
  /-- Short, from DRY or EXPOSED: a zone state. -/
  | short
  /-- Short, from EXPIRED: EXPIRED again. -/
  | shortExpired
  deriving DecidableEq, Repr

/-! ### Notices (10) -/

/-- The extra field of a notice (02, section 2.6). -/
inductive Extra where
  | absent
  | policy (verdict : Verdict)
  | copy (kind seq : Byte) (verdict : Verdict)
  | seconds (n : Nat)
  deriving DecidableEq, Repr

/-- A queued notice (R31, R166); `startLost` is the start lost value of a RESTART entry and 0 in every other. -/
structure Notice where
  kind : NoticeKind
  high : Bool
  wallTime : Nat
  carrier : Option CarrierId
  zone : Option (Fin 32)
  station : Option Byte
  percent : Option Nat
  reason : Option Byte
  extra : Extra
  startLost : Nat
  deriving DecidableEq, Repr

/-- The Notice Queue (R166), oldest entry first. -/
structure NoticeQueue where
  entries : List Notice
  lost : Nat
  nextSeq : Byte
  deriving DecidableEq, Repr

/-! ### Transaction Engine (08) -/

/-- What a legal transaction does to its carrier (R139). -/
inductive Transition where
  /-- ILLEGAL. -/
  | illegal
  /-- "No change". -/
  | noChange
  /-- To a state in the body's zone. -/
  | zoned (st : CarrierState)
  /-- To DRY or EXPOSED in the body's zone, by the zone's kind. -/
  | byZone
  /-- To EXPIRED with no zone. -/
  | expire
  | bakeIn
  | bakeOut
  | split
  | deleted
  deriving DecidableEq, Repr

/-- The outcome of one pass of a lookup: an entry or the pass default (R118). -/
inductive PassHit where
  | entry (i : Fin 128)
  | dflt
  deriving DecidableEq, Repr

/-- Where the engine is: the states of R126, the longer ones split by the reply they wait for. -/
inductive EnginePhase where
  /-- IDLE -/
  | idle
  /-- OFFERING -/
  | offering
  /-- CHECKING: the carrier lookup of step 3 -/
  | lookup
  /-- CHECKING: the ring search of a CLOSE -/
  | ring
  /-- SETTLING -/
  | settling
  /-- CHECKING: the free-record probe of step 12 -/
  | probe
  /-- DECIDING -/
  | deciding
  /-- COMMITTING: before the commit reading -/
  | commitOpen
  /-- COMMITTING: the create of an OPEN -/
  | commitCreate
  /-- COMMITTING: the commit relist -/
  | commitRelist
  /-- COMMITTING: the unlink of a CLOSE -/
  | commitUnlink
  /-- COMMITTING: the delete of a CLOSE -/
  | commitDelete
  /-- COMMITTING: the batch join of a BAKE-IN -/
  | commitJoin
  /-- COMMITTING: the batch leave of a BAKE-OUT -/
  | commitLeave
  /-- COMMITTING: memories, counter, release and composition -/
  | commitClose
  /-- PLACING -/
  | placing
  deriving DecidableEq, Repr

/-- What the settle request returns of the target zone (R70). -/
structure Conditions where
  stale : Bool
  temp : Option Int
  rh : Option Nat
  rate : Nat
  /-- Configured kind of the zone when the settle request found it (R111). -/
  kind : ZoneKind
  deriving DecidableEq, Repr

/-- The reported figures of a carrier (R90, R91). -/
structure Figures where
  pct : Nat
  remaining : Nat
  remainingAtRate : Nat
  deriving DecidableEq, Repr

/-- The eight source values of a lookup (R114); `none` is "unavailable". -/
structure Sources where
  pct : Nat
  remaining : Nat
  dwell : Nat
  bakeCount : Nat
  zoneRh : Option Nat
  zoneTemp : Option Int
  cls : Nat
  station : Nat
  deriving DecidableEq, Repr

/-- The fields of a key that the Transaction Engine fills (R110). -/
structure KeyFields where
  kind : TxKind
  stationClass : StationClass
  station : Byte
  zone : Option (Fin 32)
  zoneKind : ZoneKind
  state : CarrierState
  cls : Fin 16
  warnIssued : Bool
  eligible : Bool
  created : Bool
  zoneStale : Bool
  watchMode : Bool
  deriving DecidableEq, Repr

/-- A lookup asked of the Policy Matcher (R110). The key has the pass bit and the range bits clear. -/
structure LookupRequest where
  key : Key
  sources : Sources
  carrier : CarrierId
  zone : Option (Fin 32)
  station : Byte
  kind : Byte
  seq : Byte
  deriving DecidableEq, Repr

/-- The outcome fixed at the commit reading (R142). -/
structure CommitOutcome where
  outcome : RepeatOutcome
  reason : Option Byte
  transition : Bool
  deriving DecidableEq, Repr

/-- The copy an OPEN's lookup takes of the record it finds (R47). -/
structure OpenCopy where
  cls : Fin 16
  consumed : Nat
  memory : Option RepeatMemory
  deriving DecidableEq, Repr

/-- The queue a composed output goes to (R152). -/
inductive OutputQueue where
  | upRelay | answer
  deriving DecidableEq, Repr

/-- A composed output. -/
structure Output where
  queue : OutputQueue
  tel : Telegram
  deriving DecidableEq, Repr

/-- The working values of the telegram in hand (R127). -/
structure Work where
  tel : Telegram
  /-- Class of the source station, read when the telegram was taken. -/
  stationClass : StationClass
  /-- Zone field resolved under R25: 0..255, with 255 for an unresolved one. -/
  zone : Nat
  /-- Record index held by the lookup: the carrier, or the parent of a SPLIT. -/
  held : Option Nat
  /-- Record index created by this transaction. -/
  created : Option Nat
  /-- The child lookup of a SPLIT found a record. -/
  childFound : Bool
  /-- Copy of the record found by an OPEN's lookup. -/
  copy : Option OpenCopy
  /-- The fault found. -/
  fault : Option FaultCode
  /-- The carrier's record as the settle request left it (R112). -/
  settled : Option Record
  figures : Option Figures
  conditions : Option Conditions
  lookup : Option LookupRequest
  verdict : Option (Verdict × Byte)
  commitMode : Option Mode
  outcome : Option CommitOutcome
  /-- The monotonic time of the commit (log entry 15). -/
  commitTime : Nat
  output : Option Output
  deriving DecidableEq, Repr

/-- The Transaction Engine (R126, R153). -/
structure Engine where
  phase : EnginePhase
  work : Option Work
  pause : Bool
  deriving DecidableEq, Repr

/-! ### Management requests (02, section 2.7) -/

/-- A WRITE-ROW whose image has passed R34. The read-only tables have none. -/
inductive RowWrite where
  | station (i : Fin 255) (r : StationRow)
  | zone (z : Fin 32) (r : ZoneConfig)
  | grid (i : Fin 48) (r : GridCell)
  /-- Threshold row 0. -/
  | rh (r : Vector Nat 7)
  /-- Threshold row 1. -/
  | temp (r : Vector Int 5)
  | cls (c : Fin 16) (r : ClassRow)
  | rule (i : Fin 128) (r : RuleRow)
  | checker (i : Fin 8) (r : CheckerRow)
  | dflt (passB : Bool) (r : Action)
  | part (r : PartConfig)
  deriving DecidableEq, Repr

/-- The selected fields of a WRITE-RECORD; an unselected field is `none` (R32). -/
structure RecordWrite where
  cls : Option (Fin 16)
  minutes : Option Nat
  bakeCount : Option Nat
  retire : Bool
  deriving DecidableEq, Repr

/-- A decoded request: every argument is within its range (R32). -/
inductive MgmtOp where
  /-- Page 0 or 1 of READ-STATUS. -/
  | readStatus (page1 : Bool)
  | setMode (m : Mode)
  | setTime (wall : Nat)
  | readRow (table row : Nat)
  | writeRow (w : RowWrite)
  | readRecord (id : CarrierId)
  | writeRecord (id : CarrierId) (w : RecordWrite)
  | deleteRecord (id : CarrierId)
  | readZone (z : Fin 32) (page1 : Bool)
  | listZone (z : Fin 32) (pos : Nat)
  | readBatch (b : Fin 16) (pos : Nat)
  /-- CLEAR-COUNTERS with set 0; `none` is every counter. -/
  | clearRules (i : Option (Fin 64))
  /-- CLEAR-COUNTERS with set 1; `none` is every counter. -/
  | clearFaults (i : Option (Fin 16))
  | saveImage
  | loadImage
  | compareImage
  | clearStartCause
  | resetPart
  deriving DecidableEq, Repr

/-! ### Management Agent and Image Store (11) -/

/-- States of R175; EXECUTING is split into the request itself, the replacement of a LOAD-IMAGE (R182), and a class write
past its count check, whose rekey has been asked (R178). -/
inductive AgentPhase where
  | idle
  | executing (req : Telegram)
  | loading (req : Telegram)
  | rekeying (req : Telegram) (cls : Fin 16) (row : ClassRow)
  /-- `reset` marks the reply of a RESET-PART, whose placing begins the quiesce (R189). -/
  | placing (reply : Telegram) (reset : Bool)
  deriving DecidableEq, Repr

/-- A completion reply that waits for the reply in hand (R181). -/
structure Completion where
  source : Byte
  seq : Byte
  op : Byte
  status : MgmtStatus
  deriving DecidableEq, Repr

/-- The Management Agent. `copy` is the copy of the tables a SAVE-IMAGE took when its request was taken (R181). -/
structure Agent where
  phase : AgentPhase
  completion : Option Completion
  copy : Option Tables := none
  deriving DecidableEq, Repr

/-- The running operation of the Image Store with its requester (R180). -/
inductive ImageRun where
  | save (copy : Tables) (source seq : Byte)
  | compare (source seq : Byte)
  deriving DecidableEq, Repr

/-- A configuration image wholly written: its contents, and the check word it ends with (R180). -/
structure StoredImage where
  contents : Tables
  check : CheckWord
  deriving DecidableEq, Repr

/-- The Image Store: `image` is `none` while no image stands wholly written in it (R181; log entry 31). -/
structure ImageStore where
  image : Option StoredImage
  run : Option ImageRun
  /-- Compare result: true is MATCH (R183). -/
  compared : Bool
  deriving DecidableEq, Repr

/-! ### Retention Unit (11) -/

/-- Supply monitor (R184). -/
inductive Monitor where
  | normal | failPending | freezing | frozen | restorePending
  deriving DecidableEq, Repr

/-- Start-cause flags (R187). -/
structure StartFlags where
  powerOn : Bool
  supplyRestore : Bool
  command : Bool
  lineBreak : Bool
  retainedLost : Bool
  imageLost : Bool
  timeUnset : Bool
  deriving DecidableEq, Repr

/-- Cause of a quiesce (R189). -/
inductive QuiesceCause where
  | command | lineBreak
  deriving DecidableEq, Repr

/-- A quiesce: `timed` once its freeze time is recorded, `stopped` once the transmitters have stopped (log entry 23);
`behind` is the number of replies placed behind the reply of its RESET-PART (R189). -/
structure Quiesce where
  cause : QuiesceCause
  behind : Nat
  timed : Bool
  stopped : Bool
  deriving DecidableEq, Repr

structure Retention where
  monitor : Monitor
  /-- The main supply stands above the upper threshold (log entry 22). -/
  supplyOk : Bool
  backupValid : Bool
  /-- The retained check word is valid (log entry 8). -/
  checkValid : Bool
  monotonic : Nat
  offset : Nat
  freezeTime : Nat
  noticeLoss : Nat
  flags : StartFlags
  quiesce : Option Quiesce
  deriving DecidableEq, Repr

end Sys2Proof.Machine
end

