-- ==== Sys2Proof/Machine/State.lean ====
section
/-! DEFINITION. The state of the part, how a step can stop, and the state after reset. -/

namespace Sys2Proof.Machine

/-- How a command can stop the model. -/
inductive Fault where
  /-- Raised by ADVANCE_TIMER_EXPIRY and TIMER_REQUEST naming a zone above 31, which does not exist. Safe: the part has
  no such timer. -/
  | noSuchZone
  /-- Raised by STALE_TIMER_EXPIRY and BAKE_STALE naming a batch above 15, which does not exist. Safe: the part has no
  such timer. -/
  | noSuchBatch
  deriving DecidableEq, Repr

/-- A command without a meaning. -/
inductive Refusal where
  /-- Raised by `exec` alone, for a command that has no meaning yet. Safe: the model stops. -/
  | notModelled (mnemonic : String)
  deriving DecidableEq, Repr

/-- The part. INVENTORY.md names the rule of each piece. -/
structure State where
  floor : PortState
  plant : PortState
  /-- Active line reset of the Plant Port (R3). -/
  lineReset : Bool
  floorPref : FloorPref
  plantStreak : Nat
  upRelay : List Telegram
  downRelay : List Telegram
  answers : List Telegram
  replies : List Telegram
  notices : NoticeQueue
  engine : Engine
  table : CarrierTable
  zones : Vector Zone 32
  /-- Requests waiting for the Zone Engine, in order of arrival (R69). -/
  zoneWait : List ZoneRequest
  ambientRejects : Nat
  ruleCounters : Vector Nat 64
  faultCounters : Vector Nat 16
  batches : Vector (Option Batch) 16
  /-- Batches whose stale request waits for the Batch Table (R163). -/
  batchWait : List (Fin 16)
  tables : Tables
  mode : Mode
  agent : Agent
  agentRejects : Nat
  store : ImageStore
  retention : Retention
  /-- The commands waiting, first in, first out. -/
  pending : List Instr
  deriving DecidableEq, Repr

/-! ### Default rows (R188, "Bad image") -/

/-- N = 7, x16, one stop bit (R3). -/
def LinkSettings.default : LinkSettings := { divisor := 7, x64 := false, twoStops := false }

/-- Verdict PASS, reason 0x40, notice NONE, all options clear, counter index 0 (R108). -/
def Action.default : Action :=
  { verdict := .pass, reason := 0x40, notice := .off, final := false, worst := false, copy := false,
    copyOnce := false, count := false, counter := 0 }

/-- The defaults of R59. -/
def ZoneConfig.default : ZoneConfig :=
  { kind := .unset, staleness := 300, interval := 60, fallback := 128, blackout := 128 }

def ClassRow.default : ClassRow :=
  { floorLife := 0, warnPercent := 0, grace := 0, ratio := 0, ceiling := 0, bake := Vector.replicate 4 0,
    bakeLimit := 0 }

def PartConfig.default : PartConfig :=
  { own := 254, supervisor := 0, startMode := .setup, floor := .default, plant := .default, lineReset := true }

/-- The default values of every imaged table (R188). -/
def Tables.default : Tables :=
  { stations := Vector.replicate 255 { cls := .unassigned, home := none }
    zones := Vector.replicate 32 .default
    grid := Vector.replicate 48 { rate := 0, dry := false }
    rhThresholds := Vector.replicate 7 0
    tempThresholds := Vector.replicate 5 0
    classes := Vector.replicate 16 .default
    rules := Vector.replicate 128 { valid := false, value := 0, mask := 0, action := .default }
    checkers := Vector.replicate 8 { source := .cls, low := 1, high := 0 }
    defaults := Vector.replicate 2 .default
    part := .default }

/-! ### Cleared state -/

def PortCounts.zero : PortCounts :=
  { framing := 0, noise := 0, check := 0, overrun := 0, cut := 0, stray := 0, timeout := 0, length := 0, brk := 0 }

/-- The assembler at a start: NONE with skipping set (R19). -/
def Assembler.atStart : Assembler := { stage := .idle, skipping := true, noisy := false, timer := false }

/-- A port once the start sequence has set it and enabled its receiver (R19, R188 step 7). -/
def PortState.atStart (link : LinkSettings) : PortState :=
  { rx := .seek, asm := .atStart, counts := .zero, queue := [], link := link, tx := .starting }

/-- An invalid slot; the spec does not say what reading it holds, and the model sets it to 0 (DESIGN CHOICE, log entry 48). -/
def Slot.invalid : Slot := { temp := 0, rh := 0, arrival := 0, valid := false }

/-- A zone with no reading, stale, at its fallback rate, with the given clocks (R77). -/
def Zone.cleared (fallback : Nat) : Zone :=
  { slots := Vector.replicate 3 .invalid, fused := none, stale := true, rate := fallback, dryOn := false, wear := 0,
    dry := 0, lastAdvance := 0, watch := [] }

/-- The Carrier Table after a POWER-ON start (R58). -/
def CarrierTable.empty : CarrierTable :=
  { records := [], chains := [], poolFree := List.range' Config.poolBase 1024, ring := [],
    classCounts := Vector.replicate 16 0 }

def Engine.atStart : Engine := { phase := .idle, work := none, pause := false }

def Agent.atStart : Agent := { phase := .idle, completion := none }

/-- The flags a POWER-ON start sets with a bad image (R187, R188). -/
def StartFlags.powerOnBadImage : StartFlags :=
  { powerOn := true, supplyRestore := false, command := false, lineBreak := false, retainedLost := true,
    imageLost := true, timeUnset := true }

/-- The RESTART notice of a POWER-ON start (R172, R173). -/
def Notice.restartPowerOn : Notice :=
  { kind := .restart, high := true, wallTime := 0, carrier := none, zone := none, station := none, percent := none,
    reason := none, extra := .absent, startLost := 0 }

/-- The part right after the POWER-ON start of a part that holds no good image (log entry 2). -/
def State.reset : State :=
  { floor := .atStart .default
    plant := .atStart .default
    lineReset := true
    floorPref := .answer
    plantStreak := 0
    upRelay := []
    downRelay := []
    answers := []
    replies := []
    notices := { entries := [.restartPowerOn], lost := 0, nextSeq := 0 }
    engine := .atStart
    table := .empty
    zones := Vector.replicate 32 (.cleared 128)
    zoneWait := []
    ambientRejects := 0
    ruleCounters := Vector.replicate 64 0
    faultCounters := Vector.replicate 16 0
    batches := Vector.replicate 16 none
    batchWait := []
    tables := .default
    mode := .setup
    agent := .atStart
    agentRejects := 0
    store := { image := none, run := none, compared := false }
    retention :=
      { monitor := .normal, supplyOk := true, backupValid := true, checkValid := false, monotonic := 0, offset := 0,
        freezeTime := 0, noticeLoss := 0, flags := .powerOnBadImage, quiesce := none }
    pending := [] }

end Sys2Proof.Machine
end

