-- ==== Sys2Proof/Machine/Operands.lean ====
section
/-! DEFINITION. Operand forms: byte order, coded values (02, section 2.5) and the fields of telegram bodies. -/

namespace Sys2Proof.Machine

/-! ### Byte order: most significant byte first (00, section 4.4) -/

/-- The low `n` bytes of `v`, most significant first. -/
def beBytes : Nat → Nat → List Byte
  | 0, _ => []
  | n + 1, v => BitVec.ofNat 8 (v / 256 ^ n) :: beBytes n v

/-- The unsigned number that bytes spell, most significant first. -/
def beNat (bs : List Byte) : Nat := bs.foldl (fun a b => a * 256 + b.toNat) 0

/-- `n` bytes of a body from offset `off`. -/
def bytesAt (body : List Byte) (off n : Nat) : List Byte := (body.drop off).take n

/-- The unsigned field of `n` bytes at offset `off`. -/
def natAt (body : List Byte) (off n : Nat) : Nat := beNat (bytesAt body off n)

/-- The byte at offset `off`, 0 past the end (every caller has checked the length). -/
def byteAt (body : List Byte) (off : Nat) : Byte := body.getD off 0

/-- The carrier ID at offset `off`. -/
def idAt (body : List Byte) (off : Nat) : CarrierId := BitVec.ofNat 64 (natAt body off 8)

/-- The signed 16-bit field at offset `off` (00, section 4.4). -/
def tempAt (body : List Byte) (off : Nat) : Int := (BitVec.ofNat 16 (natAt body off 2)).toInt

/-- A signed temperature as two bytes. -/
def tempBytes (t : Int) : List Byte := beBytes 2 (BitVec.ofInt 16 t).toNat

/-- An absent field: all-ones bytes (00, section 4.5). -/
def absentBytes (n : Nat) : List Byte := List.replicate n 0xFF

/-- A number of `n` bytes, or the absent field. -/
def optBytes (n : Nat) (o : Option Nat) : List Byte :=
  match o with
  | some v => beBytes n v
  | none => absentBytes n

/-- One byte, or the absent field. -/
def optByte (o : Option Byte) : List Byte := [o.getD 0xFF]

def idBytes (id : CarrierId) : List Byte := beBytes 8 id.toNat

def optIdBytes (o : Option CarrierId) : List Byte := optBytes 8 (o.map BitVec.toNat)

/-- 1 for set or on, 0 for clear or off. Section 2.7 gives the stale flag, the dry condition, a slot's valid and stale-posted a
size alone: those values are a DESIGN CHOICE there (log entry 47). -/
def boolByte (b : Bool) : Byte := if b then 1 else 0

/-! ### Coded values (02, section 2.5) -/

def CarrierState.code : CarrierState → Nat
  | .dry => 1
  | .exposed => 2
  | .mounted => 3
  | .overrun => 4
  | .baking => 5
  | .expired => 6
  | .retired => 7

def StationClass.code : StationClass → Nat
  | .unassigned => 0
  | .dryStore => 1
  | .kitting => 2
  | .line => 3
  | .oven => 4
  | .sensor => 5
  | .supervisor => 6
  | .other => 7

def StationClass.ofCode? : Nat → Option StationClass
  | 0 => some .unassigned
  | 1 => some .dryStore
  | 2 => some .kitting
  | 3 => some .line
  | 4 => some .oven
  | 5 => some .sensor
  | 6 => some .supervisor
  | 7 => some .other
  | _ => none

def ZoneKind.code : ZoneKind → Nat
  | .unset => 0
  | .floor => 1
  | .dry => 2
  | .line => 3

def ZoneKind.ofCode? : Nat → Option ZoneKind
  | 0 => some .unset
  | 1 => some .floor
  | 2 => some .dry
  | 3 => some .line
  | _ => none

def Mode.code : Mode → Nat
  | .setup => 0
  | .watch => 1
  | .enforce => 2

def Mode.ofCode? : Nat → Option Mode
  | 0 => some .setup
  | 1 => some .watch
  | 2 => some .enforce
  | _ => none

def Verdict.code : Verdict → Nat
  | .pass => 0
  | .mark => 1
  | .hold => 2

def Verdict.ofCode? : Nat → Option Verdict
  | 0 => some .pass
  | 1 => some .mark
  | 2 => some .hold
  | _ => none

def RepeatOutcome.code : RepeatOutcome → Nat
  | .relayed => 0
  | .relayedMarked => 1
  | .refused => 2

def RangeSource.code : RangeSource → Nat
  | .pct => 0
  | .remaining => 1
  | .dwell => 2
  | .bakeCount => 3
  | .zoneRh => 4
  | .zoneTemp => 5
  | .cls => 6
  | .station => 7

def RangeSource.ofCode? : Nat → Option RangeSource
  | 0 => some .pct
  | 1 => some .remaining
  | 2 => some .dwell
  | 3 => some .bakeCount
  | 4 => some .zoneRh
  | 5 => some .zoneTemp
  | 6 => some .cls
  | 7 => some .station
  | _ => none

def NoticeOption.code : NoticeOption → Nat
  | .off => 0
  | .low => 1
  | .high => 2

def NoticeOption.ofCode? : Nat → Option NoticeOption
  | 0 => some .off
  | 1 => some .low
  | 2 => some .high
  | _ => none

def NoticeKind.code : NoticeKind → Byte
  | .warn => 0x01
  | .limit => 0x02
  | .overrunEnd => 0x03
  | .retired => 0x04
  | .bakeShort => 0x05
  | .bakeStale => 0x06
  | .policy => 0x07
  | .copy => 0x08
  | .zoneStale => 0x09
  | .zoneFresh => 0x0A
  | .restart => 0x0B

/-- Index of the fault counter of a code: code - 1 (R151). -/
def FaultCode.index : FaultCode → Fin 16
  | .malformed => 0
  | .stationUnknown => 1
  | .stationKind => 2
  | .unknownCarrier => 3
  | .duplicateId => 4
  | .zoneUnknown => 5
  | .zoneKind => 6
  | .classUnknown => 7
  | .illegalTransition => 8
  | .tableFull => 9
  | .bakeTier => 10
  | .tierMismatch => 11
  | .ovenFull => 12
  | .batchFull => 13
  | .notInOven => 14
  | .notPermitted => 15

/-- Reason byte of a fault (02, section 2.5). -/
def FaultCode.code (f : FaultCode) : Byte := BitVec.ofNat 8 (f.index.val + 1)

/-- Reason UNCHECKED (02, section 2.5). -/
def reasonUnchecked : Byte := 0xFE

def MgmtStatus.code : MgmtStatus → Byte
  | .done => 0x00
  | .unknownOp => 0x01
  | .badTable => 0x02
  | .badRow => 0x03
  | .badValue => 0x04
  | .wrongMode => 0x05
  | .rowBusy => 0x06
  | .storeBusy => 0x07
  | .inUse => 0x08
  | .invalidTables => 0x09
  | .imageBad => 0x0A
  | .notFound => 0x0B

def AnswerStatus.code : AnswerStatus → Byte
  | .ok => 0x00
  | .malformed => 0x01
  | .unknownCarrier => 0x04
  | .notPermitted => 0x10

/-! ### Kinds (02, section 2.2) -/

def TxKind.index : TxKind → Nat
  | .open_ => 0
  | .store => 1
  | .issue => 2
  | .move => 3
  | .mount => 4
  | .demount => 5
  | .bakeIn => 6
  | .bakeOut => 7
  | .split => 8
  | .close => 9

/-- The kinds OPEN 0x10 to CLOSE 0x19. -/
def TxKind.ofByte? (k : Byte) : Option TxKind :=
  match k.toNat with
  | 0x10 => some .open_
  | 0x11 => some .store
  | 0x12 => some .issue
  | 0x13 => some .move
  | 0x14 => some .mount
  | 0x15 => some .demount
  | 0x16 => some .bakeIn
  | 0x17 => some .bakeOut
  | 0x18 => some .split
  | 0x19 => some .close
  | _ => none

def kindQuery : Byte := 0x1A
def kindAmbient : Byte := 0x20
def kindRefusal : Byte := 0x30
def kindAnswer : Byte := 0x31
def kindNotice : Byte := 0x40
def kindMgmtRequest : Byte := 0x50
def kindMgmtReply : Byte := 0x51
/-- Offset of a marked kind (R28). -/
def markedOffset : Byte := 0x80

/-- Body size of a transaction kind (02, section 2.2). -/
def TxKind.bodySize : TxKind → Nat
  | .open_ => 12
  | .split => 17
  | .close => 8
  | _ => 9

/-- Body size of a QUERY. -/
def queryBodySize : Nat := 8
/-- Body size of an AMBIENT. -/
def ambientBodySize : Nat := 6

/-- The all-ones value that denotes an absent carrier ID (R24). -/
def absentId : CarrierId := BitVec.allOnes 64

/-- Offset of the zone field of a body, where its kind has one (02, section 2.3). -/
def TxKind.zoneOffset? : TxKind → Option Nat
  | .open_ => some 9
  | .split => some 16
  | .bakeIn => none
  | .close => none
  | _ => some 8

/-- A transaction body fails R24: wrong length, or an all-ones carrier, parent or child ID. -/
def TxKind.malformed (k : TxKind) (body : List Byte) : Bool :=
  body.length != k.bodySize || idAt body 0 == absentId || (k == .split && idAt body 8 == absentId)

/-- A QUERY body fails R24. -/
def queryMalformed (body : List Byte) : Bool :=
  body.length != queryBodySize || idAt body 0 == absentId

/-- Child ID of a SPLIT body. -/
def childIdOf (t : Telegram) : CarrierId := idAt t.body 8

/-- The ID the transaction names: the carrier, for a SPLIT the parent. -/
def carrierIdOf (t : Telegram) : CarrierId := idAt t.body 0

/-- Class field of an OPEN body. -/
def openClassOf (t : Telegram) : Nat := (byteAt t.body 8).toNat

/-- Initial used nominal minutes of an OPEN body. -/
def openMinutesOf (t : Telegram) : Nat := natAt t.body 10 2

/-- Tier field of a BAKE-IN body. -/
def tierOf (t : Telegram) : Nat := (byteAt t.body 8).toNat

/-! ### Row access by number -/

/-- The station table row of an address; there is none for 255 (log entry 9). -/
def Tables.station (t : Tables) (a : Byte) : StationRow :=
  if h : a.toNat < 255 then t.stations[a.toNat]
  else { cls := (StationClass.ofCode? Config.classOfSource255.val).getD .unassigned,
         home := Config.homeOfSource255 }

/-- A zone number, where it names one of the 32 zones. -/
def zone? (n : Nat) : Option (Fin 32) := if h : n < 32 then some ⟨n, h⟩ else none

/-- Configuration of a zone. -/
def Tables.zone (t : Tables) (z : Fin 32) : ZoneConfig := t.zones[z.val]

/-- A zone is configured when its kind is not NONE (R59). -/
def ZoneConfig.configured (c : ZoneConfig) : Bool := c.kind != .unset

/-- Class row of a class. -/
def Tables.cls (t : Tables) (c : Fin 16) : ClassRow := t.classes[c.val]

/-- A class is configured when L is not 0 (R78). -/
def ClassRow.configured (c : ClassRow) : Bool := c.floorLife != 0

/-- The configured class a number names: none above 15 or with L = 0 (R138). -/
def Tables.openClass? (t : Tables) (n : Nat) : Option (Fin 16) :=
  if h : n < 16 then
    if (t.cls ⟨n, h⟩).configured then some ⟨n, h⟩ else none
  else none

/-- The 32 zone numbers, ascending. -/
def allZones : List (Fin 32) := List.finRange 32

/-- The configured zones, ascending. -/
def Tables.configuredZones (t : Tables) : List (Fin 32) := allZones.filter fun z => (t.zone z).configured

end Sys2Proof.Machine
end

