-- ==== Sys2Proof/Machine/Flags.lean ====
section
/-! DEFINITION. Exposure arithmetic and the flags of a carrier: thresholds, settlement, crossings, passed thresholds,
dry credit, bake outcome and the reported figures (05). -/

namespace Sys2Proof.Machine

/-- A sum that stops at a limit (00, section 4.1). -/
def satAdd (limit a b : Nat) : Nat := min limit (a + b)

/-! ### Figures of a class row (R79) -/

/-- Budget B. -/
def ClassRow.budget (c : ClassRow) : Nat := c.floorLife * Config.unitsPerMinute

def ClassRow.warnPoint (c : ClassRow) : Nat := c.budget * c.warnPercent / 100

/-- Grace units G. -/
def ClassRow.graceUnits (c : ClassRow) : Nat := c.grace * Config.unitsPerMinute

def ClassRow.ceilingUnits (c : ClassRow) : Nat := c.ceiling * Config.unitsPerMinute

/-- Required seconds of a bake at a tier (R92). -/
def ClassRow.requiredSeconds (c : ClassRow) (tier : Fin 4) : Nat := c.bake[tier.val] * 60

/-- First consumed figure of an OPEN: the initial minutes clamped to L, times 3,840 (R27, R89). -/
def ClassRow.initialConsumed (c : ClassRow) (minutes : Nat) : Nat := min minutes c.floorLife * Config.unitsPerMinute

/-! ### Settlement (R80) -/

/-- Charge a record with a zone part up to wear clock `wear`. -/
def Record.settle (r : Record) (wear : Nat) : Record :=
  match r.zonePart with
  | some zp =>
    { r with consumed := satAdd Config.max32 r.consumed (wear - zp.stamp), zonePart := some { zp with stamp := wear } }
  | none => r

/-! ### Thresholds, watch key and crossings (R82 to R85) -/

/-- Next threshold of a carrier with a zone part (R82). -/
def Record.nextThreshold (r : Record) (c : ClassRow) : Nat :=
  if r.state = .overrun then c.budget + c.graceUnits
  else if r.warnIssued then c.budget
  else c.warnPoint

/-- Watch key: entry wear stamp plus what is left to the next threshold, saturating (R83). -/
def Record.watchKey (r : Record) (c : ClassRow) (stamp : Nat) : Nat :=
  satAdd Config.max48 stamp (r.nextThreshold c - r.consumed)

/-- The carrier leaves its zone: zone part and dry part absent, recovery-eligible clear (R85). -/
def Record.leaveZone (r : Record) : Record := { r with zonePart := none, dryPart := none, eligible := false }

/-- The crossing now due, applied, with the notice it posts (R84, R85); none when no crossing is due. -/
def Record.cross? (r : Record) (c : ClassRow) : Option (Record × NoticeKind) :=
  match r.zonePart with
  | none => none
  | some _ =>
    if r.consumed < r.nextThreshold c then none
    else
      match r.state with
      | .overrun => some ({ r with state := .expired }.leaveZone, .overrunEnd)
      | .mounted =>
        if !r.warnIssued then some ({ r with warnIssued := true }, .warn)
        else if 0 < c.graceUnits then some ({ r with state := .overrun }, .limit)
        else some ({ r with state := .expired }.leaveZone, .limit)
      | .dry | .exposed =>
        if !r.warnIssued then some ({ r with warnIssued := true }, .warn)
        else some ({ r with state := .expired }.leaveZone, .limit)
      | .baking | .expired | .retired => none

/-- Priority of a crossing notice (R85). -/
def NoticeKind.crossingHigh : NoticeKind → Bool
  | .warn => false
  | _ => true

/-- The warn-issued half of R86, which holds in every state. -/
def Record.rejudgeWarn (r : Record) (c : ClassRow) : Record :=
  if r.warnIssued && decide (r.consumed < c.warnPoint) then { r with warnIssued := false } else r

/-- Passed thresholds judged again (R86). -/
def Record.rejudge (r : Record) (c : ClassRow) : Record :=
  (if r.state = .overrun ∧ r.consumed < c.budget then { r with state := .mounted } else r).rejudgeWarn c

/-! ### Dry credit (R87, R88) -/

/-- Eligibility at an attach to a DRY zone (R87). -/
def Record.judgeEligible (r : Record) (c : ClassRow) : Bool := decide (1 ≤ c.ratio) && decide (r.consumed ≤ c.ceilingUnits)

/-- Credit in wear units for the zone's dry clock `dry` (R88); none at ratio 0. -/
def Record.credit (r : Record) (c : ClassRow) (dry : Nat) : Nat :=
  if r.eligible && decide (c.ratio ≠ 0) then
    (dry - r.dryPart.getD dry) * Config.unitsPerSecond / c.ratio
  else 0

/-- Leave a DRY zone through a relist: credit, warn-issued judged, recovery-eligible cleared (R88). -/
def Record.takeCredit (r : Record) (c : ClassRow) (dry : Nat) : Record :=
  if r.eligible then { ({ r with consumed := r.consumed - r.credit c dry }).rejudgeWarn c with eligible := false }
  else r

/-! ### Reported figures (R90, R91) -/

/-- The percent band. -/
def ClassRow.pct (c : ClassRow) (consumed : Nat) : Nat := min 255 (consumed * 100 / c.budget)

/-- Remaining nominal minutes (R91). -/
def ClassRow.remainingNominal (c : ClassRow) (st : CarrierState) (consumed : Nat) : Nat :=
  match st with
  | .expired | .retired => 0
  | _ => min Config.max16 ((c.budget - consumed) / Config.unitsPerMinute)

/-- Remaining minutes at rate code `rate` (R91). -/
def ClassRow.remainingAtRate (c : ClassRow) (st : CarrierState) (consumed rate : Nat) : Nat :=
  match st with
  | .expired | .retired => 0
  | .baking => Config.max16
  | _ => if rate = 0 then Config.max16 else min Config.max16 ((c.budget - consumed) / (rate * 60))

/-- The figures of a carrier whose zone has rate code `rate`. -/
def ClassRow.figures (c : ClassRow) (st : CarrierState) (consumed rate : Nat) : Figures :=
  { pct := c.pct consumed, remaining := c.remainingNominal st consumed,
    remainingAtRate := c.remainingAtRate st consumed rate }

/-! ### Bake arithmetic (R92, R160) -/

/-- The bake count after a BAKE-OUT. -/
def Record.bakedCount (r : Record) : Nat := min 15 (r.bakeCount + 1)

/-- The row of R160 that applies at commit time `t`. -/
def Record.bakeOutcome (r : Record) (c : ClassRow) (bp : BakePart) (t : Nat) : BakeOutcome :=
  if c.requiredSeconds bp.tier ≤ t - bp.entered then
    if c.bakeLimit < r.bakedCount then .retired else .complete
  else if bp.preState = .expired then .shortExpired
  else .short

/-- The outcome gives the carrier a state with a zone. -/
def BakeOutcome.zoned : BakeOutcome → Bool
  | .complete | .short => true
  | .retired | .shortExpired => false

/-- Consumed and flags after a bake (R160); the bake part becomes absent, and the state is set by the caller. -/
def Record.afterBake (r : Record) (c : ClassRow) (o : BakeOutcome) : Record :=
  match o with
  | .complete | .retired =>
    { r with bakeCount := r.bakedCount, consumed := 0, warnIssued := false, lastBakeShort := false, bakePart := none }
  | .short | .shortExpired =>
    { r with bakeCount := r.bakedCount, lastBakeShort := true, bakePart := none }.rejudgeWarn c

/-! ### Flag bytes (02, section 2.7) -/

/-- Flags byte of a record image. -/
def Record.flagByte (r : Record) : Byte :=
  (if r.warnIssued then 0x01 else 0) ||| (if r.eligible then 0x02 else 0) ||| (if r.lastBakeShort then 0x04 else 0)

/-- Start-cause flags byte of READ-STATUS page 0. -/
def StartFlags.byte (f : StartFlags) : Byte :=
  (if f.powerOn then 0x01 else 0) ||| (if f.supplyRestore then 0x02 else 0) ||| (if f.command then 0x04 else 0) |||
    (if f.lineBreak then 0x08 else 0) ||| (if f.retainedLost then 0x10 else 0) ||| (if f.imageLost then 0x20 else 0) |||
    (if f.timeUnset then 0x40 else 0)

end Sys2Proof.Machine
end

