-- ==== Sys2Proof/Machine/Ops.lean ====
section
/-! DEFINITION. The shared operations: sorted lists, guards, time, counts, the Notice Queue, the transmitters' choices and
the telegrams the part composes. -/

namespace Sys2Proof.Machine

/-- The number of bits given least significant first. -/
def bitsValue : List Bool → Nat
  | [] => 0
  | b :: bs => b.toNat + 2 * bitsValue bs

/-! ### Lists sorted by key: the carrier records by index, the overflow chains by set -/

/-- The entry at key `k`. -/
def lookupKey {α : Type} : List (Nat × α) → Nat → Option α
  | [], _ => none
  | (k', v) :: rest, k => if k' = k then some v else lookupKey rest k

/-- Write the entry at key `k`, keeping the keys rising. -/
def insertKey {α : Type} : List (Nat × α) → Nat → α → List (Nat × α)
  | [], k, v => [(k, v)]
  | (k', v') :: rest, k, v =>
    if k < k' then (k, v) :: (k', v') :: rest
    else if k' = k then (k, v) :: rest
    else (k', v') :: insertKey rest k v

/-- Remove the entry at key `k`. -/
def eraseKey {α : Type} : List (Nat × α) → Nat → List (Nat × α)
  | [], _ => []
  | (k', v') :: rest, k => if k' = k then rest else (k', v') :: eraseKey rest k

/-- The keys are strictly rising: the one canonical form. -/
abbrev KeysRising {α : Type} (l : List (Nat × α)) : Prop := l.Pairwise fun a b => a.1 < b.1

/-! ### Records by index -/

def State.record? (s : State) (i : Nat) : Option Record := lookupKey s.table.records i

def State.setRecord (s : State) (i : Nat) (r : Record) : State :=
  { s with table := { s.table with records := insertKey s.table.records i r } }

/-- Change the record at an index, if it is in use. -/
def State.modRecord (s : State) (i : Nat) (f : Record → Record) : State :=
  match s.record? i with
  | some r => s.setRecord i (f r)
  | none => s

/-- Class row of a record. -/
def State.classOf (s : State) (r : Record) : ClassRow := s.tables.cls r.cls

/-! ### Zones by number -/

def State.zone (s : State) (z : Fin 32) : Zone := s.zones[z.val]

def State.setZone (s : State) (z : Fin 32) (x : Zone) : State := { s with zones := s.zones.set z.val x }

/-! ### Whether the part runs (R184, R185, R189) -/

/-- A freeze or a reset quiesce is in progress. -/
def State.stopping (s : State) : Bool := s.retention.monitor == .freezing || s.retention.quiesce.isSome

/-- The part stands still: frozen, waiting for the supply, or at the end of a quiesce. -/
def State.halted (s : State) : Bool :=
  s.retention.monitor == .frozen || s.retention.monitor == .restorePending ||
    (match s.retention.quiesce with
      | some q => q.stopped
      | none => false)

/-- Blocks may still do work. -/
def State.running (s : State) : Bool := !s.halted

/-- Blocks may take new work. -/
def State.live (s : State) : Bool := !s.halted && !s.stopping

/-! ### Time (00, section 4.2) -/

/-- The present monotonic time. -/
def State.now (s : State) : Nat := s.retention.monotonic

/-- Wall time: monotonic time plus the offset, modulo 2^32. -/
def State.wallTime (s : State) : Nat := (s.retention.monotonic + s.retention.offset) % 2 ^ 32

/-! ### Counts -/

def State.port (s : State) : LinkPort → PortState
  | .floor => s.floor
  | .plant => s.plant

def State.setPort (s : State) (p : LinkPort) (x : PortState) : State :=
  match p with
  | .floor => { s with floor := x }
  | .plant => { s with plant := x }

/-- One more on a 16-bit saturating count (R18, R23, R61). -/
def bump16 (n : Nat) : Nat := satAdd Config.max16 n 1

/-- One more on a 32-bit saturating count (R123, R151). -/
def bump32 (n : Nat) : Nat := satAdd Config.max32 n 1

/-- Increment the fault counter of a code (R151). -/
def State.countFault (s : State) (f : FaultCode) : State :=
  { s with faultCounters := s.faultCounters.set f.index.val (bump32 s.faultCounters[f.index.val]) }

/-! ### The check word (R10) -/

/-- One data bit of the CRC-16: feedback, shift, generator 0x1021. -/
def crcBit (rem : CheckWord) (b : Bool) : CheckWord :=
  if rem.msb != b then (rem <<< 1) ^^^ 0x1021 else rem <<< 1

/-- One byte of the CRC-16, most significant bit first. -/
def crcByte (rem : CheckWord) (x : Byte) : CheckWord :=
  crcBit (crcBit (crcBit (crcBit (crcBit (crcBit (crcBit (crcBit rem (x.getLsbD 7)) (x.getLsbD 6)) (x.getLsbD 5))
    (x.getLsbD 4)) (x.getLsbD 3)) (x.getLsbD 2)) (x.getLsbD 1)) (x.getLsbD 0)

/-- The check word over bytes in line order, preset to 0xFFFF. -/
def crc16 (bs : List Byte) : CheckWord := bs.foldl crcByte 0xFFFF

/-- The bytes of a telegram that its check covers: header, length and body in line order. -/
def Telegram.bytes (t : Telegram) : List Byte :=
  t.dest :: t.source :: t.kind :: t.seq :: BitVec.ofNat 8 t.body.length :: t.body

def Telegram.checkWord (t : Telegram) : CheckWord := crc16 t.bytes

/-- The characters of a telegram on the line: the address character, the data characters, the check word high byte first
(R15). -/
def Telegram.chars (t : Telegram) : List LinkChar :=
  { mark := true, data := t.dest } ::
    ((t.bytes.tail ++ [t.checkWord.extractLsb' 8 8, t.checkWord.extractLsb' 0 8]).map fun b =>
      { mark := false, data := b })

/-! ### The Notice Queue (R167, R168) -/

/-- A notice arrives: appended, or placed with the oldest low notice displaced, or discarded. -/
def NoticeQueue.arrive (q : NoticeQueue) (n : Notice) : NoticeQueue :=
  if q.entries.length < Config.noticeCap then { q with entries := q.entries ++ [n] }
  else
    { q with
      entries := if q.entries.any (fun e => !e.high) then q.entries.eraseP (fun e => !e.high) ++ [n] else q.entries
      lost := satAdd Config.max8 q.lost 1 }

/-- The four bytes of the extra field (02, section 2.6). -/
def Extra.bytes : Extra → List Byte
  | .absent => absentBytes 4
  | .policy v => BitVec.ofNat 8 v.code :: absentBytes 3
  | .copy kind seq v => [kind, seq, BitVec.ofNat 8 v.code, 0xFF]
  | .seconds n => beBytes 4 n

/-- Lost field of a NOTICE at its choice (R170). -/
def NoticeQueue.lostField (q : NoticeQueue) (n : Notice) : Nat := satAdd Config.max8 n.startLost q.lost

/-- The NOTICE telegram formed at the choice of an entry (R170). -/
def NoticeQueue.telegram (q : NoticeQueue) (part : PartConfig) (n : Notice) : Telegram :=
  { dest := part.supervisor
    source := part.own
    kind := kindNotice
    seq := q.nextSeq
    body :=
      [n.kind.code, boolByte n.high] ++ beBytes 4 n.wallTime ++ beBytes 1 (q.lostField n) ++ optIdBytes n.carrier ++
        optBytes 1 (n.zone.map Fin.val) ++ optByte n.station ++ optBytes 1 n.percent ++ optByte n.reason ++
        n.extra.bytes }

/-- The queue once an entry has been chosen: the oldest of its priority removed, the sequence stepped, the lost count 0. -/
def NoticeQueue.take (q : NoticeQueue) (high : Bool) : NoticeQueue :=
  { entries := q.entries.eraseP (fun e => e.high == high), lost := 0, nextSeq := q.nextSeq + 1 }

/-- The oldest notice of a priority (R169). -/
def NoticeQueue.oldest? (q : NoticeQueue) (high : Bool) : Option Notice := q.entries.find? fun e => e.high == high

/-! ### The transmitters' choices (R15 to R17) -/

/-- A transmitter goes to SENDING with a telegram. -/
def PortState.send (p : PortState) (src : TxSource) (t : Telegram) : PortState :=
  { p with tx := .sending src t.chars }

/-- The Floor transmitter sends the head of the floor answer queue. -/
def State.sendAnswer (s : State) (t : Telegram) (rest : List Telegram) : State :=
  { s with floor := s.floor.send .answer t, answers := rest, floorPref := .relay }

/-- The Floor transmitter sends the head of the downstream relay queue. -/
def State.sendDownRelay (s : State) (t : Telegram) (rest : List Telegram) : State :=
  { s with floor := s.floor.send .downRelay t, downRelay := rest, floorPref := .answer }

/-- The choice of the Floor transmitter (R16); none when no telegram waits. -/
def State.floorChoice? (s : State) : Option State :=
  match s.answers, s.downRelay with
  | [], [] => none
  | a :: as, [] => some (s.sendAnswer a as)
  | [], d :: ds => some (s.sendDownRelay d ds)
  | a :: as, d :: ds =>
    match s.floorPref with
    | .answer => some (s.sendAnswer a as)
    | .relay => some (s.sendDownRelay d ds)

/-- The Plant transmitter sends the oldest notice of a priority, formed at this choice (R170). -/
def State.sendNotice (s : State) (n : Notice) : State :=
  { s with
    plant := s.plant.send .notice (s.notices.telegram s.tables.part n)
    notices := s.notices.take n.high
    plantStreak := 0 }

/-- The Plant transmitter sends the head of the management reply queue. -/
def State.sendReply (s : State) (t : Telegram) (rest : List Telegram) : State :=
  { s with plant := s.plant.send .reply t, replies := rest, plantStreak := 0 }

/-- The Plant transmitter sends the head of the upstream relay queue, with the streak that follows. -/
def State.sendUpRelay (s : State) (t : Telegram) (rest : List Telegram) (streak : Nat) : State :=
  { s with plant := s.plant.send .upRelay t, upRelay := rest, plantStreak := streak }

/-- The normal order of R17: high notice, reply, upstream relay, low notice. -/
def State.plantOrder? (s : State) : Option State :=
  match s.notices.oldest? true with
  | some n => some (s.sendNotice n)
  | none =>
    match s.replies with
    | t :: rest => some (s.sendReply t rest)
    | [] =>
      match s.upRelay, s.notices.oldest? false with
      | t :: rest, some _ => some (s.sendUpRelay t rest (s.plantStreak + 1))
      | t :: rest, none => some (s.sendUpRelay t rest 0)
      | [], some n => some (s.sendNotice n)
      | [], none => none

/-- The choice of the Plant transmitter (R17); none when nothing waits. At a streak of 8 a waiting low notice goes first. -/
def State.plantChoice? (s : State) : Option State :=
  if s.plantStreak = Config.streakLimit then
    match s.notices.oldest? false with
    | some n => some (s.sendNotice n)
    | none => s.plantOrder?
  else s.plantOrder?

/-- An idle Floor transmitter with a telegram waiting makes its choice at once (R15). -/
def State.kickFloor (s : State) : State := if s.floor.tx = .idle then s.floorChoice?.getD s else s

/-- An idle Plant transmitter with a telegram waiting makes its choice at once (R15). -/
def State.kickPlant (s : State) : State := if s.plant.tx = .idle then s.plantChoice?.getD s else s

/-! ### Appending to the queues -/

/-- A notice reaches the Notice Queue (R167); an idle transmitter takes it (log entry 10). -/
def State.post (s : State) (n : Notice) : State := { s with notices := s.notices.arrive n }.kickPlant

/-- Append to the upstream relay queue, which has room. -/
def State.pushUpRelay (s : State) (t : Telegram) : State := { s with upRelay := s.upRelay ++ [t] }.kickPlant

/-- Append to the floor answer queue, which has room. -/
def State.pushAnswer (s : State) (t : Telegram) : State := { s with answers := s.answers ++ [t] }.kickFloor

/-- Append to the downstream relay queue, which has room. -/
def State.pushDownRelay (s : State) (t : Telegram) : State := { s with downRelay := s.downRelay ++ [t] }.kickFloor

/-- Append to the management reply queue, which has room. -/
def State.pushReply (s : State) (t : Telegram) : State := { s with replies := s.replies ++ [t] }.kickPlant

/-- A notice with no start lost value, stamped with the present wall time (R31). -/
def State.notice (s : State) (kind : NoticeKind) (high : Bool) (carrier : Option CarrierId) (zone : Option (Fin 32))
    (station : Option Byte) (percent : Option Nat) (reason : Option Byte) (extra : Extra) : Notice :=
  { kind := kind, high := high, wallTime := s.wallTime, carrier := carrier, zone := zone, station := station,
    percent := percent, reason := reason, extra := extra, startLost := 0 }

/-! ### Telegrams the engine composes (R21, R28 to R30) -/

/-- The annotated relay of a telegram (R28); an absent band is 0xFF. -/
def Telegram.annotated (t : Telegram) (reason : Byte) (band : Option Nat) : Telegram :=
  { t with kind := t.kind + markedOffset, body := t.body ++ reason :: optBytes 1 band }

/-- The REFUSAL of a telegram (R29); the carrier ID is absent for a MALFORMED body. -/
def State.refusal (s : State) (t : Telegram) (id : Option CarrierId) (reason : Byte) : Telegram :=
  { dest := t.source, source := s.tables.part.own, kind := kindRefusal, seq := t.seq,
    body := optIdBytes id ++ [reason, t.kind, t.seq] }

/-- An ANSWER without a record (R30). -/
def State.bareAnswer (s : State) (t : Telegram) (st : AnswerStatus) (id : Option CarrierId) : Telegram :=
  { dest := t.source, source := s.tables.part.own, kind := kindAnswer, seq := t.seq,
    body := st.code :: optIdBytes id ++ absentBytes 9 }

/-- The ANSWER of status OK (R30); the zone is absent in BAKING, EXPIRED and RETIRED, which have no zone part. -/
def State.recordAnswer (s : State) (t : Telegram) (r : Record) (f : Figures) : Telegram :=
  { dest := t.source, source := s.tables.part.own, kind := kindAnswer, seq := t.seq,
    body := AnswerStatus.ok.code :: idBytes r.id ++ beBytes 1 r.state.code ++ beBytes 1 r.cls.val ++ beBytes 1 f.pct ++
      beBytes 2 f.remaining ++ beBytes 2 f.remainingAtRate ++ beBytes 1 r.bakeCount ++
      optBytes 1 (r.zonePart.map fun zp => zp.zone.val) }

/-- The MGMT-REPLY to a request (R33), addressed under R21 with the addresses in force now. -/
def State.mgmtReply (s : State) (source seq op : Byte) (st : MgmtStatus) (data : List Byte) : Telegram :=
  { dest := source, source := s.tables.part.own, kind := kindMgmtReply, seq := seq, body := op :: st.code :: data }

/-! ### The transmitter stop of a freeze or quiesce (R20, R171) -/

/-- Both transmitters stop; the rest of a telegram being sent is not sent. -/
def State.stopTransmitters (s : State) : State :=
  { s with floor := { s.floor with tx := .stopped }, plant := { s.plant with tx := .stopped } }

/-- The notice loss: notices queued plus the lost count, at most 255. -/
def NoticeQueue.loss (q : NoticeQueue) : Nat := satAdd Config.max8 q.entries.length q.lost

/-- The transmitters stop and the notice loss goes into the freeze record (R185 step 3). -/
def State.recordStop (s : State) : State :=
  { s.stopTransmitters with retention := { s.retention with noticeLoss := s.notices.loss } }

/-- The end of a quiesce: the start may follow (R189). -/
def State.finishQuiesce (s : State) (q : Quiesce) : State :=
  { s.recordStop with
    retention := { s.recordStop.retention with quiesce := some { q with stopped := true } } }

end Sys2Proof.Machine
end

