-- ==== Sys2Proof/Machine/Carriers.lean ====
section
/-! DEFINITION. The Carrier Table (03): placement, lookup, probe, create, delete, hold marks and the closed-carrier ring. -/

namespace Sys2Proof.Machine

/-- Set index of an ID: the sum of its four 16-bit pieces modulo 1,024 (R40). -/
def setIndex (id : CarrierId) : Nat :=
  ((id.extractLsb' 48 16).toNat + (id.extractLsb' 32 16).toNat + (id.extractLsb' 16 16).toNat +
    (id.extractLsb' 0 16).toNat) % Config.setCount

/-- Record indices of the three ways of a set (R41). -/
def waysOf (set : Nat) : List Nat := [set * 3, set * 3 + 1, set * 3 + 2]

/-- Overflow chain of a set, head first. -/
def CarrierTable.chainOf (t : CarrierTable) (set : Nat) : List Nat := (lookupKey t.chains set).getD []

/-- Write the chain of a set; an empty chain is not listed. -/
def CarrierTable.setChain (t : CarrierTable) (set : Nat) (l : List Nat) : CarrierTable :=
  { t with chains := if l = [] then eraseKey t.chains set else insertKey t.chains set l }

/-- The record at an index, if it is in use and holds the ID. -/
def CarrierTable.holds? (t : CarrierTable) (id : CarrierId) (i : Nat) : Option (Nat × Record) :=
  match lookupKey t.records i with
  | some r => if r.id = id then some (i, r) else none
  | none => none

/-- Lookup (R42): ways 0, 1, 2, then the chain from head to tail. -/
def CarrierTable.find? (t : CarrierTable) (id : CarrierId) : Option (Nat × Record) :=
  (waysOf (setIndex id) ++ t.chainOf (setIndex id)).findSome? (t.holds? id)

/-- The lowest-numbered free way of a set. -/
def CarrierTable.freeWay? (t : CarrierTable) (set : Nat) : Option Nat :=
  (waysOf set).find? fun i => (lookupKey t.records i).isNone

/-- Free-record probe (R43): "room". -/
def CarrierTable.room (t : CarrierTable) (id : CarrierId) : Bool :=
  (t.freeWay? (setIndex id)).isSome || !t.poolFree.isEmpty

/-- One more or one fewer record of a class (R53). -/
def CarrierTable.countClass (t : CarrierTable) (c : Fin 16) (f : Nat → Nat) : CarrierTable :=
  { t with classCounts := t.classCounts.set c.val (f t.classCounts[c.val]) }

/-- Place a record (R44) and answer its index; none only when the probe would answer "full". -/
def CarrierTable.create? (t : CarrierTable) (r : Record) : Option (Nat × CarrierTable) :=
  let set := setIndex r.id
  match t.freeWay? set with
  | some i => some (i, { t with records := insertKey t.records i r }.countClass r.cls (· + 1))
  | none =>
    match t.poolFree with
    | i :: rest =>
      let t' := { t with poolFree := rest, records := insertKey t.records i r }
      some (i, (t'.setChain set (t.chainOf set ++ [i])).countClass r.cls (· + 1))
    | [] => none

/-- Free a record (R45): a way where it stands; a chain record unlinked and pushed on the pool free list. -/
def CarrierTable.remove (t : CarrierTable) (i : Nat) (r : Record) : CarrierTable :=
  let t' := { t with records := eraseKey t.records i }.countClass r.cls (· - 1)
  if i < Config.poolBase then t'
  else { t'.setChain (setIndex r.id) ((t.chainOf (setIndex r.id)).erase i) with poolFree := i :: t.poolFree }

/-- Append to the closed-carrier ring, dropping the oldest of 16 (R51). -/
def CarrierTable.appendRing (t : CarrierTable) (e : RingEntry) : CarrierTable :=
  { t with ring := (if t.ring.length < Config.ringCap then t.ring else t.ring.tail) ++ [e] }

/-- Ring search, newest entry first (R52). -/
def CarrierTable.ringFind? (t : CarrierTable) (id : CarrierId) (source seq : Byte) : Option RingEntry :=
  t.ring.reverse.find? fun e => e.id == id && e.source == source && e.seq == seq

/-- Set or clear a hold mark. -/
def State.setHold (s : State) (i : Nat) (b : Bool) : State := s.modRecord i fun r => { r with held := b }

/-- Free the record at an index, if it is in use. -/
def State.removeRecord (s : State) (i : Nat) : State :=
  match s.record? i with
  | some r => { s with table := s.table.remove i r }
  | none => s

/-- A telegram repeats the transaction in a memory: source, sequence and kind all equal (R50). -/
def RepeatMemory.matches (m : RepeatMemory) (t : Telegram) : Bool :=
  m.source == t.source && m.seq == t.seq && m.kind == t.kind

end Sys2Proof.Machine
end

