-- ==== Sys2Proof/Machine/Batches.lean ====
section
/-! DEFINITION. The Batch Table (09): the open batch of an oven, joining, leaving and the stale deadline. -/

namespace Sys2Proof.Machine

/-- The open batch of an oven, with its number (R155). -/
def State.batchOf? (s : State) (oven : Byte) : Option (Fin 16 × Batch) :=
  (List.finRange 16).findSome? fun b =>
    match s.batches[b.val] with
    | some x => if x.oven = oven then some (b, x) else none
    | none => none

/-- The free batch record of lowest number. -/
def State.freeBatch? (s : State) : Option (Fin 16) :=
  (List.finRange 16).find? fun b => (s.batches[b.val]).isNone

/-- The bake checks of a BAKE-IN, in order (R157). -/
def State.bakeInFault? (s : State) (r : Record) (tier : Nat) (oven : Byte) : Option FaultCode :=
  if h : tier < 4 then
    if (s.classOf r).bake[tier] = 0 then some .bakeTier
    else
      match s.batchOf? oven with
      | some (_, b) =>
        if b.tier.val ≠ tier then some .tierMismatch
        else if Config.batchMembers ≤ b.members.length then some .ovenFull
        else none
      | none => if s.freeBatch?.isNone then some .batchFull else none
  else some .bakeTier

/-- Write a batch record; a waiting stale request of it is withdrawn (R163). -/
def State.setBatch (s : State) (b : Fin 16) (x : Option Batch) : State :=
  { s with batches := s.batches.set b.val x, batchWait := s.batchWait.filter fun q => q != b }

/-- Steps 3 to 5 of R158: longest required seconds, stale deadline, stale-posted. -/
def Batch.extend (b : Batch) (required t : Nat) : Batch :=
  { b with
    longest := max b.longest required
    deadline := satAdd Config.max32 t (3 * max b.longest required)
    stalePosted := false }

/-- A carrier joins the batch of its oven, or opens one (R158). -/
def State.joinBatch (s : State) (i : Nat) (bp : BakePart) (required : Nat) : State :=
  match s.batchOf? bp.oven with
  | some (b, x) => s.setBatch b (some ({ x with members := x.members ++ [i] }.extend required bp.entered))
  | none =>
    match s.freeBatch? with
    | some b =>
      s.setBatch b (some ({ oven := bp.oven, tier := bp.tier, openTime := bp.entered, members := [i], longest := 0,
                            deadline := 0, stalePosted := false : Batch }.extend required bp.entered))
    | none => s

/-- A member leaves its oven's list; the batch is freed when the list empties (R162, R164). -/
def State.leaveBatch (s : State) (oven : Byte) (i : Nat) : State :=
  match s.batchOf? oven with
  | some (b, x) =>
    if x.members.erase i = [] then s.setBatch b none
    else { s with batches := s.batches.set b.val (some { x with members := x.members.erase i }) }
  | none => s

/-- The stale timer of a batch has reached its deadline (R163). -/
def Batch.overdue (b : Batch) (now : Nat) : Bool := decide (b.deadline ≤ now) && !b.stalePosted

/-- A batch number, where it names one of the 16 records. -/
def batch? (n : Nat) : Option (Fin 16) := if h : n < 16 then some ⟨n, h⟩ else none

/-- An overdue batch makes its stale request, unless one is already waiting. -/
def State.staleExpiry (s : State) (b : Fin 16) : State :=
  match s.batches[b.val] with
  | some x => if x.overdue s.now ∧ b ∉ s.batchWait then { s with batchWait := s.batchWait ++ [b] } else s
  | none => s

/-- Percent band of the record at an index. -/
def State.pctOf? (s : State) (i : Nat) : Option Nat :=
  (s.record? i).map fun r => (s.classOf r).pct r.consumed

/-- Post BAKE-STALE naming the head member and set stale-posted (R163). -/
def State.postStale (s : State) (b : Fin 16) (x : Batch) : State :=
  let s' := { s with batches := s.batches.set b.val (some { x with stalePosted := true }) }
  let head := x.members.head?
  s'.post (s'.notice .bakeStale false ((head.bind s'.record?).map Record.id) none (some x.oven)
    (head.bind s'.pctOf?) none .absent)

/-- STALE_TIMER_EXPIRY (R163). The timers take no expiry while the part stops or stands (R165). -/
def execStaleTimerExpiry (batch : Nat) (s : State) : Host.Outcome State Fault Refusal :=
  match batch? batch with
  | some b => .next (if s.live then s.staleExpiry b else s)
  | none => .fault .noSuchBatch

/-- BAKE_STALE (R163). -/
def execBakeStale (batch : Nat) (s : State) : Host.Outcome State Fault Refusal :=
  match batch? batch with
  | some b =>
    if s.live ∧ b ∈ s.batchWait then
      let s' := { s with batchWait := s.batchWait.filter fun q => q != b }
      match s.batches[b.val] with
      | some x => .next (s'.postStale b x)
      | none => .next s'
    else .next s
  | none => .fault .noSuchBatch

end Sys2Proof.Machine
end

