-- ==== Sys2Proof/Machine/Policy.lean ====
section
/-! DEFINITION. The Policy Matcher (07): lookup key, range checkers, the two passes, their combination and effects. -/

namespace Sys2Proof.Machine

/-! ### The lookup key (R110 to R113) -/

/-- The class thermometer: positions 1 to `c` set, position 1 lowest (R113). -/
def thermometer (c : Fin 16) : Nat := 2 ^ c.val - 1

/-- The key with pass bit, range bits and spare clear; without a target zone the zone field holds 31 (R111). -/
def KeyFields.key (f : KeyFields) : Key :=
  BitVec.ofNat 56
    (f.kind.index * 2 ^ 51 + f.stationClass.code * 2 ^ 48 + f.station.toNat * 2 ^ 40 +
      ((f.zone.map Fin.val).getD 31) * 2 ^ 35 + f.zoneKind.code * 2 ^ 33 + f.zone.isSome.toNat * 2 ^ 32 +
      f.state.code * 2 ^ 29 + thermometer f.cls * 2 ^ 14 + f.warnIssued.toNat * 2 ^ 5 + f.eligible.toNat * 2 ^ 4 +
      f.created.toNat * 2 ^ 3 + f.zoneStale.toNat * 2 ^ 2 + f.watchMode.toNat * 2 ^ 1)

/-! ### Range checkers (R114, R115) -/

/-- Inclusive bounds on an unsigned source. -/
def CheckerRow.inRange (c : CheckerRow) (v : Nat) : Bool := decide (c.low.toNat ≤ v) && decide (v ≤ c.high.toNat)

/-- Inclusive bounds on the signed temperature. -/
def CheckerRow.inSignedRange (c : CheckerRow) (v : Int) : Bool :=
  decide (c.low.toInt ≤ v) && decide (v ≤ c.high.toInt)

/-- The range bit of a checker; 0 when its source is unavailable. -/
def CheckerRow.bit (c : CheckerRow) (v : Sources) : Bool :=
  match c.source with
  | .pct => c.inRange v.pct
  | .remaining => c.inRange v.remaining
  | .dwell => c.inRange v.dwell
  | .bakeCount => c.inRange v.bakeCount
  | .zoneRh => v.zoneRh.any c.inRange
  | .zoneTemp => v.zoneTemp.any c.inSignedRange
  | .cls => c.inRange v.cls
  | .station => c.inRange v.station

/-- The range bits as a number, checker `j` at bit `j`. -/
def rangeBits (t : Tables) (v : Sources) : Nat := bitsValue (t.checkers.toList.map fun c => c.bit v)

/-- The key of a pass: range bits at bits 6..13, pass bit at bit 55. -/
def LookupRequest.passKey (q : LookupRequest) (t : Tables) (passB : Bool) : Key :=
  q.key ||| BitVec.ofNat 56 (rangeBits t q.sources * 2 ^ 6 + passB.toNat * 2 ^ 55)

/-! ### The two passes (R116, R118, R119) -/

/-- An entry matches a key: valid, and equal wherever its mask holds 1. -/
def RuleRow.hits (r : RuleRow) (k : Key) : Bool := r.valid && ((k ^^^ r.value) &&& r.mask == 0)

/-- The valid entry of lowest index that matches, or the pass default. -/
def Tables.passHit (t : Tables) (k : Key) : PassHit :=
  match (List.finRange 128).find? fun i => (t.rules[i.val]).hits k with
  | some i => .entry i
  | none => .dflt

/-- The action of a hit as it stands. -/
def Tables.actionOf (t : Tables) (passB : Bool) : PassHit → Action
  | .entry i => (t.rules[i.val]).action
  | .dflt => if passB then t.defaults[1] else t.defaults[0]

/-- The verdict and reason of the two outcomes together (R119). -/
def combine (a b : Action) : Verdict × Byte :=
  if a.final then (a.verdict, a.reason)
  else if !b.worst then (b.verdict, b.reason)
  else if a.verdict.code < b.verdict.code then (b.verdict, b.reason)
  else (a.verdict, a.reason)

/-! ### Effects of an outcome (R120 to R123) -/

/-- Count the use of an action (R123). -/
def State.countRule (s : State) (a : Action) : State :=
  if a.count then
    { s with ruleCounters := s.ruleCounters.set a.counter.val (bump32 s.ruleCounters[a.counter.val]) }
  else s

/-- The POLICY notice of an action (R120). -/
def State.policyNotice (s : State) (q : LookupRequest) (a : Action) (v : Verdict) : State :=
  match a.notice with
  | .off => s
  | p =>
    s.post (s.notice .policy (p == .high) (some q.carrier) q.zone (some q.station) (some q.sources.pct)
      (some a.reason) (.policy v))

/-- Clear the copy-once mark of the action of a hit (R121). -/
def Tables.clearCopyOnce (t : Tables) (passB : Bool) : PassHit → Tables
  | .entry i =>
    let r := t.rules[i.val]
    { t with rules := t.rules.set i.val { r with action := { r.action with copyOnce := false } } }
  | .dflt =>
    if passB then { t with defaults := t.defaults.set 1 { t.defaults[1] with copyOnce := false } }
    else { t with defaults := t.defaults.set 0 { t.defaults[0] with copyOnce := false } }

/-- The COPY notice of an action, with the copy-once mark cleared where copy is clear (R121). -/
def State.copyNotice (s : State) (q : LookupRequest) (passB : Bool) (h : PassHit) (a : Action) (v : Verdict) : State :=
  if a.copy || a.copyOnce then
    let s' := s.post (s.notice .copy false (some q.carrier) q.zone (some q.station) (some q.sources.pct)
      (some a.reason) (.copy q.kind q.seq v))
    if a.copy then s' else { s' with tables := s'.tables.clearCopyOnce passB h }
  else s

/-- The counter, POLICY notice and COPY notice of one pass's outcome. Its action is read here, so that a mark cleared in
pass A is seen clear in pass B. -/
def State.applyPass (s : State) (q : LookupRequest) (passB : Bool) (h : PassHit) (v : Verdict) : State :=
  let a := s.tables.actionOf passB h
  ((s.countRule a).policyNotice q a v).copyNotice q passB h a v

/-- A lookup (R118): both passes, their combination, then their effects in the order of R122. -/
def State.lookupPolicy (s : State) (q : LookupRequest) : State × Verdict × Byte :=
  let ha := s.tables.passHit (q.passKey s.tables false)
  let hb := s.tables.passHit (q.passKey s.tables true)
  let v := combine (s.tables.actionOf false ha) (s.tables.actionOf true hb)
  ((s.applyPass q false ha v.1).applyPass q true hb v.1, v)

end Sys2Proof.Machine
end

