-- ==== Sys2Proof/Machine/ZoneEngine.lean ====
section
/-! DEFINITION. The Zone Engine (04, 06): clocks, fusion, severity grid, watch lists, pops, attach, relist and the writes that
act on zones. -/

namespace Sys2Proof.Machine

/-! ### The clocks (R66 steps 1 to 4) -/

/-- Charge W for `e` seconds at a rate, saturating (R66 step 2). -/
def Zone.addWear (x : Zone) (rate e : Nat) : Zone := { x with wear := satAdd Config.max48 x.wear (rate * e) }

/-- Charge D for `e` seconds if the dry condition is on, saturating (R66 step 3). -/
def Zone.addDry (x : Zone) (e : Nat) : Zone := if x.dryOn then { x with dry := satAdd Config.max32 x.dry e } else x

/-- Steps 1 to 4 of an advance to time `t`. -/
def Zone.charge (x : Zone) (t : Nat) : Zone :=
  { (x.addWear x.rate (t - x.lastAdvance)).addDry (t - x.lastAdvance) with lastAdvance := t }

/-! ### Freshness, fusion and the severity grid (R63 to R65) -/

/-- A slot is fresh: valid and no older than the staleness limit (R63). -/
def Slot.fresh (x : Slot) (now limit : Nat) : Bool := x.valid && decide (now - x.arrival ≤ limit)

/-- Fusion of one quantity over the fresh slots: the median of three, the higher of two, or the one (R63). -/
def fuse {α : Type} [Max α] [Min α] : List α → Option α
  | [] => none
  | [a] => some a
  | [a, b] => some (max a b)
  | [a, b, c] => some (max (min a b) (min (max a b) c))
  | _ => none

/-- RH band: thresholds at or below the value (R64). -/
def Tables.rhBand (t : Tables) (rh : Nat) : Nat := (t.rhThresholds.toList.filter fun x => x ≤ rh).length

/-- Temperature band, compared as signed numbers (R64). -/
def Tables.tempBand (t : Tables) (temp : Int) : Nat := (t.tempThresholds.toList.filter fun x => x ≤ temp).length

/-- Grid cell of a pair of bands; the bands of `rhBand` and `tempBand` always name one. -/
def Tables.cell (t : Tables) (rhBand tempBand : Nat) : GridCell :=
  if h : rhBand * 6 + tempBand < 48 then t.grid[rhBand * 6 + tempBand] else { rate := 0, dry := false }

/-- The conditions fused from the fresh slots, with their bands; none when the zone is stale. -/
def Zone.fusedNow (x : Zone) (t : Tables) (limit now : Nat) : Option Fused :=
  let fresh := x.slots.toList.filter fun sl => sl.fresh now limit
  match fuse (fresh.map Slot.temp), fuse (fresh.map Slot.rh) with
  | some temp, some rh => some { temp := temp, rh := rh, rhBand := t.rhBand rh, tempBand := t.tempBand temp }
  | _, _ => none

/-- Step 5 of an advance: freshness, fusion, bands, effective rate and dry condition. -/
def Zone.refresh (x : Zone) (t : Tables) (cfg : ZoneConfig) (now : Nat) : Zone :=
  match x.fusedNow t cfg.staleness now with
  | some f =>
    let cell := t.cell f.rhBand f.tempBand
    { x with fused := some f, stale := false, rate := cell.rate, dryOn := cfg.kind == .dry && cell.dry }
  | none => { x with fused := none, stale := true, rate := cfg.fallback, dryOn := false }

/-- The conditions a grid write finds (R73; log entry 46): fused from the fresh slots, or, where every reading has aged since
the last advance, as they stood with their bands computed anew. -/
def Zone.fusedAtGrid (x : Zone) (t : Tables) (limit now : Nat) : Option Fused :=
  match x.fusedNow t limit now with
  | some f => some f
  | none => x.fused.map fun f => { f with rhBand := t.rhBand f.rh, tempBand := t.tempBand f.temp }

/-- Step 5 of an advance at a grid write: bands, rate and dry condition from the new grid; the stale flag stays (R73). -/
def Zone.regrid (x : Zone) (t : Tables) (cfg : ZoneConfig) (now : Nat) : Zone :=
  match x.stale, x.fusedAtGrid t cfg.staleness now with
  | false, some f =>
    let cell := t.cell f.rhBand f.tempBand
    { x with fused := some f, rate := cell.rate, dryOn := cfg.kind == .dry && cell.dry }
  | _, _ => x

/-- A zone set stale with its slots invalid, at the given rate (R72, R77). -/
def Zone.setStale (x : Zone) (fallback : Nat) : Zone :=
  { x with slots := Vector.replicate 3 .invalid, fused := none, stale := true, rate := fallback, dryOn := false }

/-! ### Watch lists (R93, R95) -/

/-- Insertion from the tail: behind every record whose key is less than or equal to the new key (R95). -/
def insertWatch (keyOf : Nat → Nat) (i k : Nat) (l : List Nat) : List Nat :=
  (l.reverse.dropWhile fun j => k < keyOf j).reverse ++ i :: (l.reverse.takeWhile fun j => k < keyOf j).reverse

/-- Watch key the record at an index holds. -/
def State.keyOf (s : State) (i : Nat) : Nat :=
  match s.record? i with
  | some r =>
    match r.zonePart with
    | some zp => zp.key
    | none => 0
  | none => 0

/-- Take a record out of a zone's list. -/
def State.unlist (s : State) (z : Fin 32) (i : Nat) : State :=
  s.setZone z { s.zone z with watch := (s.zone z).watch.erase i }

/-- Compute the watch key of a record that has a zone part and insert it into its zone's list (R83, R95). -/
def State.enlist (s : State) (i : Nat) : State :=
  match s.record? i with
  | some r =>
    match r.zonePart with
    | some zp =>
      let key := r.watchKey (s.classOf r) zp.stamp
      let s' := s.setRecord i { r with zonePart := some { zp with key := key } }
      s'.setZone zp.zone { s'.zone zp.zone with watch := insertWatch s'.keyOf i key (s'.zone zp.zone).watch }
    | none => s
  | none => s

/-! ### Crossings (R84, R85, R102) -/

/-- Apply the crossing now due, if any, and post its notice. -/
def State.crossOnce (s : State) (i : Nat) (station : Option Byte) : State :=
  match s.record? i with
  | some r =>
    match r.cross? (s.classOf r) with
    | some (r', kind) =>
      (s.setRecord i r').post (s.notice kind kind.crossingHigh (some r.id) (r.zonePart.map ZonePart.zone) station
        (some ((s.classOf r).pct r'.consumed)) none .absent)
    | none => s
  | none => s

/-- Apply every crossing now due: at most warn point, budget and end of grace (R84). -/
def State.crossAll (s : State) (i : Nat) (station : Option Byte) : State :=
  ((s.crossOnce i station).crossOnce i station).crossOnce i station

/-- Settle a carrier of a list and apply its crossings. When one was due, or `rekey` asks for it, the record is taken out
of the list, and inserted again with a new key if it is still in its zone (R97, R100). -/
def State.settleCross (s : State) (i : Nat) (station : Option Byte) (rekey : Bool) : State :=
  match s.record? i with
  | some r =>
    match r.zonePart with
    | some zp =>
      let r' := r.settle (s.zone zp.zone).wear
      let s' := (s.setRecord i r').crossAll i station
      if rekey || (r'.cross? (s.classOf r')).isSome then (s'.unlist zp.zone i).enlist i else s'
    | none => s
  | none => s

/-! ### Pop (R100, R101) -/

/-- The walk of a pop over the list as it stood: each record whose key W has reached is dealt with, held records are
passed over, and the walk ends at the first key above W. -/
def popWalk (z : Fin 32) : List Nat → State → State
  | [], s => s
  | i :: rest, s =>
    match s.record? i with
    | some r =>
      match r.zonePart with
      | some zp =>
        if zp.key ≤ (s.zone z).wear then
          popWalk z rest (if r.held then s else s.settleCross i none true)
        else s
      | none => popWalk z rest s
    | none => popWalk z rest s

/-- Step 6 of an advance. -/
def State.pop (s : State) (z : Fin 32) : State := popWalk z (s.zone z).watch s

/-! ### Advance (R66, R67) -/

/-- Steps 1 to 4 of an advance; the zone's waiting timer request is withdrawn (R68). -/
def State.chargeZone (s : State) (z : Fin 32) : State :=
  { s.setZone z ((s.zone z).charge s.now) with zoneWait := s.zoneWait.filter fun q => q != .timer z }

/-- Step 5 of an advance, with the notice of a change of the stale flag; `station` is the source of an accepted sample. -/
def State.refreshZone (s : State) (z : Fin 32) (station : Option Byte) : State :=
  let old := s.zone z
  let new := old.refresh s.tables (s.tables.zone z) s.now
  let s' := s.setZone z new
  if old.stale = new.stale then s'
  else if new.stale then s'.post (s'.notice .zoneStale true none (some z) none none none .absent)
  else s'.post (s'.notice .zoneFresh false none (some z) station none none .absent)

/-- Steps 5 and 6 of an advance. -/
def State.refreshPop (s : State) (z : Fin 32) (station : Option Byte) : State := (s.refreshZone z station).pop z

/-- An advance of a zone to the present time; a zone of kind NONE is not advanced (R66). -/
def State.advance (s : State) (z : Fin 32) : State :=
  if (s.tables.zone z).configured then (s.chargeZone z).refreshPop z none else s

/-- The zones a request names, ascending, each once (R69). -/
def zonesNamed (a b : Option (Fin 32)) : List (Fin 32) :=
  match a, b with
  | none, none => []
  | some x, none => [x]
  | none, some y => [y]
  | some x, some y => if x = y then [x] else if x < y then [x, y] else [y, x]

def State.advanceAll (s : State) (zs : List (Fin 32)) : State := zs.foldl State.advance s

/-! ### Attach and relist (R94, R96, R97) -/

/-- The zone part and dry part of a record entering a zone (R94 steps 1 and 2, R39, R87). The key is written by `enlist`. -/
def Record.enterZone (r : Record) (z : Fin 32) (x : Zone) (kind : ZoneKind) (c : ClassRow) (now : Nat) : Record :=
  let same := (r.zonePart.map ZonePart.zone) == some z
  let entered := match r.zonePart with
    | some zp => if zp.zone = z then zp.entered else now
    | none => now
  let r' := { r with zonePart := some { zone := z, stamp := x.wear, key := 0, entered := entered } }
  if kind = .dry then
    if same && r.dryPart.isSome then r' else { r' with dryPart := some x.dry, eligible := r.judgeEligible c }
  else { r' with dryPart := none, eligible := false }

/-- Attach a record that stands in no list to a zone (R94). -/
def State.attach (s : State) (i : Nat) (z : Fin 32) (station : Option Byte) : State :=
  match s.record? i with
  | some r =>
    let c := s.classOf r
    let r' := (r.enterZone z (s.zone z) (s.tables.zone z).kind c s.now).rejudge c
    ((s.setRecord i r').crossAll i station).enlist i
  | none => s

/-- Credit of a carrier that leaves a DRY zone for another zone or none (R96 step 3). -/
def State.creditLeaving (s : State) (r : Record) (newZone : Option (Fin 32)) : Record :=
  match r.zonePart with
  | some zp =>
    if r.state = .dry ∧ newZone ≠ some zp.zone then r.takeCredit (s.classOf r) (s.zone zp.zone).dry else r
  | none => r

/-- A commit relist with a transition, the advances already made (R96 steps 2 to 6). -/
def State.relistTo (s : State) (i : Nat) (newState : CarrierState) (newZone : Option (Fin 32))
    (station : Option Byte) : State :=
  match s.record? i with
  | some r =>
    let settled := match r.zonePart with
      | some zp => r.settle (s.zone zp.zone).wear
      | none => r
    let left := s.creditLeaving settled newZone
    let s' := match r.zonePart with
      | some zp => s.unlist zp.zone i
      | none => s
    match newZone with
    | some z => (s'.setRecord i { left with state := newState }).attach i z station
    | none => s'.setRecord i ({ left.leaveZone with state := newState }.rejudgeWarn (s.classOf r))
  | none => s

/-- A relist without a transition, the advances already made (R97). -/
def State.relistStay (s : State) (i : Nat) (station : Option Byte) : State := s.settleCross i station false

/-! ### Unlink (R99) -/

/-- Zone of the zone part of the record at an index. -/
def State.zoneOf? (s : State) (i : Nat) : Option (Fin 32) :=
  match s.record? i with
  | some r => r.zonePart.map ZonePart.zone
  | none => none

/-- Advance the record's zone, passing over the record itself, and take it out of its list (R57, R99; log entry 37). -/
def State.unlinkRecord (s : State) (i : Nat) : State :=
  match s.zoneOf? i with
  | some z => ((s.setHold i true).advance z).unlist z i
  | none => s

/-! ### Sample intake (R61, R62) -/

/-- Stored temperature of an accepted sample (R26). -/
def clampTemp (t : Int) : Int := max (-400) (min 1250 t)

/-- Stored RH of an accepted sample (R26). -/
def clampRh (rh : Nat) : Nat := min 1000 rh

/-- The zone and slot of an AMBIENT that passes R61. -/
def State.sampleTarget? (s : State) (t : Telegram) (zone : Nat) : Option (Fin 32 × Fin 3) :=
  match zone? zone with
  | some z =>
    let slot := (byteAt t.body 1).toNat
    if h : slot < 3 then
      if (s.tables.station t.source).cls = .sensor ∧ (s.tables.zone z).configured then some (z, ⟨slot, h⟩) else none
    else none
  | none => none

/-- An accepted sample: an advance with the slot written between steps 4 and 5 (R62). -/
def State.acceptSample (s : State) (z : Fin 32) (slot : Fin 3) (t : Telegram) : State :=
  let s' := s.chargeZone z
  let x := s'.zone z
  let reading : Slot :=
    { temp := clampTemp (tempAt t.body 2), rh := clampRh (natAt t.body 4 2), arrival := s.now, valid := true }
  (s'.setZone z { x with slots := x.slots.set slot.val reading }).refreshPop z (some t.source)

/-- One more on the ambient reject count (R61). -/
def State.rejectAmbient (s : State) : State := { s with ambientRejects := bump16 s.ambientRejects }

/-! ### Rekey (R105 to R107) -/

/-- Settle a record of the rekey chain and attach it again to its zone (R106). -/
def State.rekeyRecord (s : State) (z : Fin 32) (i : Nat) : State :=
  (s.modRecord i fun r => r.settle (s.zone z).wear).attach i z none

/-- The record at an index is one the rekey takes out. -/
def State.selected (s : State) (sel : Record → Bool) (i : Nat) : Bool :=
  match s.record? i with
  | some r => sel r
  | none => false

/-- Rekey of one zone: the selected members are taken out in list order and attached again one by one. -/
def State.rekeyZone (s : State) (sel : Record → Bool) (z : Fin 32) : State :=
  let chain := (s.zone z).watch.filter (s.selected sel)
  let s' := s.setZone z { s.zone z with watch := (s.zone z).watch.filter fun i => !s.selected sel i }
  chain.foldl (fun a i => a.rekeyRecord z i) s'

/-- A class write with its rekey (R105). -/
def State.classRekey (s : State) (c : Fin 16) (row : ClassRow) : State :=
  let s1 := s.advanceAll s.tables.configuredZones
  let s2 := { s1 with tables := { s1.tables with classes := s1.tables.classes.set c.val row } }
  s.tables.configuredZones.foldl (fun a z => a.rekeyZone (fun r => r.cls == c) z) s2

/-! ### Writes of zones and grid (R72, R73) -/

/-- A zone's configuration becomes another: the steps of R72 that follow the charge under the old kind, up to step 5. The
tables already hold the new row. -/
def State.zoneChange (s : State) (z : Fin 32) (old new : ZoneConfig) : State :=
  match old.configured, new.configured with
  | true, true => s
  | true, false => s.setZone z ((s.zone z).setStale new.fallback)
  | false, true => s.setZone z { (s.zone z).setStale new.fallback with lastAdvance := s.now }
  | false, false => s

/-- A zone configuration write (R72). -/
def State.zoneWrite (s : State) (z : Fin 32) (row : ZoneConfig) : State :=
  let old := s.tables.zone z
  let s1 := if old.configured then s.chargeZone z else s
  let s2 := { s1 with tables := { s1.tables with zones := s1.tables.zones.set z.val row } }
  let s3 := s2.zoneChange z old row
  if old.configured && row.configured then s3.refreshPop z none else s3

/-- Steps 5 and 6 of one zone at a grid write, which posts no ZONE-STALE and no ZONE-FRESH (R73). -/
def State.regridPop (s : State) (z : Fin 32) : State :=
  (s.setZone z ((s.zone z).regrid s.tables (s.tables.zone z) s.now)).pop z

/-- A write of the severity grid (R73); `f` replaces the row. -/
def State.gridChange (s : State) (f : Tables → Tables) : State :=
  let zs := s.tables.configuredZones
  let s1 := zs.foldl State.chargeZone s
  let s2 := { s1 with tables := f s1.tables }
  zs.foldl State.regridPop s2

end Sys2Proof.Machine
end

