-- ==== Sys2Proof/Machine/Engine.lean ====
section
/-! DEFINITION. Transaction processing (08): take, checks, settlement, lookup, commit, placing; bake commits (09). -/

namespace Sys2Proof.Machine

/-! ### Checks and transitions -/

/-- Whether a zone kind suits a transaction kind (R137, step 8). NONE suits none. -/
def TxKind.suits : TxKind → ZoneKind → Bool
  | .store, zk => zk == .dry
  | .issue, zk => zk == .floor || zk == .line
  | .move, zk => zk == .floor || zk == .line
  | .mount, zk => zk == .line
  | _, zk => zk != .unset

/-- Step 8 for a zone field (R137). -/
def Tables.zoneFault? (t : Tables) (k : TxKind) (zone : Nat) : Option FaultCode :=
  match zone? zone with
  | none => some .zoneUnknown
  | some z =>
    if !(t.zone z).configured then some .zoneUnknown
    else if !k.suits (t.zone z).kind then some .zoneKind
    else none

/-- The kind names a zone in its body (R111). -/
def TxKind.namesZone : TxKind → Bool
  | .bakeIn | .close => false
  | _ => true

/-- The table of R139. An OPEN has no record to judge. -/
def TxKind.transition : TxKind → CarrierState → Transition
  | .open_, _ => .byZone
  | .store, .dry => .zoned .dry
  | .store, .exposed => .zoned .dry
  | .store, .expired => .noChange
  | .store, _ => .illegal
  | .issue, .dry => .zoned .exposed
  | .issue, .expired => .noChange
  | .issue, _ => .illegal
  | .move, .exposed => .zoned .exposed
  | .move, .expired => .noChange
  | .move, _ => .illegal
  | .mount, .dry => .zoned .mounted
  | .mount, .exposed => .zoned .mounted
  | .mount, .expired => .noChange
  | .mount, _ => .illegal
  | .demount, .mounted => .byZone
  | .demount, .overrun => .expire
  | .demount, .expired => .noChange
  | .demount, _ => .illegal
  | .bakeIn, .dry => .bakeIn
  | .bakeIn, .exposed => .bakeIn
  | .bakeIn, .expired => .bakeIn
  | .bakeIn, _ => .illegal
  | .bakeOut, .baking => .bakeOut
  | .bakeOut, _ => .illegal
  | .split, .baking => .illegal
  | .split, .retired => .illegal
  | .split, _ => .split
  | .close, .baking => .illegal
  | .close, _ => .deleted

/-- DRY in a zone of kind DRY, EXPOSED otherwise (R139). -/
def stateInZone (k : ZoneKind) : CarrierState := if k = .dry then .dry else .exposed

/-- State of a SPLIT's child for the parent's state and the child's zone kind (R139). -/
def childState (parent : CarrierState) (k : ZoneKind) : CarrierState :=
  if parent = .overrun ∨ parent = .expired then .expired else stateInZone k

/-- The outcome at the commit reading (R142). A fault has no transition; HOLD is refused in ENFORCE alone. -/
def fixOutcome (fault : Option FaultCode) (verdict : Option (Verdict × Byte)) (m : Mode) : CommitOutcome :=
  match fault with
  | some f =>
    if m = .enforce then { outcome := .refused, reason := some f.code, transition := false }
    else { outcome := .relayedMarked, reason := some f.code, transition := false }
  | none =>
    match verdict with
    | some (.mark, r) => { outcome := .relayedMarked, reason := some r, transition := true }
    | some (.hold, r) =>
      if m = .enforce then { outcome := .refused, reason := some r, transition := false }
      else { outcome := .relayedMarked, reason := some r, transition := true }
    | _ => { outcome := .relayed, reason := none, transition := true }

/-! ### Moving the engine -/

/-- The engine goes to a phase with its working values. -/
def State.engineTo (s : State) (p : EnginePhase) (w : Work) : State :=
  { s with engine := { s.engine with phase := p, work := some w } }

/-- The engine goes to a phase in which its request waits for the Zone Engine (R69). -/
def State.engineAsks (s : State) (p : EnginePhase) (w : Work) : State :=
  { s.engineTo p w with zoneWait := s.zoneWait ++ [.engine] }

/-- PLACING with a composed output. -/
def State.placeOutput (s : State) (w : Work) (q : OutputQueue) (t : Telegram) : State :=
  s.engineTo .placing { w with output := some { queue := q, tel := t } }

/-- IDLE, holding no telegram. -/
def State.engineIdle (s : State) : State := { s with engine := { s.engine with phase := .idle, work := none } }

/-- A fault ends the checking (R131). -/
def State.faulted (s : State) (w : Work) (f : FaultCode) : State := s.engineTo .commitOpen { w with fault := some f }

/-- A fault found at the commit fixes the outcome again with the same commit reading (R149). -/
def Work.refault (w : Work) (f : FaultCode) : Work :=
  { w with fault := some f, outcome := some (fixOutcome (some f) none (w.commitMode.getD .setup)) }

/-- Take the request at the head of the Zone Engine's queue. -/
def State.takeZoneRequest (s : State) : State := { s with zoneWait := s.zoneWait.tail }

/-- The engine's own request stands at the head of the Zone Engine's queue (R69). -/
def State.engineTurn (s : State) : Bool := s.running && s.zoneWait.head? == some .engine

/-! ### Take (R22, R126) -/

/-- Resolve a zone field: 0xFF stands for the source's home zone, and stays 255 where there is none (R25). -/
def Tables.resolveZone (t : Tables) (source zone : Byte) : Nat :=
  if zone = 0xFF then ((t.station source).home.map Fin.val).getD 255 else zone.toNat

/-- Offset of the zone field of a telegram, if its kind has one. -/
def zoneOffsetOf (kind : Byte) : Option Nat :=
  if kind = kindAmbient then some 0 else (TxKind.ofByte? kind).bind TxKind.zoneOffset?

/-- The working values at the take (R127). -/
def State.newWork (s : State) (t : Telegram) : Work :=
  { tel := t
    stationClass := (s.tables.station t.source).cls
    zone := match zoneOffsetOf t.kind with
      | some off => s.tables.resolveZone t.source (t.body.getD off 0)
      | none => 255
    held := none, created := none, childFound := false, copy := none, fault := none, settled := none, figures := none,
    conditions := none, lookup := none, verdict := none, commitMode := none, outcome := none, commitTime := 0,
    output := none }

/-- Classification of a telegram just taken (R22), with steps 1 and 2 of the checks (R132). -/
def State.classify (s : State) (t : Telegram) : State :=
  let w := s.newWork t
  if t.dest = s.tables.part.own then
    if t.kind = kindQuery then
      if queryMalformed t.body then
        (s.countFault .malformed).placeOutput w .answer (s.bareAnswer t .malformed none)
      else s.engineTo .lookup w
    else (s.countFault .notPermitted).placeOutput w .answer (s.bareAnswer t .notPermitted none)
  else
    match TxKind.ofByte? t.kind with
    | some k =>
      if w.stationClass = .unassigned then s.faulted w .stationUnknown
      else if k.malformed t.body then s.faulted w .malformed
      else s.engineTo .lookup w
    | none =>
      if t.kind = kindAmbient then
        if t.body.length = ambientBodySize then s.engineAsks .offering w
        else s.rejectAmbient.placeOutput w .upRelay t
      else s.placeOutput w .upRelay t

/-- TRANSACTION_TAKE (R126): in IDLE, with a telegram queued, no pause and no freeze begun. -/
def execTransactionTake (s : State) : Host.Outcome State Fault Refusal :=
  match s.floor.queue with
  | t :: rest =>
    if s.live ∧ s.engine.phase = .idle ∧ s.engine.pause = false then
      .next ({ s with floor := { s.floor with queue := rest } }.classify t)
    else .next s
  | [] => .next s

/-- SAMPLE_INTAKE (R61, R62): accepted or rejected, the AMBIENT is then relayed unchanged (R129). -/
def execSampleIntake (s : State) : Host.Outcome State Fault Refusal :=
  match s.engine.phase, s.engine.work with
  | .offering, some w =>
    if s.live ∧ s.engineTurn then
      let s' := s.takeZoneRequest
      let s'' := match s'.sampleTarget? w.tel w.zone with
        | some (z, slot) => s'.acceptSample z slot w.tel
        | none => s'.rejectAmbient
      .next (s''.placeOutput w .upRelay w.tel)
    else .next s
  | _, _ => .next s

/-! ### Lookup, repeat and ring (R133 to R135) -/

/-- Band of a record as it stands. -/
def State.bandOf (s : State) (c : Fin 16) (consumed : Nat) : Nat := (s.tables.cls c).pct consumed

/-- The carrier ID a composed telegram reports: absent for a MALFORMED body (R24). -/
def reportedId (t : Telegram) : Option CarrierId :=
  match TxKind.ofByte? t.kind with
  | some k => if k.malformed t.body then none else some (carrierIdOf t)
  | none => none

/-- Compose the output of an outcome (R142, R150) and go to PLACING. -/
def State.compose (s : State) (w : Work) (o : RepeatOutcome) (reason : Option Byte) (band : Option Nat) : State :=
  match o with
  | .relayed => s.placeOutput w .upRelay w.tel
  | .relayedMarked => s.placeOutput w .upRelay (w.tel.annotated (reason.getD 0xFF) band)
  | .refused => s.placeOutput w .answer (s.refusal w.tel (reportedId w.tel) (reason.getD 0xFF))

/-- Re-issue a repeat from its stored outcome and reason with the repeat reading of the mode (R135). A stored REFUSED is a
REFUSAL in ENFORCE and an annotated relay otherwise. -/
def State.reissue (s : State) (w : Work) (o : RepeatOutcome) (reason : Option Byte) (band : Option Nat) : State :=
  s.compose { w with commitMode := some s.mode, outcome := some { outcome := o, reason := reason, transition := false } }
    (if o = .refused ∧ s.mode ≠ .enforce then .relayedMarked else o) reason band

/-- The repeat memory of a record, when the telegram repeats it (R50). -/
def repeatOf? (m : Option RepeatMemory) (t : Telegram) : Option RepeatMemory :=
  match m with
  | some x => if x.matches t then some x else none
  | none => none

/-- Steps 3 to 5 for an OPEN: its lookup does not hold (R47). -/
def State.lookupOpen (s : State) (w : Work) : State :=
  match s.table.find? (carrierIdOf w.tel) with
  | none => s.engineAsks .settling w
  | some (_, r) =>
    let c : OpenCopy := { cls := r.cls, consumed := r.consumed, memory := r.memory }
    let w' := { w with copy := some c }
    match repeatOf? c.memory w.tel with
    | some m => s.reissue w' m.outcome m.reason (some (s.bandOf c.cls c.consumed))
    | none => s.faulted w' .duplicateId

/-- Steps 4 and 5 for a carrier found and held at index `i`; a repeat releases it (R135). The child ID of a SPLIT is looked up in
the same step as its parent, with no other request between the two (DESIGN CHOICE, log entry 56). -/
def State.lookupFound (s : State) (w : Work) (k : TxKind) (i : Nat) (r : Record) : State :=
  let w' := { w with held := some i, childFound := k == .split && (s.table.find? (childIdOf w.tel)).isSome }
  match repeatOf? r.memory w.tel with
  | some m => s.reissue { w' with held := none } m.outcome m.reason (some (s.bandOf r.cls r.consumed))
  | none =>
    let s' := s.setHold i true
    if w'.childFound then s'.faulted w' .duplicateId else s'.engineAsks .settling w'

/-- Steps 3 to 5 of the checks of a transaction. -/
def State.lookupCarrier (s : State) (w : Work) (k : TxKind) : State :=
  if k = .open_ then s.lookupOpen w
  else
    match s.table.find? (carrierIdOf w.tel) with
    | some (i, r) => s.lookupFound w k i r
    | none => if k = .close then s.engineTo .ring w else s.faulted w .unknownCarrier

/-- The lookup of an own-address QUERY (R130). -/
def State.lookupQuery (s : State) (w : Work) : State :=
  match s.table.find? (carrierIdOf w.tel) with
  | some (i, _) => (s.setHold i true).engineAsks .settling { w with held := some i }
  | none =>
    (s.countFault .unknownCarrier).placeOutput w .answer
      (s.bareAnswer w.tel .unknownCarrier (some (carrierIdOf w.tel)))

/-- CARRIER_LOOKUP (R42). -/
def execCarrierLookup (s : State) : Host.Outcome State Fault Refusal :=
  match s.engine.phase, s.engine.work with
  | .lookup, some w =>
    if s.running then
      match TxKind.ofByte? w.tel.kind with
      | some k => .next (s.lookupCarrier w k)
      | none => .next (s.lookupQuery w)
    else .next s
  | _, _ => .next s

/-- RING_SEARCH (R52). -/
def execRingSearch (s : State) : Host.Outcome State Fault Refusal :=
  match s.engine.phase, s.engine.work with
  | .ring, some w =>
    if s.running then
      match s.table.ringFind? (carrierIdOf w.tel) w.tel.source w.tel.seq with
      | some e => .next (s.reissue w e.outcome e.reason none)
      | none => .next (s.faulted w .unknownCarrier)
    else .next s
  | _, _ => .next s

/-! ### Settlement and the checks after it (R136 to R140) -/

/-- The zone a body names, for a kind that names one (R111, R136). -/
def Work.bodyZone? (w : Work) : Option (Fin 32) :=
  match TxKind.ofByte? w.tel.kind with
  | some k => if k.namesZone then zone? w.zone else none
  | none => none

/-- The target zone: the body's zone, or the zone the carrier stands in after settlement (R111). -/
def Work.target? (w : Work) : Option (Fin 32) :=
  match TxKind.ofByte? w.tel.kind with
  | some k => if k.namesZone then zone? w.zone else (w.settled.bind Record.zonePart).map ZonePart.zone
  | none => (w.settled.bind Record.zonePart).map ZonePart.zone

/-- What the settle request returns of a zone of a kind (R70): fused values absent when stale. -/
def Zone.conditions (x : Zone) (kind : ZoneKind) : Conditions :=
  { stale := x.stale, temp := x.fused.map Fused.temp, rh := x.fused.map Fused.rh, rate := x.rate, kind := kind }

/-- The figures after settlement (R136): of the settled record at its zone's rate, or of an OPEN's initial consumed. -/
def State.figuresOf (s : State) (w : Work) : Option Figures :=
  match w.settled with
  | some r =>
    some ((s.classOf r).figures r.state r.consumed ((r.zonePart.map fun zp => (s.zone zp.zone).rate).getD 0))
  | none =>
    if TxKind.ofByte? w.tel.kind = some .open_ then
      (s.tables.openClass? (openClassOf w.tel)).map fun c =>
        (s.tables.cls c).figures .exposed ((s.tables.cls c).initialConsumed (openMinutesOf w.tel))
          ((w.bodyZone?.map fun z => (s.zone z).rate).getD 0)
    else none

/-- The settle request (R70): advances in ascending zone order, settlement and crossings of the held carrier, and what is
returned. -/
def State.settleEngine (s : State) (w : Work) : State × Work :=
  let carrierZone := w.held.bind s.zoneOf?
  let s1 := s.advanceAll (zonesNamed carrierZone w.bodyZone?)
  let s2 := match w.held with
    | some i => s1.settleCross i (some w.tel.source) false
    | none => s1
  let w1 := { w with settled := w.held.bind s2.record? }
  let w2 := { w1 with conditions := w1.target?.map fun z => (s2.zone z).conditions (s2.tables.zone z).kind }
  (s2, { w2 with figures := s2.figuresOf w2 })

/-- Step 11 for a carrier (R157, R159). -/
def State.bakeFault? (s : State) (w : Work) (k : TxKind) (r : Record) : Option FaultCode :=
  match k with
  | .bakeIn => s.bakeInFault? r (tierOf w.tel) w.tel.source
  | .bakeOut =>
    match r.bakePart with
    | some bp => if bp.oven = w.tel.source then none else some .notInOven
    | none => some .notInOven
  | _ => none

/-- Steps 10 and 11 for the settled carrier (R139, R140). -/
def State.carrierFault? (s : State) (w : Work) (k : TxKind) : Option FaultCode :=
  match w.settled with
  | some r => if k.transition r.state = .illegal then some .illegalTransition else s.bakeFault? w k r
  | none => none

/-- Steps 7 to 11, in order (R137 to R140). -/
def State.settledFault? (s : State) (w : Work) (k : TxKind) : Option FaultCode :=
  if (k = .bakeIn ∨ k = .bakeOut) ∧ (s.tables.station w.tel.source).cls ≠ .oven then some .stationKind
  else
    match (if k.namesZone then s.tables.zoneFault? k w.zone else none) with
    | some f => some f
    | none =>
      if k = .open_ ∧ (s.tables.openClass? (openClassOf w.tel)).isNone then some .classUnknown
      else s.carrierFault? w k

/-! ### The decision reading and the lookup request (R110 to R114, R128) -/

/-- Kind of the target zone, as step 8 found it; NONE without a target zone (R111; log entry 18). -/
def Work.targetKind (w : Work) : ZoneKind := (w.conditions.map Conditions.kind).getD .unset

/-- State and class a key describes (R112). An OPEN's class is the class of its body, which step 9 found below 16. -/
def Work.keyCarrier (w : Work) : CarrierState × Fin 16 :=
  match w.settled with
  | some r => (r.state, r.cls)
  | none => (stateInZone w.targetKind, Fin.ofNat 16 (openClassOf w.tel))

/-- The fields of the key (R110 to R113). -/
def State.keyFields (s : State) (w : Work) (k : TxKind) : KeyFields :=
  { kind := k
    stationClass := (s.tables.station w.tel.source).cls
    station := w.tel.source
    zone := w.target?
    zoneKind := w.targetKind
    state := w.keyCarrier.1
    cls := w.keyCarrier.2
    warnIssued := (w.settled.map Record.warnIssued).getD false
    eligible := (w.settled.map Record.eligible).getD false
    created := k == .open_ || k == .split
    zoneStale := w.target?.isSome && (w.conditions.map Conditions.stale).getD false
    watchMode := s.mode == .watch }

/-- Dwell minutes of a settled carrier (R114). -/
def State.dwell (s : State) (w : Work) : Nat :=
  match w.settled.bind Record.zonePart with
  | some zp => min Config.max16 ((s.now - zp.entered) / 60)
  | none => 0

/-- The eight source values (R114). -/
def State.sourcesOf (s : State) (w : Work) : Sources :=
  { pct := (w.figures.map Figures.pct).getD 0
    remaining := (w.figures.map Figures.remaining).getD 0
    dwell := s.dwell w
    bakeCount := (w.settled.map Record.bakeCount).getD 0
    zoneRh := w.conditions.bind Conditions.rh
    zoneTemp := w.conditions.bind Conditions.temp
    cls := w.keyCarrier.2.val
    station := w.tel.source.toNat }

/-- The lookup asked of the matcher (R110). -/
def State.lookupRequest (s : State) (w : Work) (k : TxKind) : LookupRequest :=
  { key := (s.keyFields w k).key, sources := s.sourcesOf w, carrier := carrierIdOf w.tel, zone := w.target?,
    station := w.tel.source, kind := w.tel.kind, seq := w.tel.seq }

/-- All checks passed: the decision reading (R128, R141). -/
def State.decisionReading (s : State) (w : Work) (k : TxKind) : State :=
  if s.mode = .setup then s.engineTo .commitOpen { w with verdict := some (.mark, reasonUnchecked) }
  else s.engineTo .deciding { w with lookup := some (s.lookupRequest w k) }

/-- What follows the settle request of a transaction: a fault, the probe of step 12, or the decision. -/
def State.afterSettle (s : State) (w : Work) (k : TxKind) : State :=
  match s.settledFault? w k with
  | some f => s.faulted w f
  | none => if k = .open_ ∨ k = .split then s.engineTo .probe w else s.decisionReading w k

/-- The ANSWER of a QUERY, composed once its hold is released (R130). -/
def State.answerQuery (s : State) (w : Work) : State :=
  match w.held, w.settled, w.figures with
  | some i, some r, some f =>
    (s.setHold i false).placeOutput { w with held := none } .answer (s.recordAnswer w.tel r f)
  | _, _, _ => s.placeOutput w .answer (s.bareAnswer w.tel .unknownCarrier (some (carrierIdOf w.tel)))

/-- SETTLE_REQUEST (R70, R136). -/
def execSettleRequest (s : State) : Host.Outcome State Fault Refusal :=
  match s.engine.phase, s.engine.work with
  | .settling, some w =>
    if s.engineTurn then
      let (s', w') := s.takeZoneRequest.settleEngine w
      match TxKind.ofByte? w.tel.kind with
      | some k => .next (s'.afterSettle w' k)
      | none => .next (s'.answerQuery w')
    else .next s
  | _, _ => .next s

/-- The new ID of an OPEN or of a SPLIT's child. -/
def newIdOf (t : Telegram) (k : TxKind) : CarrierId := if k = .split then childIdOf t else carrierIdOf t

/-- FREE_RECORD_PROBE (R43, R140). -/
def execFreeRecordProbe (s : State) : Host.Outcome State Fault Refusal :=
  match s.engine.phase, s.engine.work with
  | .probe, some w =>
    if s.running then
      match TxKind.ofByte? w.tel.kind with
      | some k => .next (if s.table.room (newIdOf w.tel k) then s.decisionReading w k else s.faulted w .tableFull)
      | none => .next s
    else .next s
  | _, _ => .next s

/-- POLICY_LOOKUP (R118). -/
def execPolicyLookup (s : State) : Host.Outcome State Fault Refusal :=
  match s.engine.phase, s.engine.work with
  | .deciding, some w =>
    if s.running then
      match w.lookup with
      | some q =>
        let (s', v) := s.lookupPolicy q
        .next (s'.engineTo .commitOpen { w with verdict := some v })
      | none => .next s
    else .next s
  | _, _ => .next s

/-! ### Commit (R143) -/

/-- The first work of a commit once its outcome is fixed (R143, R147). -/
def State.firstCommitPhase (s : State) (w : Work) (o : CommitOutcome) : EnginePhase :=
  if o.transition then
    match TxKind.ofByte? w.tel.kind with
    | some .open_ => .commitCreate
    | some .close => if (w.held.bind s.zoneOf?).isSome then .commitUnlink else .commitDelete
    | _ => .commitRelist
  else if w.held.isSome then .commitRelist
  else .commitClose

/-- Write the memory of a held record and release it (R48, R49). -/
def State.rememberRelease (s : State) (w : Work) (o : CommitOutcome) (i : Option Nat) : State :=
  match i with
  | some i =>
    s.modRecord i fun r =>
      { r with
        memory := some { source := w.tel.source, seq := w.tel.seq, kind := w.tel.kind, outcome := o.outcome,
                         reason := o.reason }
        held := false }
  | none => s

/-- The ring entry of a CLOSE that deleted its record (R51). -/
def State.ringAppend (s : State) (w : Work) (o : CommitOutcome) : State :=
  if TxKind.ofByte? w.tel.kind = some .close ∧ o.transition then
    { s with
      table := s.table.appendRing
        { id := carrierIdOf w.tel, source := w.tel.source, seq := w.tel.seq, outcome := o.outcome, reason := o.reason } }
  else s

/-- Count the transaction's fault, if it has one (R151). -/
def State.countWorkFault (s : State) (w : Work) : State :=
  match w.fault with
  | some f => s.countFault f
  | none => s

/-- Steps 4 to 7 of R143: memories, ring, fault counter, release and composition. -/
def State.closeCommit (s : State) (w : Work) : State :=
  match w.outcome with
  | some o =>
    let s1 := (s.rememberRelease w o w.held).rememberRelease w o w.created
    ((s1.ringAppend w o).countWorkFault w).compose { w with held := none, created := none } o.outcome o.reason
      (w.figures.map Figures.pct)
  | none => s

/-- Step 1 of R143: the commit reading fixes the outcome, and the first request is sent. A transaction that has nothing to
send closes at once (log entry 12). -/
def State.openCommit (s : State) (w : Work) : State :=
  let o := fixOutcome w.fault w.verdict s.mode
  let w' := { w with commitMode := some s.mode, outcome := some o }
  match s.firstCommitPhase w o with
  | .commitClose => s.closeCommit w'
  | .commitRelist => s.engineAsks .commitRelist w'
  | .commitUnlink => s.engineAsks .commitUnlink w'
  | p => s.engineTo p w'

/-- COMMIT (R143): it opens the commit, and closes it when its requests have ended. -/
def execCommit (s : State) : Host.Outcome State Fault Refusal :=
  match s.engine.phase, s.engine.work with
  | .commitOpen, some w => .next (if s.running then s.openCommit w else s)
  | .commitClose, some w => .next (if s.running then s.closeCommit w else s)
  | _, _ => .next s

/-- The record an OPEN creates (R89, R145). Until the relist attaches it, it shows the state that the zone's present kind would
give it, and no zone part: R145 names neither (DESIGN CHOICE, log entry 52). -/
def State.openRecord (s : State) (w : Work) (c : Fin 16) : Record :=
  { id := carrierIdOf w.tel, cls := c, state := stateInZone ((w.bodyZone?.map fun z => (s.tables.zone z).kind).getD .unset),
    consumed := (s.tables.cls c).initialConsumed (openMinutesOf w.tel), bakeCount := 0, warnIssued := false,
    eligible := false, lastBakeShort := false, memory := none, zonePart := none, dryPart := none, bakePart := none,
    held := true }

/-- CREATE of an OPEN (R44, R145), with its class judged again (R149). -/
def State.createOpen (s : State) (w : Work) : State :=
  match s.tables.openClass? (openClassOf w.tel) with
  | some c =>
    match s.table.create? (s.openRecord w c) with
    | some (i, t) => { s with table := t }.engineAsks .commitRelist { w with created := some i }
    | none => s.engineTo .commitClose (w.refault .tableFull)
  | none => s.engineTo .commitClose { w.refault .classUnknown with figures := none }

/-- A class write is past its count check and its row is not yet replaced (R178). -/
def State.rekeyBegun (s : State) : Bool :=
  match s.agent.phase with
  | .rekeying _ _ _ => true
  | _ => false

/-- CREATE (R44); it waits while a class write takes its course (R178). -/
def execCreate (s : State) : Host.Outcome State Fault Refusal :=
  match s.engine.phase, s.engine.work with
  | .commitCreate, some w => .next (if s.running && !s.rekeyBegun then s.createOpen w else s)
  | _, _ => .next s

/-! ### Commit relist (R96 to R98, R144 to R149) -/

/-- A relist without a transition for the record held (R97). -/
def State.relistHeld (s : State) (w : Work) : State :=
  match w.held with
  | some i => s.relistStay i (some w.tel.source)
  | none => s

/-- Advance the zone of the held carrier and a zone the transition attaches to, in ascending order (R96 step 1). -/
def State.advanceCommit (s : State) (w : Work) (z : Option (Fin 32)) : State :=
  s.advanceAll (zonesNamed (w.held.bind s.zoneOf?) z)

/-- A zone fault found at the commit: the outcome is fixed again and the relist makes no transition (R149). -/
def State.commitFault (s : State) (w : Work) (f : FaultCode) : State :=
  (s.relistHeld w).engineTo .commitClose (w.refault f)

/-- A relist without a transition, then the close. -/
def State.commitStay (s : State) (w : Work) : State :=
  ((s.advanceCommit w none).relistHeld w).engineTo .commitClose w

/-- STORE, ISSUE, MOVE, MOUNT and DEMOUNT into the body's zone (R144), the zone judged again (R149). `st` is the new state;
`none` stands for DRY or EXPOSED by the zone's kind. -/
def State.commitZoned (s : State) (w : Work) (k : TxKind) (st : Option CarrierState) : State :=
  let s1 := s.advanceCommit w (zone? w.zone)
  match w.held, zone? w.zone, s1.tables.zoneFault? k w.zone with
  | some i, some z, none =>
    (s1.relistTo i (st.getD (stateInZone (s1.tables.zone z).kind)) (some z) (some w.tel.source)).engineTo
      .commitClose w
  | _, _, some f => s1.commitFault w f
  | _, _, none => s1.commitFault w .zoneUnknown

/-- DEMOUNT from OVERRUN: EXPIRED with no zone (R144). -/
def State.commitExpire (s : State) (w : Work) : State :=
  let s1 := s.advanceCommit w none
  match w.held with
  | some i => (s1.relistTo i .expired none (some w.tel.source)).engineTo .commitClose w
  | none => s1.engineTo .commitClose w

/-- The relist of an OPEN (R98, R145): the new record is attached to the body's zone. A zone fault frees the record again,
so that the carrier stays absent as the checks found it (R142; log entry 13). -/
def State.commitOpened (s : State) (w : Work) : State :=
  let s1 := s.advanceCommit w (zone? w.zone)
  match w.created, zone? w.zone, s1.tables.zoneFault? .open_ w.zone with
  | some i, some z, none =>
    ((s1.modRecord i fun r => { r with state := stateInZone (s1.tables.zone z).kind }).attach i z
      (some w.tel.source)).engineTo .commitClose w
  | some i, _, f => (s1.removeRecord i).engineTo .commitClose { w.refault (f.getD .zoneUnknown) with created := none }
  | none, _, f => s1.engineTo .commitClose (w.refault (f.getD .zoneUnknown))

/-- The child of a SPLIT, as the parent stands after its settlement (R89, R146). -/
def childRecord (p : Record) (id : CarrierId) (st : CarrierState) : Record :=
  { p with
    id := id, state := st, eligible := false, memory := none, zonePart := none, dryPart := none, bakePart := none,
    held := true }

/-- The relist of a SPLIT (R98, R146): the parent settled, then the child created and attached, or EXPIRED with no zone. -/
def State.commitSplit (s : State) (w : Work) : State :=
  let s1 := (s.advanceCommit w (zone? w.zone)).relistHeld w
  match w.held.bind s1.record? with
  | none => s1.engineTo .commitClose w
  | some p =>
    let st := childState p.state (((zone? w.zone).map fun z => (s1.tables.zone z).kind).getD .unset)
    match (if st = .expired then none else s1.tables.zoneFault? .split w.zone) with
    | some f => s1.engineTo .commitClose (w.refault f)
    | none =>
      if !(s1.classOf p).configured then s1.engineTo .commitClose (w.refault .classUnknown)
      else
        match s1.table.create? (childRecord p (childIdOf w.tel) st) with
        | none => s1.engineTo .commitClose (w.refault .tableFull)
        | some (i, t) =>
          let s2 := { s1 with table := t }
          let s3 := match st, zone? w.zone with
            | .expired, _ => s2
            | _, some z => s2.attach i z (some w.tel.source)
            | _, none => s2
          s3.engineTo .commitClose { w with created := some i }

/-- The relist of a BAKE-IN (R148, R158): BAKING with no zone, and the bake part. -/
def State.commitBakeIn (s : State) (w : Work) : State :=
  let s1 := s.advanceCommit w none
  match w.held with
  | some i =>
    let s2 := s1.relistTo i .baking none (some w.tel.source)
    let bp : BakePart :=
      { oven := w.tel.source, tier := Fin.ofNat 4 (tierOf w.tel), entered := s.now,
        preState := (w.settled.map Record.state).getD .expired }
    (s2.modRecord i fun r => { r with bakePart := some bp }).engineTo .commitJoin { w with commitTime := s.now }
  | none => s1.engineTo .commitClose w

/-- The notice of a bake outcome (R161); `z` is the destination zone. -/
def State.bakeNotice (s : State) (w : Work) (r : Record) (o : BakeOutcome) (z : Option (Fin 32)) (baked : Nat) : State :=
  match o with
  | .complete => s
  | .retired => s.post (s.notice .retired true (some r.id) none (some w.tel.source) (some 0) none .absent)
  | .short | .shortExpired =>
    s.post (s.notice .bakeShort false (some r.id) (if o.zoned then z else none) (some w.tel.source)
      (some ((s.classOf r).pct r.consumed)) none (.seconds baked))

/-- The relist of a BAKE-OUT (R148, R160): outcome, notice, and the attach of a carrier given a zone state. The destination zone
is advanced before any of it, so the notices of that advance come before BAKE-SHORT, of which R161 and R103 do not say it
(DEDUCED from R69, log entry 54). -/
def State.commitBakeOut (s : State) (w : Work) : State :=
  match w.held.bind fun i => (s.record? i).bind fun r => r.bakePart.map fun bp => (i, r, bp) with
  | none => s.engineTo .commitClose w
  | some (i, r, bp) =>
    let o := r.bakeOutcome (s.classOf r) bp s.now
    let w' := { w with commitTime := s.now }
    let r' := r.afterBake (s.classOf r) o
    let baked := s.now - bp.entered
    match o with
    | .retired =>
      ((s.setRecord i { r' with state := .retired }).bakeNotice w r' o none baked).engineTo .commitLeave w'
    | .shortExpired =>
      ((s.setRecord i { r' with state := .expired }).bakeNotice w r' o none baked).engineTo .commitLeave w'
    | .complete | .short =>
      let s1 := s.advanceCommit w (zone? w.zone)
      match zone? w.zone, s1.tables.zoneFault? .bakeOut w.zone with
      | some z, none =>
        let s2 := s1.setRecord i { r' with state := stateInZone (s1.tables.zone z).kind }
        ((s2.bakeNotice w r' o (some z) baked).attach i z (some w.tel.source)).engineTo .commitLeave w'
      | _, f => s1.commitFault w' (f.getD .zoneUnknown)

/-- State of the record a transaction holds, as the relist finds it. -/
def State.heldState? (s : State) (w : Work) : Option CarrierState := (w.held.bind s.record?).map Record.state

/-- The relist of a commit, by kind and by the state in which it finds the carrier: a rekey since step 10 has applied its
crossings, and the transition is judged anew (R107; log entry 17). -/
def State.commitRelistStep (s : State) (w : Work) : State :=
  if (w.outcome.map CommitOutcome.transition).getD false then
    match TxKind.ofByte? w.tel.kind with
    | some .open_ => s.commitOpened w
    | some k =>
      match (s.heldState? w).map k.transition with
      | some (.zoned st) => s.commitZoned w k (some st)
      | some .byZone => s.commitZoned w k none
      | some .expire => s.commitExpire w
      | some .bakeIn => s.commitBakeIn w
      | some .bakeOut => s.commitBakeOut w
      | some .split => s.commitSplit w
      | _ => s.commitStay w
    | none => s.commitStay w
  else s.commitStay w

/-- The relist of a SPLIT that asks for its child's create waits for the Zone Engine (R146). -/
def State.splitAsks (s : State) : Bool :=
  match s.engine.phase, s.engine.work with
  | .commitRelist, some w =>
    (w.outcome.map CommitOutcome.transition).getD false && TxKind.ofByte? w.tel.kind == some .split &&
      (s.heldState? w).map TxKind.split.transition == some .split
  | _, _ => false

/-- COMMIT_RELIST (R96); one that creates waits while a class write takes its course (R178). -/
def execCommitRelist (s : State) : Host.Outcome State Fault Refusal :=
  match s.engine.phase, s.engine.work with
  | .commitRelist, some w =>
    .next (if s.engineTurn && !(s.rekeyBegun && s.splitAsks) then s.takeZoneRequest.commitRelistStep w else s)
  | _, _ => .next s

/-- UNLINK (R99). A record that has lost its zone part meanwhile is unlinked from no zone, and none is advanced (log entry 50). -/
def execUnlink (s : State) : Host.Outcome State Fault Refusal :=
  match s.engine.phase, s.engine.work with
  | .commitUnlink, some w =>
    if s.engineTurn then
      match w.held with
      | some i => .next ((s.takeZoneRequest.unlinkRecord i).engineTo .commitDelete w)
      | none => .next (s.takeZoneRequest.engineTo .commitDelete w)
    else .next s
  | _, _ => .next s

/-- DELETE (R45): a deleted record ceases to be held as it is freed (R48). -/
def execDelete (s : State) : Host.Outcome State Fault Refusal :=
  match s.engine.phase, s.engine.work with
  | .commitDelete, some w =>
    if s.running then
      match w.held with
      | some i => .next ((s.removeRecord i).engineTo .commitClose { w with held := none })
      | none => .next (s.engineTo .commitClose w)
    else .next s
  | _, _ => .next s

/-- BATCH_JOIN (R158). -/
def execBatchJoin (s : State) : Host.Outcome State Fault Refusal :=
  match s.engine.phase, s.engine.work with
  | .commitJoin, some w =>
    if s.running then
      match w.held.bind fun i => (s.record? i).bind fun r => r.bakePart.map fun bp => (i, r, bp) with
      | some (i, r, bp) =>
        .next ((s.joinBatch i bp ((s.classOf r).requiredSeconds bp.tier)).engineTo .commitClose w)
      | none => .next (s.engineTo .commitClose w)
    else .next s
  | _, _ => .next s

/-- BATCH_LEAVE (R162). -/
def execBatchLeave (s : State) : Host.Outcome State Fault Refusal :=
  match s.engine.phase, s.engine.work with
  | .commitLeave, some w =>
    if s.running then
      match w.held, w.settled.bind Record.bakePart with
      | some i, some bp => .next ((s.leaveBatch bp.oven i).engineTo .commitClose w)
      | _, _ => .next (s.engineTo .commitClose w)
    else .next s
  | _, _ => .next s

/-! ### Placing (R152, R154) -/

/-- Append an output if its queue has room (R152). -/
def State.tryPlace (s : State) (o : Output) : Option State :=
  match o.queue with
  | .upRelay => if s.upRelay.length < Config.upRelayCap then some (s.pushUpRelay o.tel) else none
  | .answer => if s.answers.length < Config.answerCap then some (s.pushAnswer o.tel) else none

/-- OUTPUT_PLACE (R152). While the part stops, an output whose queue is full is discarded (R154). -/
def execOutputPlace (s : State) : Host.Outcome State Fault Refusal :=
  match s.engine.phase, s.engine.work with
  | .placing, some w =>
    if s.running then
      match w.output with
      | some o =>
        match s.tryPlace o with
        | some s' => .next s'.engineIdle
        | none => .next (if s.stopping then s.engineIdle else s)
      | none => .next s.engineIdle
    else .next s
  | _, _ => .next s

/-! ### Advance timers (R68) -/

/-- A zone's advance timer has expired: configured, and last-advance plus interval reached within the counter's range. -/
def State.timerDue (s : State) (z : Fin 32) : Bool :=
  (s.tables.zone z).configured &&
    decide ((s.zone z).lastAdvance + (s.tables.zone z).interval ≤ Config.max32) &&
    decide ((s.zone z).lastAdvance + (s.tables.zone z).interval ≤ s.now)

/-- ADVANCE_TIMER_EXPIRY (R68): one timer request for each zone at most. -/
def execAdvanceTimerExpiry (zone : Nat) (s : State) : Host.Outcome State Fault Refusal :=
  match zone? zone with
  | some z =>
    if s.live ∧ s.timerDue z ∧ ZoneRequest.timer z ∉ s.zoneWait then
      .next { s with zoneWait := s.zoneWait ++ [.timer z] }
    else .next s
  | none => .fault .noSuchZone

/-- TIMER_REQUEST (R68): the Zone Engine takes the request at the head of its queue. -/
def execTimerRequest (zone : Nat) (s : State) : Host.Outcome State Fault Refusal :=
  match zone? zone with
  | some z =>
    if s.live ∧ s.zoneWait.head? = some (.timer z) then .next (s.takeZoneRequest.advance z) else .next s
  | none => .fault .noSuchZone

end Sys2Proof.Machine
end

