-- ==== Sys2Proof/Machine/Link.lean ====
section
/-! DEFINITION. The station link (01): characters, breaks, telegram assembly, receive queues and the transmitters' steps. -/

namespace Sys2Proof.Machine

/-! ### Bit rate (R2) -/

/-- Reference clocks in one bit period. -/
def LinkSettings.clocksPerBit (l : LinkSettings) : Nat := (if l.x64 then 64 else 16) * (l.divisor.toNat + 1)

/-- Bit periods of one character (R1). -/
def LinkSettings.charBits (l : LinkSettings) : Nat := if l.twoStops then 12 else 11

end Sys2Proof.Machine

namespace Sys2Proof

/-! ### Sampling (R4) -/

/-- The level held by at least two of the three samples. -/
def Samples.majority (x : Samples) : Bool := (x.at7 && x.at8) || (x.at7 && x.at9) || (x.at8 && x.at9)

/-- The three samples do not all agree. -/
def Samples.noisy (x : Samples) : Bool := x.at7 != x.at8 || x.at8 != x.at9

/-- The bits of a character that decide its value: eight data bits, mark bit and stop bit. -/
def LineChar.valueBits (c : LineChar) : List Samples :=
  [c.d0, c.d1, c.d2, c.d3, c.d4, c.d5, c.d6, c.d7, c.mark, c.stop]

/-- A character is noisy when any of its bits is. -/
def LineChar.noisy (c : LineChar) : Bool := c.start.noisy || c.valueBits.any Samples.noisy

/-- The character a receiver reads at the majority values (R4, R5). -/
def LineChar.char (c : LineChar) : Machine.LinkChar :=
  { mark := c.mark.majority
    data := BitVec.ofNat 8 (Machine.bitsValue ([c.d0, c.d1, c.d2, c.d3, c.d4, c.d5, c.d6, c.d7].map Samples.majority)) }

/-- All of data, mark and stop were sampled low (R6). -/
def LineChar.allZero (c : LineChar) : Bool := c.valueBits.all fun x => !x.majority

/-! ### The line of a sent character (R1) -/

/-- A level held for a whole bit period. -/
def Samples.level (b : Bool) : Samples := { at7 := b, at8 := b, at9 := b }

/-- What a receiver samples of a character sent on a clean line: start bit low, data bits least significant first, mark
bit, stop bit high. -/
def Machine.LinkChar.line (c : Machine.LinkChar) : LineChar :=
  { start := .level false
    d0 := .level (c.data.getLsbD 0), d1 := .level (c.data.getLsbD 1), d2 := .level (c.data.getLsbD 2)
    d3 := .level (c.data.getLsbD 3), d4 := .level (c.data.getLsbD 4), d5 := .level (c.data.getLsbD 5)
    d6 := .level (c.data.getLsbD 6), d7 := .level (c.data.getLsbD 7)
    mark := .level c.mark, stop := .level true }

end Sys2Proof

namespace Sys2Proof.Machine

/-! ### Telegram assembly (R9 to R13) -/

/-- A telegram is open: HEADER, BODY or CHECK. -/
def AsmState.isOpen : AsmState → Bool
  | .idle => false
  | _ => true

/-- NONE with skipping set or clear; the timer does not run (R13). -/
def Assembler.none (skipping : Bool) : Assembler := { stage := .idle, skipping := skipping, noisy := false, timer := false }

/-- Capacity of a port's receive queue (R14). -/
def receiveCap : LinkPort → Nat
  | .floor => Config.floorReceiveCap
  | .plant => Config.plantReceiveCap

/-- A good telegram is offered to the receive queue (R14). -/
def PortState.offer (p : PortState) (port : LinkPort) (t : Telegram) : PortState :=
  if p.queue.length < receiveCap port then { p with queue := p.queue ++ [t] }
  else { p with counts := { p.counts with overrun := bump16 p.counts.overrun } }

/-- An address character: it opens a telegram, cutting one that is open (R9, R11). -/
def PortState.address (p : PortState) (dest : Byte) (noisy : Bool) : PortState :=
  { p with
    asm := { stage := .header dest [], skipping := false, noisy := noisy, timer := true }
    counts := if p.asm.stage.isOpen then { p.counts with cut := bump16 p.counts.cut } else p.counts }

/-- The telegram goes on: the stage after a character, with its noisy mark kept. -/
def PortState.goOn (p : PortState) (stage : AsmState) (noisy : Bool) : PortState :=
  { p with asm := { stage := stage, skipping := p.asm.skipping, noisy := p.asm.noisy || noisy, timer := true } }

/-- The second check character (R10). -/
def PortState.checked (p : PortState) (port : LinkPort) (t : Telegram) (received : CheckWord) (noisy : Bool) :
    PortState :=
  if received = t.checkWord then
    let counts := if p.asm.noisy || noisy then { p.counts with noise := bump16 p.counts.noise } else p.counts
    { p with asm := .none false, counts := counts }.offer port t
  else { p with asm := .none false, counts := { p.counts with check := bump16 p.counts.check } }

/-- The length character (R9). -/
def PortState.lengthChar (p : PortState) (hdr : Telegram) (len : Nat) (noisy : Bool) : PortState :=
  if Config.maxReceivedBody < len then
    { p with asm := .none true, counts := { p.counts with length := bump16 p.counts.length } }
  else if len = 0 then p.goOn (.check hdr none) noisy
  else p.goOn (.body hdr len) noisy

/-- A data character (R9, R10, R12). -/
def PortState.data (p : PortState) (port : LinkPort) (b : Byte) (noisy : Bool) : PortState :=
  match p.asm.stage with
  | .idle => if p.asm.skipping then p else { p with counts := { p.counts with stray := bump16 p.counts.stray } }
  | .header dest [source, kind, seq] =>
    p.lengthChar { dest := dest, source := source, kind := kind, seq := seq, body := [] } b.toNat noisy
  | .header dest fields => p.goOn (.header dest (fields ++ [b])) noisy
  | .body hdr len =>
    let hdr' := { hdr with body := hdr.body ++ [b] }
    if hdr'.body.length < len then p.goOn (.body hdr' len) noisy else p.goOn (.check hdr' none) noisy
  | .check t none => p.goOn (.check t (some b)) noisy
  | .check t (some high) => p.checked port t (high ++ b) noisy

/-- A completed character is delivered to the assembler (R5). -/
def PortState.deliver (p : PortState) (port : LinkPort) (c : LinkChar) (noisy : Bool) : PortState :=
  if c.mark then p.address c.data noisy else p.data port c.data noisy

/-- A first stop bit sampled low (R6). -/
def PortState.framingError (p : PortState) (allZero : Bool) : PortState :=
  { p with
    rx := if allZero then .char else .seek
    asm := if p.asm.stage.isOpen then .none true else p.asm
    counts := { p.counts with framing := bump16 p.counts.framing } }

/-- What a receiver in SEEK makes of a start edge and the levels that follow (R5). -/
def PortState.receive (p : PortState) (port : LinkPort) (c : LineChar) : PortState :=
  if c.start.majority then p
  else if c.stop.majority then p.deliver port c.char c.noisy
  else p.framingError c.allZero

/-! ### The commands -/

/-- CHARACTER_RECEIVED (R5). A receiver that is not in SEEK looks for no start edge. -/
def execCharacterReceived (port : LinkPort) (line : LineChar) (s : State) : Host.Outcome State Fault Refusal :=
  if (s.port port).rx = .seek then .next (s.setPort port ((s.port port).receive port line)) else .next s

/-- BREAK (R7). -/
def execBreakDetected (port : LinkPort) (s : State) : Host.Outcome State Fault Refusal :=
  let p := s.port port
  if p.rx = .char then
    .next (s.setPort port { p with rx := .brk, counts := { p.counts with brk := bump16 p.counts.brk } })
  else .next s

/-- BREAK_END (R7). -/
def execBreakEnd (port : LinkPort) (s : State) : Host.Outcome State Fault Refusal :=
  let p := s.port port
  if p.rx = .brk then .next (s.setPort port { p with rx := .seek }) else .next s

/-- ZERO_CHARACTER_LINE_HIGH (R6). -/
def execZeroCharacterLineHigh (port : LinkPort) (s : State) : Host.Outcome State Fault Refusal :=
  let p := s.port port
  if p.rx = .char then .next (s.setPort port { p with rx := .seek }) else .next s

/-- INTER_CHARACTER_TIMEOUT (R13). The timer runs only while the receiver waits for a start edge. -/
def execInterCharacterTimeout (port : LinkPort) (s : State) : Host.Outcome State Fault Refusal :=
  let p := s.port port
  if p.asm.timer ∧ p.rx = .seek then
    .next (s.setPort port
      { p with asm := .none true, counts := { p.counts with timeout := bump16 p.counts.timeout } })
  else .next s

/-- The Floor transmitter is free: its next choice, or IDLE with preference ANSWER (R15, R16). -/
def State.floorFree (s : State) : State :=
  s.floorChoice?.getD { s with floor := { s.floor with tx := .idle }, floorPref := .answer }

/-- The Plant transmitter is free: its next choice, or IDLE (R15, R17). -/
def State.plantFree (s : State) : State :=
  s.plantChoice?.getD { s with plant := { s.plant with tx := .idle } }

/-- The reply of a RESET-PART is being sent as the last thing its quiesce waits for (R189). -/
def State.resetReplySent (s : State) (src : TxSource) : Option Quiesce :=
  match s.retention.quiesce with
  | some q =>
    if q.cause = .command ∧ q.timed ∧ ¬q.stopped ∧ src = .reply ∧ s.replies.length = q.behind then some q else none
  | none => none

/-- TELEGRAM_SENT (R15). -/
def execTelegramSent (port : LinkPort) (s : State) : Host.Outcome State Fault Refusal :=
  match port, (s.port port).tx with
  | .floor, .sending _ _ => .next s.floorFree
  | .plant, .sending src _ =>
    match s.resetReplySent src with
    | some q => .next (s.finishQuiesce q)
    | none => .next s.plantFree
  | _, _ => .next s

/-- STARTING_END (R19): the Floor preference is ANSWER when STARTING is left (R16). -/
def execStartingEnd (port : LinkPort) (s : State) : Host.Outcome State Fault Refusal :=
  match port, (s.port port).tx with
  | .floor, .starting => .next ({ s with floorPref := .answer }).floorFree
  | .plant, .starting => .next s.plantFree
  | _, _ => .next s

end Sys2Proof.Machine
end

