-- ==== Sys2Proof/Machine/Requests.lean ====
section
/-! DEFINITION. Management requests (02, sections 2.7 and 2.8): row images, the decoding of a request, and the data of replies. -/

namespace Sys2Proof.Machine

/-! ### Row images (02, section 2.8) -/

def boolOf? : Nat → Option Bool
  | 0 => some false
  | 1 => some true
  | _ => none

/-- A field within a range, or none. -/
def within? (lo hi v : Nat) : Option Nat := if lo ≤ v ∧ v ≤ hi then some v else none

/-- A number below `n`, or none. -/
def fin? (n v : Nat) : Option (Fin n) := if h : v < n then some ⟨v, h⟩ else none

/-- Zone field that may be 0xFF for none. -/
def homeOf? (v : Nat) : Option (Option (Fin 32)) := if v = 0xFF then some none else (fin? 32 v).map some

def StationRow.image (r : StationRow) : List Byte := beBytes 1 r.cls.code ++ optBytes 1 (r.home.map Fin.val)

def StationRow.parse (b : List Byte) : Option StationRow := do
  let cls ← StationClass.ofCode? (natAt b 0 1)
  let home ← homeOf? (natAt b 1 1)
  return { cls := cls, home := home }

def ZoneConfig.image (r : ZoneConfig) : List Byte :=
  beBytes 1 r.kind.code ++ beBytes 2 r.staleness ++ beBytes 2 r.interval ++ beBytes 2 r.fallback ++ beBytes 2 r.blackout

def ZoneConfig.parse (b : List Byte) : Option ZoneConfig := do
  let kind ← ZoneKind.ofCode? (natAt b 0 1)
  let staleness ← within? 10 3600 (natAt b 1 2)
  let interval ← within? 10 600 (natAt b 3 2)
  let fallback ← within? 0 1023 (natAt b 5 2)
  let blackout ← within? 0 1023 (natAt b 7 2)
  return { kind := kind, staleness := staleness, interval := interval, fallback := fallback, blackout := blackout }

def GridCell.image (r : GridCell) : List Byte := beBytes 2 r.rate ++ beBytes 1 r.dry.toNat

def GridCell.parse (b : List Byte) : Option GridCell := do
  let rate ← within? 0 1023 (natAt b 0 2)
  let dry ← boolOf? (natAt b 2 1)
  return { rate := rate, dry := dry }

/-- Threshold row 0. -/
def rhImage (r : Vector Nat 7) : List Byte := r.toList.flatMap (beBytes 2)

def rhParse (b : List Byte) : Option (Vector Nat 7) :=
  let v := Vector.ofFn fun i : Fin 7 => natAt b (2 * i.val) 2
  if v.toList.all fun x => x ≤ 1000 then some v else none

/-- Threshold row 1. -/
def tempImage (r : Vector Int 5) : List Byte := r.toList.flatMap tempBytes

def tempParse (b : List Byte) : Vector Int 5 := Vector.ofFn fun i : Fin 5 => tempAt b (2 * i.val)

def ClassRow.image (r : ClassRow) : List Byte :=
  beBytes 4 r.floorLife ++ beBytes 1 r.warnPercent ++ beBytes 2 r.grace ++ beBytes 1 r.ratio ++ beBytes 2 r.ceiling ++
    r.bake.toList.flatMap (beBytes 2) ++ beBytes 1 r.bakeLimit

/-- The four bake minutes of a class row image. -/
def bakeParse (b : List Byte) : Option (Vector Nat 4) :=
  let v := Vector.ofFn fun i : Fin 4 => natAt b (10 + 2 * i.val) 2
  if v.toList.all fun x => x ≤ 9999 then some v else none

def ClassRow.parse (b : List Byte) : Option ClassRow := do
  let floorLife ← within? 0 600000 (natAt b 0 4)
  let warnPercent ← if floorLife = 0 then some (natAt b 4 1) else within? 50 99 (natAt b 4 1)
  let grace ← within? 0 1440 (natAt b 5 2)
  let ratio ← within? 0 32 (natAt b 7 1)
  let ceiling ← within? 0 10080 (natAt b 8 2)
  let bake ← bakeParse b
  let bakeLimit ← within? 0 15 (natAt b 18 1)
  return { floorLife := floorLife, warnPercent := warnPercent, grace := grace, ratio := ratio, ceiling := ceiling,
           bake := bake, bakeLimit := bakeLimit }

/-- Options byte of an action. -/
def Action.optionsByte (a : Action) : Byte :=
  (if a.final then 0x80 else 0) ||| (if a.worst then 0x40 else 0) ||| (if a.copy then 0x20 else 0) |||
    (if a.copyOnce then 0x10 else 0) ||| (if a.count then 0x08 else 0)

def Action.image (a : Action) : List Byte :=
  beBytes 1 a.verdict.code ++ [a.reason] ++ beBytes 1 a.notice.code ++ [a.optionsByte] ++ beBytes 1 a.counter.val

def Action.parse (b : List Byte) : Option Action := do
  let verdict ← Verdict.ofCode? (natAt b 0 1)
  let reason ← within? 0x40 0xFD (natAt b 1 1)
  let notice ← NoticeOption.ofCode? (natAt b 2 1)
  let o := byteAt b 3
  let _ ← if o &&& 0x07 = 0 then some () else none
  let counter ← fin? 64 (natAt b 4 1)
  return { verdict := verdict, reason := BitVec.ofNat 8 reason, notice := notice, final := o.getLsbD 7,
           worst := o.getLsbD 6, copy := o.getLsbD 5, copyOnce := o.getLsbD 4, count := o.getLsbD 3, counter := counter }

def RuleRow.image (r : RuleRow) : List Byte :=
  beBytes 1 r.valid.toNat ++ beBytes 7 r.value.toNat ++ beBytes 7 r.mask.toNat ++ r.action.image

def RuleRow.parse (b : List Byte) : Option RuleRow := do
  let valid ← boolOf? (natAt b 0 1)
  let action ← Action.parse (b.drop 15)
  return { valid := valid, value := BitVec.ofNat 56 (natAt b 1 7), mask := BitVec.ofNat 56 (natAt b 8 7), action := action }

def CheckerRow.image (r : CheckerRow) : List Byte :=
  beBytes 1 r.source.code ++ beBytes 2 r.low.toNat ++ beBytes 2 r.high.toNat

def CheckerRow.parse (b : List Byte) : Option CheckerRow := do
  let source ← RangeSource.ofCode? (natAt b 0 1)
  return { source := source, low := BitVec.ofNat 16 (natAt b 1 2), high := BitVec.ofNat 16 (natAt b 3 2) }

def LinkSettings.image (l : LinkSettings) : List Byte :=
  [l.divisor, boolByte l.x64, if l.twoStops then 2 else 1]

/-- Stop bits: 1 or 2. -/
def stopsOf? : Nat → Option Bool
  | 1 => some false
  | 2 => some true
  | _ => none

def LinkSettings.parse (b : List Byte) : Option LinkSettings := do
  let x64 ← boolOf? (natAt b 1 1)
  let twoStops ← stopsOf? (natAt b 2 1)
  return { divisor := byteAt b 0, x64 := x64, twoStops := twoStops }

def PartConfig.image (r : PartConfig) : List Byte :=
  [r.own, r.supervisor] ++ beBytes 1 r.startMode.code ++ r.floor.image ++ r.plant.image ++ beBytes 1 r.lineReset.toNat

def PartConfig.parse (b : List Byte) : Option PartConfig := do
  let own ← within? 0 254 (natAt b 0 1)
  let supervisor ← within? 0 254 (natAt b 1 1)
  let startMode ← Mode.ofCode? (natAt b 2 1)
  let floor ← LinkSettings.parse (b.drop 3)
  let plant ← LinkSettings.parse (b.drop 6)
  let lineReset ← boolOf? (natAt b 9 1)
  return { own := BitVec.ofNat 8 own, supervisor := BitVec.ofNat 8 supervisor, startMode := startMode, floor := floor,
           plant := plant, lineReset := lineReset }

/-! ### Tables by code (02, section 2.8) -/

/-- Number of rows of a table; none for a code not in the table of section 2.8. -/
def tableRows? : Nat → Option Nat
  | 0x01 => some 255
  | 0x02 => some 32
  | 0x03 => some 48
  | 0x04 => some 2
  | 0x05 => some 16
  | 0x06 => some 128
  | 0x07 => some 8
  | 0x08 => some 2
  | 0x09 => some 1
  | 0x0A => some 64
  | 0x0B => some 16
  | _ => none

/-- Row size of a table that can be written. -/
def rowSize : Nat → Nat → Nat
  | 0x01, _ => 2
  | 0x02, _ => 9
  | 0x03, _ => 3
  | 0x04, 0 => 14
  | 0x04, _ => 10
  | 0x05, _ => 19
  | 0x06, _ => 20
  | 0x07, _ => 5
  | 0x08, _ => 5
  | 0x09, _ => 10
  | _, _ => 4

/-- Read-only tables: the rule counters and the fault counters. -/
def readOnlyTable (table : Nat) : Bool := table == 0x0A || table == 0x0B

/-- A row image judged under R34. -/
def parseRow (table row : Nat) (b : List Byte) : Option RowWrite :=
  match table with
  | 0x01 => do return .station (← fin? 255 row) (← StationRow.parse b)
  | 0x02 => do return .zone (← fin? 32 row) (← ZoneConfig.parse b)
  | 0x03 => do return .grid (← fin? 48 row) (← GridCell.parse b)
  | 0x04 => if row = 0 then (rhParse b).map .rh else some (.temp (tempParse b))
  | 0x05 => do return .cls (← fin? 16 row) (← ClassRow.parse b)
  | 0x06 => do return .rule (← fin? 128 row) (← RuleRow.parse b)
  | 0x07 => do return .checker (← fin? 8 row) (← CheckerRow.parse b)
  | 0x08 => (Action.parse b).map (.dflt (row == 1))
  | 0x09 => (PartConfig.parse b).map .part
  | _ => none

/-- Table code and row of a row write. -/
def RowWrite.place : RowWrite → Nat × Nat
  | .station i _ => (0x01, i.val)
  | .zone z _ => (0x02, z.val)
  | .grid i _ => (0x03, i.val)
  | .rh _ => (0x04, 0)
  | .temp _ => (0x04, 1)
  | .cls c _ => (0x05, c.val)
  | .rule i _ => (0x06, i.val)
  | .checker i _ => (0x07, i.val)
  | .dflt b _ => (0x08, b.toNat)
  | .part _ => (0x09, 0)

/-- Row image of a row write. -/
def RowWrite.image : RowWrite → List Byte
  | .station _ r => r.image
  | .zone _ r => r.image
  | .grid _ r => r.image
  | .rh r => rhImage r
  | .temp r => tempImage r
  | .cls _ r => r.image
  | .rule _ r => r.image
  | .checker _ r => r.image
  | .dflt _ r => r.image
  | .part r => r.image

/-! ### Decoding (R32) -/

/-- Argument bytes of an operation: exactly so many, or at least so many for WRITE-ROW; none for a code not in the table of
section 2.7. -/
def fixedArgs? : Nat → Option Nat
  | 0x01 => some 1
  | 0x02 => some 1
  | 0x03 => some 4
  | 0x04 => some 3
  | 0x05 => some 3
  | 0x06 => some 8
  | 0x07 => some 15
  | 0x08 => some 8
  | 0x09 => some 2
  | 0x0A => some 3
  | 0x0B => some 2
  | 0x0C => some 2
  | 0x0D => some 0
  | 0x0E => some 0
  | 0x0F => some 0
  | 0x10 => some 0
  | 0x11 => some 0
  | _ => none

/-- The outcome of decoding a request. -/
abbrev Decoded := Except MgmtStatus MgmtOp

/-- A decoded argument, or BAD-VALUE. -/
def orBadValue (o : Option MgmtOp) : Decoded :=
  match o with
  | some op => .ok op
  | none => .error .badValue

/-- A field the select byte marks, or `none` for one that is not selected; a selected field out of range fails. -/
def selected? {α : Type} (sel : Byte) (bit : Nat) (v : Option α) : Option (Option α) :=
  if sel.getLsbD bit then v.map some else some none

/-- READ-ROW (R32 cases 4 and 5). -/
def decodeReadRow (table row : Nat) : Decoded :=
  match tableRows? table with
  | none => .error .badTable
  | some n => if row < n then .ok (.readRow table row) else .error .badRow

/-- WRITE-ROW (R32 cases 4 to 7). -/
def decodeWriteRow (table row : Nat) (image : List Byte) : Decoded :=
  match tableRows? table with
  | none => .error .badTable
  | some n =>
    if readOnlyTable table then .error .badTable
    else if n ≤ row then .error .badRow
    else if image.length ≠ rowSize table row then .error .badValue
    else orBadValue ((parseRow table row image).map .writeRow)

/-- WRITE-RECORD (R32 case 7): the select byte marks class, consumed, bake count and retire. -/
def decodeWriteRecord (a : List Byte) : Option MgmtOp := do
  let sel := byteAt a 8
  let _ ← if sel = 0 ∨ 0x0F < sel.toNat then none else some ()
  let cls ← selected? sel 0 (fin? 16 (natAt a 9 1))
  let minutes ← selected? sel 1 (some (natAt a 10 4))
  let bakeCount ← selected? sel 2 (within? 0 15 (natAt a 14 1))
  return .writeRecord (idAt a 0) { cls := cls, minutes := minutes, bakeCount := bakeCount, retire := sel.getLsbD 3 }

/-- Index of a CLEAR-COUNTERS: one counter, or every counter for 0xFF. -/
def clearIndex? (n v : Nat) : Option (Option (Fin n)) := if v = 0xFF then some none else (fin? n v).map some

/-- CLEAR-COUNTERS (R32 case 7). -/
def decodeClear (set index : Nat) : Option MgmtOp :=
  match set with
  | 0 => (clearIndex? 64 index).map .clearRules
  | 1 => (clearIndex? 16 index).map .clearFaults
  | _ => none

/-- Cases 4 to 7 of R32, for an operation with the right number of argument bytes. -/
def decodeArgs (op : Nat) (a : List Byte) : Decoded :=
  match op with
  | 0x01 => orBadValue ((boolOf? (natAt a 0 1)).map .readStatus)
  | 0x02 => orBadValue ((Mode.ofCode? (natAt a 0 1)).map .setMode)
  | 0x03 => .ok (.setTime (natAt a 0 4))
  | 0x04 => decodeReadRow (natAt a 0 1) (natAt a 1 2)
  | 0x05 => decodeWriteRow (natAt a 0 1) (natAt a 1 2) (a.drop 3)
  | 0x06 => .ok (.readRecord (idAt a 0))
  | 0x07 => orBadValue (decodeWriteRecord a)
  | 0x08 => .ok (.deleteRecord (idAt a 0))
  | 0x09 => orBadValue (do return .readZone (← fin? 32 (natAt a 0 1)) (← boolOf? (natAt a 1 1)))
  | 0x0A => orBadValue ((fin? 32 (natAt a 0 1)).map fun z => .listZone z (natAt a 1 2))
  | 0x0B => orBadValue (do return .readBatch (← fin? 16 (natAt a 0 1)) (← within? 0 63 (natAt a 1 1)))
  | 0x0C => orBadValue (decodeClear (natAt a 0 1) (natAt a 1 1))
  | 0x0D => .ok .saveImage
  | 0x0E => .ok .loadImage
  | 0x0F => .ok .compareImage
  | 0x10 => .ok .clearStartCause
  | 0x11 => .ok .resetPart
  | _ => .error .unknownOp

/-- Decoding of a request body (R32). -/
def decodeRequest (body : List Byte) : Decoded :=
  match body with
  | [] => .error .badValue
  | op :: args =>
    match fixedArgs? op.toNat with
    | none => .error .unknownOp
    | some n =>
      if args.length < n then .error .badValue
      else if n < args.length ∧ op ≠ 0x05 then .error .badValue
      else decodeArgs op.toNat args

/-- Operation byte of the reply to a request: 0xFF for an empty body (R32 case 1, R33). -/
def replyOp (body : List Byte) : Byte := body.headD 0xFF

/-! ### Reply data (02, section 2.7) -/

/-- The five bytes of the repeat memory in a record image; all absent before the record's first transaction. -/
def memoryBytes (m : Option RepeatMemory) : List Byte :=
  match m with
  | some x => [x.source, x.seq, x.kind, BitVec.ofNat 8 x.outcome.code] ++ optByte x.reason
  | none => absentBytes 5

/-- The zone part in a record image. -/
def zonePartBytes (z : Option ZonePart) : List Byte :=
  match z with
  | some x => beBytes 1 x.zone.val ++ beBytes 6 x.stamp ++ beBytes 6 x.key ++ beBytes 4 x.entered
  | none => absentBytes 17

/-- The bake part in a record image. -/
def bakePartBytes (b : Option BakePart) : List Byte :=
  match b with
  | some x => [x.oven] ++ beBytes 1 x.tier.val ++ beBytes 4 x.entered ++ beBytes 1 x.preState.code
  | none => absentBytes 7

/-- The record image of 43 bytes. -/
def Record.image (r : Record) (index : Nat) : List Byte :=
  beBytes 1 r.cls.val ++ beBytes 1 r.state.code ++ beBytes 4 r.consumed ++ beBytes 1 r.bakeCount ++ [r.flagByte] ++
    memoryBytes r.memory ++ beBytes 2 index ++ zonePartBytes r.zonePart ++ optBytes 4 r.dryPart ++
    bakePartBytes r.bakePart

/-- The nine error counts of a port, in the order of R18. -/
def PortCounts.image (c : PortCounts) : List Byte :=
  [c.framing, c.noise, c.check, c.overrun, c.cut, c.stray, c.timeout, c.length, c.brk].flatMap (beBytes 2)

/-- READ-ZONE page 0, for the configuration and the live state of a zone. -/
def Zone.page0 (x : Zone) (kind : ZoneKind) : List Byte :=
  beBytes 1 kind.code ++ (x.fused.map fun f => tempBytes f.temp).getD (absentBytes 2) ++
    optBytes 2 (x.fused.map Fused.rh) ++ [boolByte x.stale] ++ beBytes 2 x.rate ++ [boolByte x.dryOn] ++
    beBytes 6 x.wear ++ beBytes 4 x.dry ++ beBytes 4 x.lastAdvance ++ beBytes 2 x.watch.length ++
    optBytes 1 (x.fused.map Fused.rhBand) ++ optBytes 1 (x.fused.map Fused.tempBand)

/-- One reading slot of READ-ZONE page 1; an invalid slot has its values and time absent. -/
def Slot.image (x : Slot) : List Byte :=
  if x.valid then tempBytes x.temp ++ beBytes 2 x.rh ++ beBytes 4 x.arrival ++ [1] else absentBytes 8 ++ [0]

/-- READ-ZONE page 1. -/
def Zone.page1 (x : Zone) : List Byte := x.slots.toList.flatMap Slot.image

/-- READ-BATCH data from a list position. -/
def batchImage (b : Option Batch) (pos : Nat) : List Byte :=
  match b with
  | some x =>
    let out := (x.members.drop pos).take 12
    [x.oven] ++ beBytes 1 x.tier.val ++ beBytes 4 x.openTime ++ beBytes 1 x.members.length ++ beBytes 4 x.longest ++
      beBytes 4 x.deadline ++ [boolByte x.stalePosted] ++ beBytes 1 out.length ++ out.flatMap (beBytes 2)
  | none => absentBytes 6 ++ [0] ++ absentBytes 9 ++ [0]

end Sys2Proof.Machine
end

