-- ==== Sys2Proof/Machine/Stopping.lean ====
section
/-! DEFINITION. How the blocks end their work when a freeze or a quiesce begins (R20, R74, R154, R165, R186, R189). -/

namespace Sys2Proof.Machine

/-! ### The Management Agent's replies (R33, R175) -/

/-- The agent composes its reply with the addresses in force and goes to PLACING. -/
def State.reply (s : State) (t : Telegram) (st : MgmtStatus) (data : List Byte) : State :=
  { s with
    agent :=
      { phase := .placing (s.mgmtReply t.source t.seq (replyOp t.body) st data) false, completion := s.agent.completion } }

/-- The reply to a finished SAVE-IMAGE or COMPARE-IMAGE. -/
def State.completionReply (s : State) (c : Completion) : Telegram := s.mgmtReply c.source c.seq c.op c.status []

/-- IDLE, or PLACING with the completion reply that has waited (R181). -/
def State.agentNext (s : State) : State :=
  match s.agent.completion with
  | some c => { s with agent := { phase := .placing (s.completionReply c) false, completion := none } }
  | none => { s with agent := .atStart }

/-- The management reply queue has room (R175). -/
def State.replyRoom (s : State) : Bool := decide (s.replies.length < Config.replyCap)

/-- Append a reply if there is room, and otherwise discard it (R186). -/
def State.pushOrDrop (s : State) (t : Telegram) : State := if s.replyRoom then s.pushReply t else s

/-! ### The pause (R153) -/

def State.setPause (s : State) (b : Bool) : State := { s with engine := { s.engine with pause := b } }

/-! ### The receiver stop (R20) -/

/-- A receiver stops, and its open telegram is discarded without a count. -/
def PortState.stopReceiver (p : PortState) : PortState := { p with rx := .disabled, asm := .none p.asm.skipping }

def State.stopReceivers (s : State) : State := { s with floor := s.floor.stopReceiver, plant := s.plant.stopReceiver }

/-! ### The checks of R176 -/

/-- Served in SETUP alone (R176). -/
def MgmtOp.setupOnly : MgmtOp → Bool
  | .writeRow (.station _ _) | .writeRow (.part _) => false
  | .writeRow _ | .saveImage | .loadImage | .compareImage => true
  | _ => false

/-- Refused STORE-BUSY while a SAVE or a COMPARE runs (R176); `m` is the present mode. -/
def MgmtOp.needsStore (m : Mode) : MgmtOp → Bool
  | .writeRow _ | .saveImage | .loadImage | .compareImage | .resetPart => true
  | .setMode m' => m == .setup && m' != .setup
  | _ => false

/-- The mode check and the image check of R175. -/
def State.refusal? (s : State) (op : MgmtOp) : Option MgmtStatus :=
  if op.setupOnly && s.mode != .setup then some .wrongMode
  else if op.needsStore s.mode && s.store.run.isSome then some .storeBusy
  else none

/-- Record count of a class (R53). -/
def State.classCount (s : State) (c : Fin 16) : Nat := s.table.classCounts[c.val]

/-! ### Work in hand -/

/-- The waiting requests that are discarded: all but a request of the transaction in flight (R74). -/
def State.dropRequests (s : State) : State :=
  { s with
    zoneWait := if s.engine.phase = .offering then [] else s.zoneWait.filter fun q => q == .engine
    batchWait := [] }

/-- The engine in OFFERING stops without relaying; in PLACING it appends what finds a place (R154). -/
def State.stopEngine (s : State) : State :=
  match s.engine.phase, s.engine.work with
  | .offering, _ => s.engineIdle
  | .placing, some w => ((w.output.bind s.tryPlace).getD s).engineIdle
  | .placing, none => s.engineIdle
  | _, _ => s

/-- A request that R176 lets through is executed by the agent alone, and not sent to another block (R186; log entry 20). A
class write is, unless it needs a rekey (R178). -/
def State.opAlone (s : State) : MgmtOp → Bool
  | .readStatus _ | .setMode _ | .setTime _ | .clearFaults _ | .clearStartCause | .resetPart => true
  | .readRow table _ => table != 0x06 && table != 0x07 && table != 0x08 && table != 0x0A
  | .writeRow (.station _ _) | .writeRow (.part _) => true
  | .writeRow (.cls c r) => s.classCount c == 0 || r.floorLife == 0
  | _ => false

/-- Whether a request the agent executes is whole when the stop begins. A request refused at decoding or under R176 is. -/
def State.requestAlone (s : State) (t : Telegram) : Bool :=
  match decodeRequest t.body with
  | .ok op => (s.refusal? op).isSome || s.opAlone op
  | .error _ => true

/-- The agent goes to IDLE; a completion reply that waited behind its request is composed now, even if that request gets no reply,
and appended if there is room, and otherwise discarded: R181 and R186 do not name the case (DESIGN CHOICE, log entry 55). -/
def State.agentDrain (s : State) : State :=
  match s.agent.completion with
  | some c => { s with agent := .atStart }.pushOrDrop (s.completionReply c)
  | none => { s with agent := .atStart }

/-- The agent's request is discarded with no effect and no reply (R186). -/
def State.dropRequest (s : State) : State := (s.setPause false).agentDrain

/-- How the agent's request ends when the stop begins (R186). The reply of a RESET-PART in PLACING is treated as any other, and
begins no quiesce of its own (DESIGN CHOICE, log entry 53). -/
def State.stopAgent (s : State) : State :=
  match s.agent.phase with
  | .idle => s.agentDrain
  | .executing t => if s.requestAlone t then s else s.dropRequest
  | .loading _ => s.dropRequest
  | .rekeying _ _ _ => s.dropRequest
  | .placing r _ => (s.pushOrDrop r).agentDrain

/-- The beginning of a freeze or a quiesce: step 1 of R185, and what of step 2 takes place at once. -/
def State.beginStop (s : State) : State := s.stopReceivers.dropRequests.stopEngine.stopAgent

/-- All the work of step 2 of R185 has ended. -/
def State.workEnded (s : State) : Bool :=
  s.engine.phase == .idle && s.agent.phase == .idle && s.agent.completion.isNone

/-! ### Quiesces (R8, R189) -/

/-- The state of the Retention Unit with a quiesce of a cause. -/
def State.setQuiesce (s : State) (q : Option Quiesce) : State := { s with retention := { s.retention with quiesce := q } }

/-- A quiesce begins. `behind` replies already stand, or will stand, behind the reply it waits for. -/
def State.beginQuiesce (s : State) (cause : QuiesceCause) (behind : Nat) : State :=
  (s.setQuiesce (some { cause := cause, behind := behind, timed := false, stopped := false })).beginStop

/-- A RESET-PART's reply is placed, and its quiesce begins (R189). In a part that is already stopping it is placed and begins no
quiesce, and so no COMMAND start: R186 calls the request whole, and R189 does not say whether it still causes the start (DESIGN
CHOICE, log entry 53). -/
def State.placeReset (s : State) (r : Telegram) : State :=
  let s' := { s.pushReply r with agent := { s.agent with phase := .idle } }
  if s.stopping then s'.agentNext
  else
    let behind := if s'.agent.completion.isSome ∧ s'.replyRoom then 1 else 0
    s'.beginQuiesce .command behind

/-- The reply of a RESET-PART waits in its queue or is being sent (R189). -/
def State.resetReplyOut (s : State) (q : Quiesce) : Bool :=
  decide (q.behind < s.replies.length) ||
    (decide (s.replies.length = q.behind) &&
      (match s.plant.tx with
        | .sending .reply _ => true
        | _ => false))

end Sys2Proof.Machine
end

