-- ==== Sys2Proof/Machine/Management.lean ====
section
/-! DEFINITION. Plant routing and the Management Agent's requests (02, sections 2.2 and 2.7; 11, sections 11.1 to 11.5). -/

namespace Sys2Proof.Machine

/-! ### Plant routing (R23) -/

/-- The head of the Plant receive queue leaves it. -/
def State.dropPlantHead (s : State) : State := { s with plant := { s.plant with queue := s.plant.queue.tail } }

/-- The agent is IDLE and owes no completion reply (R175, R181). -/
def State.agentFree (s : State) : Bool := s.agent.phase == .idle && s.agent.completion.isNone

/-- The operation of a request that passes decoding. -/
def requestOp? (t : Telegram) : Option MgmtOp :=
  match decodeRequest t.body with
  | .ok op => some op
  | .error _ => none

/-- The agent takes a request: a SAVE-IMAGE takes its copy of the tables now (R181), and a LOAD-IMAGE that passes R176 raises
the pause (R182). -/
def State.takeRequest (s : State) (t : Telegram) : State :=
  { s with
    agent :=
      { phase := .executing t, completion := none
        copy := if requestOp? t = some .saveImage then some s.tables else none }
    engine := { s.engine with
      pause := s.engine.pause || (requestOp? t == some .loadImage && (s.refusal? .loadImage).isNone) } }

/-- PLANT_ROUTING_TAKE (R23, R175). -/
def execPlantRoutingTake (s : State) : Host.Outcome State Fault Refusal :=
  match s.plant.queue with
  | t :: _ =>
    if s.live then
      if t.dest = s.tables.part.own then
        if t.kind = kindMgmtRequest then
          if s.agentFree then .next (s.dropPlantHead.takeRequest t) else .next s
        else .next { s.dropPlantHead with agentRejects := bump16 s.agentRejects }
      else if s.downRelay.length < Config.downRelayCap then .next (s.dropPlantHead.pushDownRelay t)
      else .next s
    else .next s
  | [] => .next s

/-! ### The request in hand -/

/-- The request the agent is executing, while the part runs. -/
def State.request? (s : State) : Option Telegram :=
  match s.agent.phase with
  | .executing t => if s.running then some t else none
  | _ => none

/-- The request in hand with its operation, if it passes decoding. -/
def State.operation? (s : State) : Option (Telegram × MgmtOp) :=
  match s.request? with
  | some t =>
    match decodeRequest t.body with
    | .ok op => some (t, op)
    | .error _ => none
  | none => none

/-- Refuse a request under R176, or serve it. -/
def State.serve (s : State) (t : Telegram) (op : MgmtOp) (f : State → State) : State :=
  match s.refusal? op with
  | some st => s.reply t st []
  | none => f s

/-- The agent has no request waiting for the Zone Engine. -/
def State.withdrawAgent (s : State) : State := { s with zoneWait := s.zoneWait.filter fun q => q != .agent }

/-- The agent's request to the Zone Engine: carried out when its turn has come, and otherwise left waiting in order of
arrival (R69; log entry 11). -/
def State.asZoneRequest (s : State) (f : State → State) : State :=
  if s.zoneWait.head? = none ∨ s.zoneWait.head? = some .agent then
    f s.withdrawAgent
  else if .agent ∈ s.zoneWait then s
  else { s with zoneWait := s.zoneWait ++ [.agent] }

/-- UNKNOWN_OP: a request refused at decoding (R32, R175). -/
def execUnknownOp (s : State) : Host.Outcome State Fault Refusal :=
  match s.request? with
  | some t =>
    match decodeRequest t.body with
    | .error st => .next (s.reply t st [])
    | .ok _ => .next s
  | none => .next s

/-! ### Status, mode and time (R174, R177, R179, R187) -/

/-- Code of the running image operation. -/
def ImageStore.runCode (x : ImageStore) : Byte :=
  match x.run with
  | none => 0
  | some (.save _ _ _) => 1
  | some (.compare _ _) => 3

/-- READ-STATUS page 0. -/
def State.statusPage0 (s : State) : List Byte :=
  beBytes 1 s.mode.code ++ [s.retention.flags.byte, boolByte s.store.compared, s.store.runCode] ++ beBytes 4 s.now ++
    beBytes 4 s.wallTime ++ beBytes 1 s.notices.lost ++ beBytes 1 s.notices.entries.length ++
    beBytes 2 s.table.records.length ++ beBytes 2 s.table.poolFree.length ++ beBytes 2 s.ambientRejects ++
    beBytes 2 s.agentRejects

/-- READ-STATUS page 1. -/
def State.statusPage1 (s : State) : List Byte := s.floor.counts.image ++ s.plant.counts.image

/-- READ_STATUS (R174, R176). -/
def execReadStatus (s : State) : Host.Outcome State Fault Refusal :=
  match s.operation? with
  | some (t, .readStatus page1) => .next (s.reply t .done (if page1 then s.statusPage1 else s.statusPage0))
  | _ => .next s

/-- Strictly ascending numbers. -/
def ascending {α : Type} [LT α] [DecidableLT α] : List α → Bool
  | a :: b :: rest => decide (a < b) && ascending (b :: rest)
  | _ => true

/-- The validation of R177: the failing table and row. -/
def Tables.invalid? (t : Tables) : Option (Nat × Nat) :=
  if !ascending t.rhThresholds.toList then some (0x04, 0)
  else if !ascending t.tempThresholds.toList then some (0x04, 1)
  else if t.configuredZones.isEmpty then some (0x02, 0xFFFF)
  else none

/-- SET-MODE that passes R176 (R177). -/
def State.changeMode (s : State) (t : Telegram) (m : Mode) : State :=
  match (if s.mode = .setup ∧ m ≠ .setup then s.tables.invalid? else none) with
  | some (table, row) => s.reply t .invalidTables (beBytes 1 table ++ beBytes 2 row)
  | none => { s with mode := m }.reply t .done []

/-- SET_MODE (R177). -/
def execSetMode (s : State) : Host.Outcome State Fault Refusal :=
  match s.operation? with
  | some (t, .setMode m) => .next (s.serve t (.setMode m) fun s => s.changeMode t m)
  | _ => .next s

/-- SET_TIME (R179). -/
def execSetTime (s : State) : Host.Outcome State Fault Refusal :=
  match s.operation? with
  | some (t, .setTime wall) =>
    .next ({ s with
      retention := { s.retention with
        offset := (wall + 2 ^ 32 - s.now) % 2 ^ 32
        flags := { s.retention.flags with timeUnset := false } } }.reply t .done [])
  | _ => .next s

/-- CLEAR_START_CAUSE (R187). -/
def execClearStartCause (s : State) : Host.Outcome State Fault Refusal :=
  match s.operation? with
  | some (t, .clearStartCause) =>
    .next ({ s with
      retention := { s.retention with
        flags := { powerOn := false, supplyRestore := false, command := false, lineBreak := false,
                   retainedLost := false, imageLost := false, timeUnset := false } } }.reply t .done [])
  | _ => .next s

/-! ### Reading rows (R34, R124, R151) -/

/-- A row of a table by number; empty past its range, which decoding excludes. -/
def rowOf {α : Type} {n : Nat} (v : Vector α n) (f : α → List Byte) (row : Nat) : List Byte :=
  ((v.toList[row]?).map f).getD []

/-- The row image of a table as it stands. -/
def State.rowImage (s : State) (table row : Nat) : List Byte :=
  match table with
  | 0x01 => rowOf s.tables.stations StationRow.image row
  | 0x02 => rowOf s.tables.zones ZoneConfig.image row
  | 0x03 => rowOf s.tables.grid GridCell.image row
  | 0x04 => if row = 0 then rhImage s.tables.rhThresholds else tempImage s.tables.tempThresholds
  | 0x05 => rowOf s.tables.classes ClassRow.image row
  | 0x06 => rowOf s.tables.rules RuleRow.image row
  | 0x07 => rowOf s.tables.checkers CheckerRow.image row
  | 0x08 => rowOf s.tables.defaults Action.image row
  | 0x09 => s.tables.part.image
  | 0x0A => rowOf s.ruleCounters (beBytes 4) row
  | _ => rowOf s.faultCounters (beBytes 4) row

/-- READ_ROW (R34). -/
def execReadRow (s : State) : Host.Outcome State Fault Refusal :=
  match s.operation? with
  | some (t, .readRow table row) => .next (s.reply t .done (s.rowImage table row))
  | _ => .next s

/-! ### Writing rows (R178) -/

/-- The tables with a row replaced. -/
def Tables.write (t : Tables) : RowWrite → Tables
  | .station i r => { t with stations := t.stations.set i.val r }
  | .zone z r => { t with zones := t.zones.set z.val r }
  | .grid i r => { t with grid := t.grid.set i.val r }
  | .rh r => { t with rhThresholds := r }
  | .temp r => { t with tempThresholds := r }
  | .cls c r => { t with classes := t.classes.set c.val r }
  | .rule i r => { t with rules := t.rules.set i.val r }
  | .checker i r => { t with checkers := t.checkers.set i.val r }
  | .dflt b r => { t with defaults := if b then t.defaults.set 1 r else t.defaults.set 0 r }
  | .part r => { t with part := r }

/-- Replace a row at once. -/
def State.writeTable (s : State) (w : RowWrite) : State := { s with tables := s.tables.write w }

/-- STATION_WRITE (R178). -/
def execStationWrite (s : State) : Host.Outcome State Fault Refusal :=
  match s.operation? with
  | some (t, .writeRow (.station i r)) =>
    .next (s.serve t (.writeRow (.station i r)) fun s => (s.writeTable (.station i r)).reply t .done [])
  | _ => .next s

/-- PART_CONFIGURATION_WRITE (R36, R178): the reply already carries the new own address (R21). -/
def execPartConfigurationWrite (s : State) : Host.Outcome State Fault Refusal :=
  match s.operation? with
  | some (t, .writeRow (.part r)) =>
    .next (s.serve t (.writeRow (.part r)) fun s => (s.writeTable (.part r)).reply t .done [])
  | _ => .next s

/-- A zone with members changes its kind (R178, R182). -/
def State.zoneInUse (s : State) (z : Fin 32) (new : ZoneConfig) : Bool :=
  !(s.zone z).watch.isEmpty && (s.tables.zone z).kind != new.kind

/-- A zone write, judged and carried out as one request (R72, R178). A write refused IN-USE makes no advance (log entry 45). -/
def State.zoneWriteRequest (s : State) (t : Telegram) (z : Fin 32) (r : ZoneConfig) : State :=
  if s.zoneInUse z r then s.reply t .inUse [] else (s.zoneWrite z r).reply t .done []

/-- ZONE_CONFIGURATION_WRITE (R72). -/
def execZoneConfigurationWrite (s : State) : Host.Outcome State Fault Refusal :=
  match s.operation? with
  | some (t, .writeRow (.zone z r)) =>
    .next (s.serve t (.writeRow (.zone z r)) fun s => s.asZoneRequest fun s => s.zoneWriteRequest t z r)
  | _ => .next s

/-- A grid or threshold row (R73). -/
def RowWrite.isGrid : RowWrite → Bool
  | .grid _ _ | .rh _ | .temp _ => true
  | _ => false

/-- GRID_WRITE (R73). -/
def execGridWrite (s : State) : Host.Outcome State Fault Refusal :=
  match s.operation? with
  | some (t, .writeRow w) =>
    if w.isGrid then
      .next (s.serve t (.writeRow w) fun s =>
        s.asZoneRequest fun s => (s.gridChange fun tb => tb.write w).reply t .done [])
    else .next s
  | _ => .next s

/-- The rekey of a class write begins: the pause is raised, and the Carrier Table takes no create until the row has been
replaced (R153, R178; log entry 38). -/
def State.beginRekey (s : State) (t : Telegram) (c : Fin 16) (r : ClassRow) : State :=
  { s.setPause true with agent := { s.agent with phase := .rekeying t c r } }

/-- The rekey request, at its turn; a rekey that has begun stays one, whatever becomes of the class's count (R105; log entry
49). -/
def State.rekeyRequest (s : State) (t : Telegram) (c : Fin 16) (r : ClassRow) : State :=
  s.asZoneRequest fun s => ((s.classRekey c r).setPause false).reply t .done []

/-- A class write that passes R176, judged by the class's record count (R178). While the part stops no rekey begins (R74,
R186). A count that asks for a rekey is judged only when no SPLIT waits to create, so that no create falls between the check and
the row's replacement; until then the write waits (R178; log entry 51). -/
def State.classWrite (s : State) (t : Telegram) (c : Fin 16) (r : ClassRow) : State :=
  if s.classCount c = 0 then (s.writeTable (.cls c r)).reply t .done []
  else if r.floorLife = 0 then s.reply t .inUse []
  else if s.stopping then s.dropRequest
  else if s.splitAsks then s
  else (s.beginRekey t c r).rekeyRequest t c r

/-- CLASS_WRITE (R178): the class write, or, given again, the rekey that waits for its turn (log entry 11). -/
def execClassWrite (s : State) : Host.Outcome State Fault Refusal :=
  match s.agent.phase with
  | .rekeying t c r => .next (if s.live then s.rekeyRequest t c r else s)
  | _ =>
    match s.operation? with
    | some (t, .writeRow (.cls c r)) => .next (s.serve t (.writeRow (.cls c r)) fun s => s.classWrite t c r)
    | _ => .next s

/-- A rule, range checker or pass default row (R125). -/
def RowWrite.isPolicy : RowWrite → Bool
  | .rule _ _ | .checker _ _ | .dflt _ _ => true
  | _ => false

/-- POLICY_TABLE_WRITE (R125). -/
def execPolicyTableWrite (s : State) : Host.Outcome State Fault Refusal :=
  match s.operation? with
  | some (t, .writeRow w) =>
    if w.isPolicy then .next (s.serve t (.writeRow w) fun s => (s.writeTable w).reply t .done []) else .next s
  | _ => .next s

/-! ### Records (R54 to R57) -/

/-- READ_RECORD (R54). -/
def execReadRecord (s : State) : Host.Outcome State Fault Refusal :=
  match s.operation? with
  | some (t, .readRecord id) =>
    match s.table.find? id with
    | some (i, r) => .next (s.reply t .done (r.image i))
    | none => .next (s.reply t .notFound [])
  | _ => .next s

/-- Step 1 of R56: the zone is advanced, passing over the record itself (log entry 37), and the carrier is settled. -/
def State.writeSettle (s : State) (i : Nat) : State :=
  match s.zoneOf? i with
  | some z =>
    let s' := ((s.setHold i true).advance z).setHold i false
    s'.modRecord i fun r => r.settle (s'.zone z).wear
  | none => s

/-- Step 2 of R56: the class field and the per-class counts. -/
def State.writeClass (s : State) (i : Nat) (cls : Option (Fin 16)) : State :=
  match s.record? i, cls with
  | some r, some c =>
    { s.setRecord i { r with cls := c } with
      table := ((s.setRecord i { r with cls := c }).table.countClass r.cls (· - 1)).countClass c (· + 1) }
  | _, _ => s

/-- Consumed as written: nominal minutes times 3,840, clamped to B + G (R56 step 3). -/
def ClassRow.writtenConsumed (c : ClassRow) (minutes : Nat) : Nat :=
  min (minutes * Config.unitsPerMinute) (c.budget + c.graceUnits)

/-- Steps 3 and 4 of R56. -/
def State.writeFigures (s : State) (i : Nat) (w : RecordWrite) : State :=
  s.modRecord i fun r =>
    { r with
      consumed := (w.minutes.map (s.classOf r).writtenConsumed).getD r.consumed
      bakeCount := w.bakeCount.getD r.bakeCount }

/-- Step 5 of R56: RETIRED, out of its zone or its batch, without credit or notice (R164). -/
def State.writeRetire (s : State) (i : Nat) : State :=
  match s.record? i with
  | some r =>
    let s1 := match r.zonePart with
      | some zp => s.unlist zp.zone i
      | none => s
    let s2 := match r.bakePart with
      | some bp => s1.leaveBatch bp.oven i
      | none => s1
    s2.setRecord i { r.leaveZone with state := .retired, bakePart := none }
  | none => s

/-- Step 6 of R56: relisted in its zone as a key change; a record without a zone part has its warn-issued flag judged when its
consumed was written (R86), and not for a change of class alone (DESIGN CHOICE, log entry 43). -/
def State.writeRelist (s : State) (i : Nat) (w : RecordWrite) : State :=
  match s.record? i with
  | some r =>
    match r.zonePart with
    | some zp => (s.unlist zp.zone i).attach i zp.zone none
    | none => if w.minutes.isSome then s.setRecord i (r.rejudgeWarn (s.classOf r)) else s
  | none => s

/-- An accepted WRITE-RECORD (R56). -/
def State.writeRecord (s : State) (i : Nat) (w : RecordWrite) : State :=
  let s1 := ((s.writeSettle i).writeClass i w.cls).writeFigures i w
  (if w.retire then s1.writeRetire i else s1).writeRelist i w

/-- The carrier of an ID stands in a zone. -/
def State.inZone (s : State) (id : CarrierId) : Bool :=
  match s.table.find? id with
  | some (_, r) => r.zonePart.isSome
  | none => false

/-- The request goes to the Zone Engine when the record has a zone part, and to the Carrier Table otherwise (R56, R57). One
that waits for the Zone Engine keeps its place there, whatever becomes of the record (log entry 44). -/
def State.asRecordRequest (s : State) (id : CarrierId) (f : State → State) : State :=
  if s.inZone id ∨ .agent ∈ s.zoneWait then s.asZoneRequest f else f s

/-- WRITE-RECORD at its turn: the checks of R55 and the write of R56, within one request. -/
def State.writeRecordNow (s : State) (t : Telegram) (id : CarrierId) (w : RecordWrite) : State :=
  match s.table.find? id with
  | none => s.reply t .notFound []
  | some (i, r) =>
    if r.held then s.reply t .rowBusy []
    else if w.cls.any fun c => !(s.tables.cls c).configured then s.reply t .badValue []
    else
      let s' := s.writeRecord i w
      s'.reply t .done (((s'.record? i).map fun r' => r'.image i).getD [])

/-- WRITE-RECORD (R55, R56). -/
def State.writeRecordRequest (s : State) (t : Telegram) (id : CarrierId) (w : RecordWrite) : State :=
  s.asRecordRequest id fun s => s.writeRecordNow t id w

/-- WRITE_RECORD_CLASS (R56): the whole request, when it selects the class (log entry 32). -/
def execWriteRecordClass (s : State) : Host.Outcome State Fault Refusal :=
  match s.operation? with
  | some (t, .writeRecord id w) => .next (if w.cls.isSome then s.writeRecordRequest t id w else s)
  | _ => .next s

/-- WRITE_RECORD_CONSUMED (R56): the whole request, when it selects consumed. -/
def execWriteRecordConsumed (s : State) : Host.Outcome State Fault Refusal :=
  match s.operation? with
  | some (t, .writeRecord id w) => .next (if w.minutes.isSome then s.writeRecordRequest t id w else s)
  | _ => .next s

/-- WRITE_RECORD_BAKE_COUNT (R56): the whole request, when it selects the bake count. -/
def execWriteRecordBakeCount (s : State) : Host.Outcome State Fault Refusal :=
  match s.operation? with
  | some (t, .writeRecord id w) => .next (if w.bakeCount.isSome then s.writeRecordRequest t id w else s)
  | _ => .next s

/-- WRITE_RECORD_RETIRE (R56): the whole request, when it selects retire. -/
def execWriteRecordRetire (s : State) : Host.Outcome State Fault Refusal :=
  match s.operation? with
  | some (t, .writeRecord id w) => .next (if w.retire then s.writeRecordRequest t id w else s)
  | _ => .next s

/-- A record is deleted: out of its zone's list or its batch, then freed (R57, R164). -/
def State.deleteRecord (s : State) (i : Nat) (r : Record) : State :=
  let s1 := s.unlinkRecord i
  let s2 := match r.bakePart with
    | some bp => s1.leaveBatch bp.oven i
    | none => s1
  s2.removeRecord i

/-- DELETE-RECORD at its turn: both checks and the deletion, within one request (R57). A refusal within it advances no zone, of
which R57 and R69 do not speak (DESIGN CHOICE, log entry 45). -/
def State.deleteRecordNow (s : State) (t : Telegram) (id : CarrierId) : State :=
  match s.table.find? id with
  | none => s.reply t .notFound []
  | some (i, r) => if r.held then s.reply t .rowBusy [] else (s.deleteRecord i r).reply t .done []

/-- DELETE_RECORD (R57). -/
def execDeleteRecord (s : State) : Host.Outcome State Fault Refusal :=
  match s.operation? with
  | some (t, .deleteRecord id) => .next (s.asRecordRequest id fun s => s.deleteRecordNow t id)
  | _ => .next s

/-! ### Zones and batches (R71, R104, R156) -/

/-- A page of READ-ZONE; a zone of kind NONE reports its fallback rate (R71; log entry 25). -/
def State.zonePage (s : State) (z : Fin 32) (page1 : Bool) : List Byte :=
  let c := s.tables.zone z
  let x := s.zone z
  if page1 then x.page1
  else if c.configured then x.page0 c.kind
  else { x with fused := none, stale := true, rate := c.fallback, dryOn := false }.page0 c.kind

/-- READ_ZONE (R71). -/
def execReadZone (s : State) : Host.Outcome State Fault Refusal :=
  match s.operation? with
  | some (t, .readZone z page1) =>
    .next (s.asZoneRequest fun s =>
      let s' := s.advance z
      s'.reply t .done (s'.zonePage z page1))
  | _ => .next s

/-- One entry of LIST-ZONE: ID, watch key and consumed brought up to the present (R104). -/
def Record.listEntry (r : Record) (wear : Nat) : List Byte :=
  match r.zonePart with
  | some zp => idBytes r.id ++ beBytes 6 zp.key ++ beBytes 4 (satAdd Config.max32 r.consumed (wear - zp.stamp))
  | none => idBytes r.id ++ absentBytes 6 ++ beBytes 4 r.consumed

/-- LIST-ZONE data. -/
def State.listPage (s : State) (z : Fin 32) (pos : Nat) : List Byte :=
  if (s.tables.zone z).configured then
    let out := ((s.zone z).watch.drop pos).take 2
    beBytes 2 (s.zone z).watch.length ++ beBytes 1 out.length ++
      out.flatMap fun i => ((s.record? i).map fun r => r.listEntry (s.zone z).wear).getD []
  else [0, 0, 0]

/-- LIST_ZONE (R104). -/
def execListZone (s : State) : Host.Outcome State Fault Refusal :=
  match s.operation? with
  | some (t, .listZone z pos) =>
    .next (s.asZoneRequest fun s =>
      let s' := s.advance z
      s'.reply t .done (s'.listPage z pos))
  | _ => .next s

/-- READ_BATCH (R156). -/
def execReadBatch (s : State) : Host.Outcome State Fault Refusal :=
  match s.operation? with
  | some (t, .readBatch b pos) => .next (s.reply t .done (batchImage s.batches[b.val] pos))
  | _ => .next s

/-! ### Counters (R124, R151) -/

/-- Clear one counter, or all. -/
def clearCounters {n : Nat} (v : Vector Nat n) (i : Option (Fin n)) : Vector Nat n :=
  match i with
  | some i => v.set i.val 0
  | none => Vector.replicate n 0

/-- CLEAR_RULE_COUNTERS (R124). -/
def execClearRuleCounters (s : State) : Host.Outcome State Fault Refusal :=
  match s.operation? with
  | some (t, .clearRules i) => .next ({ s with ruleCounters := clearCounters s.ruleCounters i }.reply t .done [])
  | _ => .next s

/-- CLEAR_FAULT_COUNTERS (R151). -/
def execClearFaultCounters (s : State) : Host.Outcome State Fault Refusal :=
  match s.operation? with
  | some (t, .clearFaults i) => .next ({ s with faultCounters := clearCounters s.faultCounters i }.reply t .done [])
  | _ => .next s

/-! ### The Image Store (R180 to R183) -/

/-- The bytes of an image's contents: the row images of the nine imaged tables, by table code and row (R180; log entry 8). -/
def Tables.imageBytes (t : Tables) : List Byte :=
  t.stations.toList.flatMap StationRow.image ++ t.zones.toList.flatMap ZoneConfig.image ++
    t.grid.toList.flatMap GridCell.image ++ rhImage t.rhThresholds ++ tempImage t.tempThresholds ++
    t.classes.toList.flatMap ClassRow.image ++ t.rules.toList.flatMap RuleRow.image ++
    t.checkers.toList.flatMap CheckerRow.image ++ t.defaults.toList.flatMap Action.image ++ t.part.image

/-- The image of a copy of the tables, with its check word: the CRC-16 of R10 over the contents (R180). -/
def Tables.toImage (t : Tables) : StoredImage := { contents := t, check := crc16 t.imageBytes }

/-- The image is good: its check word matches its contents (R180). -/
def StoredImage.good (x : StoredImage) : Bool := x.check == crc16 x.contents.imageBytes

/-- The contents of a good image; none when the image is bad (R180). -/
def ImageStore.good? (x : ImageStore) : Option Tables :=
  match x.image with
  | some im => if im.good then some im.contents else none
  | none => none

/-- A running operation begins; the agent returns to IDLE (R181, R183). A completion reply that waited behind this request is
composed now: the request has no reply of its own to place before the operation ends (DESIGN CHOICE, log entry 57). -/
def State.startRun (s : State) (image : Option StoredImage) (run : ImageRun) : State :=
  { s with store := { s.store with image := image, run := some run } }.agentNext

/-- SAVE_IMAGE (R181): the copy taken with the request is written, and the image is bad until its check word is (log entry
31). -/
def execSaveImage (s : State) : Host.Outcome State Fault Refusal :=
  match s.operation? with
  | some (t, .saveImage) =>
    .next (s.serve t .saveImage fun s => s.startRun none (.save (s.agent.copy.getD s.tables) t.source t.seq))
  | _ => .next s

/-- The reply of a finished operation: composed now, or when the request in hand has been replied to (R181). -/
def State.complete (s : State) (source seq op : Byte) (st : MgmtStatus) : State :=
  let c : Completion := { source := source, seq := seq, op := op, status := st }
  match s.agent.phase with
  | .idle => { s with agent := { phase := .placing (s.completionReply c) false, completion := none } }
  | _ => { s with agent := { s.agent with completion := some c } }

/-- SAVE_IMAGE_COMPLETE (R181). -/
def execSaveImageComplete (s : State) : Host.Outcome State Fault Refusal :=
  match s.store.run with
  | some (.save copy source seq) =>
    if s.live then
      .next ({ s with store := { s.store with image := some copy.toImage, run := none } }.complete source seq 0x0D .done)
    else .next s
  | _ => .next s

/-- LOAD_IMAGE (R182 step 1): the read, with the pause raised since the request was taken. -/
def State.beginLoad (s : State) (t : Telegram) : State :=
  match s.store.good? with
  | none => (s.setPause false).reply t .imageBad []
  | some _ => { s.setPause true with agent := { s.agent with phase := .loading t } }

/-- LOAD_IMAGE (R182). A request refused under R176 has ended, so the pause is lowered. -/
def execLoadImage (s : State) : Host.Outcome State Fault Refusal :=
  match s.operation? with
  | some (t, .loadImage) =>
    match s.refusal? .loadImage with
    | some st => .next ((s.setPause false).reply t st [])
    | none => .next (s.beginLoad t)
  | _ => .next s

/-- The in-use check of a load (R182 step 2). -/
def State.loadInUse (s : State) (new : Tables) : Bool :=
  (List.finRange 16).any (fun c => s.classCount c != 0 && !(new.cls c).configured) ||
    allZones.any fun z => s.zoneInUse z (new.zone z)

/-- The replacement of a load (R182 step 3). The addresses of the new part configuration act last, so a notice chosen within
the request still carries the old ones (R170). -/
def State.loadReplace (s : State) (new : Tables) : State :=
  let s1 := s.tables.configuredZones.foldl State.chargeZone s
  let s2 := { s1 with tables := { new with part := s.tables.part } }
  let s3 := allZones.foldl (fun a z => a.zoneChange z (s.tables.zone z) (new.zone z)) s2
  let s4 := new.configuredZones.foldl (fun a z => a.refreshPop z none) s3
  let s5 := new.configuredZones.foldl (fun a z => a.rekeyZone (fun _ => true) z) s4
  { s5 with tables := new }

/-- The replacement request: refused IN-USE with no advance (log entry 45), or carried out; the pause is lowered when it
ends. -/
def State.loadRequest (s : State) (t : Telegram) : State :=
  match s.store.good? with
  | some new =>
    if s.loadInUse new then (s.setPause false).reply t .inUse []
    else ((s.loadReplace new).setPause false).reply t .done []
  | none => (s.setPause false).reply t .imageBad []

/-- LOAD_IMAGE_REPLACE (R182): the read has ended, and the replacement request is made; it is carried out at its turn (log
entries 5 and 11). -/
def execLoadImageReplace (s : State) : Host.Outcome State Fault Refusal :=
  match s.agent.phase with
  | .loading t => .next (if s.live then s.asZoneRequest fun s => s.loadRequest t else s)
  | _ => .next s

/-- A COMPARE-IMAGE that passes R176 begins when no policy lookup is in progress (R183). -/
def State.beginCompare (s : State) (t : Telegram) : State :=
  if s.engine.phase = .deciding then s else s.startRun s.store.image (.compare t.source t.seq)

/-- COMPARE_IMAGE (R183): refused WRONG-MODE, it also sets the result to MISMATCH. -/
def execCompareImage (s : State) : Host.Outcome State Fault Refusal :=
  match s.operation? with
  | some (t, .compareImage) =>
    let s' := if s.mode = .setup then s else { s with store := { s.store with compared := false } }
    .next (s'.serve t .compareImage fun s => s.beginCompare t)
  | _ => .next s

/-- COMPARE_IMAGE_COMPLETE (R183). -/
def execCompareImageComplete (s : State) : Host.Outcome State Fault Refusal :=
  match s.store.run with
  | some (.compare source seq) =>
    if s.live then
      let s' := { s with store := { s.store with run := none, compared := s.store.good? == some s.tables } }
      .next (s'.complete source seq 0x0F (if s.store.good?.isSome then .done else .imageBad))
    else .next s
  | _ => .next s

/-! ### Reset and placing (R175, R189) -/

/-- A RESET-PART that passes R176: its reply is placed first, and waits while the queue is full (R189). -/
def State.resetRequest (s : State) (t : Telegram) : State :=
  let r := s.mgmtReply t.source t.seq (replyOp t.body) .done []
  if s.replyRoom then s.placeReset r else { s with agent := { s.agent with phase := .placing r true } }

/-- RESET_PART (R189). -/
def execResetPart (s : State) : Host.Outcome State Fault Refusal :=
  match s.operation? with
  | some (t, .resetPart) => .next (s.serve t .resetPart fun s => s.resetRequest t)
  | _ => .next s

/-- REPLY_PLACE (R175). While the part stops, a reply whose queue is full is discarded (R186). -/
def execReplyPlace (s : State) : Host.Outcome State Fault Refusal :=
  match s.agent.phase with
  | .placing r reset =>
    if s.running then
      if s.replyRoom then .next (if reset then s.placeReset r else (s.pushReply r).agentNext)
      else .next (if s.stopping then s.agentNext else s)
    else .next s
  | _ => .next s

end Sys2Proof.Machine
end

