-- ==== Sys2Proof/Machine/Retention.lean ====
section
/-! DEFINITION. The Retention Unit (11, sections 11.4, 11.6, 11.7): supply monitor, freeze, quiesce, the counter and the start
sequence. -/

namespace Sys2Proof.Machine

/-- Change the Retention Unit alone. -/
def State.retain (s : State) (f : Retention → Retention) : State := { s with retention := f s.retention }

/-- The monitor goes to a state, with the main supply above the upper threshold or not. -/
def State.setMonitor (s : State) (m : Monitor) (ok : Bool) : State :=
  s.retain fun r => { r with monitor := m, supplyOk := ok }

/-- A quiesce has ended and its start follows at once (R189). -/
def State.startDue (s : State) : Bool :=
  match s.retention.quiesce with
  | some q => q.stopped
  | none => false

/-! ### The line break (R8) -/

/-- LINE_BREAK (R8, R189): the quiesce begins unless the part is already stopping or stopped. -/
def execLineBreak (s : State) : Host.Outcome State Fault Refusal :=
  if s.plant.rx = .brk ∧ s.lineReset ∧ s.live then .next (s.beginQuiesce .lineBreak 0) else .next s

/-! ### The supply monitor (R184) -/

/-- SUPPLY_FAIL (R184). -/
def execSupplyFail (s : State) : Host.Outcome State Fault Refusal :=
  if s.retention.monitor = .normal then .next (s.setMonitor .failPending false) else .next s

/-- SUPPLY_RECOVER (R184). -/
def execSupplyRecover (s : State) : Host.Outcome State Fault Refusal :=
  if s.retention.monitor = .failPending then .next (s.setMonitor .normal true) else .next s

/-- SUPPLY_RETURN (R184): out of FROZEN; during a freeze it is remembered (log entry 22). -/
def execSupplyReturn (s : State) : Host.Outcome State Fault Refusal :=
  match s.retention.monitor with
  | .frozen => .next (s.setMonitor .restorePending true)
  | .freezing => .next (s.setMonitor .freezing true)
  | _ => .next s

/-- SUPPLY_DROP (R184). -/
def execSupplyDrop (s : State) : Host.Outcome State Fault Refusal :=
  match s.retention.monitor with
  | .restorePending => .next (s.setMonitor .frozen false)
  | .freezing => .next (s.setMonitor .freezing false)
  | _ => .next s

/-- POWER_APPLIED (R184): the monitor begins in RESTORE-PENDING (log entry 21). -/
def execPowerApplied (s : State) : Host.Outcome State Fault Refusal :=
  if s.retention.monitor = .frozen then .next (s.setMonitor .restorePending true) else .next s

/-- BACKUP_LOSS (R187): the backup domain is left without either supply (log entries 21 and 28). -/
def execBackupLoss (s : State) : Host.Outcome State Fault Refusal :=
  if s.retention.monitor = .frozen then
    .next (s.retain fun r => { r with backupValid := false, checkValid := false })
  else .next s

/-- MONOTONIC_TICK (R179): the counter runs while either supply is present and holds at its top. -/
def execMonotonicTick (s : State) : Host.Outcome State Fault Refusal :=
  if s.retention.monitor = .frozen ∧ s.retention.backupValid = false then .next s
  else .next (s.retain fun r => { r with monotonic := satAdd Config.max32 r.monotonic 1 })

/-! ### Freeze and quiesce (R185, R189) -/

/-- FREEZE (R184, R185): it turns a quiesce in progress into a freeze (R189). A start that is due is not cut (R184). -/
def execFreeze (s : State) : Host.Outcome State Fault Refusal :=
  if s.retention.monitor = .failPending ∧ s.startDue = false then
    .next ((s.retain fun r => { r with monitor := .freezing, quiesce := none }).beginStop)
  else .next s

/-- Record the monotonic time in the freeze record. -/
def State.recordFreezeTime (s : State) : State := s.retain fun r => { r with freezeTime := r.monotonic }

/-- FREEZE_STOP (R185 step 3). FROZEN passes at once to RESTORE-PENDING if the supply has returned (R184). -/
def execFreezeStop (s : State) : Host.Outcome State Fault Refusal :=
  if s.retention.monitor = .freezing ∧ s.workEnded then
    .next (s.recordFreezeTime.recordStop.retain fun r =>
      { r with monitor := if r.supplyOk then .restorePending else .frozen, checkValid := true })
  else .next s

/-- The end of a quiesce's step 2: the freeze time is recorded, and the transmitters stop unless the reply of a RESET-PART
is still to be sent (R189). -/
def State.quiesceEnds (s : State) (q : Quiesce) : State :=
  let s1 := if q.timed then s else s.recordFreezeTime
  let q1 := { q with timed := true }
  if q.cause = .command ∧ s.resetReplyOut q then s1.setQuiesce (some q1) else s1.finishQuiesce q1

/-- QUIESCE_STOP (R189). -/
def execQuiesceStop (s : State) : Host.Outcome State Fault Refusal :=
  match s.retention.quiesce with
  | some q => if ¬q.stopped ∧ s.workEnded then .next (s.quiesceEnds q) else .next s
  | none => .next s

/-- MAIN_SUPPLY_LOSS (R185): the part stops before the check word is written. -/
def execMainSupplyLoss (s : State) : Host.Outcome State Fault Refusal :=
  match s.retention.monitor with
  | .normal | .failPending | .freezing =>
    .next (s.stopReceivers.stopTransmitters.retain fun r =>
      { r with monitor := .frozen, supplyOk := false, checkValid := false, quiesce := none })
  | _ => .next s

/-! ### The start sequence (R187, R188) -/

/-- The cause of a start. -/
inductive StartCause where
  | powerOn | supplyRestore | command | lineBreak
  deriving DecidableEq, Repr

/-- The start now due, with its cause (R187, R189). -/
def State.startCause? (s : State) : Option StartCause :=
  if s.retention.monitor = .restorePending then
    some (if s.retention.backupValid ∧ s.retention.checkValid then .supplyRestore else .powerOn)
  else
    match s.retention.quiesce with
    | some q => if q.stopped then some (match q.cause with | .command => .command | .lineBreak => .lineBreak) else none
    | none => none

/-- Step 1 at a POWER-ON start: flags, counter, offset and freeze record, and the retained state cleared (R187). -/
def State.clearRetained (s : State) : State :=
  { s with
    table := .empty
    zones := Vector.replicate 32 (.cleared 0)
    batches := Vector.replicate 16 none
    ruleCounters := Vector.replicate 64 0
    faultCounters := Vector.replicate 16 0
    mode := .setup
    tables := .default
    retention := { s.retention with
      monotonic := 0, offset := 0, freezeTime := 0, noticeLoss := 0
      flags := { powerOn := true, supplyRestore := false, command := false, lineBreak := false, retainedLost := true,
                 imageLost := false, timeUnset := true } } }

/-- Step 2 at a POWER-ON start: tables and mode from the image, or the defaults (R188). -/
def State.loadAtStart (s : State) : State :=
  match s.store.good? with
  | some t => { s with tables := t, mode := if t.invalid?.isNone then t.part.startMode else .setup }
  | none =>
    { s with
      tables := .default, mode := .setup
      retention := { s.retention with flags := { s.retention.flags with imageLost := true } } }

/-- Steps 1 and 2. -/
def State.startTables (s : State) : StartCause → State
  | .powerOn => s.clearRetained.loadAtStart
  | .supplyRestore => s.retain fun r => { r with flags := { r.flags with supplyRestore := true } }
  | .command => s.retain fun r => { r with flags := { r.flags with command := true } }
  | .lineBreak => s.retain fun r => { r with flags := { r.flags with lineBreak := true } }

/-- The start lost value (R172). -/
def State.startLost (s : State) : StartCause → Nat
  | .powerOn => 0
  | .supplyRestore => s.retention.noticeLoss
  | .command | .lineBreak => s.notices.loss

/-- The gap of the RESTART notice (R173). -/
def State.restartGap (s : State) : StartCause → Extra
  | .powerOn => .absent
  | _ => .seconds (s.now - s.retention.freezeTime)

/-- Step 3: the ports under R19, with the receivers disabled, and the blocks. -/
def State.startBlocks (s : State) : State :=
  let port := fun l : LinkSettings => { PortState.atStart l with rx := .disabled }
  { s with
    floor := port s.tables.part.floor
    plant := port s.tables.part.plant
    lineReset := s.tables.part.lineReset
    floorPref := .answer
    plantStreak := 0
    upRelay := [], downRelay := [], answers := [], replies := []
    engine := .atStart
    zoneWait := []
    batchWait := []
    agent := .atStart
    table := { s.table with records := s.table.records.map fun p => (p.1, { p.2 with held := false }) }
    store := { s.store with run := none, compared := false }
    agentRejects := 0
    ambientRejects := 0 }

/-- Step 4: the Notice Queue is emptied and RESTART is its first entry (R172, R173). -/
def State.startNotices (s : State) (c : StartCause) : State :=
  { s with
    notices :=
      { entries := [{ s.notice .restart true none none none none none (s.restartGap c) with
                      startLost := s.startLost c }]
        lost := 0, nextSeq := 0 } }

/-- The restart advance of a zone after a supply gap (R75 steps 1 to 3). -/
def Zone.gapAdvance (x : Zone) (blackout freezeTime restart : Nat) : Zone :=
  { (x.charge freezeTime).addWear blackout (restart - freezeTime) with lastAdvance := restart }

/-- The restart advance of one zone, with its pop (R75, R76). -/
def State.restartZone (c : StartCause) (s : State) (z : Fin 32) : State :=
  match c with
  | .powerOn => s
  | .supplyRestore =>
    (s.setZone z ((s.zone z).gapAdvance (s.tables.zone z).blackout s.retention.freezeTime s.now)).pop z
  | .command | .lineBreak => (s.setZone z ((s.zone z).charge s.now)).pop z

/-- Step 5, for each configured zone in ascending order. -/
def State.restartAdvance (s : State) (c : StartCause) : State := s.tables.configuredZones.foldl (State.restartZone c) s

/-- Step 6: every zone stale at its fallback rate (R77). -/
def State.restartZones (s : State) : State :=
  allZones.foldl (fun a z => a.setZone z ((a.zone z).setStale (a.tables.zone z).fallback)) s

/-- Step 7: the receivers are enabled, the overdue batches make their requests (R165; log entry 27), and the monitor is
NORMAL after a wait for the supply; the check word is void and the backup domain valid (R187). -/
def State.startEnable (s : State) : State :=
  let s1 := (List.finRange 16).foldl State.staleExpiry s
  { s1 with
    floor := { s1.floor with rx := .seek }
    plant := { s1.plant with rx := .seek }
    retention := { s1.retention with
      monitor := if s1.retention.monitor = .restorePending then .normal else s1.retention.monitor
      backupValid := true, checkValid := false, quiesce := none } }

/-- The start sequence (R188). The start lost value of a quiesce is that of the queue before it is emptied. -/
def State.start (s : State) (c : StartCause) : State :=
  (((((s.startTables c).startBlocks).startNotices c).restartAdvance c).restartZones).startEnable

/-- START_SEQUENCE (R188). -/
def execStartSequence (s : State) : Host.Outcome State Fault Refusal :=
  match s.startCause? with
  | some c => .next (s.start c)
  | none => .next s

end Sys2Proof.Machine
end

