-- ==== Sys2Proof/Machine/Dispatch.lean ====
section
/-! DEFINITION. The effect of each command on everything but the queue: one arm per row of spec/opcode_table.json. -/

namespace Sys2Proof.Machine

def exec (i : Instr) (s : State) : Host.Outcome State Fault Refusal :=
  match i with
  | .characterReceived port line => Sys2Proof.Machine.execCharacterReceived port line s
  | .breakDetected port => Sys2Proof.Machine.execBreakDetected port s
  | .breakEnd port => Sys2Proof.Machine.execBreakEnd port s
  | .lineBreak => Sys2Proof.Machine.execLineBreak s
  | .interCharacterTimeout port => Sys2Proof.Machine.execInterCharacterTimeout port s
  | .telegramSent port => Sys2Proof.Machine.execTelegramSent port s
  | .startingEnd port => Sys2Proof.Machine.execStartingEnd port s
  | .plantRoutingTake => Sys2Proof.Machine.execPlantRoutingTake s
  | .transactionTake => Sys2Proof.Machine.execTransactionTake s
  | .sampleIntake => Sys2Proof.Machine.execSampleIntake s
  | .carrierLookup => Sys2Proof.Machine.execCarrierLookup s
  | .ringSearch => Sys2Proof.Machine.execRingSearch s
  | .freeRecordProbe => Sys2Proof.Machine.execFreeRecordProbe s
  | .settleRequest => Sys2Proof.Machine.execSettleRequest s
  | .policyLookup => Sys2Proof.Machine.execPolicyLookup s
  | .commit => Sys2Proof.Machine.execCommit s
  | .commitRelist => Sys2Proof.Machine.execCommitRelist s
  | .create => Sys2Proof.Machine.execCreate s
  | .delete => Sys2Proof.Machine.execDelete s
  | .unlink => Sys2Proof.Machine.execUnlink s
  | .batchJoin => Sys2Proof.Machine.execBatchJoin s
  | .batchLeave => Sys2Proof.Machine.execBatchLeave s
  | .outputPlace => Sys2Proof.Machine.execOutputPlace s
  | .advanceTimerExpiry zone => Sys2Proof.Machine.execAdvanceTimerExpiry zone s
  | .timerRequest zone => Sys2Proof.Machine.execTimerRequest zone s
  | .staleTimerExpiry batch => Sys2Proof.Machine.execStaleTimerExpiry batch s
  | .bakeStale batch => Sys2Proof.Machine.execBakeStale batch s
  | .unknownOp => Sys2Proof.Machine.execUnknownOp s
  | .readStatus => Sys2Proof.Machine.execReadStatus s
  | .setMode => Sys2Proof.Machine.execSetMode s
  | .setTime => Sys2Proof.Machine.execSetTime s
  | .readRow => Sys2Proof.Machine.execReadRow s
  | .stationWrite => Sys2Proof.Machine.execStationWrite s
  | .partConfigurationWrite => Sys2Proof.Machine.execPartConfigurationWrite s
  | .zoneConfigurationWrite => Sys2Proof.Machine.execZoneConfigurationWrite s
  | .gridWrite => Sys2Proof.Machine.execGridWrite s
  | .classWrite => Sys2Proof.Machine.execClassWrite s
  | .policyTableWrite => Sys2Proof.Machine.execPolicyTableWrite s
  | .readRecord => Sys2Proof.Machine.execReadRecord s
  | .writeRecordClass => Sys2Proof.Machine.execWriteRecordClass s
  | .writeRecordConsumed => Sys2Proof.Machine.execWriteRecordConsumed s
  | .writeRecordBakeCount => Sys2Proof.Machine.execWriteRecordBakeCount s
  | .writeRecordRetire => Sys2Proof.Machine.execWriteRecordRetire s
  | .deleteRecord => Sys2Proof.Machine.execDeleteRecord s
  | .readZone => Sys2Proof.Machine.execReadZone s
  | .listZone => Sys2Proof.Machine.execListZone s
  | .readBatch => Sys2Proof.Machine.execReadBatch s
  | .clearRuleCounters => Sys2Proof.Machine.execClearRuleCounters s
  | .clearFaultCounters => Sys2Proof.Machine.execClearFaultCounters s
  | .saveImage => Sys2Proof.Machine.execSaveImage s
  | .saveImageComplete => Sys2Proof.Machine.execSaveImageComplete s
  | .loadImage => Sys2Proof.Machine.execLoadImage s
  | .loadImageReplace => Sys2Proof.Machine.execLoadImageReplace s
  | .compareImage => Sys2Proof.Machine.execCompareImage s
  | .compareImageComplete => Sys2Proof.Machine.execCompareImageComplete s
  | .clearStartCause => Sys2Proof.Machine.execClearStartCause s
  | .resetPart => Sys2Proof.Machine.execResetPart s
  | .replyPlace => Sys2Proof.Machine.execReplyPlace s
  | .supplyFail => Sys2Proof.Machine.execSupplyFail s
  | .supplyRecover => Sys2Proof.Machine.execSupplyRecover s
  | .freeze => Sys2Proof.Machine.execFreeze s
  | .freezeStop => Sys2Proof.Machine.execFreezeStop s
  | .quiesceStop => Sys2Proof.Machine.execQuiesceStop s
  | .supplyReturn => Sys2Proof.Machine.execSupplyReturn s
  | .supplyDrop => Sys2Proof.Machine.execSupplyDrop s
  | .powerApplied => Sys2Proof.Machine.execPowerApplied s
  | .backupLoss => Sys2Proof.Machine.execBackupLoss s
  | .startSequence => Sys2Proof.Machine.execStartSequence s
  | .monotonicTick => Sys2Proof.Machine.execMonotonicTick s
  | .zeroCharacterLineHigh port => Sys2Proof.Machine.execZeroCharacterLineHigh port s
  | .mainSupplyLoss => Sys2Proof.Machine.execMainSupplyLoss s

end Sys2Proof.Machine
end

