-- ==== Sys2Proof/Safety.lean ====
section
/-! DEFINITION. The terms of the statements: safe runs, runs of several commands, frames of the shared work, invariants. -/

namespace Sys2Proof.Machine

/-! ### Runs -/

/-- The step answers a next state. -/
def State.Progresses (s : State) : Prop := ∃ t, step s = .next t

/-- Run commands one after another, stopping at the first that answers no next state. -/
def runAll : List Instr → State → Host.Outcome State Fault Refusal
  | [], s => .next s
  | c :: cs, s =>
    match exec c s with
    | .next t => runAll cs t
    | o => o

/-! ### Frames -/

/-- Nothing changed but what a notice that arrives, or an output that is placed, may set going on the Plant side: the Notice
Queue, the reply and upstream relay queues, the relay streak and the state of the Plant transmitter. -/
def State.PlantFrame (s t : State) : Prop :=
  t = { s with
        plant := { s.plant with tx := t.plant.tx }, notices := t.notices, replies := t.replies, upRelay := t.upRelay,
        plantStreak := t.plantStreak }

/-- What of a record no Zone Engine request changes. -/
structure RecordCore where
  id : CarrierId
  cls : Fin 16
  bakeCount : Nat
  lastBakeShort : Bool
  memory : Option RepeatMemory
  bakePart : Option BakePart
  held : Bool
  deriving DecidableEq, Repr

def Record.core (r : Record) : RecordCore :=
  { id := r.id, cls := r.cls, bakeCount := r.bakeCount, lastBakeShort := r.lastBakeShort, memory := r.memory,
    bakePart := r.bakePart, held := r.held }

/-- The same record indices are in use, each with the same core. -/
def State.SameCores (s t : State) : Prop := ∀ i, (t.record? i).map Record.core = (s.record? i).map Record.core

/-- Nothing changed but the zones, the accounting fields of the records in use, the Zone Engine's queue, and the Plant side. -/
def State.ZoneFrame (s t : State) : Prop :=
  t = { s with
        table := { s.table with records := t.table.records }, zones := t.zones, zoneWait := t.zoneWait
        plant := { s.plant with tx := t.plant.tx }, notices := t.notices, replies := t.replies, upRelay := t.upRelay
        plantStreak := t.plantStreak } ∧
    s.SameCores t

/-- A zone without its watch list: its readings, conditions and clocks. -/
def Zone.air (x : Zone) : Zone := { x with watch := [] }

/-- Nothing changed but the Management Agent. -/
def State.AgentFrame (s t : State) : Prop := t = { s with agent := t.agent }

/-- The reply in the agent's hands, if it is placing one. -/
def State.replyHeld? (s : State) : Option Telegram :=
  match s.agent.phase with
  | .placing r _ => some r
  | _ => none

/-! ### Telegram bodies (02, sections 2.2 to 2.6) -/

/-- The kinds of a transaction, with the size of the body (02, section 2.2) and the offsets of the carrier IDs in it (02, section
2.3). -/
def bodyForms : List (Nat × Nat × List Nat) :=
  [(0x10, 12, [0]), (0x11, 9, [0]), (0x12, 9, [0]), (0x13, 9, [0]), (0x14, 9, [0]), (0x15, 9, [0]), (0x16, 9, [0]),
    (0x17, 9, [0]), (0x18, 17, [0, 8]), (0x19, 8, [0])]

/-- A body passes the check of R24: it has the size of its kind, and none of its carrier IDs is all ones. -/
abbrev PassesR24 (size : Nat) (ids : List Nat) (body : List Byte) : Prop :=
  body.length = size ∧ ∀ off ∈ ids, (body.drop off).take 8 ≠ List.replicate 8 0xFF

/-- The kinds whose body has a zone field that R25 resolves, with its offset (02, section 2.3). -/
def zoneOffsets : List (Nat × Nat) :=
  [(0x10, 9), (0x11, 8), (0x12, 8), (0x13, 8), (0x14, 8), (0x15, 8), (0x17, 8), (0x18, 16), (0x20, 0)]

/-- The working values of a telegram just taken (R127): the class of the station it comes from, and its zone byte, for 0xFF the
home zone of that station, which stays 0xFF where it has none (R25); nothing else is known yet. The zone of a telegram without a
zone field is left open. -/
def State.Taken (s : State) (t : Telegram) (w : Work) : Prop :=
  w =
      { tel := t, stationClass := (s.tables.station t.source).cls, zone := w.zone, held := none, created := none
        childFound := false, copy := none, fault := none, settled := none, figures := none, conditions := none
        lookup := none, verdict := none, commitMode := none, outcome := none, commitTime := 0, output := none } ∧
    ∀ off x, zoneOffsets.lookup t.kind.toNat = some off → t.body[off]? = some x →
      w.zone = if x = 0xFF then ((s.tables.station t.source).home.map Fin.val).getD 0xFF else x.toNat

/-- The carrier ID that a composed telegram reports of a transaction, of a SPLIT the parent ID; absent for a body that fails R24
(R24, R29). -/
def Telegram.reportedBytes (t : Telegram) : List Byte :=
  match bodyForms.lookup t.kind.toNat with
  | some (size, ids) => if PassesR24 size ids t.body then t.body.take 8 else List.replicate 8 0xFF
  | none => List.replicate 8 0xFF

/-- The REFUSAL of a transaction with a reason (R21, R29; 02, section 2.6). -/
def State.refusalBytes (s : State) (t : Telegram) (reason : Byte) : Telegram :=
  { dest := t.source, source := s.tables.part.own, kind := 0x30, seq := t.seq
    body := t.reportedBytes ++ [reason, t.kind, t.seq] }

/-- The annotated copy of a telegram: the kind plus 0x80, and behind the body the reason and the percent band, 0xFF where it is
absent (R28). -/
def Telegram.marked (t : Telegram) (reason : Byte) (band : Option Nat) : Telegram :=
  { t with kind := t.kind + 0x80, body := t.body ++ [reason, (band.map (BitVec.ofNat 8)).getD 0xFF] }

/-- A telegram repeats the transaction in a repeat memory: source, sequence and kind are all equal (R50). -/
abbrev Telegram.Repeats (t : Telegram) (m : RepeatMemory) : Prop := t.source = m.source ∧ t.seq = m.seq ∧ t.kind = m.kind

/-! ### Clocks and carriers -/

/-- W of a zone charged up to time `t` at the rate in force (R66 step 2). -/
def Zone.wearAt (x : Zone) (t : Nat) : Nat := min 281474976710655 (x.wear + x.rate * (t - x.lastAdvance))

/-- D of a zone charged up to time `t` (R66 step 3). -/
def Zone.dryAt (x : Zone) (t : Nat) : Nat := if x.dryOn then min 4294967295 (x.dry + (t - x.lastAdvance)) else x.dry

/-- From `s` to `t` the clocks of zone `z` were charged up to the present, as the zone stood (R66 steps 1 to 4), and a timer
request of the zone that waited is withdrawn (R68). -/
def State.Charged (s t : State) (z : Fin 32) : Prop :=
  (t.zone z).wear = (s.zone z).wearAt s.now ∧ (t.zone z).dry = (s.zone z).dryAt s.now ∧ (t.zone z).lastAdvance = s.now ∧
    ZoneRequest.timer z ∉ t.zoneWait

/-- The record at an index, where it has a zone part, is charged up to its zone's W, and no crossing is due (R80, R84). -/
def State.SettledAt (t : State) (i : Nat) : Prop :=
  ∀ r zp, t.record? i = some r → r.zonePart = some zp →
    zp.stamp = (t.zone zp.zone).wear ∧ r.cross? (t.classOf r) = none

/-- State and warn-issued flag that the crossings due leave, for a carrier in a zone with a state, a flag and a consumed
figure (R82, R84, R85). -/
def afterCrossings (c : ClassRow) (st : CarrierState) (warned : Bool) (consumed : Nat) : CarrierState × Bool :=
  match st with
  | .dry | .exposed =>
    if warned = false ∧ consumed < c.warnPoint then (st, false)
    else if consumed < c.budget then (st, true)
    else (.expired, true)
  | .mounted =>
    if warned = false ∧ consumed < c.warnPoint then (.mounted, false)
    else if consumed < c.budget then (.mounted, true)
    else if c.graceUnits = 0 ∨ c.budget + c.graceUnits ≤ consumed then (.expired, true)
    else (.overrun, true)
  | .overrun => if consumed < c.budget + c.graceUnits then (.overrun, warned) else (.expired, warned)
  | .baking | .expired | .retired => (st, warned)

/-- Watch key of a carrier by its state, flag, consumed and stamp (R82, R83). -/
def keyAt (c : ClassRow) (st : CarrierState) (warned : Bool) (consumed stamp : Nat) : Nat :=
  min 281474976710655 (stamp +
    ((if st = .overrun then c.budget + c.graceUnits else if warned then c.budget else c.warnPoint) - consumed))

/-- Consumed after a settlement against the zone the record stands in, as `t` leaves its wear clock (R80). -/
def State.settledConsumed (t : State) (r : Record) : Nat :=
  match r.zonePart with
  | some zp => min 4294967295 (r.consumed + ((t.zone zp.zone).wear - zp.stamp))
  | none => r.consumed

/-- Consumed of a carrier that goes from where it stands to a zone, or to none: settled, and credited for its dry time when
it leaves a DRY zone eligible (R80, R88). -/
def State.departedConsumed (t : State) (r : Record) (dest : Option (Fin 32)) : Nat :=
  t.settledConsumed r -
    match r.zonePart with
    | some zp =>
      if r.state = .dry ∧ dest ≠ some zp.zone ∧ r.eligible = true then
        ((t.zone zp.zone).dry - r.dryPart.getD (t.zone zp.zone).dry) * 64 / (t.tables.cls r.cls).ratio
      else 0
    | none => 0

/-- A settlement with its crossings makes `r'` of the record `r` (R80, R84, R85): with no zone part nothing; else it is
charged up to its zone's W, and has the state the crossings due leave it in its zone, or EXPIRED without one. The hold mark
is left open. -/
def State.Settles (t : State) (r r' : Record) : Prop :=
  match r.zonePart with
  | none => r' = { r with held := r'.held }
  | some zp =>
    ∃ (c : ClassRow) (x : CarrierState × Bool), c = t.tables.cls r.cls ∧
      x = afterCrossings c r.state r.warnIssued (t.settledConsumed r) ∧
      r' =
        if x.1 = .expired ∧ r.state ≠ .expired then
          { r with
            held := r'.held, consumed := t.settledConsumed r, state := x.1, warnIssued := x.2, zonePart := none
            dryPart := none, eligible := false }
        else
          { r with
            held := r'.held, consumed := t.settledConsumed r, state := x.1, warnIssued := x.2
            zonePart := some
              { zp with
                stamp := (t.zone zp.zone).wear
                key :=
                  if x = (r.state, r.warnIssued) then zp.key
                  else keyAt c x.1 x.2 (t.settledConsumed r) (t.zone zp.zone).wear } }

/-- An attach to zone `z` makes `r'` of the record at index `i` (R39, R86, R87, R94). `r` is the record as it comes there, its
state and consumed already those it brings, its zone part still that of the zone it left. -/
def State.Enters (t : State) (z : Fin 32) (i : Nat) (r r' : Record) : Prop :=
  ∃ (c : ClassRow) (x : CarrierState × Bool), c = t.tables.cls r.cls ∧
    x = afterCrossings c (if r.state = .overrun ∧ r.consumed < c.budget then .mounted else r.state)
      (r.warnIssued && decide (c.warnPoint ≤ r.consumed)) r.consumed ∧
    (if x.1 = .expired ∧ r.state ≠ .expired then
      r' = { r with state := x.1, warnIssued := x.2, zonePart := none, dryPart := none, eligible := false }
    else
      i ∈ (t.zone z).watch ∧
      r' =
        { r with
          state := x.1, warnIssued := x.2
          zonePart := some
            { zone := z, stamp := (t.zone z).wear, key := keyAt c x.1 x.2 r.consumed (t.zone z).wear
              entered :=
                match r.zonePart with
                | some zp => if zp.zone = z then zp.entered else t.now
                | none => t.now }
          dryPart :=
            if (t.tables.zone z).kind ≠ .dry then none
            else if r.zonePart.map ZonePart.zone = some z ∧ r.dryPart ≠ none then r.dryPart
            else some (t.zone z).dry
          eligible :=
            if (t.tables.zone z).kind ≠ .dry then false
            else if r.zonePart.map ZonePart.zone = some z ∧ r.dryPart ≠ none then r.eligible
            else decide (1 ≤ c.ratio) && decide (r.consumed ≤ c.ceiling * 3840) })

/-! ### Freshness, fusion and the grid -/

/-- `m` is the middle of three values placed in order (R63). -/
def IsMedian {α : Type} [LE α] (m a b c : α) : Prop := ∃ lo hi, lo ≤ m ∧ m ≤ hi ∧ [a, b, c].Perm [lo, m, hi]

/-- A reading slot of the zone is fresh: valid, and no older than the staleness limit (R63). -/
def Zone.HasFresh (x : Zone) (limit now : Nat) : Prop := ∃ sl ∈ x.slots.toList, sl.valid = true ∧ now - sl.arrival ≤ limit

/-- Step 5 of an advance to time `now` has left the zone so (R63 to R65): from its fresh slots the fused conditions, the bands,
and by them the rate and the dry condition; with no fresh slot it is stale at its fallback rate. -/
def Zone.Refreshed (x : Zone) (t : Tables) (cfg : ZoneConfig) (now : Nat) : Prop :=
  ∃ fresh : List Slot, fresh = (x.slots.toList.filter fun sl => sl.valid && decide (now - sl.arrival ≤ cfg.staleness)) ∧
    (fresh = [] → x.stale = true ∧ x.fused = none ∧ x.rate = cfg.fallback ∧ x.dryOn = false) ∧
    (fresh ≠ [] →
      x.stale = false ∧
      ∃ (f : Fused) (cell : GridCell), x.fused = some f ∧
        (∀ a, fresh = [a] → f.temp = a.temp ∧ f.rh = a.rh) ∧
        (∀ a b, fresh = [a, b] → f.temp = max a.temp b.temp ∧ f.rh = max a.rh b.rh) ∧
        (∀ a b c, fresh = [a, b, c] → IsMedian f.temp a.temp b.temp c.temp ∧ IsMedian f.rh a.rh b.rh c.rh) ∧
        f.rhBand = t.rhThresholds.toList.countP (fun v => decide (v ≤ f.rh)) ∧
        f.tempBand = t.tempThresholds.toList.countP (fun v => decide (v ≤ f.temp)) ∧
        t.grid[f.rhBand * 6 + f.tempBand]? = some cell ∧
        x.rate = cell.rate ∧ x.dryOn = (cfg.kind == .dry && cell.dry))

/-! ### Notices -/

/-- From `s` to `t` just these notices have arrived at the Notice Queue, in this order, and none was taken from it: the Plant
transmitter, which takes one at once when it is idle (log entry 10), is at work. -/
def State.Posted (s t : State) (l : List Notice) : Prop := s.plant.tx ≠ .idle → t.notices = l.foldl NoticeQueue.arrive s.notices

/-- A crossing notice that names no station: one that a pop, a rekey or a management write posts (R102). -/
def Notice.OfPop (n : Notice) : Prop :=
  n.station = none ∧ n.carrier ≠ none ∧ n.zone ≠ none ∧ (n.kind = .warn ∨ n.kind = .limit ∨ n.kind = .overrunEnd)

/-- A notice that an advance may post: of the stale flag, or of its pop (R67, R102). -/
def Notice.OfAdvance (n : Notice) : Prop :=
  n.OfPop ∨ (n.station = none ∧ n.carrier = none ∧ n.zone ≠ none ∧ (n.kind = .zoneStale ∨ n.kind = .zoneFresh))

/-- Notices an advance posts that passes over the record at an index, of the ID that no other record holds: none of them is of
that carrier (R56, R57; log entry 37). -/
def State.PopNoticesBut (s : State) (i : Nat) (id : CarrierId) (l : List Notice) : Prop :=
  (∀ n ∈ l, n.OfAdvance) ∧ ((∀ j r, s.record? j = some r → r.id = id → j = i) → ∀ n ∈ l, n.carrier ≠ some id)

/-- The notice of a change of a zone's stale flag (R67); `station` is the source of an accepted sample. -/
def State.staleNotices (s t : State) (z : Fin 32) (station : Option Byte) : List Notice :=
  if (s.zone z).stale = (t.zone z).stale then []
  else if (t.zone z).stale then
    [{ kind := .zoneStale, high := true, wallTime := s.wallTime, carrier := none, zone := some z, station := none
       percent := none, reason := none, extra := .absent, startLost := 0 }]
  else
    [{ kind := .zoneFresh, high := false, wallTime := s.wallTime, carrier := none, zone := some z, station := station
       percent := none, reason := none, extra := .absent, startLost := 0 }]

/-- The kinds of the notices that the crossings due post, in order, for a carrier in a zone (R84, R85). -/
def crossingKinds (c : ClassRow) (st : CarrierState) (warned : Bool) (consumed : Nat) : List NoticeKind :=
  match st with
  | .dry | .exposed =>
    if warned = false ∧ consumed < c.warnPoint then []
    else (if warned then [] else [.warn]) ++ (if consumed < c.budget then [] else [.limit])
  | .mounted =>
    if warned = false ∧ consumed < c.warnPoint then []
    else
      (if warned then [] else [.warn]) ++
        (if consumed < c.budget then []
        else if 0 < c.graceUnits ∧ c.budget + c.graceUnits ≤ consumed then [.limit, .overrunEnd]
        else [.limit])
  | .overrun => if consumed < c.budget + c.graceUnits then [] else [.overrunEnd]
  | .baking | .expired | .retired => []

/-- The notices of the crossings due for a carrier that comes to, or stands in, zone `z` with a state, a warn-issued flag and a
consumed figure (R85, R102). -/
def State.crossingNotices (s : State) (r : Record) (z : Fin 32) (st : CarrierState) (warned : Bool) (consumed : Nat)
    (station : Option Byte) : List Notice :=
  (crossingKinds (s.tables.cls r.cls) st warned consumed).map fun kind =>
    { kind := kind, high := decide (kind ≠ .warn), wallTime := s.wallTime, carrier := some r.id, zone := some z
      station := station, percent := some (min 255 (consumed * 100 / ((s.tables.cls r.cls).floorLife * 3840)))
      reason := none, extra := .absent, startLost := 0 }

/-- The notices of a settlement with its crossings, where `t` leaves the wear clock of the record's zone (R84, R85). -/
def State.settleNotices (s t : State) (r : Record) (station : Option Byte) : List Notice :=
  match r.zonePart with
  | some zp => s.crossingNotices r zp.zone r.state r.warnIssued (t.settledConsumed r) station
  | none => []

/-- The notices of an attach to zone `z`, of a record as it comes there: the crossings due once its passed thresholds have
been judged again (R86, R94). -/
def State.enterNotices (s : State) (r : Record) (z : Fin 32) (station : Option Byte) : List Notice :=
  s.crossingNotices r z
    (if r.state = .overrun ∧ r.consumed < (s.tables.cls r.cls).budget then .mounted else r.state)
    (r.warnIssued && decide ((s.tables.cls r.cls).warnPoint ≤ r.consumed)) r.consumed station

/-- The POLICY notice and the COPY notice of one outcome of a lookup (R120, R121); `copies` says that the action sends a
copy. -/
def State.policyNotices (s : State) (q : LookupRequest) (a : Action) (v : Verdict) (copies : Bool) : List Notice :=
  (if a.notice = .off then []
   else
    [{ kind := .policy, high := decide (a.notice = .high), wallTime := s.wallTime, carrier := some q.carrier
       zone := q.zone, station := some q.station, percent := some q.sources.pct, reason := some a.reason
       extra := .policy v, startLost := 0 }]) ++
    (if copies then
      [{ kind := .copy, high := false, wallTime := s.wallTime, carrier := some q.carrier, zone := q.zone
         station := some q.station, percent := some q.sources.pct, reason := some a.reason
         extra := .copy q.kind q.seq v, startLost := 0 }]
     else [])

/-! ### Checks and decisions -/

/-- The states in which a transaction of a kind is legal (R139). An OPEN has no record to judge. -/
def legalStates : TxKind → List CarrierState
  | .open_ => [.dry, .exposed, .mounted, .overrun, .baking, .expired, .retired]
  | .store => [.dry, .exposed, .expired]
  | .issue => [.dry, .expired]
  | .move => [.exposed, .expired]
  | .mount => [.dry, .exposed, .expired]
  | .demount => [.mounted, .overrun, .expired]
  | .bakeIn => [.dry, .exposed, .expired]
  | .bakeOut => [.baking]
  | .split => [.dry, .exposed, .mounted, .overrun, .expired]
  | .close => [.dry, .exposed, .mounted, .overrun, .expired, .retired]

/-- The zone kinds that suit a transaction kind which names a zone (R137, step 8). -/
def suitedKinds : TxKind → List ZoneKind
  | .store => [.dry]
  | .issue | .move => [.floor, .line]
  | .mount => [.line]
  | _ => [.floor, .dry, .line]

/-- The new state of a STORE, ISSUE, MOVE, MOUNT or DEMOUNT that places its carrier in a zone of the given kind (R139). -/
def zonedResult (k : TxKind) (st : CarrierState) (zk : ZoneKind) : Option CarrierState :=
  match k, st with
  | .store, .dry | .store, .exposed => some .dry
  | .issue, .dry => some .exposed
  | .move, .exposed => some .exposed
  | .mount, .dry | .mount, .exposed => some .mounted
  | .demount, .mounted => some (if zk = .dry then .dry else .exposed)
  | _, _ => none

/-- Kind of the zone a body names as the tables have it, and NONE for a zone that does not exist (R25, R137). -/
def State.bodyKind (s : State) (w : Work) : ZoneKind := ((zone? w.zone).map fun z => (s.tables.zone z).kind).getD .unset

/-- The working values of a transaction with a fault found at its commit: the outcome is fixed again with the commit reading of
the mode, REFUSED in ENFORCE and RELAYED-MARKED otherwise, and without a transition (R142, R149). -/
def Work.faultedAtCommit (w : Work) (f : FaultCode) : Work :=
  { w with
    fault := some f
    outcome := some
      { outcome := if w.commitMode = some .enforce then .refused else .relayedMarked, reason := some f.code
        transition := false } }

/-- The relist of a SPLIT whose transition is legal in the state its carrier now has waits: it will ask for a create (R139,
R146). -/
def State.SplitToCreate (s : State) : Prop :=
  s.engine.phase = .commitRelist ∧ ∃ w o i r, s.engine.work = some w ∧ TxKind.ofByte? w.tel.kind = some .split ∧
    w.outcome = some o ∧ o.transition = true ∧ w.held = some i ∧ s.record? i = some r ∧ r.state ∈ legalStates .split

/-- The decision reading and what it leads to (R128, R141): in SETUP the verdict MARK with UNCHECKED, and otherwise a lookup
whose key and source values are those of R110 to R114. -/
def State.Decides (s t : State) (w : Work) (k : TxKind) : Prop :=
  ∃ (target : Option (Fin 32)) (zk : ZoneKind) (carrier : CarrierState × Fin 16) (fields : KeyFields) (sources : Sources),
    target = (if k = .bakeIn ∨ k = .close then (w.settled.bind Record.zonePart).map ZonePart.zone else zone? w.zone) ∧
    zk = (w.conditions.map Conditions.kind).getD .unset ∧
    carrier =
      (match w.settled with
        | some r => (r.state, r.cls)
        | none => (if zk = .dry then .dry else .exposed, Fin.ofNat 16 (openClassOf w.tel))) ∧
    fields =
      { kind := k
        stationClass := (s.tables.station w.tel.source).cls
        station := w.tel.source
        zone := target
        zoneKind := zk
        state := carrier.1
        cls := carrier.2
        warnIssued := (w.settled.map Record.warnIssued).getD false
        eligible := (w.settled.map Record.eligible).getD false
        created := k == .open_ || k == .split
        zoneStale := target.isSome && (w.conditions.map Conditions.stale).getD false
        watchMode := s.mode == .watch } ∧
    sources =
      { pct := (w.figures.map Figures.pct).getD 0
        remaining := (w.figures.map Figures.remaining).getD 0
        dwell :=
          match w.settled.bind Record.zonePart with
          | some zp => min 65535 ((s.now - zp.entered) / 60)
          | none => 0
        bakeCount := (w.settled.map Record.bakeCount).getD 0
        zoneRh := w.conditions.bind Conditions.rh
        zoneTemp := w.conditions.bind Conditions.temp
        cls := carrier.2.val
        station := w.tel.source.toNat } ∧
    t.engine =
      (if s.mode = .setup then
        { s.engine with phase := .commitOpen, work := some { w with verdict := some (.mark, 0xFE) } }
      else
        { s.engine with
          phase := .deciding
          work := some
            { w with
              lookup := some
                { key := fields.key, sources := sources, carrier := carrierIdOf w.tel, zone := target
                  station := w.tel.source, kind := w.tel.kind, seq := w.tel.seq } } })

/-! ### Range checkers (R114, R115) -/

/-- The value a source supplies; none where it is unavailable. -/
def Sources.value? (v : Sources) : RangeSource → Option Int
  | .pct => some v.pct
  | .remaining => some v.remaining
  | .dwell => some v.dwell
  | .bakeCount => some v.bakeCount
  | .zoneRh => v.zoneRh.map Int.ofNat
  | .zoneTemp => v.zoneTemp
  | .cls => some v.cls
  | .station => some v.station

/-- The range bit of a checker is 1: its source value is available, and its two bounds hold it between them, as signed 16-bit
numbers for the temperature and as unsigned 16-bit numbers for every other source. -/
def CheckerRow.Admits (c : CheckerRow) (v : Sources) : Prop :=
  ∃ x, v.value? c.source = some x ∧
    if c.source = .zoneTemp then c.low.toInt ≤ x ∧ x ≤ c.high.toInt else (c.low.toNat : Int) ≤ x ∧ x ≤ c.high.toNat

/-! ### Request bodies and row images -/

/-- Operation codes with the bytes of their fixed arguments (02, section 2.7). -/
def requestArgs : List (Nat × Nat) :=
  [(0x01, 1), (0x02, 1), (0x03, 4), (0x04, 3), (0x05, 3), (0x06, 8), (0x07, 15), (0x08, 8), (0x09, 2), (0x0A, 3), (0x0B, 2),
    (0x0C, 2), (0x0D, 0), (0x0E, 0), (0x0F, 0), (0x10, 0), (0x11, 0)]

/-- Table codes with their numbers of rows (02, section 2.8). -/
def rowCounts : List (Nat × Nat) :=
  [(0x01, 255), (0x02, 32), (0x03, 48), (0x04, 2), (0x05, 16), (0x06, 128), (0x07, 8), (0x08, 2), (0x09, 1), (0x0A, 64),
    (0x0B, 16)]

/-- Tables that can be written, with the row sizes of row 0 and of the others (02, section 2.8). -/
def imageSizes : List (Nat × Nat × Nat) :=
  [(0x01, 2, 2), (0x02, 9, 9), (0x03, 3, 3), (0x04, 14, 10), (0x05, 19, 19), (0x06, 20, 20), (0x07, 5, 5), (0x08, 5, 5),
    (0x09, 10, 10)]

/-- The five bytes of an action are within their ranges (R34). -/
def actionInRange (b : List Byte) : Bool :=
  decide (natAt b 0 1 ≤ 2 ∧ 0x40 ≤ natAt b 1 1 ∧ natAt b 1 1 ≤ 0xFD ∧ natAt b 2 1 ≤ 2 ∧ natAt b 3 1 % 8 = 0 ∧ natAt b 4 1 ≤ 63)

/-- Every field of a row image of the right size is within its range (R34; 02, section 2.8). -/
def rowInRange (table row : Nat) (b : List Byte) : Bool :=
  match table with
  | 0x01 => decide (natAt b 0 1 ≤ 7 ∧ (natAt b 1 1 ≤ 31 ∨ natAt b 1 1 = 0xFF))
  | 0x02 =>
    decide (natAt b 0 1 ≤ 3 ∧ 10 ≤ natAt b 1 2 ∧ natAt b 1 2 ≤ 3600 ∧ 10 ≤ natAt b 3 2 ∧ natAt b 3 2 ≤ 600 ∧
      natAt b 5 2 ≤ 1023 ∧ natAt b 7 2 ≤ 1023)
  | 0x03 => decide (natAt b 0 2 ≤ 1023 ∧ natAt b 2 1 ≤ 1)
  | 0x04 => decide (row = 0 → ∀ i : Fin 7, natAt b (2 * i.val) 2 ≤ 1000)
  | 0x05 =>
    decide (natAt b 0 4 ≤ 600000 ∧ (natAt b 0 4 = 0 ∨ (50 ≤ natAt b 4 1 ∧ natAt b 4 1 ≤ 99)) ∧ natAt b 5 2 ≤ 1440 ∧
      natAt b 7 1 ≤ 32 ∧ natAt b 8 2 ≤ 10080 ∧ (∀ i : Fin 4, natAt b (10 + 2 * i.val) 2 ≤ 9999) ∧ natAt b 18 1 ≤ 15)
  | 0x06 => decide (natAt b 0 1 ≤ 1) && actionInRange (b.drop 15)
  | 0x07 => decide (natAt b 0 1 ≤ 7)
  | 0x08 => actionInRange b
  | 0x09 =>
    decide (natAt b 0 1 ≤ 254 ∧ natAt b 1 1 ≤ 254 ∧ natAt b 2 1 ≤ 2 ∧ natAt b 4 1 ≤ 1 ∧
      (natAt b 5 1 = 1 ∨ natAt b 5 1 = 2) ∧ natAt b 7 1 ≤ 1 ∧ (natAt b 8 1 = 1 ∨ natAt b 8 1 = 2) ∧ natAt b 9 1 ≤ 1)
  | _ => false

/-- Cases 4 to 7 of R32, for an operation with its argument bytes: the status that refuses it. -/
def argRefusal? (op : Nat) (a : List Byte) : Option MgmtStatus :=
  let bad (p : Bool) : Option MgmtStatus := if p then some .badValue else none
  match op with
  | 0x01 => bad (1 < natAt a 0 1)
  | 0x02 => bad (2 < natAt a 0 1)
  | 0x04 =>
    match rowCounts.lookup (natAt a 0 1) with
    | none => some .badTable
    | some n => if n ≤ natAt a 1 2 then some .badRow else none
  | 0x05 =>
    match imageSizes.lookup (natAt a 0 1), rowCounts.lookup (natAt a 0 1) with
    | some (first, other), some n =>
      if n ≤ natAt a 1 2 then some .badRow
      else if (a.drop 3).length ≠ (if natAt a 1 2 = 0 then first else other) then some .badValue
      else bad !rowInRange (natAt a 0 1) (natAt a 1 2) (a.drop 3)
    | _, _ => some .badTable
  | 0x07 =>
    bad (natAt a 8 1 = 0 || 0x0F < natAt a 8 1 || (natAt a 8 1 % 2 = 1 && 15 < natAt a 9 1) ||
      (natAt a 8 1 / 4 % 2 = 1 && 15 < natAt a 14 1))
  | 0x09 => bad (31 < natAt a 0 1 || 1 < natAt a 1 1)
  | 0x0A => bad (31 < natAt a 0 1)
  | 0x0B => bad (15 < natAt a 0 1 || 63 < natAt a 1 1)
  | 0x0C =>
    bad (1 < natAt a 0 1 || (natAt a 0 1 = 0 && 63 < natAt a 1 1 && natAt a 1 1 ≠ 0xFF) ||
      (natAt a 0 1 = 1 && 15 < natAt a 1 1 && natAt a 1 1 ≠ 0xFF))
  | _ => none

/-- The status with which R32 refuses a request body; none for a body that passes decoding. -/
def requestRefusal? (body : List Byte) : Option MgmtStatus :=
  match body with
  | [] => some .badValue
  | op :: a =>
    match requestArgs.lookup op.toNat with
    | none => some .unknownOp
    | some n => if a.length < n ∨ (n < a.length ∧ op ≠ 0x05) then some .badValue else argRefusal? op.toNat a

/-- The body of a request for an operation (02, section 2.7). The argument bytes that a WRITE-RECORD does not select are
those of `spare`. -/
def MgmtOp.body (spare : List Byte) : MgmtOp → List Byte
  | .readStatus page1 => [0x01] ++ beBytes 1 page1.toNat
  | .setMode m => [0x02] ++ beBytes 1 m.code
  | .setTime wall => [0x03] ++ beBytes 4 wall
  | .readRow table row => [0x04] ++ beBytes 1 table ++ beBytes 2 row
  | .writeRow w => [0x05] ++ beBytes 1 w.place.1 ++ beBytes 2 w.place.2 ++ w.image
  | .readRecord id => [0x06] ++ idBytes id
  | .writeRecord id w =>
    [0x07] ++ idBytes id ++
      beBytes 1 (w.cls.isSome.toNat + 2 * w.minutes.isSome.toNat + 4 * w.bakeCount.isSome.toNat + 8 * w.retire.toNat) ++
      beBytes 1 ((w.cls.map Fin.val).getD (natAt spare 0 1)) ++ beBytes 4 (w.minutes.getD (natAt spare 1 4)) ++
      beBytes 1 (w.bakeCount.getD (natAt spare 5 1))
  | .deleteRecord id => [0x08] ++ idBytes id
  | .readZone z page1 => [0x09] ++ beBytes 1 z.val ++ beBytes 1 page1.toNat
  | .listZone z pos => [0x0A] ++ beBytes 1 z.val ++ beBytes 2 pos
  | .readBatch b pos => [0x0B] ++ beBytes 1 b.val ++ beBytes 1 pos
  | .clearRules i => [0x0C, 0] ++ beBytes 1 ((i.map Fin.val).getD 0xFF)
  | .clearFaults i => [0x0C, 1] ++ beBytes 1 ((i.map Fin.val).getD 0xFF)
  | .saveImage => [0x0D]
  | .loadImage => [0x0E]
  | .compareImage => [0x0F]
  | .clearStartCause => [0x10]
  | .resetPart => [0x11]

/-! ### Requests -/

/-- The agent is executing a request that passes decoding as `op`. -/
def State.Serving (s : State) (t : Telegram) (op : MgmtOp) : Prop :=
  s.agent.phase = .executing t ∧ s.running = true ∧ decodeRequest t.body = .ok op

/-- The operations that only SETUP serves: a WRITE-ROW of the tables 0x02 to 0x08, and SAVE-, LOAD- and COMPARE-IMAGE (R176). -/
def MgmtOp.NeedsSetup (op : MgmtOp) : Prop :=
  (∃ w, op = .writeRow w ∧ 0x02 ≤ w.place.1 ∧ w.place.1 ≤ 0x08) ∨ op = .saveImage ∨ op = .loadImage ∨ op = .compareImage

/-- The operations that a running SAVE or COMPARE refuses, in a mode: any WRITE-ROW, SAVE-, LOAD- and COMPARE-IMAGE,
RESET-PART, and a SET-MODE that would leave SETUP (R176). -/
def MgmtOp.NeedsStore (op : MgmtOp) (m : Mode) : Prop :=
  (∃ w, op = .writeRow w) ∨ op = .saveImage ∨ op = .loadImage ∨ op = .compareImage ∨ op = .resetPart ∨
    (m = .setup ∧ (op = .setMode .watch ∨ op = .setMode .enforce))

/-- R176 refuses an operation, for the mode or for the store. -/
def State.Refuses (s : State) (op : MgmtOp) : Prop :=
  (op.NeedsSetup ∧ s.mode ≠ .setup) ∨ (op.NeedsStore s.mode ∧ s.store.run ≠ none)

/-- A request made to the Zone Engine now is taken at once: nothing waits before it. -/
def State.AgentTurn (s : State) : Prop := s.zoneWait.head? = none ∨ s.zoneWait.head? = some .agent

/-- A WRITE-RECORD or DELETE-RECORD of an ID made now is carried out at once: the agent has its turn at the Zone Engine, or
has no request waiting there and the record, if there is one, has no zone part (R56, R57; log entry 44). -/
def State.RecordTurn (s : State) (id : CarrierId) : Prop :=
  s.AgentTurn ∨
    (ZoneRequest.agent ∉ s.zoneWait ∧ ∀ i r, s.table.find? id = some (i, r) → r.zonePart = none)

/-- `v` is `s` with every configured zone advanced to the present, in ascending zone order, each with its notice and its pop, as
a timer request advances it, and with no request waiting (R66, R68, R105). -/
def State.AllAdvanced (s v : State) : Prop :=
  ∃ zs : List (Fin 32), zs = (List.finRange 32).filter (fun z => (s.tables.zone z).kind ≠ .unset) ∧
    runAll (zs.map fun z => .timerRequest z.val) { s with zoneWait := zs.map .timer } = .next v

/-- The notices of a rekey that follows the advances which left `v`, under the class rows of `u`: for each configured zone in
ascending order, and for each record of the class in list order, those of the crossings that fall due when the record, settled,
is attached to its zone again (R102, R105, R106). -/
def State.rekeyNotices (v u : State) (c : Fin 16) : List Notice :=
  ((List.finRange 32).filter fun z => (v.tables.zone z).kind ≠ .unset).flatMap fun z =>
    (((v.zone z).watch.filterMap v.record?).filter fun r => r.cls = c).flatMap fun r =>
      u.enterNotices { r with consumed := u.settledConsumed r } z none

/-! ### Management writes of a record (R53, R164) -/

/-- The class counts when a record of class `old` becomes one of class `new` (R53). -/
def CarrierTable.classMoved (t : CarrierTable) (old new : Fin 16) : Vector Nat 16 :=
  let less := t.classCounts.set old.val (t.classCounts[old.val] - 1)
  less.set new.val (less[new.val] + 1)

/-- From `s` to `u` the record at an index has left the batch of an oven, the first that stands there: the members behind it move
up and the batch's figures stay, and the batch is freed when its list empties (R162, R164). -/
def State.BatchLeft (s u : State) (oven : Byte) (i : Nat) : Prop :=
  ∀ (b : Fin 16) (x : Batch), s.batches[b.val] = some x → x.oven = oven →
    (∀ j : Fin 16, j < b → ∀ y, s.batches[j.val] = some y → y.oven ≠ oven) →
    (∀ before after, x.members = before ++ i :: after → i ∉ before → before ++ after ≠ [] →
      u.batches = s.batches.set b.val (some { x with members := before ++ after }) ∧ u.batchWait = s.batchWait) ∧
    (x.members = [i] →
      u.batches = s.batches.set b.val none ∧ u.batchWait = s.batchWait.filter fun n => n != b)

/-! ### Reply data (02, section 2.7) -/

/-- A field of a body: the number that `size` bytes from an offset spell, most significant first; an absent field is all-ones
bytes (00, sections 4.4 and 4.5). -/
def FieldAt (b : List Byte) (off size : Nat) (v : Option Nat) : Prop :=
  off + size ≤ b.length ∧
    ((b.drop off).take size).foldl (fun n x => n * 256 + x.toNat) 0 =
      match v with
      | some n => n % 256 ^ size
      | none => 256 ^ size - 1

/-- A body of the given length that carries the given fields, each by offset, size and value. -/
def LaidOut (b : List Byte) (length : Nat) (fields : List (Nat × Nat × Option Nat)) : Prop :=
  b.length = length ∧ ∀ f ∈ fields, FieldAt b f.1 f.2.1 f.2.2

/-- READ-STATUS page 0 (R174, R176, R180, R187). -/
def State.status0Fields (s : State) : List (Nat × Nat × Option Nat) :=
  [(0, 1, some ([Mode.setup, .watch, .enforce].idxOf s.mode)),
    (1, 1, some
      (s.retention.flags.powerOn.toNat + 2 * s.retention.flags.supplyRestore.toNat +
        4 * s.retention.flags.command.toNat + 8 * s.retention.flags.lineBreak.toNat +
        16 * s.retention.flags.retainedLost.toNat + 32 * s.retention.flags.imageLost.toNat +
        64 * s.retention.flags.timeUnset.toNat)),
    (2, 1, some s.store.compared.toNat),
    (3, 1, some
      (match s.store.run with
        | none => 0
        | some (.save _ _ _) => 1
        | some (.compare _ _) => 3)),
    (4, 4, some s.retention.monotonic), (8, 4, some ((s.retention.monotonic + s.retention.offset) % 4294967296)),
    (12, 1, some s.notices.lost), (13, 1, some s.notices.entries.length), (14, 2, some s.table.records.length),
    (16, 2, some s.table.poolFree.length), (18, 2, some s.ambientRejects), (20, 2, some s.agentRejects)]

/-- The nine error counts of a port from an offset, in the order of R18. -/
def PortCounts.fields (c : PortCounts) (off : Nat) : List (Nat × Nat × Option Nat) :=
  [(off, 2, some c.framing), (off + 2, 2, some c.noise), (off + 4, 2, some c.check), (off + 6, 2, some c.overrun),
    (off + 8, 2, some c.cut), (off + 10, 2, some c.stray), (off + 12, 2, some c.timeout), (off + 14, 2, some c.length),
    (off + 16, 2, some c.brk)]

/-- Code of a carrier state (02, section 2.5). -/
def stateNumber (st : CarrierState) : Nat :=
  1 + [CarrierState.dry, .exposed, .mounted, .overrun, .baking, .expired, .retired].idxOf st

/-- The record image, of a record at an index (R54). -/
def Record.imageFields (r : Record) (index : Nat) : List (Nat × Nat × Option Nat) :=
  [(0, 1, some r.cls.val), (1, 1, some (stateNumber r.state)), (2, 4, some r.consumed), (6, 1, some r.bakeCount),
    (7, 1, some (r.warnIssued.toNat + 2 * r.eligible.toNat + 4 * r.lastBakeShort.toNat)),
    (8, 1, r.memory.map fun m => m.source.toNat), (9, 1, r.memory.map fun m => m.seq.toNat),
    (10, 1, r.memory.map fun m => m.kind.toNat),
    (11, 1, r.memory.map fun m => [RepeatOutcome.relayed, .relayedMarked, .refused].idxOf m.outcome),
    (12, 1, (r.memory.bind RepeatMemory.reason).map BitVec.toNat), (13, 2, some index),
    (15, 1, r.zonePart.map fun x => x.zone.val), (16, 6, r.zonePart.map ZonePart.stamp),
    (22, 6, r.zonePart.map ZonePart.key), (28, 4, r.zonePart.map ZonePart.entered), (32, 4, r.dryPart),
    (36, 1, r.bakePart.map fun x => x.oven.toNat), (37, 1, r.bakePart.map fun x => x.tier.val),
    (38, 4, r.bakePart.map BakePart.entered), (42, 1, r.bakePart.map fun x => stateNumber x.preState)]

/-- READ-ZONE page 0, as a zone stands (R71). A zone of kind NONE shows itself stale at its fallback rate. -/
def State.zone0Fields (s : State) (z : Fin 32) : List (Nat × Nat × Option Nat) :=
  let x := s.zone z
  let kind := (s.tables.zone z).kind
  let fused := if kind = .unset then none else x.fused
  [(0, 1, some ([ZoneKind.unset, .floor, .dry, .line].idxOf kind)),
    (1, 2, fused.map fun f => (f.temp % 65536).toNat), (3, 2, fused.map Fused.rh),
    (5, 1, some (if kind = .unset then 1 else x.stale.toNat)),
    (6, 2, some (if kind = .unset then (s.tables.zone z).fallback else x.rate)),
    (8, 1, some (if kind = .unset then 0 else x.dryOn.toNat)), (9, 6, some x.wear), (15, 4, some x.dry),
    (19, 4, some x.lastAdvance), (23, 2, some x.watch.length), (25, 1, fused.map Fused.rhBand),
    (26, 1, fused.map Fused.tempBand)]

/-- One reading slot of READ-ZONE page 1, from an offset. -/
def Slot.fields (x : Slot) (off : Nat) : List (Nat × Nat × Option Nat) :=
  [(off, 2, if x.valid then some (x.temp % 65536).toNat else none), (off + 2, 2, if x.valid then some x.rh else none),
    (off + 4, 4, if x.valid then some x.arrival else none), (off + 8, 1, some x.valid.toNat)]

/-- READ-ZONE page 1. -/
def Zone.slotFields (x : Zone) : List (Nat × Nat × Option Nat) :=
  x.slots[0].fields 0 ++ x.slots[1].fields 9 ++ x.slots[2].fields 18

/-- READ-BATCH data from a list position: the fields of the batch, absent but for the counts where it is free, then up to 12
record indices (R156). -/
def BatchData (x : Option Batch) (pos : Nat) (b : List Byte) : Prop :=
  ∃ n, n = min 12 ((x.map fun x => x.members.length).getD 0 - pos) ∧
    LaidOut b (17 + 2 * n)
      [(0, 1, x.map fun x => x.oven.toNat), (1, 1, x.map fun x => x.tier.val), (2, 4, x.map Batch.openTime),
        (6, 1, some ((x.map fun x => x.members.length).getD 0)), (7, 4, x.map Batch.longest),
        (11, 4, x.map Batch.deadline), (15, 1, x.map fun x => x.stalePosted.toNat), (16, 1, some n)] ∧
    ∀ k m, k < n → x.bind (fun x => x.members[pos + k]?) = some m → FieldAt b (17 + 2 * k) 2 (some m)

/-- LIST-ZONE data from a list position, as a zone stands: the member count, the entries returned, and of each its ID, its watch
key and its consumed brought up to the zone's W (R104). -/
def State.ListData (s : State) (z : Fin 32) (pos : Nat) (b : List Byte) : Prop :=
  ∃ (l : List Nat) (n : Nat), l = (if (s.tables.zone z).kind = .unset then [] else (s.zone z).watch) ∧
    n = min 2 (l.length - pos) ∧
    LaidOut b (3 + 18 * n) [(0, 2, some l.length), (2, 1, some n)] ∧
    ∀ k i r zp, k < n → l[pos + k]? = some i → s.record? i = some r → r.zonePart = some zp →
      FieldAt b (3 + 18 * k) 8 (some r.id.toNat) ∧ FieldAt b (11 + 18 * k) 6 (some zp.key) ∧
        FieldAt b (17 + 18 * k) 4 (some (min 4294967295 (r.consumed + ((s.zone z).wear - zp.stamp))))

/-- The content of a NOTICE, offsets 0 to 5 and 7 to 22 (R31, R170; 02, sections 2.5 and 2.6). -/
def Notice.fields (n : Notice) : List (Nat × Nat × Option Nat) :=
  [(0, 1, some
      (1 + [NoticeKind.warn, .limit, .overrunEnd, .retired, .bakeShort, .bakeStale, .policy, .copy, .zoneStale, .zoneFresh,
        .restart].idxOf n.kind)),
    (1, 1, some n.high.toNat), (2, 4, some n.wallTime), (7, 8, n.carrier.map BitVec.toNat), (15, 1, n.zone.map Fin.val),
    (16, 1, n.station.map BitVec.toNat), (17, 1, n.percent), (18, 1, n.reason.map BitVec.toNat)] ++
  let verdict (v : Verdict) := some ([Verdict.pass, .mark, .hold].idxOf v)
  match n.extra with
  | .absent => [(19, 4, none)]
  | .policy v => [(19, 1, verdict v), (20, 3, none)]
  | .copy kind seq v => [(19, 1, some kind.toNat), (20, 1, some seq.toNat), (21, 1, verdict v), (22, 1, none)]
  | .seconds m => [(19, 4, some m)]

/-! ### Stops (R20, R74, R154, R186, R189) -/

/-- The part as a stop has begun and the agent is done, with `r` in the Retention Unit: the receivers stop and drop their open
telegrams, and of the requests that wait only the transaction's own remains (R20, R74, R165). -/
def State.atStop (s : State) (r : Retention) : State :=
  { s with
    floor := { s.floor with
      rx := .disabled, asm := { stage := .idle, skipping := s.floor.asm.skipping, noisy := false, timer := false } }
    plant := { s.plant with
      rx := .disabled, asm := { stage := .idle, skipping := s.plant.asm.skipping, noisy := false, timer := false } }
    zoneWait := s.zoneWait.filter fun q => q == .engine
    batchWait := []
    agent := { phase := .idle, completion := none }
    retention := r }

/-- The engine is idle. -/
def State.engineAtRest (s : State) : State := { s with engine := { s.engine with phase := .idle, work := none } }

/-- A request in EXECUTING is with the agent alone: decoding or R176 refuses it, or no other block carries it out (R186; log
entry 20). -/
def State.AgentAlone (s : State) (t : Telegram) : Prop :=
  match decodeRequest t.body with
  | .error _ => True
  | .ok op =>
    s.Refuses op ∨
      match op with
      | .readStatus _ | .setMode _ | .setTime _ | .clearFaults _ | .clearStartCause | .resetPart => True
      | .readRow table _ => table ∉ [0x06, 0x07, 0x08, 0x0A]
      | .writeRow (.station _ _) | .writeRow (.part _) => True
      | .writeRow (.cls c row) => s.table.classCounts[c.val] = 0 ∨ row.floorLife = 0
      | _ => False

/-- A command begins a stop, whatever the engine and the agent are at: the receivers are stopped, `r` stands in the Retention
Unit and no timer's request waits at the Batch Table (R20, R165). With the engine neither OFFERING nor PLACING and the agent idle
the part is at its stop. An engine in OFFERING stops with its sample withdrawn; one in PLACING places its output, or
discards it at a full queue (R154). The agent keeps a request it executes alone, and gets rid of another without a reply; in
PLACING its reply is placed, or discarded at a full queue (R186). That a RESET-PART's reply begins no quiesce of its own is log
entry 53, and what becomes of a completion reply that waits is log entry 55. -/
def State.StopBegins (c : Instr) (s : State) (r : Retention) : Prop :=
  (∃ u, exec c s = .next u ∧ u.retention = r ∧ u.floor.rx = .disabled ∧ u.plant.rx = .disabled ∧ u.batchWait = []) ∧
  (s.engine.phase ≠ .offering → s.engine.phase ≠ .placing →
    (s.agent.phase = .idle → s.agent.completion = none → exec c s = .next (s.atStop r)) ∧
    ∀ t, s.agent.phase = .executing t → s.AgentAlone t → exec c s = .next { s.atStop r with agent := s.agent }) ∧
  (s.engine.phase = .offering → exec c s = exec c { s.engineAtRest with zoneWait := [] }) ∧
  (∀ u, s.engine.phase = .placing → exec .outputPlace s = .next u → exec c s = exec c u.engineAtRest) ∧
  (((∃ t, s.agent.phase = .executing t ∧ ¬s.AgentAlone t) ∨ (∃ t, s.agent.phase = .loading t) ∨
      ∃ t k row, s.agent.phase = .rekeying t k row) →
    exec c s = exec c
      { s with
        engine := { s.engine with pause := false }, agent := { phase := .idle, completion := s.agent.completion } }) ∧
  (∀ t, s.agent.phase = .placing t true →
    exec c s = exec c { s with agent := { s.agent with phase := .placing t false } }) ∧
  (∀ t u, s.agent.phase = .placing t false → s.engine.phase ≠ .placing → s.replies.length < 4 →
    exec .replyPlace s = .next u → exec c s = exec c u) ∧
  (∀ t, s.agent.phase = .placing t false → s.engine.phase ≠ .placing → 4 ≤ s.replies.length →
    exec c s = exec c { s with agent := { s.agent with phase := .idle } }) ∧
  ∀ x, s.agent.phase = .idle → s.agent.completion = some x →
    exec c s = exec c
      { s with
        agent := { phase := .placing (s.mgmtReply x.source x.seq x.op x.status []) false, completion := none } }

/-- The command that serves an operation which R176 may refuse. -/
def MgmtOp.command? : MgmtOp → Option Instr
  | .setMode _ => some .setMode
  | .writeRow (.station _ _) => some .stationWrite
  | .writeRow (.part _) => some .partConfigurationWrite
  | .writeRow (.zone _ _) => some .zoneConfigurationWrite
  | .writeRow (.grid _ _) | .writeRow (.rh _) | .writeRow (.temp _) => some .gridWrite
  | .writeRow (.cls _ _) => some .classWrite
  | .writeRow _ => some .policyTableWrite
  | .saveImage => some .saveImage
  | .loadImage => some .loadImage
  | .compareImage => some .compareImage
  | .resetPart => some .resetPart
  | _ => none

/-! ### Invariants -/

/-- Every queue is within its size (R14; 01, section 1.6; R166; R51), and the lost count and the relay streak within theirs
(R166, R17). -/
structure State.QueuesBounded (s : State) : Prop where
  floor : s.floor.queue.length ≤ 8
  plant : s.plant.queue.length ≤ 4
  upRelay : s.upRelay.length ≤ 16
  downRelay : s.downRelay.length ≤ 16
  answers : s.answers.length ≤ 16
  replies : s.replies.length ≤ 4
  notices : s.notices.entries.length ≤ 32
  ring : s.table.ring.length ≤ 16
  lost : s.notices.lost ≤ 255
  streak : s.plantStreak ≤ 8

/-- The error counts of a port are 16-bit counts (R18). -/
structure PortCounts.Bounded (c : PortCounts) : Prop where
  framing : c.framing ≤ 65535
  noise : c.noise ≤ 65535
  check : c.check ≤ 65535
  overrun : c.overrun ≤ 65535
  cut : c.cut ≤ 65535
  stray : c.stray ≤ 65535
  timeout : c.timeout ≤ 65535
  length : c.length ≤ 65535
  brk : c.brk ≤ 65535

/-- The class rows keep consumed within its width: floor life and grace are within the ranges of a row image (R34; 02,
section 2.8). -/
def Tables.ClassesBounded (t : Tables) : Prop :=
  ∀ c : Fin 16, t.classes[c.val].floorLife ≤ 600000 ∧ t.classes[c.val].grace ≤ 1440

/-- The class rows wherever they stand: in the tables in use, in the image, in the copy of a SAVE that runs or waits, and in the
write whose rekey waits. -/
structure State.ClassesBounded (s : State) : Prop where
  tables : s.tables.ClassesBounded
  image : ∀ x, s.store.image = some x → x.contents.ClassesBounded
  run : ∀ copy source seq, s.store.run = some (.save copy source seq) → copy.ClassesBounded
  copy : ∀ copy, s.agent.copy = some copy → copy.ClassesBounded
  rekeying : ∀ t c row, s.agent.phase = .rekeying t c row → row.floorLife ≤ 600000 ∧ row.grace ≤ 1440

/-- Every count and clock is within its width (R18, R23, R37, R60, R61, R123, R151, R179). -/
structure State.CountsBounded (s : State) : Prop where
  floor : s.floor.counts.Bounded
  plant : s.plant.counts.Bounded
  ambient : s.ambientRejects ≤ 65535
  agent : s.agentRejects ≤ 65535
  rules : ∀ i : Fin 64, s.ruleCounters[i.val] ≤ 4294967295
  faults : ∀ i : Fin 16, s.faultCounters[i.val] ≤ 4294967295
  wear : ∀ z : Fin 32, s.zones[z.val].wear ≤ 281474976710655
  dry : ∀ z : Fin 32, s.zones[z.val].dry ≤ 4294967295
  monotonic : s.retention.monotonic ≤ 4294967295
  offset : s.retention.offset ≤ 4294967295
  loss : s.retention.noticeLoss ≤ 255
  classes : s.ClassesBounded
  consumed : ∀ i r, s.record? i = some r → r.consumed ≤ 4294967295
  bakeCount : ∀ i r, s.record? i = some r → r.bakeCount ≤ 15

/-- The carrier table is in its one canonical form: keys rising, and no empty chain listed. -/
structure CarrierTable.Canonical (t : CarrierTable) : Prop where
  records : KeysRising t.records
  chains : KeysRising t.chains
  nonempty : ∀ p ∈ t.chains, p.2 ≠ []

/-- Number of free ways (R41). -/
def CarrierTable.freeWays (t : CarrierTable) : Nat :=
  ((List.range 3072).filter fun i => (lookupKey t.records i).isNone).length

/-- Number of records in use of a class (R53). -/
def CarrierTable.countOf (t : CarrierTable) (c : Fin 16) : Nat := (t.records.filter fun p => p.2.cls == c).length

/-- The structure state of the carrier table agrees with its records (R41, R53). -/
structure CarrierTable.Right (t : CarrierTable) : Prop where
  canonical : t.Canonical
  indices : ∀ i r, lookupKey t.records i = some r → i < 4096
  once : t.poolFree.Nodup
  pool : ∀ i, i ∈ t.poolFree ↔ 3072 ≤ i ∧ i < 4096 ∧ lookupKey t.records i = none
  total : t.records.length + t.freeWays + t.poolFree.length = 4096
  classes : ∀ c : Fin 16, t.classCounts[c.val] = t.countOf c

/-- Every record in use stands in the set of its ID, in one of its ways or on its overflow chain, and a chain holds just such
records, each once (R40, R41). No two records hold one ID, the ID that an OPEN or SPLIT on its way to a create brings is absent (R44), and
the transaction that waits for a create of its own is an OPEN (R145). -/
structure State.PlacesRight (s : State) : Prop where
  table : s.table.Right
  placed : ∀ i r, s.record? i = some r →
    (i < 3072 ∧ i / 3 = setIndex r.id) ∨ i ∈ s.table.chainOf (setIndex r.id)
  chained : ∀ set i, i ∈ s.table.chainOf set → 3072 ≤ i ∧ ∃ r, s.record? i = some r ∧ setIndex r.id = set
  once : ∀ set, (s.table.chainOf set).Nodup
  single : ∀ i j r q, s.record? i = some r → s.record? j = some q → r.id = q.id → i = j
  opening : ∀ w i r, s.engine.work = some w → s.record? i = some r →
    (s.engine.phase = .commitCreate ∨ (TxKind.ofByte? w.tel.kind = some .open_ ∧ w.fault = none ∧
      (s.engine.phase = .settling ∨ s.engine.phase = .probe ∨ s.engine.phase = .deciding ∨
        s.engine.phase = .commitOpen))) →
    r.id ≠ carrierIdOf w.tel
  splitting : ∀ w i r, s.engine.work = some w → s.record? i = some r → TxKind.ofByte? w.tel.kind = some .split →
    ((s.engine.phase = .commitRelist ∧ w.outcome.any CommitOutcome.transition = true) ∨ (w.fault = none ∧
      (s.engine.phase = .settling ∨ s.engine.phase = .probe ∨ s.engine.phase = .deciding ∨
        s.engine.phase = .commitOpen))) →
    r.id ≠ childIdOf w.tel
  creating : ∀ w, s.engine.phase = .commitCreate → s.engine.work = some w → TxKind.ofByte? w.tel.kind = some .open_

/-- The states of a carrier that stands in a zone (R38, R93). -/
def CarrierState.inZone : CarrierState → Bool
  | .dry | .exposed | .mounted | .overrun => true
  | .baking | .expired | .retired => false

/-- A CLOSE has unlinked the record at an index and is about to delete it (R99). -/
def State.Unlinked (s : State) (i : Nat) : Prop := s.engine.phase = .commitDelete ∧ ∃ w, s.engine.work = some w ∧ w.held = some i

/-- An OPEN has created the record at an index and is about to attach it (R145). -/
def State.Created (s : State) (i : Nat) : Prop :=
  s.engine.phase = .commitRelist ∧ ∃ w o, s.engine.work = some w ∧ TxKind.ofByte? w.tel.kind = some .open_ ∧
    w.outcome = some o ∧ o.transition = true ∧ w.created = some i

/-- The part may have stopped, or begun to, with its retained domain kept: its work has ended (R185, R189). -/
def State.StopKept (s : State) : Prop :=
  ((s.retention.monitor = .frozen ∨ s.retention.monitor = .restorePending) ∧ s.retention.checkValid = true) ∨
    ∃ q, s.retention.quiesce = some q ∧ (q.timed = true ∨ q.stopped = true)

/-- The watch lists and the carrier records agree (R38, R93): a record is in a list exactly when its state is one of a zone,
and then in that of the zone it names, once, in the order of the keys. A record that a commit is about to attach or to delete
is the one exception. -/
structure State.ListsRight (s : State) : Prop where
  table : s.table.Right
  once : ∀ z : Fin 32, (s.zone z).watch.Nodup
  ordered : ∀ z : Fin 32, (s.zone z).watch.Pairwise fun i j => s.keyOf i ≤ s.keyOf j
  member : ∀ (z : Fin 32) i, i ∈ (s.zone z).watch →
    ∃ r zp, s.record? i = some r ∧ r.zonePart = some zp ∧ zp.zone = z ∧ (r.state = .dry ↔ (s.tables.zone z).kind = .dry)
  listed : ∀ i r, s.record? i = some r → r.state.inZone = true → ¬s.Unlinked i → ¬s.Created i →
    ∃ zp, r.zonePart = some zp ∧ i ∈ (s.zone zp.zone).watch
  zoned : ∀ i r, s.record? i = some r → r.zonePart ≠ none → r.state.inZone = true
  baking : ∀ i r, s.record? i = some r → r.bakePart ≠ none → r.state = .baking
  held : ∀ i w r, s.engine.work = some w → w.held = some i → s.record? i = some r → r.held = true
  unlinked : ∀ i z, s.Unlinked i → i ∉ (s.zone z).watch
  created : ∀ i r, s.Created i → s.record? i = some r → r.zonePart = none ∧ r.bakePart = none
  creating : ∀ w, s.engine.phase = .commitCreate → s.engine.work = some w →
    TxKind.ofByte? w.tel.kind = some .open_ ∧ ∃ o, w.outcome = some o ∧ o.transition = true
  stopped : s.StopKept → s.engine.phase = .idle

/-- The record at an index is a member of the open batch of an oven. -/
def State.InBatch (s : State) (oven : Byte) (i : Nat) : Prop :=
  ∃ (b : Fin 16) (x : Batch), s.batches[b.val] = some x ∧ x.oven = oven ∧ i ∈ x.members

/-- An oven's open batch has room, or there is none and a batch record is free (R157). -/
def State.BatchRoom (s : State) (oven : Byte) : Prop :=
  (∃ (b : Fin 16) (x : Batch), s.batches[b.val] = some x ∧ x.oven = oven ∧ x.members.length < 64) ∨
    ((∀ (b : Fin 16) (x : Batch), s.batches[b.val] = some x → x.oven ≠ oven) ∧ ∃ b : Fin 16, s.batches[b.val] = none)

/-- The engine holds record `i` in a transaction of a kind whose checks have passed, before its relist or delete. -/
def State.Passed (s : State) (k : TxKind) (w : Work) (i : Nat) (r : Record) : Prop :=
  s.engine.work = some w ∧ TxKind.ofByte? w.tel.kind = some k ∧ w.held = some i ∧ s.record? i = some r ∧ w.fault = none ∧
    (s.engine.phase = .probe ∨ s.engine.phase = .deciding ∨ s.engine.phase = .commitOpen ∨
      s.engine.phase = .commitRelist ∨ s.engine.phase = .commitUnlink ∨ s.engine.phase = .commitDelete)

/-- The record at an index waits for its batch to be updated: its BAKE-IN is about to join it, or its BAKE-OUT to leave. -/
def State.BatchDue (s : State) (p : EnginePhase) (i : Nat) : Prop :=
  s.engine.phase = p ∧ ∃ w, s.engine.work = some w ∧ w.held = some i

/-- The open batches and the carrier records agree (R155): no two batches name one oven; each has 1 to 64 members, each once;
a record in BAKING is a member of the batch of its oven, and of no other, and every member is such a record. A record whose
batch a commit is about to update is the one exception. -/
structure State.BatchesRight (s : State) : Prop where
  ovens : ∀ (a b : Fin 16) (x y : Batch), s.batches[a.val] = some x → s.batches[b.val] = some y → x.oven = y.oven → a = b
  size : ∀ (b : Fin 16) (x : Batch), s.batches[b.val] = some x → x.members ≠ [] ∧ x.members.length ≤ 64 ∧ x.members.Nodup
  member : ∀ (b : Fin 16) (x : Batch) i, s.batches[b.val] = some x → i ∈ x.members →
    ∃ r, s.record? i = some r ∧ ((∃ bp, r.bakePart = some bp ∧ bp.oven = x.oven) ∨ s.BatchDue .commitLeave i)
  baking : ∀ i r bp, s.record? i = some r → r.bakePart = some bp → s.InBatch bp.oven i ∨ s.BatchDue .commitJoin i
  single : ∀ (a b : Fin 16) (x y : Batch) i, s.batches[a.val] = some x → s.batches[b.val] = some y → i ∈ x.members →
    i ∈ y.members → a = b
  joining : ∀ w i r, s.engine.phase = .commitJoin → s.engine.work = some w → w.held = some i → s.record? i = some r →
    (∀ oven, ¬s.InBatch oven i) ∧ ∃ bp, r.bakePart = some bp ∧ s.BatchRoom bp.oven
  leaving : ∀ w i, s.engine.phase = .commitLeave → s.engine.work = some w → w.held = some i →
    ∃ r r0 bp, s.record? i = some r ∧ r.bakePart = none ∧ w.settled = some r0 ∧ r0.bakePart = some bp ∧
      s.InBatch bp.oven i
  bakeIn : ∀ w i r, s.Passed .bakeIn w i r → s.BatchRoom w.tel.source
  bakeOut : ∀ w i r, s.Passed .bakeOut w i r → r.bakePart = w.settled.bind Record.bakePart
  close : ∀ w i r, s.Passed .close w i r → r.bakePart = none
  deleting : ∀ w, (s.engine.phase = .commitUnlink ∨ s.engine.phase = .commitDelete) → s.engine.work = some w →
    TxKind.ofByte? w.tel.kind = some .close ∧ w.fault = none
  relisted : ∀ w o, (s.engine.phase = .commitCreate ∨ s.engine.phase = .commitRelist) → s.engine.work = some w →
    w.outcome = some o → o.transition = true → w.fault = none

/-- An idle transmitter has nothing waiting (R15). -/
structure State.IdleMeansEmpty (s : State) : Prop where
  floor : s.floor.tx = .idle → s.answers = [] ∧ s.downRelay = []
  plant : s.plant.tx = .idle → s.replies = [] ∧ s.upRelay = [] ∧ s.notices.entries = []

end Sys2Proof.Machine
end

