-- ==== Sys2Proof/WellFormed.lean ====
section
/-! DEFINITION. Which commands name something that exists: 32 zones and 16 batch records. -/

namespace Sys2Proof

/-- A command that names a zone names one of 0..31 (04); one that names a batch names one of 0..15 (R155). Every other
operand is well formed by its type. -/
def Instr.WellFormed (i : Instr) : Bool :=
  match i with
  | .advanceTimerExpiry z => decide (z < 32)
  | .timerRequest z => decide (z < 32)
  | .staleTimerExpiry b => decide (b < 16)
  | .bakeStale b => decide (b < 16)
  | _ => true

end Sys2Proof
end

