-- ==== Sys2Proof/Certificates/Slice0/Obligations.lean ====
section
/-! DEFINITION. The statements about the model, for the provers. -/

section

open Sys2Proof Sys2Proof.Machine

/-! ### The part as a whole -/

/-- The command at the front of the queue takes place, with the queue's rest: a command is one step of chapter 95. The queue
is the model's (log entry 4), and so is it that nothing happens when it is empty (log entry 3). -/
def Obligations.StepRunsFrontCommand : Prop :=
  (∀ (c : Instr) (rest : List Instr) (s : State), s.pending = c :: rest → step s = exec c { s with pending := rest }) ∧
    ∀ s : State, s.pending = [] → step s = .next s

/-- Every command whose zone or batch exists answers a next state; the others fault, which is the model's. No command changes
the queue of commands; the monotonic counter falls only at a POWER-ON start (R179); the mode changes only by SET-MODE or at a
POWER-ON start (R177). -/
def Obligations.EveryCommandGoesOn : Prop :=
  ∀ (c : Instr) (s : State),
    (c.WellFormed = true → ∃ t, exec c s = .next t) ∧
    (c.WellFormed = false → exec c s = .fault .noSuchZone ∨ exec c s = .fault .noSuchBatch) ∧
    ∀ t, exec c s = .next t →
      t.pending = s.pending ∧
      (s.retention.monotonic ≤ 4294967295 → t.retention.monotonic < s.retention.monotonic →
        c = .startSequence ∧ s.startCause? = some .powerOn) ∧
      (t.mode ≠ s.mode → c = .setMode ∨ (c = .startSequence ∧ s.startCause? = some .powerOn))

/-! ### The station link -/

/-- A false start is dropped, and an address character or a data character outside a telegram is taken (R5, R9, R11, R12). A
low stop bit is a framing error that gives up an open telegram, and an all-zero character becomes a break or ends (R6, R7); the
timeout gives up an open telegram (R13), and the length character decides what follows it (R9). -/
def Obligations.CharactersAndLineErrors : Prop :=
  (∀ (port : LinkPort) (line : LineChar) (s : State), (s.port port).rx = .seek →
    (line.start.majority = true → exec (.characterReceived port line) s = .next s) ∧
    (line.start.majority = false → line.stop.majority = true → line.mark.majority = true →
      exec (.characterReceived port line) s = .next (s.setPort port
        { (s.port port) with
          asm := { stage := .header line.char.data [], skipping := false, noisy := line.noisy, timer := true }
          counts :=
            if (s.port port).asm.stage.isOpen then
              { (s.port port).counts with cut := min 65535 ((s.port port).counts.cut + 1) }
            else (s.port port).counts })) ∧
    (line.start.majority = false → line.stop.majority = true → line.mark.majority = false →
      (s.port port).asm.stage = .idle →
      exec (.characterReceived port line) s = .next (s.setPort port
        { (s.port port) with
          counts :=
            if (s.port port).asm.skipping then (s.port port).counts
            else { (s.port port).counts with stray := min 65535 ((s.port port).counts.stray + 1) } }))) ∧
  ∀ (port : LinkPort) (s : State),
    (∀ line : LineChar, (s.port port).rx = .seek → line.start.majority = false → line.stop.majority = false →
      exec (.characterReceived port line) s = .next (s.setPort port
        { (s.port port) with
          rx := if line.allZero then .char else .seek
          asm :=
            if (s.port port).asm.stage.isOpen then
              { stage := .idle, skipping := true, noisy := false, timer := false }
            else (s.port port).asm
          counts :=
            { (s.port port).counts with framing := min 65535 ((s.port port).counts.framing + 1) } })) ∧
    ((s.port port).rx = .char →
      exec (.breakDetected port) s = .next (s.setPort port
        { (s.port port) with
          rx := .brk
          counts := { (s.port port).counts with brk := min 65535 ((s.port port).counts.brk + 1) } })) ∧
    ((s.port port).rx = .char →
      exec (.zeroCharacterLineHigh port) s = .next (s.setPort port { (s.port port) with rx := .seek })) ∧
    ((s.port port).rx = .brk →
      exec (.breakEnd port) s = .next (s.setPort port { (s.port port) with rx := .seek })) ∧
    ((s.port port).rx = .seek →
      ((s.port port).asm.timer = true →
        exec (.interCharacterTimeout port) s = .next (s.setPort port
          { (s.port port) with
            asm := { stage := .idle, skipping := true, noisy := false, timer := false }
            counts := { (s.port port).counts with timeout := min 65535 ((s.port port).counts.timeout + 1) } })) ∧
      ∀ (line : LineChar) (dest source kind seq : Byte),
        line.start.majority = false → line.stop.majority = true → line.mark.majority = false →
        (s.port port).asm.stage = .header dest [source, kind, seq] →
        (48 < line.char.data.toNat →
          exec (.characterReceived port line) s = .next (s.setPort port
            { (s.port port) with
              asm := { stage := .idle, skipping := true, noisy := false, timer := false }
              counts := { (s.port port).counts with length := min 65535 ((s.port port).counts.length + 1) } })) ∧
        (line.char.data.toNat ≤ 48 →
          exec (.characterReceived port line) s = .next (s.setPort port
            { (s.port port) with
              asm :=
                { stage :=
                    if line.char.data.toNat = 0 then
                      .check { dest := dest, source := source, kind := kind, seq := seq, body := [] } none
                    else
                      .body { dest := dest, source := source, kind := kind, seq := seq, body := [] } line.char.data.toNat
                  skipping := (s.port port).asm.skipping
                  noisy := (s.port port).asm.noisy || line.noisy
                  timer := true } })))

/-- The second check character: a telegram that fails its check is discarded and counted; a good one is queued, or lost as
an overrun, and counted once if it was noisy (R10, R14, R18). -/
def Obligations.CheckWordDecides : Prop :=
  ∀ (port : LinkPort) (line : LineChar) (s : State) (tel : Telegram) (high : Byte),
    (s.port port).rx = .seek → line.start.majority = false → line.stop.majority = true → line.mark.majority = false →
    (s.port port).asm.stage = .check tel (some high) →
    (high ++ line.char.data ≠ crc16 tel.bytes →
      exec (.characterReceived port line) s = .next (s.setPort port
        { (s.port port) with
          asm := { stage := .idle, skipping := false, noisy := false, timer := false }
          counts := { (s.port port).counts with check := min 65535 ((s.port port).counts.check + 1) } })) ∧
    (high ++ line.char.data = crc16 tel.bytes →
      exec (.characterReceived port line) s = .next (s.setPort port
        { (s.port port) with
          asm := { stage := .idle, skipping := false, noisy := false, timer := false }
          queue :=
            if (s.port port).queue.length < receiveCap port then (s.port port).queue ++ [tel] else (s.port port).queue
          counts :=
            { (s.port port).counts with
              noise :=
                if (s.port port).asm.noisy || line.noisy then min 65535 ((s.port port).counts.noise + 1)
                else (s.port port).counts.noise
              overrun :=
                if (s.port port).queue.length < receiveCap port then (s.port port).counts.overrun
                else min 65535 ((s.port port).counts.overrun + 1) } }))

/-- The characters a transmitter sends for a telegram are the ones a receiver makes that telegram of (R1, R4, R9, R10, R15):
sent on a clean line they end in the telegram queued, whatever the assembler held before. -/
def Obligations.TelegramReceivedWhole : Prop :=
  ∀ (port : LinkPort) (s : State) (tel : Telegram), (s.port port).rx = .seek → tel.body.length ≤ 48 →
    runAll (tel.chars.map fun c => .characterReceived port c.line) s = .next (s.setPort port
      { (s.port port) with
        asm := { stage := .idle, skipping := false, noisy := false, timer := false }
        queue :=
          if (s.port port).queue.length < receiveCap port then (s.port port).queue ++ [tel] else (s.port port).queue
        counts :=
          { (s.port port).counts with
            cut :=
              if (s.port port).asm.stage.isOpen then min 65535 ((s.port port).counts.cut + 1)
              else (s.port port).counts.cut
            overrun :=
              if (s.port port).queue.length < receiveCap port then (s.port port).counts.overrun
              else min 65535 ((s.port port).counts.overrun + 1) } })

/-! ### The transmitters -/

/-- The Floor transmitter that ends a telegram, or leaves STARTING, chooses under R16. -/
def Obligations.FloorTransmitterChooses : Prop :=
  ∀ (c : Instr) (s : State),
    ((c = .telegramSent .floor ∧ ∃ src chars, s.floor.tx = .sending src chars) ∨
      (c = .startingEnd .floor ∧ s.floor.tx = .starting)) →
    (s.answers = [] → s.downRelay = [] →
      exec c s = .next { s with floor := { s.floor with tx := .idle }, floorPref := .answer }) ∧
    (∀ a as, s.answers = a :: as → (s.downRelay = [] ∨ s.floorPref = .answer ∨ c = .startingEnd .floor) →
      exec c s = .next
        { s with floor := { s.floor with tx := .sending .answer a.chars }, answers := as, floorPref := .relay }) ∧
    ∀ d ds, s.downRelay = d :: ds → (s.answers = [] ∨ (s.floorPref = .relay ∧ c = .telegramSent .floor)) →
      exec c s = .next
        { s with floor := { s.floor with tx := .sending .downRelay d.chars }, downRelay := ds, floorPref := .answer }

/-- The Plant transmitter that ends a telegram, or leaves STARTING, chooses under R17. The NOTICE of a chosen notice has the
addresses then in force, the next sequence number, the lost field of R170 at offset 6 and the content of the entry at the others
(R31, R170; section 2.6). The entry nearest the head of its priority is the one chosen and the one removed, and the others stay in
order (R169). -/
def Obligations.PlantTransmitterChooses : Prop :=
  (∀ (c : Instr) (s : State),
    ((c = .telegramSent .plant ∧ s.retention.quiesce = none ∧ ∃ src chars, s.plant.tx = .sending src chars) ∨
      (c = .startingEnd .plant ∧ s.plant.tx = .starting)) →
    (∀ n, s.notices.oldest? false = some n →
      (s.plantStreak = 8 ∨ (s.notices.oldest? true = none ∧ s.replies = [] ∧ s.upRelay = [])) →
      exec c s = .next
        { s with
          plant := { s.plant with tx := .sending .notice (s.notices.telegram s.tables.part n).chars }
          notices := s.notices.take false, plantStreak := 0 }) ∧
    (¬(s.plantStreak = 8 ∧ (s.notices.oldest? false).isSome = true) →
      (∀ n, s.notices.oldest? true = some n →
        exec c s = .next
          { s with
            plant := { s.plant with tx := .sending .notice (s.notices.telegram s.tables.part n).chars }
            notices := s.notices.take true, plantStreak := 0 }) ∧
      (∀ r rest, s.notices.oldest? true = none → s.replies = r :: rest →
        exec c s = .next
          { s with plant := { s.plant with tx := .sending .reply r.chars }, replies := rest, plantStreak := 0 }) ∧
      (∀ u rest, s.notices.oldest? true = none → s.replies = [] → s.upRelay = u :: rest →
        exec c s = .next
          { s with
            plant := { s.plant with tx := .sending .upRelay u.chars }, upRelay := rest
            plantStreak := if (s.notices.oldest? false).isSome = true then s.plantStreak + 1 else 0 })) ∧
    (s.notices.oldest? true = none → s.notices.oldest? false = none → s.replies = [] → s.upRelay = [] →
      exec c s = .next { s with plant := { s.plant with tx := .idle } })) ∧
  ∀ (q : NoticeQueue) (part : PartConfig) (n : Notice) (high : Bool),
    (q.telegram part n).dest = part.supervisor ∧ (q.telegram part n).source = part.own ∧
      (q.telegram part n).kind = 0x40 ∧ (q.telegram part n).seq = q.nextSeq ∧
      LaidOut (q.telegram part n).body 23 n.fields ∧
      FieldAt (q.telegram part n).body 6 1 (some (min 255 (n.startLost + q.lost))) ∧
      (q.oldest? high = none ↔ ∀ e ∈ q.entries, e.high ≠ high) ∧
      (q.oldest? high = some n ↔
        ∃ before after, q.entries = before ++ n :: after ∧ n.high = high ∧ ∀ e ∈ before, e.high ≠ high) ∧
      ∀ before after, q.entries = before ++ n :: after → n.high = high → (∀ e ∈ before, e.high ≠ high) →
        q.take high = { entries := before ++ after, lost := 0, nextSeq := q.nextSeq + 1 }

/-- A low notice waits for at most eight upstream relays (R17): once `8 - streak` of them have gone, it goes next. -/
def Obligations.LowNoticeWaitsAtMostEight : Prop :=
  ∀ (s : State) (n : Notice) (src : TxSource) (chars : List LinkChar),
    s.plant.tx = .sending src chars → s.retention.quiesce = none → s.notices.oldest? true = none → s.replies = [] →
    s.notices.oldest? false = some n → s.plantStreak ≤ 8 → 8 - s.plantStreak ≤ s.upRelay.length →
    runAll (List.replicate (9 - s.plantStreak) (.telegramSent .plant)) s = .next
      { s with
        plant := { s.plant with tx := .sending .notice (s.notices.telegram s.tables.part n).chars }
        notices := s.notices.take false, upRelay := s.upRelay.drop (8 - s.plantStreak), plantStreak := 0 }

/-- An arrival at a full Notice Queue displaces the oldest low notice, or is discarded among 32 high ones; the lost count
counts either (R168). With room it is appended (R167); the queue never passes 32, and an arrival after the Plant transmitter's
choice finds room (R168). -/
def Obligations.NoticeArrives : Prop :=
  ∀ (q : NoticeQueue) (n : Notice),
    (q.entries.length < 32 → q.arrive n = { q with entries := q.entries ++ [n] }) ∧
    (32 ≤ q.entries.length →
      (∀ before low after, q.entries = before ++ low :: after → low.high = false → (∀ e ∈ before, e.high = true) →
        q.arrive n = { q with entries := before ++ after ++ [n], lost := min 255 (q.lost + 1) }) ∧
      ((∀ e ∈ q.entries, e.high = true) → q.arrive n = { q with lost := min 255 (q.lost + 1) })) ∧
    (q.entries.length ≤ 32 →
      (q.arrive n).entries.length ≤ 32 ∧
        ∀ high, (q.oldest? high).isSome = true →
          (q.take high).arrive n = { q.take high with entries := (q.take high).entries ++ [n] })

/-! ### Routing -/

/-- The plant routing places the head of the Plant receive queue, or leaves it waiting there (R23). A SAVE-IMAGE takes its copy
of the tables with the request (R181), and a LOAD-IMAGE that R176 lets through raises the pause (R182; log entry 35). An idle
Floor transmitter sends what it is given in the same step, with preference ANSWER (R15, R16; log entry 10); its queues are
empty then, which `IdleMeansEmpty` says. -/
def Obligations.PlantRoutingTakes : Prop :=
  ∀ (s : State) (tel : Telegram) (rest : List Telegram), s.plant.queue = tel :: rest → s.live = true →
    (tel.dest = s.tables.part.own → tel.kind = 0x50 → s.agent.phase = .idle → s.agent.completion = none →
      (decodeRequest tel.body = .ok .saveImage →
        exec .plantRoutingTake s = .next
          { s with
            plant := { s.plant with queue := rest }
            agent := { phase := .executing tel, completion := none, copy := some s.tables } }) ∧
      (decodeRequest tel.body = .ok .loadImage → s.mode = .setup → s.store.run = none →
        exec .plantRoutingTake s = .next
          { s with
            plant := { s.plant with queue := rest }
            engine := { s.engine with pause := true }
            agent := { phase := .executing tel, completion := none, copy := none } }) ∧
      (decodeRequest tel.body ≠ .ok .saveImage →
        (decodeRequest tel.body ≠ .ok .loadImage ∨ s.mode ≠ .setup ∨ s.store.run ≠ none) →
        exec .plantRoutingTake s = .next
          { s with
            plant := { s.plant with queue := rest }
            agent := { phase := .executing tel, completion := none, copy := none } })) ∧
    (tel.dest = s.tables.part.own → tel.kind = 0x50 → (s.agent.phase ≠ .idle ∨ s.agent.completion ≠ none) →
      exec .plantRoutingTake s = .next s) ∧
    (tel.dest = s.tables.part.own → tel.kind ≠ 0x50 →
      exec .plantRoutingTake s = .next
        { s with plant := { s.plant with queue := rest }, agentRejects := min 65535 (s.agentRejects + 1) }) ∧
    (tel.dest ≠ s.tables.part.own → s.downRelay.length < 16 → s.floor.tx ≠ .idle →
      exec .plantRoutingTake s = .next
        { s with plant := { s.plant with queue := rest }, downRelay := s.downRelay ++ [tel] }) ∧
    (tel.dest ≠ s.tables.part.own → s.floor.tx = .idle → s.answers = [] → s.downRelay = [] →
      exec .plantRoutingTake s = .next
        { s with
          plant := { s.plant with queue := rest }
          floor := { s.floor with tx := .sending .downRelay tel.chars }
          floorPref := .answer }) ∧
    (tel.dest ≠ s.tables.part.own → 16 ≤ s.downRelay.length → exec .plantRoutingTake s = .next s)

/-- The engine takes the head of the Floor receive queue and classifies it (R22), with steps 1 and 2 of the checks (R132): the
class of the sending station, and the length and the all-ones IDs of the body (R24). The working values hold the body's zone byte,
or the home zone of the station in place of 0xFF (R25), and nothing later. A QUERY that fails R24, and any other telegram to the
part, has an ANSWER without a carrier (R30). The bodies have the fields of section 2.3 at their offsets. -/
def Obligations.TransactionTakeRoutes : Prop :=
  (∀ (s u : State) (tel : Telegram) (rest : List Telegram),
    s.floor.queue = tel :: rest → s.live = true → s.engine.phase = .idle → s.engine.pause = false →
    u = { s with floor := { s.floor with queue := rest } } →
    ∃ w, s.Taken tel w ∧
      (tel.dest = s.tables.part.own → tel.kind = 0x1A → PassesR24 8 [0] tel.body →
        exec .transactionTake s = .next { u with engine := { s.engine with phase := .lookup, work := some w } }) ∧
      (tel.dest = s.tables.part.own → tel.kind = 0x1A → ¬PassesR24 8 [0] tel.body →
        exec .transactionTake s = .next
          { u with
            faultCounters := s.faultCounters.set 0 (min 4294967295 (s.faultCounters[0] + 1))
            engine := { s.engine with
              phase := .placing
              work := some { w with
                output := some
                  { queue := .answer
                    tel :=
                      { dest := tel.source, source := s.tables.part.own, kind := 0x31, seq := tel.seq
                        body := 0x01 :: List.replicate 17 0xFF } } } } }) ∧
      (tel.dest = s.tables.part.own → tel.kind ≠ 0x1A →
        exec .transactionTake s = .next
          { u with
            faultCounters := s.faultCounters.set 15 (min 4294967295 (s.faultCounters[15] + 1))
            engine := { s.engine with
              phase := .placing
              work := some { w with
                output := some
                  { queue := .answer
                    tel :=
                      { dest := tel.source, source := s.tables.part.own, kind := 0x31, seq := tel.seq
                        body := 0x10 :: List.replicate 17 0xFF } } } } }) ∧
      (∀ size ids, tel.dest ≠ s.tables.part.own → bodyForms.lookup tel.kind.toNat = some (size, ids) →
        ((s.tables.station tel.source).cls = .unassigned →
          exec .transactionTake s = .next
            { u with
              engine := { s.engine with phase := .commitOpen, work := some { w with fault := some .stationUnknown } } }) ∧
        ((s.tables.station tel.source).cls ≠ .unassigned → ¬PassesR24 size ids tel.body →
          exec .transactionTake s = .next
            { u with
              engine := { s.engine with phase := .commitOpen, work := some { w with fault := some .malformed } } }) ∧
        ((s.tables.station tel.source).cls ≠ .unassigned → PassesR24 size ids tel.body →
          exec .transactionTake s = .next { u with engine := { s.engine with phase := .lookup, work := some w } })) ∧
      (tel.dest ≠ s.tables.part.own → tel.kind = 0x20 → tel.body.length = 6 →
        exec .transactionTake s = .next
          { u with
            engine := { s.engine with phase := .offering, work := some w }, zoneWait := s.zoneWait ++ [.engine] }) ∧
      (tel.dest ≠ s.tables.part.own → tel.kind = 0x20 → tel.body.length ≠ 6 →
        exec .transactionTake s = .next
          { u with
            ambientRejects := min 65535 (s.ambientRejects + 1)
            engine := { s.engine with
              phase := .placing, work := some { w with output := some { queue := .upRelay, tel := tel } } } }) ∧
      (tel.dest ≠ s.tables.part.own → bodyForms.lookup tel.kind.toNat = none → tel.kind ≠ 0x20 →
        exec .transactionTake s = .next
          { u with
            engine := { s.engine with
              phase := .placing, work := some { w with output := some { queue := .upRelay, tel := tel } } } })) ∧
  (∀ (t : Tables) (i : Fin 255), t.station (BitVec.ofNat 8 i.val) = t.stations[i.val]) ∧
  (∀ n (z : Fin 32), zone? n = some z ↔ n = z.val) ∧
  (∀ kind k, TxKind.ofByte? kind = some k ↔
    kind.toNat = 0x10 + [TxKind.open_, .store, .issue, .move, .mount, .demount, .bakeIn, .bakeOut, .split, .close].idxOf k) ∧
  ∀ t : Telegram,
    (8 ≤ t.body.length → FieldAt t.body 0 8 (some (carrierIdOf t).toNat)) ∧
    (16 ≤ t.body.length → FieldAt t.body 8 8 (some (childIdOf t).toNat)) ∧
    (9 ≤ t.body.length → FieldAt t.body 8 1 (some (openClassOf t)) ∧ FieldAt t.body 8 1 (some (tierOf t))) ∧
    (12 ≤ t.body.length → FieldAt t.body 10 2 (some (openMinutesOf t)))

/-- A sample is accepted when zone, slot, station class and configuration allow it (R61): the clocks are charged before the
slot is written, and the zone is fresh after it, with the conditions fused from its fresh slots and the rate and dry condition
of their cell (R62 to R66); a ZONE-FRESH names the sample's source, ahead of the notices of the pop (R67), and a timer request of
the zone that waits is withdrawn (R68). Otherwise the reject count counts it. Either way the AMBIENT goes on to be relayed unchanged (R129). -/
def Obligations.SampleIntakeTaken : Prop :=
  ∀ (s : State) (w : Work),
    s.engine.phase = .offering → s.engine.work = some w → s.live = true → s.zoneWait.head? = some .engine →
    ((zone? w.zone = none ∨ 3 ≤ (byteAt w.tel.body 1).toNat ∨ (s.tables.station w.tel.source).cls ≠ .sensor ∨
        (∃ z, zone? w.zone = some z ∧ (s.tables.zone z).kind = .unset)) →
      exec .sampleIntake s = .next
        { s with
          zoneWait := s.zoneWait.tail
          ambientRejects := min 65535 (s.ambientRejects + 1)
          engine := { s.engine with
            phase := .placing, work := some { w with output := some { queue := .upRelay, tel := w.tel } } } }) ∧
    (∀ (z : Fin 32) (slot : Fin 3), zone? w.zone = some z → (byteAt w.tel.body 1).toNat = slot.val →
      (s.tables.station w.tel.source).cls = .sensor → (s.tables.zone z).kind ≠ .unset →
      ∃ t, exec .sampleIntake s = .next t ∧
        t.engine = { s.engine with
          phase := .placing, work := some { w with output := some { queue := .upRelay, tel := w.tel } } } ∧
        State.ZoneFrame { s with engine := t.engine } t ∧
        s.Charged t z ∧ t.zoneWait = (s.zoneWait.tail.filter fun q => q != .timer z) ∧
        (t.zone z).slots = (s.zone z).slots.set slot.val
          { temp := max (-400) (min 1250 (tempAt w.tel.body 2)), rh := min 1000 (natAt w.tel.body 4 2),
            arrival := s.now, valid := true } ∧
        (t.zone z).stale = false ∧ (t.zone z).Refreshed s.tables (s.tables.zone z) s.now ∧
        (∃ l, (∀ n ∈ l, n.OfPop ∧ (s.ListsRight → n.zone = some z)) ∧
          s.Posted t (s.staleNotices t z (some w.tel.source) ++ l)) ∧
        ∀ y, y ≠ z → (t.zone y).air = (s.zone y).air)

/-! ### The carrier table -/

/-- The lookup: a carrier that is found is held, unless the telegram repeats its last transaction; an absent one is a fault, but
for an OPEN, which goes on, and a CLOSE, which searches the ring (R42, R47, R130, R133 to R135). A telegram is a repeat when its
source, sequence and kind are those of the memory (R50). A repeated OPEN is re-issued from the copy its lookup takes (R47, R135).
That a SPLIT's child ID is looked up in the same step is log entry 56. -/
def Obligations.CarrierLookupDecides : Prop :=
  ∀ (s : State) (w : Work), s.engine.phase = .lookup → s.engine.work = some w → s.running = true →
    (∀ i r, TxKind.ofByte? w.tel.kind = none → s.table.find? (carrierIdOf w.tel) = some (i, r) →
      exec .carrierLookup s = .next
        { s with
          table := (s.setHold i true).table, zoneWait := s.zoneWait ++ [.engine]
          engine := { s.engine with phase := .settling, work := some { w with held := some i } } }) ∧
    (TxKind.ofByte? w.tel.kind = none → s.table.find? (carrierIdOf w.tel) = none →
      exec .carrierLookup s = .next
        { s with
          faultCounters := s.faultCounters.set 3 (min 4294967295 (s.faultCounters[3] + 1))
          engine := { s.engine with
            phase := .placing
            work := some { w with
              output := some
                { queue := .answer
                  tel :=
                    { dest := w.tel.source, source := s.tables.part.own, kind := 0x31, seq := w.tel.seq
                      body := [0x04] ++ idBytes (carrierIdOf w.tel) ++ List.replicate 9 0xFF } } } } }) ∧
    (TxKind.ofByte? w.tel.kind = some .open_ → s.table.find? (carrierIdOf w.tel) = none →
      exec .carrierLookup s = .next
        { s with
          zoneWait := s.zoneWait ++ [.engine], engine := { s.engine with phase := .settling, work := some w } }) ∧
    (∀ i r, TxKind.ofByte? w.tel.kind = some .open_ → s.table.find? (carrierIdOf w.tel) = some (i, r) →
      (∀ m, r.memory = some m → ¬w.tel.Repeats m) →
      exec .carrierLookup s = .next
        { s with
          engine := { s.engine with
            phase := .commitOpen
            work := some { w with
              copy := some { cls := r.cls, consumed := r.consumed, memory := r.memory }
              fault := some .duplicateId } } }) ∧
    (∀ i r m, TxKind.ofByte? w.tel.kind = some .open_ → s.table.find? (carrierIdOf w.tel) = some (i, r) →
      r.memory = some m → w.tel.Repeats m →
      ∃ t w', exec .carrierLookup s = .next t ∧ t = { s with engine := t.engine } ∧ t.engine.phase = .placing ∧
        t.engine.work = some w' ∧ w'.held = w.held ∧
        w'.copy = some { cls := r.cls, consumed := r.consumed, memory := r.memory } ∧
        w'.output = some (
          if m.outcome = .relayed then { queue := .upRelay, tel := w.tel }
          else if m.outcome = .refused ∧ s.mode = .enforce then
            { queue := .answer, tel := s.refusalBytes w.tel (m.reason.getD 0xFF) }
          else
            { queue := .upRelay
              tel := w.tel.marked (m.reason.getD 0xFF) (some ((s.tables.cls r.cls).pct r.consumed)) })) ∧
    ∀ k, TxKind.ofByte? w.tel.kind = some k → k ≠ .open_ →
      (s.table.find? (carrierIdOf w.tel) = none →
        exec .carrierLookup s = .next
          { s with
            engine :=
              if k = .close then { s.engine with phase := .ring, work := some w }
              else { s.engine with phase := .commitOpen, work := some { w with fault := some .unknownCarrier } } }) ∧
      ∀ i r, s.table.find? (carrierIdOf w.tel) = some (i, r) →
        ((∀ m, r.memory = some m → ¬w.tel.Repeats m) → (k ≠ .split ∨ s.table.find? (childIdOf w.tel) = none) →
          exec .carrierLookup s = .next
            { s with
              table := (s.setHold i true).table, zoneWait := s.zoneWait ++ [.engine]
              engine := { s.engine with
                phase := .settling, work := some { w with held := some i, childFound := false } } }) ∧
        ((∀ m, r.memory = some m → ¬w.tel.Repeats m) → k = .split → s.table.find? (childIdOf w.tel) ≠ none →
          exec .carrierLookup s = .next
            { s with
              table := (s.setHold i true).table
              engine := { s.engine with
                phase := .commitOpen
                work := some { w with held := some i, childFound := true, fault := some .duplicateId } } }) ∧
        ∀ m, r.memory = some m → w.tel.Repeats m →
          ∃ t w', exec .carrierLookup s = .next t ∧ t = { s with engine := t.engine } ∧ t.engine.phase = .placing ∧
            t.engine.work = some w' ∧ w'.held = none ∧
            w'.output = some (
              if m.outcome = .relayed then { queue := .upRelay, tel := w.tel }
              else if m.outcome = .refused ∧ s.mode = .enforce then
                { queue := .answer, tel := s.refusalBytes w.tel (m.reason.getD 0xFF) }
              else
                { queue := .upRelay
                  tel := w.tel.marked (m.reason.getD 0xFF) (some ((s.tables.cls r.cls).pct r.consumed)) })

/-- The ring is searched from the newest entry to the oldest; the first that matches makes the CLOSE a repeat, and with none
the CLOSE is faulted UNKNOWN-CARRIER (R52). The repeat is answered by the table of R135, from the stored outcome and reason and
the mode at the search, and an annotation's percent is absent. A CLOSE whose lookup returns absent comes to the search, and
CARRIER_LOOKUP with such a CLOSE is the only command that leads there (R52). -/
def Obligations.RingSearchNewestFirst : Prop :=
  (∀ (s : State) (w : Work), s.engine.phase = .lookup → s.engine.work = some w → s.running = true →
    TxKind.ofByte? w.tel.kind = some .close → s.table.find? (carrierIdOf w.tel) = none →
    exec .carrierLookup s = .next { s with engine := { s.engine with phase := .ring, work := some w } }) ∧
  (∀ (s : State) (w : Work), s.engine.phase = .ring → s.engine.work = some w → s.running = true →
    (∀ older e newer, s.table.ring = older ++ e :: newer →
      e.id = carrierIdOf w.tel → e.source = w.tel.source → e.seq = w.tel.seq →
      (∀ x ∈ newer, ¬(x.id = carrierIdOf w.tel ∧ x.source = w.tel.source ∧ x.seq = w.tel.seq)) →
      exec .ringSearch s = .next
        { s with
          engine := { s.engine with
            phase := .placing
            work := some { w with
              commitMode := some s.mode
              outcome := some { outcome := e.outcome, reason := e.reason, transition := false }
              output := some (
                if e.outcome = .relayed then { queue := .upRelay, tel := w.tel }
                else if e.outcome = .refused ∧ s.mode = .enforce then
                  { queue := .answer, tel := s.refusalBytes w.tel (e.reason.getD 0xFF) }
                else { queue := .upRelay, tel := w.tel.marked (e.reason.getD 0xFF) none }) } } }) ∧
    ((∀ x ∈ s.table.ring, ¬(x.id = carrierIdOf w.tel ∧ x.source = w.tel.source ∧ x.seq = w.tel.seq)) →
      exec .ringSearch s = .next
        { s with
          engine := { s.engine with phase := .commitOpen, work := some { w with fault := some .unknownCarrier } } })) ∧
  ∀ (c : Instr) (s t : State), exec c s = .next t → s.engine.phase ≠ .ring → t.engine.phase = .ring →
    c = .carrierLookup ∧ s.engine.phase = .lookup ∧
      ∃ w, s.engine.work = some w ∧ TxKind.ofByte? w.tel.kind = some .close ∧ s.table.find? (carrierIdOf w.tel) = none

/-- The probe answers "room" when a way of the ID's set or the pool has a free record, and the transaction takes its decision
reading (R128, R141); "full" faults it with TABLE-FULL. Nothing is reserved: the table does not change (R43). -/
def Obligations.FreeRecordProbeAnswers : Prop :=
  ∀ (s : State) (w : Work) (k : TxKind),
    s.engine.phase = .probe → s.engine.work = some w → s.running = true → TxKind.ofByte? w.tel.kind = some k →
    (((∃ i ∈ waysOf (setIndex (newIdOf w.tel k)), s.record? i = none) ∨ s.table.poolFree ≠ []) →
      ∃ t, exec .freeRecordProbe s = .next t ∧ t = { s with engine := t.engine } ∧ s.Decides t w k) ∧
    ((∀ i ∈ waysOf (setIndex (newIdOf w.tel k)), s.record? i ≠ none) → s.table.poolFree = [] →
      exec .freeRecordProbe s = .next
        { s with engine := { s.engine with phase := .commitOpen, work := some { w with fault := some .tableFull } } })

/-- A created record is found by its ID, and no other lookup changes (R41, R42, R44), where the pool's records are not in
use. CREATE places the record of an OPEN whose class is configured, where the probe found room: with the consumed figure of
its initial minutes, at most L (R27, R44, R89, R145), and until its attach in the state its zone's kind would give it (log entry
52); while a class write is past its count check it waits (R178). A class unconfigured since step 9 faults the transaction
CLASS-UNKNOWN and creates nothing (R142, R149); a create without room, which R43 rules out, faults it TABLE-FULL (log entry 30).
DELETE frees the record held by a CLOSE and counts it out of its class (R45, R48, R53). -/
def Obligations.CreateAndDelete : Prop :=
  (∀ (tb tb' : CarrierTable) (r : Record) (i : Nat),
    (∀ j ∈ tb.poolFree, lookupKey tb.records j = none) → tb.find? r.id = none → tb.create? r = some (i, tb') →
    tb'.find? r.id = some (i, r) ∧ ∀ id, id ≠ r.id → tb'.find? id = tb.find? id) ∧
  ∀ (s : State) (w : Work), s.engine.work = some w → s.running = true →
    (∀ (c : Fin 16) (r : Record), s.engine.phase = .commitCreate → openClassOf w.tel = c.val →
      (s.tables.cls c).floorLife ≠ 0 → s.table.room (carrierIdOf w.tel) = true →
      TxKind.ofByte? w.tel.kind = some .open_ → (∀ t k row, s.agent.phase ≠ .rekeying t k row) →
      r = { id := carrierIdOf w.tel, cls := c
            state := (if (zone? w.zone).map (fun z => (s.tables.zone z).kind) = some .dry then .dry else .exposed)
            consumed := min (openMinutesOf w.tel) (s.tables.cls c).floorLife * 3840
            bakeCount := 0, warnIssued := false, eligible := false, lastBakeShort := false, memory := none
            zonePart := none, dryPart := none, bakePart := none, held := true } →
      ∃ i tb, s.table.create? r = some (i, tb) ∧ lookupKey tb.records i = some r ∧
        ((∀ j ∈ s.table.poolFree, s.record? j = none) → s.record? i = none) ∧
        (∀ j, j ≠ i → lookupKey tb.records j = s.record? j) ∧
        tb.classCounts = s.table.classCounts.set c.val (s.table.classCounts[c.val] + 1) ∧ tb.ring = s.table.ring ∧
        exec .create s = .next
          { s with
            table := tb, zoneWait := s.zoneWait ++ [.engine]
            engine := { s.engine with phase := .commitRelist, work := some { w with created := some i } } }) ∧
    (∀ t k row, s.engine.phase = .commitCreate → s.agent.phase = .rekeying t k row → exec .create s = .next s) ∧
    (s.engine.phase = .commitCreate → (∀ t k row, s.agent.phase ≠ .rekeying t k row) →
      ((∀ c : Fin 16, openClassOf w.tel = c.val → (s.tables.cls c).floorLife = 0) →
        exec .create s = .next
          { s with
            engine := { s.engine with
              phase := .commitClose, work := some { w.faultedAtCommit .classUnknown with figures := none } } }) ∧
      ∀ c : Fin 16, openClassOf w.tel = c.val → (s.tables.cls c).floorLife ≠ 0 →
        s.table.room (carrierIdOf w.tel) = false →
        exec .create s = .next
          { s with engine := { s.engine with phase := .commitClose, work := some (w.faultedAtCommit .tableFull) } }) ∧
    (∀ i r, s.engine.phase = .commitDelete → w.held = some i → s.record? i = some r → s.table.Canonical →
      ∃ t, exec .delete s = .next t ∧ t = { s with table := t.table, engine := t.engine } ∧
        t.engine = { s.engine with phase := .commitClose, work := some { w with held := none } } ∧
        t.record? i = none ∧ (∀ j, j ≠ i → t.record? j = s.record? j) ∧
        t.table.classCounts = s.table.classCounts.set r.cls.val (s.table.classCounts[r.cls.val] - 1) ∧
        t.table.ring = s.table.ring ∧
        t.table.poolFree = if i < 3072 then s.table.poolFree else i :: s.table.poolFree)

/-! ### Settlement and crossings -/

/-- The settle request of a transaction advances the carrier's zone and the body's zone, settles the carrier with its
crossings, and returns the target zone's conditions (R70, R80, R84, R85); it changes no other zone's conditions or clocks.
The notices of the crossings arrive behind those of the advances, and name the transaction's source (R85, R102). The figures
are those of the settled record, or of an OPEN's first consumed (R90, R91, R136). A record the engine holds is marked held,
which `ListsRight` says. -/
def Obligations.SettleRequestSettles : Prop :=
  ∀ (s : State) (w : Work) (k : TxKind),
    s.engine.phase = .settling → s.engine.work = some w → s.running = true → s.zoneWait.head? = some .engine →
    TxKind.ofByte? w.tel.kind = some k →
    (∀ i r0, w.held = some i → s.record? i = some r0 → r0.held = true) →
    ∃ t w' target rate, exec .settleRequest s = .next t ∧ State.ZoneFrame { s with engine := t.engine } t ∧
      t.engine.work = some w' ∧ w'.held = w.held ∧ t.engine.pause = s.engine.pause ∧
      w'.settled = w.held.bind t.record? ∧
      (∀ i r0, w.held = some i → s.record? i = some r0 → ∃ r l, t.record? i = some r ∧ r.held = true ∧ t.Settles r0 r ∧
        (∀ n ∈ l, n.OfAdvance) ∧ s.Posted t (l ++ s.settleNotices t r0 (some w.tel.source))) ∧
      (w.held = none → ∃ l, (∀ n ∈ l, n.OfAdvance) ∧ s.Posted t l) ∧
      target = (if k = .bakeIn ∨ k = .close then (w'.settled.bind Record.zonePart).map ZonePart.zone else zone? w.zone) ∧
      w'.conditions = target.map (fun z =>
        { stale := (t.zone z).stale, temp := (t.zone z).fused.map Fused.temp, rh := (t.zone z).fused.map Fused.rh
          rate := (t.zone z).rate, kind := (s.tables.zone z).kind }) ∧
      (∀ r, w'.settled = some r →
        rate = ((r.zonePart.map fun zp => (t.zone zp.zone).rate).getD 0) ∧
        w'.figures = some
          { pct := min 255 (r.consumed * 100 / ((s.tables.cls r.cls).floorLife * 3840))
            remaining :=
              if r.state = .expired ∨ r.state = .retired then 0
              else min 65535 (((s.tables.cls r.cls).floorLife * 3840 - r.consumed) / 3840)
            remainingAtRate :=
              if r.state = .expired ∨ r.state = .retired then 0
              else if r.state = .baking ∨ rate = 0 then 65535
              else min 65535 (((s.tables.cls r.cls).floorLife * 3840 - r.consumed) / (rate * 60)) }) ∧
      (∀ (c : Fin 16) (life first : Nat), k = .open_ → w.held = none → openClassOf w.tel = c.val →
        life = (s.tables.cls c).floorLife → life ≠ 0 → first = min (openMinutesOf w.tel) life * 3840 →
        ∃ f, w'.figures = some f ∧ f.pct = min 255 (first * 100 / (life * 3840)) ∧
          f.remaining = min 65535 ((life * 3840 - first) / 3840)) ∧
      ∀ z, if (w.held.bind s.zoneOf? = some z ∨ w.bodyZone? = some z) ∧ (s.tables.zone z).kind ≠ .unset then
          s.Charged t z
        else (t.zone z).air = (s.zone z).air

/-- Steps 7 to 12 of the checks, on what the settle request returned (R137 to R140, R157, R159): the first that fails gives
its fault; past them an OPEN or a SPLIT goes to the probe, and another kind takes its decision reading (R128, R141). That
step 7 reads the station row as it stands is log entry 18. -/
def Obligations.SettledChecksDecide : Prop :=
  ∀ (s : State) (w : Work) (k : TxKind) (zk : ZoneKind) (oven : Option Batch) (bake : Record → Option FaultCode),
    s.engine.phase = .settling → s.engine.work = some w → s.running = true → s.zoneWait.head? = some .engine →
    TxKind.ofByte? w.tel.kind = some k → w.fault = none →
    zk = ((zone? w.zone).map fun z => (s.tables.zone z).kind).getD .unset →
    oven = (s.batchOf? w.tel.source).map Prod.snd →
    (∀ r, bake r =
      if k = .bakeIn then
        if ∀ tier : Fin 4, tierOf w.tel = tier.val → (s.tables.cls r.cls).bake[tier.val] = 0 then some .bakeTier
        else if oven.any (fun b => b.tier.val != tierOf w.tel) then some .tierMismatch
        else if oven.any (fun b => decide (64 ≤ b.members.length)) then some .ovenFull
        else if oven = none ∧ ∀ b : Fin 16, s.batches[b.val] ≠ none then some .batchFull
        else none
      else if k = .bakeOut ∧ r.bakePart.map BakePart.oven ≠ some w.tel.source then some .notInOven
      else none) →
    ∃ t w' fault, exec .settleRequest s = .next t ∧
      w' = { w with settled := w'.settled, figures := w'.figures, conditions := w'.conditions } ∧
      w'.settled = w.held.bind t.record? ∧
      fault =
        (if (k = .bakeIn ∨ k = .bakeOut) ∧ (s.tables.station w.tel.source).cls ≠ .oven then some .stationKind
        else if k ≠ .bakeIn ∧ k ≠ .close ∧ zk = .unset then some .zoneUnknown
        else if k ≠ .bakeIn ∧ k ≠ .close ∧ zk ∉ suitedKinds k then some .zoneKind
        else if k = .open_ ∧ ∀ c : Fin 16, openClassOf w.tel = c.val → (s.tables.cls c).floorLife = 0 then
          some .classUnknown
        else
          match w'.settled with
          | some r => if r.state ∉ legalStates k then some .illegalTransition else bake r
          | none => none) ∧
      (∀ f, fault = some f →
        t.engine = { s.engine with phase := .commitOpen, work := some { w' with fault := some f } }) ∧
      (fault = none → (k = .open_ ∨ k = .split) →
        t.engine = { s.engine with phase := .probe, work := some w' }) ∧
      (fault = none → k ≠ .open_ → k ≠ .split → s.Decides t w' k)

/-- The settle request of a QUERY settles the carrier, releases it and composes the ANSWER with its figures at present (R30,
R80, R84, R85, R90, R91, R130). The notices of its crossings arrive behind those of the advance (R85, R102). -/
def Obligations.QueryAnswered : Prop :=
  ∀ (s : State) (w : Work) (i : Nat) (r0 : Record),
    s.engine.phase = .settling → s.engine.work = some w → s.running = true → s.zoneWait.head? = some .engine →
    TxKind.ofByte? w.tel.kind = none → w.held = some i → s.record? i = some r0 → r0.held = true →
    ∃ t r w' budget rate, exec .settleRequest s = .next t ∧ t.record? i = some r ∧ r.held = false ∧ t.Settles r0 r ∧
      (∀ z, r0.zonePart.map ZonePart.zone = some z → (s.tables.zone z).kind ≠ .unset → s.Charged t z) ∧
      (∃ l, (∀ n ∈ l, n.OfAdvance) ∧ s.Posted t (l ++ s.settleNotices t r0 (some w.tel.source))) ∧
      t.engine = { s.engine with phase := .placing, work := some w' } ∧ w'.tel = w.tel ∧ w'.held = none ∧
      budget = (s.tables.cls r.cls).floorLife * 3840 ∧
      (∀ zp, r.zonePart = some zp → rate = (t.zone zp.zone).rate) ∧ (r.zonePart = none → rate = 0) ∧
      w'.output = some
        { queue := .answer
          tel :=
            { dest := w.tel.source, source := s.tables.part.own, kind := 0x31, seq := w.tel.seq
              body := [0x00] ++ idBytes r.id ++
                [BitVec.ofNat 8 r.state.code, BitVec.ofNat 8 r.cls.val,
                  BitVec.ofNat 8 (min 255 (r.consumed * 100 / budget))] ++
                beBytes 2 (if r.state = .expired ∨ r.state = .retired then 0
                  else min 65535 ((budget - r.consumed) / 3840)) ++
                beBytes 2 (if r.state = .expired ∨ r.state = .retired then 0
                  else if r.state = .baking ∨ rate = 0 then 65535
                  else min 65535 ((budget - r.consumed) / (rate * 60))) ++
                [BitVec.ofNat 8 r.bakeCount,
                  (r.zonePart.map fun zp => BitVec.ofNat 8 zp.zone.val).getD 0xFF] } }

/-- The watch key of a carrier is the value of W at which its next crossing is due (R83, R100). -/
def Obligations.CrossingComesAtTheKey : Prop :=
  ∀ (r : Record) (c : ClassRow) (zp : ZonePart) (wear : Nat),
    r.zonePart = some zp → (r.state = .dry ∨ r.state = .exposed ∨ r.state = .mounted ∨ r.state = .overrun) →
    r.consumed < r.nextThreshold c → r.nextThreshold c ≤ 4294967295 →
    zp.stamp + (r.nextThreshold c - r.consumed) ≤ 281474976710655 → zp.stamp ≤ wear →
    (((r.settle wear).cross? c).isSome = true ↔ r.watchKey c zp.stamp ≤ wear)

/-! ### The Policy Matcher -/

/-- Each field of a key stands at its place (02_telegrams_and_their_formats.md, section 2.8; R110 to R113), and a pass adds
its pass bit and the bits of the range checkers (R118): a range bit is 1 when the value of the checker's source is available and
lies between its bounds, compared as signed numbers for the temperature and as unsigned ones for every other source (R114,
R115). -/
def Obligations.KeyFieldsStandInPlace : Prop :=
  ∀ f : KeyFields,
    ((f.key.extractLsb' 51 4).toNat = f.kind.index ∧ (f.key.extractLsb' 48 3).toNat = f.stationClass.code ∧
      f.key.extractLsb' 40 8 = f.station ∧
      (f.key.extractLsb' 35 5).toNat = (f.zone.map Fin.val).getD 31 ∧
      (f.key.extractLsb' 33 2).toNat = f.zoneKind.code ∧ f.key.getLsbD 32 = f.zone.isSome ∧
      (f.key.extractLsb' 29 3).toNat = f.state.code ∧
      (∀ j : Fin 15, f.key.getLsbD (14 + j.val) = decide (j.val < f.cls.val)) ∧
      (∀ j : Fin 8, f.key.getLsbD (6 + j.val) = false) ∧
      f.key.getLsbD 5 = f.warnIssued ∧ f.key.getLsbD 4 = f.eligible ∧ f.key.getLsbD 3 = f.created ∧
      f.key.getLsbD 2 = f.zoneStale ∧ f.key.getLsbD 1 = f.watchMode ∧ f.key.getLsbD 0 = false ∧
      f.key.getLsbD 55 = false) ∧
    ∀ (q : LookupRequest) (tb : Tables) (passB : Bool), q.key = f.key →
      (q.passKey tb passB).getLsbD 55 = passB ∧
      (∀ j : Fin 8, (q.passKey tb passB).getLsbD (6 + j.val) = true ↔ (tb.checkers[j.val]).Admits q.sources) ∧
      ∀ n, n ≠ 55 → (n < 6 ∨ 14 ≤ n) → (q.passKey tb passB).getLsbD n = f.key.getLsbD n

/-- An entry matches when it is valid and equal to the key wherever its mask holds 1 (R116), and the hit of a pass is the
matching entry of lowest index, or the pass default (R118). -/
def Obligations.FirstMatchWins : Prop :=
  (∀ (r : RuleRow) (k : Key),
    r.hits k = true ↔ r.valid = true ∧
      ∀ b : Fin 56, r.mask.getLsbD b.val = true → k.getLsbD b.val = r.value.getLsbD b.val) ∧
  ∀ (tb : Tables) (k : Key),
    (∀ i : Fin 128, tb.passHit k = .entry i ↔
      (tb.rules[i.val]).hits k = true ∧ ∀ j : Fin 128, j < i → (tb.rules[j.val]).hits k = false) ∧
    (tb.passHit k = .dflt ↔ ∀ i : Fin 128, (tb.rules[i.val]).hits k = false)

/-- The table of R119; PASS is less severe than MARK and MARK less severe than HOLD. The combined verdict and reason end the
lookup. -/
def Obligations.OutcomesCombine : Prop :=
  (∀ (a b : Action) (severity : Verdict → Nat),
    severity .pass < severity .mark → severity .mark < severity .hold →
    (a.final = true → combine a b = (a.verdict, a.reason)) ∧
    (a.final = false → b.worst = false → combine a b = (b.verdict, b.reason)) ∧
    (a.final = false → b.worst = true → severity a.verdict < severity b.verdict → combine a b = (b.verdict, b.reason)) ∧
    (a.final = false → b.worst = true → severity b.verdict < severity a.verdict → combine a b = (a.verdict, a.reason)) ∧
    (a.final = false → b.worst = true → a.verdict = b.verdict → combine a b = (a.verdict, a.reason))) ∧
  ∀ (s : State) (w : Work) (q : LookupRequest),
    s.engine.phase = .deciding → s.engine.work = some w → s.running = true → w.lookup = some q →
    ∃ t, exec .policyLookup s = .next t ∧ t.engine.phase = .commitOpen ∧
      t.engine.work = some { w with verdict := some (combine
        (s.tables.actionOf false (s.tables.passHit (q.passKey s.tables false)))
        (s.tables.actionOf true (s.tables.passHit (q.passKey s.tables true)))) }

/-- A lookup returns the combined outcome of the two passes, counts each outcome, clears the copy-once mark of an outcome
without copy, and posts the POLICY and COPY notices of pass A and then of pass B (R118, R120 to R123). It changes nothing else
but the Plant side its notices set going. -/
def Obligations.PolicyLookupCounts : Prop :=
  ∀ (s : State) (w : Work) (q : LookupRequest) (ha hb : PassHit) (a b : Action),
    s.engine.phase = .deciding → s.engine.work = some w → s.running = true → w.lookup = some q →
    ha = s.tables.passHit (q.passKey s.tables false) → hb = s.tables.passHit (q.passKey s.tables true) →
    a = s.tables.actionOf false ha → b = s.tables.actionOf true hb →
    (∀ i : Fin 64, s.ruleCounters[i.val] ≤ 4294967295) →
    ∃ t, exec .policyLookup s = .next t ∧
      t.engine = { s.engine with phase := .commitOpen, work := some { w with verdict := some (combine a b) } } ∧
      (∀ i : Fin 64, t.ruleCounters[i.val] = min 4294967295
        (s.ruleCounters[i.val] + (a.count && a.counter == i).toNat + (b.count && b.counter == i).toNat)) ∧
      t = { s with
        engine := t.engine, ruleCounters := t.ruleCounters
        tables := { s.tables with rules := t.tables.rules, defaults := t.tables.defaults }
        plant := { s.plant with tx := t.plant.tx }, notices := t.notices, replies := t.replies, upRelay := t.upRelay
        plantStreak := t.plantStreak } ∧
      s.Posted t (s.policyNotices q a (combine a b).1 (a.copy || a.copyOnce) ++
        s.policyNotices q b (combine a b).1 (b.copy || (b.copyOnce && decide (ha ≠ hb ∨ ha = .dflt)))) ∧
      (∀ i : Fin 128, t.tables.rules[i.val] =
        if (ha = .entry i ∨ hb = .entry i) ∧ (s.tables.rules[i.val]).action.copy = false then
          { s.tables.rules[i.val] with action := { (s.tables.rules[i.val]).action with copyOnce := false } }
        else s.tables.rules[i.val]) ∧
      ∀ i : Fin 2, t.tables.defaults[i.val] =
        if (if i = 0 then ha else hb) = .dflt ∧ (s.tables.defaults[i.val]).copy = false then
          { s.tables.defaults[i.val] with copyOnce := false }
        else s.tables.defaults[i.val]

/-! ### Commit -/

/-- The commit reading fixes the outcome by the table of R142. COMMIT opens: the mode is read, the outcome is fixed with it,
and the first request of the commit goes out (R128, R143); a transaction that holds no record and makes no transition closes
in the same step (log entry 12). COMMIT closes: the record held or created, and of a SPLIT both, takes the repeat memory and
is released, a fault is counted, and the output is composed (R48, R49, R143, R146, R151); an OPEN faulted at its create or its
relist has no record, and writes no memory (R49, R149); a CLOSE that deleted its record puts the memory into the ring instead
(R51). -/
def Obligations.CommitOpensAndCloses : Prop :=
  (∀ (v : Option (Verdict × Byte)) (reason : Byte) (m : Mode),
    fixOutcome none (some (.pass, reason)) m = { outcome := .relayed, reason := none, transition := true } ∧
    fixOutcome none (some (.mark, reason)) m =
      { outcome := .relayedMarked, reason := some reason, transition := true } ∧
    fixOutcome none (some (.hold, reason)) .enforce =
      { outcome := .refused, reason := some reason, transition := false } ∧
    (m ≠ .enforce → fixOutcome none (some (.hold, reason)) m =
      { outcome := .relayedMarked, reason := some reason, transition := true }) ∧
    ∀ f : FaultCode,
      fixOutcome (some f) v .enforce = { outcome := .refused, reason := some f.code, transition := false } ∧
      (m ≠ .enforce →
        fixOutcome (some f) v m = { outcome := .relayedMarked, reason := some f.code, transition := false })) ∧
  (∀ (s : State) (w w' : Work) (o : CommitOutcome),
    s.engine.phase = .commitOpen → s.engine.work = some w → s.running = true →
    o = fixOutcome w.fault w.verdict s.mode → w' = { w with commitMode := some s.mode, outcome := some o } →
    (o.transition = true → TxKind.ofByte? w.tel.kind = some .open_ →
      exec .commit s = .next { s with engine := { s.engine with phase := .commitCreate, work := some w' } }) ∧
    (o.transition = true → TxKind.ofByte? w.tel.kind = some .close → w.held.bind s.zoneOf? ≠ none →
      exec .commit s = .next
        { s with
          zoneWait := s.zoneWait ++ [.engine], engine := { s.engine with phase := .commitUnlink, work := some w' } }) ∧
    (o.transition = true → TxKind.ofByte? w.tel.kind = some .close → w.held.bind s.zoneOf? = none →
      exec .commit s = .next { s with engine := { s.engine with phase := .commitDelete, work := some w' } }) ∧
    (∀ k, o.transition = true → TxKind.ofByte? w.tel.kind = some k → k ≠ .open_ → k ≠ .close →
      exec .commit s = .next
        { s with
          zoneWait := s.zoneWait ++ [.engine], engine := { s.engine with phase := .commitRelist, work := some w' } }) ∧
    (∀ i, o.transition = false → w.held = some i →
      exec .commit s = .next
        { s with
          zoneWait := s.zoneWait ++ [.engine], engine := { s.engine with phase := .commitRelist, work := some w' } }) ∧
    (∀ out, o.transition = false → w.held = none → w.created = none →
      out = (if o.outcome = .refused then
          { queue := .answer, tel := s.refusalBytes w.tel (o.reason.getD 0xFF) }
        else { queue := .upRelay, tel := w.tel.marked (o.reason.getD 0xFF) (w.figures.map Figures.pct) }) →
      exec .commit s = .next
        { s with
          faultCounters := (w.fault.map fun f =>
            s.faultCounters.set f.index.val (min 4294967295 (s.faultCounters[f.index.val] + 1))).getD s.faultCounters
          engine := { s.engine with phase := .placing, work := some { w' with output := some out } } })) ∧
  ∀ (s : State) (w : Work) (o : CommitOutcome) (out : Output) (memory : RepeatMemory) (faults : Vector Nat 16)
      (done : Engine),
    s.engine.phase = .commitClose → s.engine.work = some w → s.running = true → w.outcome = some o →
    out = (if o.outcome = .relayed then { queue := .upRelay, tel := w.tel }
      else if o.outcome = .refused then
        { queue := .answer, tel := s.refusalBytes w.tel (o.reason.getD 0xFF) }
      else { queue := .upRelay, tel := w.tel.marked (o.reason.getD 0xFF) (w.figures.map Figures.pct) }) →
    memory =
      { source := w.tel.source, seq := w.tel.seq, kind := w.tel.kind, outcome := o.outcome, reason := o.reason } →
    faults = (w.fault.map fun f =>
      s.faultCounters.set f.index.val (min 4294967295 (s.faultCounters[f.index.val] + 1))).getD s.faultCounters →
    done = { s.engine with
      phase := .placing, work := some { w with held := none, created := none, output := some out } } →
    (∀ i r, ((w.held = some i ∧ w.created = none) ∨ (w.held = none ∧ w.created = some i)) → s.record? i = some r →
      (TxKind.ofByte? w.tel.kind ≠ some .close ∨ o.transition = false) →
      exec .commit s = .next
        { s with
          table := (s.setRecord i { r with memory := some memory, held := false }).table
          faultCounters := faults, engine := done }) ∧
    (∀ i r j p, w.held = some i → w.created = some j → i ≠ j → s.record? i = some r → s.record? j = some p →
      (TxKind.ofByte? w.tel.kind ≠ some .close ∨ o.transition = false) →
      exec .commit s = .next
        { s with
          table :=
            ((s.setRecord i { r with memory := some memory, held := false }).setRecord j
              { p with memory := some memory, held := false }).table
          faultCounters := faults, engine := done }) ∧
    (w.held = none → w.created = none → (TxKind.ofByte? w.tel.kind ≠ some .close ∨ o.transition = false) →
      exec .commit s = .next { s with faultCounters := faults, engine := done }) ∧
    (w.held = none → w.created = none → TxKind.ofByte? w.tel.kind = some .close → o.transition = true →
      w.fault = none →
      exec .commit s = .next
        { s with
          table := { s.table with
            ring := (if s.table.ring.length < 16 then s.table.ring else s.table.ring.tail) ++
              [{ id := carrierIdOf w.tel, source := w.tel.source, seq := w.tel.seq, outcome := o.outcome,
                 reason := o.reason }] }
          engine := done })

/-- The commit relist. Without a transition the carrier is settled where it stands (R97), as it is when a rekey has meanwhile
made its transition illegal (log entry 17). A STORE, ISSUE, MOVE, MOUNT or DEMOUNT into a suitable zone moves it there in the
new state of R139 (R144): charged in the zone it leaves and credited for its dry time (R80, R88), then attached (R94, R96). A
DEMOUNT from OVERRUN expires it with no zone and posts nothing (R144). An EXPIRED carrier without a zone stays as it is. A zone
that has meanwhile become NONE faults the transaction ZONE-UNKNOWN, one whose kind no longer suits it ZONE-KIND: the outcome is
fixed again, and the carrier is settled where it stands (R149). The notices of the crossings arrive behind those of the advances
and name the transaction's source (R85, R102). -/
def Obligations.CommitRelistMoves : Prop :=
  ∀ (s : State) (w : Work) (i : Nat) (o : CommitOutcome) (r0 : Record) (done : Engine),
    s.engine.phase = .commitRelist → s.engine.work = some w → s.running = true → s.zoneWait.head? = some .engine →
    w.held = some i → w.outcome = some o → s.record? i = some r0 → r0.held = true →
    done = { s.engine with phase := .commitClose, work := some w } →
    ((o.transition = false ∨ ∃ k, TxKind.ofByte? w.tel.kind = some k ∧ k ≠ .open_ ∧ r0.state ∉ legalStates k) →
      ∃ t r, exec .commitRelist s = .next t ∧ State.ZoneFrame { s with engine := t.engine } t ∧ t.engine = done ∧
        t.record? i = some r ∧ r.held = true ∧ t.Settles r0 r ∧
        (∃ l, (∀ n ∈ l, n.OfAdvance) ∧ s.Posted t (l ++ s.settleNotices t r0 (some w.tel.source))) ∧
        ∀ z, if r0.zonePart.map ZonePart.zone = some z ∧ (s.tables.zone z).kind ≠ .unset then s.Charged t z
          else (t.zone z).air = (s.zone z).air) ∧
    (∀ k z st, o.transition = true → TxKind.ofByte? w.tel.kind = some k → zone? w.zone = some z →
      (s.tables.zone z).kind ∈ suitedKinds k → zonedResult k r0.state (s.tables.zone z).kind = some st →
      ∃ t r', exec .commitRelist s = .next t ∧ State.ZoneFrame { s with engine := t.engine } t ∧ t.engine = done ∧
        t.record? i = some r' ∧
        t.Enters z i { r0 with consumed := t.departedConsumed r0 (some z), state := st } r' ∧
        (∃ l, (∀ n ∈ l, n.OfAdvance) ∧ s.Posted t (l ++ s.enterNotices
          { r0 with consumed := t.departedConsumed r0 (some z), state := st } z (some w.tel.source))) ∧
        ∀ y, if (y = z ∨ r0.zonePart.map ZonePart.zone = some y) ∧ (s.tables.zone y).kind ≠ .unset then s.Charged t y
          else (t.zone y).air = (s.zone y).air) ∧
    (∀ k f, o.transition = true → TxKind.ofByte? w.tel.kind = some k → zonedResult k r0.state (s.bodyKind w) ≠ none →
      s.bodyKind w ∉ suitedKinds k → f = (if s.bodyKind w = .unset then .zoneUnknown else .zoneKind) →
      ∃ t r, exec .commitRelist s = .next t ∧ State.ZoneFrame { s with engine := t.engine } t ∧
        t.engine = { s.engine with phase := .commitClose, work := some (w.faultedAtCommit f) } ∧
        t.record? i = some r ∧ r.held = true ∧ t.Settles r0 r ∧
        (∃ l, (∀ n ∈ l, n.OfAdvance) ∧ s.Posted t (l ++ s.settleNotices t r0 (some w.tel.source))) ∧
        ∀ y, if (zone? w.zone = some y ∨ r0.zonePart.map ZonePart.zone = some y) ∧ (s.tables.zone y).kind ≠ .unset then
            s.Charged t y
          else (t.zone y).air = (s.zone y).air) ∧
    (o.transition = true → TxKind.ofByte? w.tel.kind = some .demount → r0.state = .overrun →
      ∃ t, exec .commitRelist s = .next t ∧ State.ZoneFrame { s with engine := t.engine } t ∧ t.engine = done ∧
        t.record? i = some
          { r0 with
            consumed := t.settledConsumed r0, state := .expired, zonePart := none, dryPart := none, eligible := false
            warnIssued := r0.warnIssued && decide ((s.tables.cls r0.cls).warnPoint ≤ t.settledConsumed r0) } ∧
        (∃ l, (∀ n ∈ l, n.OfAdvance) ∧ s.Posted t l) ∧
        ∀ y, if r0.zonePart.map ZonePart.zone = some y then
            ((s.zone y).watch.Nodup → i ∉ (t.zone y).watch) ∧
              ((s.tables.zone y).kind ≠ .unset → s.Charged t y)
          else (t.zone y).air = (s.zone y).air) ∧
    (∀ k, o.transition = true → TxKind.ofByte? w.tel.kind = some k → k ∈ [.store, .issue, .move, .mount, .demount] →
      r0.state = .expired → r0.zonePart = none →
      exec .commitRelist s = .next { s with zoneWait := s.zoneWait.tail, engine := done })

/-- The relist of a BAKE-IN settles the carrier, credits it, takes it out of its zone and puts it into the oven, with the state
of step 10 as pre-bake state (R38, R88, R148, R158); that of a BAKE-OUT ends the bake by the table of R160 and attaches a
carrier that has a zone state again (R92, R94). A retirement posts RETIRED and a short bake BAKE-SHORT, ahead of the crossing
notices of the attach (R85, R102, R161) and behind the notices of the zone's advance (log entry 54). A zone that has meanwhile
become NONE faults a BAKE-OUT that would attach ZONE-UNKNOWN: its carrier stays in the oven (R149). -/
def Obligations.CommitBakes : Prop :=
  ∀ (s : State) (w : Work) (i : Nat) (r0 : Record) (o : CommitOutcome) (c : ClassRow),
    s.engine.phase = .commitRelist → s.engine.work = some w → s.running = true → s.zoneWait.head? = some .engine →
    w.held = some i → w.outcome = some o → o.transition = true → s.record? i = some r0 → r0.held = true →
    c = s.tables.cls r0.cls →
    (∀ (r : Record) (tier : Fin 4), TxKind.ofByte? w.tel.kind = some .bakeIn → w.settled = some r →
      (r0.state = .dry ∨ r0.state = .exposed ∨ r0.state = .expired) → tierOf w.tel = tier.val →
      ∃ t, exec .commitRelist s = .next t ∧
        t.engine = { s.engine with phase := .commitJoin, work := some { w with commitTime := s.now } } ∧
        t.record? i = some
          { r0 with
            consumed := t.departedConsumed r0 none, state := .baking, zonePart := none, dryPart := none
            eligible := false
            warnIssued := r0.warnIssued && decide (c.warnPoint ≤ t.departedConsumed r0 none)
            bakePart := some { oven := w.tel.source, tier := tier, entered := s.now, preState := r.state } } ∧
        (∃ l, (∀ n ∈ l, n.OfAdvance) ∧ s.Posted t l) ∧
        ∀ y, if r0.zonePart.map ZonePart.zone = some y then
            ((s.zone y).watch.Nodup → i ∉ (t.zone y).watch) ∧ ((s.tables.zone y).kind ≠ .unset → s.Charged t y)
          else (t.zone y).air = (s.zone y).air) ∧
    ∀ bp baked required count done (short : Option (Fin 32) → Notice),
      TxKind.ofByte? w.tel.kind = some .bakeOut → r0.state = .baking → r0.bakePart = some bp →
      baked = s.now - bp.entered → required = c.bake[bp.tier.val] * 60 →
      count = min 15 (r0.bakeCount + 1) →
      done = { s.engine with phase := .commitLeave, work := some { w with commitTime := s.now } } →
      (∀ z : Option (Fin 32), short z =
        ({ kind := .bakeShort, high := false, wallTime := s.wallTime, carrier := some r0.id, zone := z
           station := some w.tel.source, percent := some (min 255 (r0.consumed * 100 / (c.floorLife * 3840)))
           reason := none, extra := .seconds baked, startLost := 0 } : Notice)) →
      (required ≤ baked → c.bakeLimit < count →
        ∃ t, exec .commitRelist s = .next t ∧ t.engine = done ∧
          t.record? i = some
            { r0 with state := .retired, bakeCount := count, consumed := 0, warnIssued := false, lastBakeShort := false,
                      bakePart := none } ∧
          s.Posted t
            [{ kind := .retired, high := true, wallTime := s.wallTime, carrier := some r0.id, zone := none
               station := some w.tel.source, percent := some 0, reason := none, extra := .absent, startLost := 0 }]) ∧
      (baked < required → bp.preState = .expired →
        ∃ t, exec .commitRelist s = .next t ∧ t.engine = done ∧
          t.record? i = some
            { r0 with state := .expired, bakeCount := count, lastBakeShort := true, bakePart := none
                      warnIssued := r0.warnIssued && decide (c.warnPoint ≤ r0.consumed) } ∧
          s.Posted t [short none]) ∧
      (((required ≤ baked ∧ count ≤ c.bakeLimit) ∨ (baked < required ∧ bp.preState ≠ .expired)) →
        s.bodyKind w = .unset →
        ∃ t r, exec .commitRelist s = .next t ∧ State.ZoneFrame { s with engine := t.engine } t ∧
          t.engine = { s.engine with
            phase := .commitClose, work := some ({ w with commitTime := s.now }.faultedAtCommit .zoneUnknown) } ∧
          t.record? i = some r ∧ r.held = true ∧ t.Settles r0 r ∧ (r0.zonePart = none → r = r0) ∧
          (∃ l, (∀ n ∈ l, n.OfAdvance) ∧ s.Posted t (l ++ s.settleNotices t r0 (some w.tel.source))) ∧
          ∀ y, if r0.zonePart.map ZonePart.zone = some y ∧ (s.tables.zone y).kind ≠ .unset then s.Charged t y
            else (t.zone y).air = (s.zone y).air) ∧
      ∀ z out, ((required ≤ baked ∧ count ≤ c.bakeLimit) ∨ (baked < required ∧ bp.preState ≠ .expired)) →
        zone? w.zone = some z → (s.tables.zone z).kind ≠ .unset →
        out =
          { r0 with
            state := if (s.tables.zone z).kind = .dry then .dry else .exposed
            bakeCount := count, bakePart := none, lastBakeShort := decide (baked < required)
            consumed := if required ≤ baked then 0 else r0.consumed
            warnIssued := if required ≤ baked then false else r0.warnIssued } →
        ∃ t r' l, exec .commitRelist s = .next t ∧ t.engine = done ∧ s.Charged t z ∧ t.record? i = some r' ∧
          t.Enters z i out r' ∧ (∀ n ∈ l, n.OfAdvance) ∧
          s.Posted t
            (l ++ (if required ≤ baked then [] else [short (some z)]) ++ s.enterNotices out z (some w.tel.source))

/-- The relist of an OPEN attaches the record it created, or frees it again when its zone has become NONE, which faults it
ZONE-UNKNOWN (R94, R145, R149; that it is freed is log entry 13). The relist of a SPLIT settles the parent and creates the child
with the parent's account, in its zone or EXPIRED (R89, R98, R139, R146). A child's zone that has become NONE faults it
ZONE-UNKNOWN and a class that is not configured CLASS-UNKNOWN, with no child (R149); no room, which R43 rules out, faults it
TABLE-FULL (log entry 30). While a class write is past its count check a SPLIT that creates waits (R178; log entry 51). The
notices of the crossings of both arrive behind those of the advances and name the transaction's source (R85, R102). -/
def Obligations.CommitCreates : Prop :=
  ∀ (s : State) (w : Work) (i : Nat) (r0 : Record) (o : CommitOutcome),
    s.engine.phase = .commitRelist → s.engine.work = some w → s.running = true → s.zoneWait.head? = some .engine →
    w.outcome = some o → o.transition = true → s.record? i = some r0 → r0.held = true →
    (TxKind.ofByte? w.tel.kind = some .open_ → w.held = none → w.created = some i →
      (∀ z, zone? w.zone = some z → (s.tables.zone z).kind ≠ .unset →
        ∃ t r', exec .commitRelist s = .next t ∧ State.ZoneFrame { s with engine := t.engine } t ∧
          t.engine = { s.engine with phase := .commitClose, work := some w } ∧ s.Charged t z ∧
          t.record? i = some r' ∧
          t.Enters z i { r0 with state := if (s.tables.zone z).kind = .dry then .dry else .exposed } r' ∧
          ∃ l, (∀ n ∈ l, n.OfAdvance) ∧ s.Posted t (l ++ s.enterNotices
            { r0 with state := if (s.tables.zone z).kind = .dry then .dry else .exposed } z (some w.tel.source))) ∧
      (s.bodyKind w = .unset → s.table.Canonical →
        ∃ t, exec .commitRelist s = .next t ∧ t.record? i = none ∧ (∀ j, j ≠ i → t.record? j = s.record? j) ∧
          (∀ y, (t.zone y).air = (s.zone y).air) ∧
          t.table.classCounts = s.table.classCounts.set r0.cls.val (s.table.classCounts[r0.cls.val] - 1) ∧
          t.engine = { s.engine with
            phase := .commitClose, work := some { w.faultedAtCommit .zoneUnknown with created := none } })) ∧
    (TxKind.ofByte? w.tel.kind = some .split → w.held = some i → r0.state ∈ legalStates .split →
      (∀ t c row, s.agent.phase = .rekeying t c row → exec .commitRelist s = .next s) ∧
      ((∀ t c row, s.agent.phase ≠ .rekeying t c row) → (∀ j ∈ s.table.poolFree, s.record? j = none) →
        ∃ t p l fault, exec .commitRelist s = .next t ∧ (∀ n ∈ l, n.OfAdvance) ∧ t.record? i = some p ∧ p.held = true ∧
          t.Settles r0 p ∧
          (∀ y, if (zone? w.zone = some y ∨ r0.zonePart.map ZonePart.zone = some y) ∧ (s.tables.zone y).kind ≠ .unset then
              s.Charged t y
            else (t.zone y).air = (s.zone y).air) ∧
          fault =
            (if s.bodyKind w = .unset ∧ p.state ≠ .overrun ∧ p.state ≠ .expired then some .zoneUnknown
            else if (s.tables.cls r0.cls).floorLife = 0 then some .classUnknown
            else if s.table.room (childIdOf w.tel) = false then some .tableFull
            else none) ∧
          (∀ f, fault = some f →
            State.ZoneFrame { s with engine := t.engine } t ∧
            t.engine = { s.engine with phase := .commitClose, work := some (w.faultedAtCommit f) } ∧
            s.Posted t (l ++ s.settleNotices t r0 (some w.tel.source))) ∧
          (fault = none →
            ∃ j r' child,
              t.engine = { s.engine with phase := .commitClose, work := some { w with created := some j } } ∧
              s.record? j = none ∧ t.record? j = some r' ∧
              (∀ x, x ≠ j → (t.record? x).map Record.core = (s.record? x).map Record.core) ∧
              t.table.classCounts = s.table.classCounts.set r0.cls.val (s.table.classCounts[r0.cls.val] + 1) ∧
              t.table.ring = s.table.ring ∧
              child = { p with
                id := childIdOf w.tel, eligible := false, memory := none, zonePart := none, dryPart := none
                bakePart := none } ∧
              ((p.state = .overrun ∨ p.state = .expired) →
                r' = { child with state := .expired } ∧
                  s.Posted t (l ++ s.settleNotices t r0 (some w.tel.source))) ∧
              (p.state ≠ .overrun → p.state ≠ .expired →
                ∃ z, zone? w.zone = some z ∧
                  t.Enters z j { child with state := if (s.tables.zone z).kind = .dry then .dry else .exposed } r' ∧
                  s.Posted t (l ++ s.settleNotices t r0 (some w.tel.source) ++ s.enterNotices
                    { child with state := if (s.tables.zone z).kind = .dry then .dry else .exposed } z
                    (some w.tel.source))))))

/-- UNLINK advances the zone of a CLOSE's carrier and takes the carrier out of the zone's list (R99). That the record keeps
its zone part until the delete is log entry 39. -/
def Obligations.UnlinkLeavesTheList : Prop :=
  ∀ (s : State) (w : Work) (i : Nat) (r : Record) (zp : ZonePart),
    s.engine.phase = .commitUnlink → s.engine.work = some w → s.running = true → s.zoneWait.head? = some .engine →
    w.held = some i → s.record? i = some r → r.held = true → r.zonePart = some zp →
    (s.zone zp.zone).watch.Nodup → (s.tables.zone zp.zone).kind ≠ .unset →
    ∃ t, exec .unlink s = .next t ∧ State.ZoneFrame { s with engine := t.engine } t ∧
      t.engine = { s.engine with phase := .commitDelete, work := some w } ∧ s.Charged t zp.zone ∧
      i ∉ (t.zone zp.zone).watch ∧ t.record? i = some r

/-! ### Bake batches -/

/-- A carrier joins the batch of its oven, or opens the free batch of lowest number, and sets the deadline (R155, R158). It
leaves its oven's batch with the members behind it moving up and the batch's figures kept; the batch is freed when its list
empties (R162, R163). -/
def Obligations.BatchMembership : Prop :=
  (∀ (s : State) (w : Work) (i : Nat) (r : Record) (bp : BakePart),
    s.engine.phase = .commitJoin → s.engine.work = some w → s.running = true → w.held = some i →
    s.record? i = some r → r.bakePart = some bp →
    (∀ (b : Fin 16) (x : Batch), s.batches[b.val] = some x → x.oven = bp.oven →
      (∀ j : Fin 16, j < b → ∀ y, s.batches[j.val] = some y → y.oven ≠ bp.oven) →
      ∃ y, exec .batchJoin s = .next
          { s with
            batches := s.batches.set b.val (some y), batchWait := s.batchWait.filter fun n => n != b
            engine := { s.engine with phase := .commitClose, work := some w } } ∧
        y = { x with
          members := x.members ++ [i], longest := max x.longest ((s.tables.cls r.cls).bake[bp.tier.val] * 60)
          deadline := min 4294967295 (bp.entered + 3 * max x.longest ((s.tables.cls r.cls).bake[bp.tier.val] * 60))
          stalePosted := false }) ∧
    (∀ b : Fin 16, (∀ (j : Fin 16) (y : Batch), s.batches[j.val] = some y → y.oven ≠ bp.oven) → s.batches[b.val] = none →
      (∀ j : Fin 16, j < b → s.batches[j.val] ≠ none) →
      exec .batchJoin s = .next
        { s with
          batches := s.batches.set b.val (some
            { oven := bp.oven, tier := bp.tier, openTime := bp.entered, members := [i]
              longest := (s.tables.cls r.cls).bake[bp.tier.val] * 60
              deadline := min 4294967295 (bp.entered + 3 * ((s.tables.cls r.cls).bake[bp.tier.val] * 60))
              stalePosted := false })
          batchWait := s.batchWait.filter fun n => n != b
          engine := { s.engine with phase := .commitClose, work := some w } })) ∧
  ∀ (s : State) (w : Work) (i : Nat) (r : Record) (bp : BakePart) (b : Fin 16) (x : Batch),
    s.engine.phase = .commitLeave → s.engine.work = some w → s.running = true → w.held = some i →
    w.settled = some r → r.bakePart = some bp → s.batches[b.val] = some x → x.oven = bp.oven →
    (∀ j : Fin 16, j < b → ∀ y, s.batches[j.val] = some y → y.oven ≠ bp.oven) →
    (∀ before after, x.members = before ++ i :: after → i ∉ before → before ++ after ≠ [] →
      exec .batchLeave s = .next
        { s with
          batches := s.batches.set b.val (some { x with members := before ++ after })
          engine := { s.engine with phase := .commitClose, work := some w } }) ∧
    (x.members = [i] →
      exec .batchLeave s = .next
        { s with
          batches := s.batches.set b.val none, batchWait := s.batchWait.filter fun n => n != b
          engine := { s.engine with phase := .commitClose, work := some w } })

/-- The end of a bake (R92, R160): the bake count, and by the baked seconds and the pre-bake state what becomes of the figures. -/
def Obligations.BakeOutcomeTable : Prop :=
  ∀ (r : Record) (c : ClassRow) (bp : BakePart) (time : Nat),
    (c.bake[bp.tier.val] * 60 ≤ time - bp.entered →
      r.bakeOutcome c bp time = (if c.bakeLimit < min 15 (r.bakeCount + 1) then .retired else .complete) ∧
      r.afterBake c (r.bakeOutcome c bp time) =
        { r with bakeCount := min 15 (r.bakeCount + 1), consumed := 0, warnIssued := false, lastBakeShort := false,
                 bakePart := none }) ∧
    (time - bp.entered < c.bake[bp.tier.val] * 60 →
      r.bakeOutcome c bp time = (if bp.preState = .expired then .shortExpired else .short) ∧
      r.afterBake c (r.bakeOutcome c bp time) =
        { r with bakeCount := min 15 (r.bakeCount + 1), lastBakeShort := true, bakePart := none
                 warnIssued := r.warnIssued && decide (c.warnPoint ≤ r.consumed) })

/-! ### Placing and timers -/

/-- An output joins its queue when there is room, and the engine is IDLE again; at a full queue it waits, and while the part
stops it is discarded (R152, R154). -/
def Obligations.OutputPlaced : Prop :=
  ∀ (s u : State) (w : Work) (o : Output),
    s.engine.phase = .placing → s.engine.work = some w → s.running = true → w.output = some o →
    u = { s with engine := { s.engine with phase := .idle, work := none } } →
    (o.queue = .upRelay → s.upRelay.length < 16 → s.plant.tx ≠ .idle →
      exec .outputPlace s = .next { u with upRelay := s.upRelay ++ [o.tel] }) ∧
    (o.queue = .answer → s.answers.length < 16 → s.floor.tx ≠ .idle →
      exec .outputPlace s = .next { u with answers := s.answers ++ [o.tel] }) ∧
    (o.queue = .upRelay → s.plant.tx = .idle → s.upRelay = [] → s.replies = [] → s.notices.entries = [] →
      exec .outputPlace s = .next
        { u with plant := { s.plant with tx := .sending .upRelay o.tel.chars }, plantStreak := 0 }) ∧
    (o.queue = .answer → s.floor.tx = .idle → s.answers = [] → s.downRelay = [] →
      exec .outputPlace s = .next
        { u with floor := { s.floor with tx := .sending .answer o.tel.chars }, floorPref := .relay }) ∧
    (((o.queue = .upRelay ∧ 16 ≤ s.upRelay.length) ∨ (o.queue = .answer ∧ 16 ≤ s.answers.length)) →
      exec .outputPlace s = .next (if s.stopping then u else s))

/-- An advance timer that has expired makes one request (R68), an overdue batch makes one (R163), and the batch's request
posts BAKE-STALE once (R163). A timer request advances its zone: the clocks are charged as the zone stood, its conditions are
fused from the slots still fresh, and its rate and dry condition are those of their cell, or with no fresh slot its fallback
rate (R63 to R66, R68); a change of the stale flag posts its notice, ahead of those of the pop (R67). No other zone's conditions
or clocks change. -/
def Obligations.TimersAndTheirRequests : Prop :=
  (∀ s : State, s.live = true →
    (∀ z : Fin 32, (s.tables.zone z).kind ≠ .unset →
      (s.zone z).lastAdvance + (s.tables.zone z).interval ≤ 4294967295 →
      (s.zone z).lastAdvance + (s.tables.zone z).interval ≤ s.now → ZoneRequest.timer z ∉ s.zoneWait →
      exec (.advanceTimerExpiry z.val) s = .next { s with zoneWait := s.zoneWait ++ [.timer z] }) ∧
    (∀ z : Fin 32,
      ((s.tables.zone z).kind = .unset ∨ s.now < (s.zone z).lastAdvance + (s.tables.zone z).interval ∨
        4294967295 < (s.zone z).lastAdvance + (s.tables.zone z).interval ∨ ZoneRequest.timer z ∈ s.zoneWait) →
      exec (.advanceTimerExpiry z.val) s = .next s) ∧
    (∀ z : Fin 32, s.zoneWait.head? ≠ some (.timer z) → exec (.timerRequest z.val) s = .next s) ∧
    (∀ (b : Fin 16) (x : Batch), s.batches[b.val] = some x → x.deadline ≤ s.now → x.stalePosted = false →
      b ∉ s.batchWait →
      exec (.staleTimerExpiry b.val) s = .next { s with batchWait := s.batchWait ++ [b] }) ∧
    (∀ (b : Fin 16) (x : Batch) (i : Nat) (rest : List Nat) (r : Record), b ∈ s.batchWait → s.batches[b.val] = some x →
      x.members = i :: rest → s.record? i = some r → s.plant.tx ≠ .idle →
      exec (.bakeStale b.val) s = .next
        { s with
          batchWait := s.batchWait.filter fun n => n != b
          batches := s.batches.set b.val (some { x with stalePosted := true })
          notices := s.notices.arrive
            { kind := .bakeStale, high := false, wallTime := s.wallTime, carrier := some r.id, zone := none
              station := some x.oven, percent := some ((s.tables.cls r.cls).pct r.consumed), reason := none
              extra := .absent, startLost := 0 } })) ∧
  ∀ (s : State) (z : Fin 32), s.live = true → s.zoneWait.head? = some (.timer z) → (s.tables.zone z).kind ≠ .unset →
    ∃ t, exec (.timerRequest z.val) s = .next t ∧ s.ZoneFrame t ∧ s.Charged t z ∧
      (t.zone z).slots = (s.zone z).slots ∧ t.zoneWait = (s.zoneWait.tail.filter fun q => q != .timer z) ∧
      (t.zone z).Refreshed s.tables (s.tables.zone z) s.now ∧
      (∃ l, (∀ n ∈ l, n.OfPop ∧ (s.ListsRight → n.zone = some z)) ∧
        s.Posted t (s.staleNotices t z none ++ l)) ∧
      ∀ y, y ≠ z → (t.zone y).air = (s.zone y).air

/-! ### Management requests -/

/-- Reading requests change nothing but the agent, which goes to PLACING with the data: the fields of section 2.7 at their offsets,
or a row image (R34, R54, R156, R174). The values 1 and 0 of stale-posted are log entry 47. -/
def Obligations.ReadsChangeNothing : Prop :=
  ∀ (s : State) (t : Telegram),
    (s.Serving t (.readStatus false) →
      ∃ data, exec .readStatus s = .next (s.reply t .done data) ∧ LaidOut data 22 s.status0Fields) ∧
    (s.Serving t (.readStatus true) →
      ∃ data, exec .readStatus s = .next (s.reply t .done data) ∧
        LaidOut data 36 (s.floor.counts.fields 0 ++ s.plant.counts.fields 18)) ∧
    (∀ table row, s.Serving t (.readRow table row) →
      exec .readRow s = .next (s.reply t .done (s.rowImage table row))) ∧
    (∀ id i r, s.Serving t (.readRecord id) → s.table.find? id = some (i, r) →
      ∃ data, exec .readRecord s = .next (s.reply t .done data) ∧ LaidOut data 43 (r.imageFields i)) ∧
    (∀ id, s.Serving t (.readRecord id) → s.table.find? id = none →
      exec .readRecord s = .next (s.reply t .notFound [])) ∧
    (∀ (b : Fin 16) (pos : Nat), s.Serving t (.readBatch b pos) →
      ∃ data, exec .readBatch s = .next (s.reply t .done data) ∧ BatchData s.batches[b.val] pos data)

/-- A request body is refused at decoding with the status of the first case of R32 that applies, and passes otherwise; a
request refused there is answered with its status, under operation 0xFF when its body is empty (R32, R33). The mode check
and then the image check of R176 refuse the requests that its table names: outside SETUP a WRITE-ROW of the tables 0x02 to 0x08 and
the three image operations; while a SAVE or a COMPARE runs those, a WRITE-ROW of any table, RESET-PART and a SET-MODE that would
leave SETUP. They change nothing else but what R183 says of a COMPARE-IMAGE; a LOAD-IMAGE that is refused has ended, and lowers
its pause (R182). -/
def Obligations.RequestsRefused : Prop :=
  ∀ (s : State) (t : Telegram),
    (match requestRefusal? t.body with
      | some st => decodeRequest t.body = .error st
      | none => ∃ op, decodeRequest t.body = .ok op) ∧
    (∀ st, s.agent.phase = .executing t → s.running = true → requestRefusal? t.body = some st →
      exec .unknownOp s = .next
        { s with
          agent :=
            { phase := .placing
                { dest := t.source, source := s.tables.part.own, kind := 0x51, seq := t.seq
                  body := [t.body.headD 0xFF, st.code] } false
              completion := s.agent.completion } }) ∧
    (∀ op c u, s.Serving t op → op.command? = some c → op.NeedsSetup → s.mode ≠ .setup →
      u = (if op = .compareImage then { s with store := { s.store with compared := false } }
        else if op = .loadImage then { s with engine := { s.engine with pause := false } }
        else s) →
      exec c s = .next (u.reply t .wrongMode [])) ∧
    (∀ op c u, s.Serving t op → op.command? = some c → (op.NeedsSetup → s.mode = .setup) →
      op.NeedsStore s.mode → s.store.run ≠ none →
      u = (if op = .loadImage then { s with engine := { s.engine with pause := false } } else s) →
      exec c s = .next (u.reply t .storeBusy []))

/-- SET-MODE: into SETUP and between WATCH and ENFORCE it is accepted; out of SETUP it needs ascending thresholds and a
configured zone, and the first failure is named (R177). -/
def Obligations.SetModeValidates : Prop :=
  ∀ (s : State) (t : Telegram) (m : Mode), s.Serving t (.setMode m) → s.store.run = none →
    ((m = .setup ∨ s.mode ≠ .setup) → exec .setMode s = .next ({ s with mode := m }.reply t .done [])) ∧
    (s.mode = .setup → m ≠ .setup →
      (¬s.tables.rhThresholds.toList.Pairwise (· < ·) →
        exec .setMode s = .next (s.reply t .invalidTables [0x04, 0x00, 0x00])) ∧
      (s.tables.rhThresholds.toList.Pairwise (· < ·) →
        (¬s.tables.tempThresholds.toList.Pairwise (· < ·) →
          exec .setMode s = .next (s.reply t .invalidTables [0x04, 0x00, 0x01])) ∧
        (s.tables.tempThresholds.toList.Pairwise (· < ·) →
          ((∀ z : Fin 32, (s.tables.zone z).kind = .unset) →
            exec .setMode s = .next (s.reply t .invalidTables [0x02, 0xFF, 0xFF])) ∧
          ((∃ z : Fin 32, (s.tables.zone z).kind ≠ .unset) →
            exec .setMode s = .next ({ s with mode := m }.reply t .done [])))))

/-- SET-TIME sets the wall time and leaves the counter (R179); CLEAR-START-CAUSE and CLEAR-COUNTERS clear what they name
(R124, R151, R187). -/
def Obligations.TimeFlagsAndCounters : Prop :=
  ∀ (s : State) (t : Telegram),
    (∀ wall, s.Serving t (.setTime wall) → wall < 4294967296 → s.retention.monotonic ≤ 4294967295 →
      ∃ u, exec .setTime s = .next u ∧ u.wallTime = wall ∧
        u = { s with
          retention := { s.retention with
            offset := u.retention.offset, flags := { s.retention.flags with timeUnset := false } }
          agent := (s.reply t .done []).agent }) ∧
    (s.Serving t .clearStartCause →
      ∃ u, exec .clearStartCause s = .next u ∧ u.retention.flags.byte = 0 ∧
        u = { s with
          retention := { s.retention with flags := u.retention.flags }, agent := (s.reply t .done []).agent }) ∧
    (∀ i, s.Serving t (.clearRules i) →
      ∃ u, exec .clearRuleCounters s = .next u ∧
        (∀ j : Fin 64, u.ruleCounters[j.val] = if i = none ∨ i = some j then 0 else s.ruleCounters[j.val]) ∧
        u = { s with ruleCounters := u.ruleCounters, agent := (s.reply t .done []).agent }) ∧
    (∀ i, s.Serving t (.clearFaults i) →
      ∃ u, exec .clearFaultCounters s = .next u ∧
        (∀ j : Fin 16, u.faultCounters[j.val] = if i = none ∨ i = some j then 0 else s.faultCounters[j.val]) ∧
        u = { s with faultCounters := u.faultCounters, agent := (s.reply t .done []).agent })

/-- Station and part configuration rows are written in every mode, matcher rows in SETUP; each at once, and the reply carries
the addresses then in force (R36, R125, R178). A row that is written reads back (R34). -/
def Obligations.RowsWritten : Prop :=
  (∀ (s : State) (t : Telegram) (rw : RowWrite) (c : Instr),
    s.Serving t (.writeRow rw) → MgmtOp.command? (.writeRow rw) = some c →
    (c = .stationWrite ∨ c = .partConfigurationWrite ∨ (c = .policyTableWrite ∧ s.mode = .setup)) →
    s.store.run = none →
    exec c s = .next ({ s with tables := s.tables.write rw }.reply t .done [])) ∧
  ∀ (s : State) (rw : RowWrite),
    State.rowImage { s with tables := s.tables.write rw } rw.place.1 rw.place.2 = rw.image

/-- A zone configuration write charges a zone that was configured as it stood, replaces the row, and sets a zone that becomes
or ceases to be configured stale at its fallback rate; a zone that stays configured is refreshed under its new row (R63 to R65,
R72). A change of its stale flag posts ZONE-STALE or ZONE-FRESH without a station, ahead of the notices of the pop (R67); a write
from or to kind NONE posts nothing, and one of kind NONE over kind NONE does nothing but replace the row (R72). A change of kind with
members is refused IN-USE (R178); that a refused write makes no advance of its zone is the model's choice (DESIGN CHOICE, log
entry 45). -/
def Obligations.ZoneRowWritten : Prop :=
  ∀ (s : State) (t : Telegram) (z : Fin 32) (row : ZoneConfig),
    s.Serving t (.writeRow (.zone z row)) → s.mode = .setup → s.store.run = none → s.AgentTurn →
    ((s.zone z).watch ≠ [] → (s.tables.zone z).kind ≠ row.kind →
      exec .zoneConfigurationWrite s = .next (s.withdrawAgent.reply t .inUse [])) ∧
    ((s.tables.zone z).kind = .unset → row.kind = .unset →
      exec .zoneConfigurationWrite s = .next
        { s with
          tables := s.tables.write (.zone z row), zoneWait := s.zoneWait.filter fun q => q != .agent
          agent := (s.reply t .done []).agent }) ∧
    (((s.zone z).watch = [] ∨ (s.tables.zone z).kind = row.kind) →
      ∃ u, exec .zoneConfigurationWrite s = .next u ∧
        State.ZoneFrame { s with tables := s.tables.write (.zone z row), agent := (s.reply t .done []).agent } u ∧
        (∀ y, y ≠ z → (u.zone y).air = (s.zone y).air) ∧
        ((s.tables.zone z).kind ≠ .unset → s.Charged u z) ∧
        ((s.tables.zone z).kind = .unset → (u.zone z).wear = (s.zone z).wear ∧ (u.zone z).dry = (s.zone z).dry) ∧
        ((s.tables.zone z).kind = .unset ∧ row.kind ≠ .unset → (u.zone z).lastAdvance = s.now) ∧
        ((s.tables.zone z).kind ≠ .unset ∧ row.kind ≠ .unset →
          (u.zone z).slots = (s.zone z).slots ∧ (u.zone z).Refreshed s.tables row s.now ∧
            ∃ l, (∀ n ∈ l, n.OfPop ∧ (s.ListsRight → n.zone = some z)) ∧
              s.Posted u (s.staleNotices u z none ++ l)) ∧
        ((s.tables.zone z).kind = .unset ∨ row.kind = .unset → u.notices = s.notices) ∧
        (((s.tables.zone z).kind = .unset ↔ row.kind ≠ .unset) →
          (u.zone z).stale = true ∧ (u.zone z).fused = none ∧ (u.zone z).rate = row.fallback ∧ (u.zone z).dryOn = false ∧
            ∀ j : Fin 3, (u.zone z).slots[j.val] = .invalid))

/-- A grid or threshold write charges every configured zone at the rate it had before the new grid is used, and leaves every
other zone; a zone that is not stale takes fused conditions and bands from its fresh slots (R63, R64), and rate and dry
condition from the new grid (R65), and the stale flag of none changes (R73). It posts the crossing notices of the pops and no
ZONE-STALE and no ZONE-FRESH (R73, R102). That a zone whose readings have all aged keeps its fused values, with new bands, is log
entry 46. -/
def Obligations.GridRowWritten : Prop :=
  ∀ (s : State) (t : Telegram) (rw : RowWrite),
    s.Serving t (.writeRow rw) → MgmtOp.command? (.writeRow rw) = some .gridWrite → s.mode = .setup →
    s.store.run = none → s.AgentTurn →
    ∃ u, exec .gridWrite s = .next u ∧
      State.ZoneFrame { s with tables := s.tables.write rw, agent := (s.reply t .done []).agent } u ∧
      (∃ l, (∀ n ∈ l, n.OfPop) ∧ s.Posted u l) ∧
      ∀ z, if (s.tables.zone z).kind ≠ .unset then
          s.Charged u z ∧ (u.zone z).slots = (s.zone z).slots ∧ (u.zone z).stale = (s.zone z).stale ∧
            ((s.zone z).stale = true →
              (u.zone z).rate = (s.zone z).rate ∧ (u.zone z).dryOn = (s.zone z).dryOn ∧
                (u.zone z).fused = (s.zone z).fused) ∧
            ((s.zone z).stale = false → (s.zone z).HasFresh (s.tables.zone z).staleness s.now →
              (u.zone z).Refreshed (s.tables.write rw) (s.tables.zone z) s.now) ∧
            ∀ f, (s.zone z).stale = false → ¬(s.zone z).HasFresh (s.tables.zone z).staleness s.now →
              (s.zone z).fused = some f →
              ∃ f' cell, (u.zone z).fused = some f' ∧ f'.temp = f.temp ∧ f'.rh = f.rh ∧
                f'.rhBand = (s.tables.write rw).rhThresholds.toList.countP (fun v => decide (v ≤ f.rh)) ∧
                f'.tempBand = (s.tables.write rw).tempThresholds.toList.countP (fun v => decide (v ≤ f.temp)) ∧
                (s.tables.write rw).grid[f'.rhBand * 6 + f'.tempBand]? = some cell ∧
                (u.zone z).rate = cell.rate ∧ (u.zone z).dryOn = ((s.tables.zone z).kind == .dry && cell.dry)
        else (u.zone z).air = (s.zone z).air

/-- A class row is written in place for a class without records, and cannot be unconfigured while it has some (R178). Otherwise
a rekey begins: the pause is raised (R153), no create is taken, of an OPEN or of a SPLIT, so that no record comes into use
(R178), and the rekey request waits for its turn at the Zone Engine (R69; log entry 11), whatever becomes of the count meanwhile
(log entry 49). A SPLIT whose relist already waits to create holds the write back (log entry 51). At its turn it charges every
configured zone and lowers the pause when it ends (R105). `v` is the state that the advances leave, each with its pop (R105 step
1). From there each listed record of the class, in ascending zone order and in list order, is settled and attached to its zone
again under the new row, with its passed thresholds judged and its crossings applied (R86, R106, R107); the notices of those
crossings arrive in that order behind those of the advances, each with the zone, no station and the percent under the new row
(R102, R106); records of other classes or without a zone are not rekeyed. While the part stops no rekey begins, and a stop that
comes while one waits discards it (R74, R186). -/
def Obligations.ClassRowWritten : Prop :=
  ∀ (s : State) (t : Telegram) (c : Fin 16) (row : ClassRow),
    (s.Serving t (.writeRow (.cls c row)) → s.mode = .setup → s.store.run = none →
      (s.table.classCounts[c.val] = 0 →
        exec .classWrite s = .next
          { s with tables := s.tables.write (.cls c row), agent := (s.reply t .done []).agent }) ∧
      (s.table.classCounts[c.val] ≠ 0 → row.floorLife = 0 →
        exec .classWrite s = .next (s.reply t .inUse [])) ∧
      (s.table.classCounts[c.val] ≠ 0 → row.floorLife ≠ 0 → s.stopping = true → s.agent.completion = none →
        exec .classWrite s = .next
          { s with engine := { s.engine with pause := false }, agent := { phase := .idle, completion := none } }) ∧
      (s.table.classCounts[c.val] ≠ 0 → row.floorLife ≠ 0 → s.stopping = false → s.SplitToCreate →
        exec .classWrite s = .next s) ∧
      (s.table.classCounts[c.val] ≠ 0 → row.floorLife ≠ 0 → s.stopping = false → ¬s.SplitToCreate →
        exec .classWrite s = exec .classWrite
          { s with
            engine := { s.engine with pause := true }, agent := { s.agent with phase := .rekeying t c row } })) ∧
    (s.agent.phase = .rekeying t c row →
      (s.engine.phase = .commitCreate → exec .create s = .next s) ∧
      (s.SplitToCreate → exec .commitRelist s = .next s) ∧
      ∀ cmd u, exec cmd s = .next u → u.agent.phase = .rekeying t c row → ∀ i, s.record? i = none → u.record? i = none) ∧
    (s.agent.phase = .rekeying t c row → s.live = true →
      (¬s.AgentTurn →
        exec .classWrite s = .next
          (if ZoneRequest.agent ∈ s.zoneWait then s else { s with zoneWait := s.zoneWait ++ [.agent] })) ∧
      (s.AgentTurn →
        ∃ u v, exec .classWrite s = .next u ∧ s.AllAdvanced v ∧
          State.ZoneFrame
            { s with
              tables := s.tables.write (.cls c row), engine := { s.engine with pause := false }
              agent := (s.reply t .done []).agent } u ∧
          (∀ z, if (s.tables.zone z).kind ≠ .unset then s.Charged u z else (u.zone z).air = (s.zone z).air) ∧
          (∃ l, (∀ n ∈ l, n.OfAdvance) ∧ s.Posted v l ∧ (s.ListsRight → s.Posted u (l ++ v.rekeyNotices u c))) ∧
          (s.ListsRight →
            (∀ i r, v.record? i = some r → r.zonePart = none → u.record? i = some r) ∧
            (∀ z i r, i ∈ (v.zone z).watch → (s.tables.zone z).kind ≠ .unset → v.record? i = some r →
              (r.cls = c → ∃ r', u.record? i = some r' ∧ u.Enters z i { r with consumed := u.settledConsumed r } r') ∧
              (r.cls ≠ c → u.record? i = some r)) ∧
            (∀ i r, s.record? i = some r → r.zonePart = none → u.record? i = some r) ∧
            ∀ z i r, i ∈ (s.zone z).watch → (s.tables.zone z).kind ≠ .unset → s.record? i = some r →
              (r.cls = c → ∃ r', u.record? i = some r' ∧ r'.consumed = u.settledConsumed r) ∧
              ((r.held = true ∨ (u.zone z).wear < s.keyOf i) →
                (r.cls = c →
                  ∃ r', u.record? i = some r' ∧ u.Enters z i { r with consumed := u.settledConsumed r } r') ∧
                (r.cls ≠ c → u.record? i = some r))))) ∧
    (s.agent.phase = .rekeying t c row → s.agent.completion = none → s.retention.monitor = .failPending →
      s.retention.quiesce = none →
      ∃ u, exec .freeze s = .next u ∧ u.agent = .atStart ∧ u.engine.pause = false ∧ u.tables = s.tables)

/-- READ-ZONE and LIST-ZONE advance a configured zone before they report it, and leave an unconfigured one (R71, R104; log entry
25). They report the fields of section 2.7 at their offsets, as the advance leaves them, and LIST-ZONE each consumed figure
brought up to the present (R104). The values 1 and 0 of the stale flag, the dry condition and a slot's valid are log entry 47. -/
def Obligations.ZoneReadsAdvance : Prop :=
  ∀ (s : State) (t : Telegram) (z : Fin 32), s.AgentTurn →
    (∀ (page1 : Bool) (pos : Nat) (c : Instr),
      ((c = .readZone ∧ s.Serving t (.readZone z page1)) ∨ (c = .listZone ∧ s.Serving t (.listZone z pos))) →
      ∃ u data, exec c s = .next u ∧ State.ZoneFrame { s with agent := u.agent } u ∧
        u.agent = (s.reply t .done data).agent ∧
        (c = .readZone → LaidOut data 27 (if page1 then (u.zone z).slotFields else u.zone0Fields z)) ∧
        (c = .listZone → (∀ i ∈ (s.zone z).watch, s.record? i ≠ none) → u.ListData z pos data) ∧
        (if (s.tables.zone z).kind ≠ .unset then s.Charged u z else (u.zone z).air = (s.zone z).air) ∧
        ∀ y, y ≠ z → (u.zone y).air = (s.zone y).air)

/-- WRITE-RECORD: at its turn the refusals of R55, and what an accepted request leaves in the record (R56). A record that stands
in a zone waits for the Zone Engine before any check is made (R55, R69; log entry 11). The zone of such a record is charged; if
it keeps its zone part it is relisted there with its new figures, its passed thresholds judged and its crossings applied, and
their notices, which name no station, come behind those of the advance, which passes over the record (R56, R86, R94, R102; log
entry 37). A class written moves the class counts (R53), and a carrier retired in its oven leaves the batch (R164). A record
without a zone part keeps its state; that its warn-issued flag is judged only where consumed is written is log entry 43. The
reply carries the record image after the write (02, section 2.7). -/
def Obligations.RecordWritten : Prop :=
  ∀ (s : State) (t : Telegram) (id : CarrierId) (rw : RecordWrite) (c : Instr),
    s.Serving t (.writeRecord id rw) →
    ((c = .writeRecordClass ∧ rw.cls ≠ none) ∨ (c = .writeRecordConsumed ∧ rw.minutes ≠ none) ∨
      (c = .writeRecordBakeCount ∧ rw.bakeCount ≠ none) ∨ (c = .writeRecordRetire ∧ rw.retire = true)) →
    (∀ i r, s.table.find? id = some (i, r) → r.zonePart ≠ none → ¬s.AgentTurn →
      exec c s = .next (if ZoneRequest.agent ∈ s.zoneWait then s else { s with zoneWait := s.zoneWait ++ [.agent] })) ∧
    (s.RecordTurn id → s.table.find? id = none → exec c s = .next (s.withdrawAgent.reply t .notFound [])) ∧
    ∀ i r, s.RecordTurn id → s.table.find? id = some (i, r) →
      (r.held = true → exec c s = .next (s.withdrawAgent.reply t .rowBusy [])) ∧
      (∀ k, r.held = false → rw.cls = some k → (s.tables.cls k).floorLife = 0 →
        exec c s = .next (s.withdrawAgent.reply t .badValue [])) ∧
      (r.held = false → (∀ k, rw.cls = some k → (s.tables.cls k).floorLife ≠ 0) →
        ∃ u r' l data, exec c s = .next u ∧ u.record? i = some r' ∧ s.PopNoticesBut i r.id l ∧
          r'.id = r.id ∧ r'.memory = r.memory ∧ r'.held = false ∧ r'.lastBakeShort = r.lastBakeShort ∧
          r'.cls = rw.cls.getD r.cls ∧ r'.bakeCount = rw.bakeCount.getD r.bakeCount ∧
          (∀ m, rw.minutes = some m →
            r'.consumed = min (m * 3840) ((s.tables.cls r'.cls).budget + (s.tables.cls r'.cls).graceUnits)) ∧
          (rw.minutes = none → r'.consumed = u.settledConsumed r) ∧
          (rw.retire = true → r'.state = .retired ∧ r'.zonePart = none ∧ r'.bakePart = none) ∧
          (rw.retire = false ∨ r.bakePart = none →
            r'.bakePart = r.bakePart ∧ u.batches = s.batches ∧ u.batchWait = s.batchWait) ∧
          (∀ bp, rw.retire = true → r.bakePart = some bp → s.BatchLeft u bp.oven i) ∧
          u.table.classCounts =
            (match rw.cls with
              | none => s.table.classCounts
              | some k => s.table.classMoved r.cls k) ∧
          (∀ zp into, r.zonePart = some zp → rw.retire = false →
            into = { r with
              cls := rw.cls.getD r.cls, consumed := r'.consumed, bakeCount := rw.bakeCount.getD r.bakeCount } →
            u.Enters zp.zone i into r' ∧ s.Posted u (l ++ s.enterNotices into zp.zone none)) ∧
          (∀ zp, r.zonePart = some zp → rw.retire = true →
            s.Posted u l ∧ ((s.zone zp.zone).watch.Nodup → i ∉ (u.zone zp.zone).watch)) ∧
          (r.zonePart = none → s.Posted u [] ∧ r'.zonePart = none ∧ (rw.retire = false → r'.state = r.state)) ∧
          ((r.zonePart = none ∨ rw.retire = true) →
            r'.warnIssued =
              if rw.minutes = none then r.warnIssued
              else r.warnIssued && decide ((s.tables.cls r'.cls).warnPoint ≤ r'.consumed)) ∧
          (∀ y, if r.zonePart.map ZonePart.zone = some y ∧ (s.tables.zone y).kind ≠ .unset then s.Charged u y
            else (u.zone y).air = (s.zone y).air) ∧
          (∀ j, j ≠ i → (u.record? j).map Record.core = (s.record? j).map Record.core) ∧
          u = { s with
            table := { s.table with records := u.table.records, classCounts := u.table.classCounts }
            zones := u.zones, zoneWait := u.zoneWait, batches := u.batches, batchWait := u.batchWait
            plant := { s.plant with tx := u.plant.tx }, notices := u.notices, replies := u.replies
            upRelay := u.upRelay, plantStreak := u.plantStreak
            agent := (s.reply t .done data).agent } ∧
          LaidOut data 43 (r'.imageFields i))

/-- DELETE-RECORD frees the record it names, unless the record is absent or held (R45, R55, R57): out of its zone's list, the
zone charged, or out of its oven's batch, with no notice but those the advance posts of other carriers or of the stale flag
(R57, R164). A record that stands in a zone waits for the Zone Engine before either check is made (R57, R69; log entry 11). That
a refusal at its turn advances no zone is log entry 45, and that the advance passes over the record log entry 37. -/
def Obligations.RecordDeleted : Prop :=
  ∀ (s : State) (t : Telegram) (id : CarrierId), s.Serving t (.deleteRecord id) →
    (∀ i r, s.table.find? id = some (i, r) → r.zonePart ≠ none → ¬s.AgentTurn →
      exec .deleteRecord s = .next
        (if ZoneRequest.agent ∈ s.zoneWait then s else { s with zoneWait := s.zoneWait ++ [.agent] })) ∧
    (s.RecordTurn id → s.table.find? id = none →
      exec .deleteRecord s = .next (s.withdrawAgent.reply t .notFound [])) ∧
    ∀ i r, s.RecordTurn id → s.table.find? id = some (i, r) →
      (r.held = true → exec .deleteRecord s = .next (s.withdrawAgent.reply t .rowBusy [])) ∧
      (r.held = false → s.table.Canonical →
        ∃ u l, exec .deleteRecord s = .next u ∧ u.record? i = none ∧ s.PopNoticesBut i r.id l ∧ s.Posted u l ∧
          (∀ zp, r.zonePart = some zp →
            ((s.tables.zone zp.zone).kind ≠ .unset → s.Charged u zp.zone) ∧
              ((s.zone zp.zone).watch.Nodup → i ∉ (u.zone zp.zone).watch)) ∧
          (r.zonePart = none → l = []) ∧
          (r.bakePart = none → u.batches = s.batches ∧ u.batchWait = s.batchWait) ∧
          (∀ bp, r.bakePart = some bp → s.BatchLeft u bp.oven i) ∧
          (∀ j, j ≠ i → (u.record? j).map Record.core = (s.record? j).map Record.core) ∧
          u.table.classCounts = s.table.classCounts.set r.cls.val (s.table.classCounts[r.cls.val] - 1) ∧
          u.table.ring = s.table.ring ∧
          u.table.poolFree = (if i < 3072 then s.table.poolFree else i :: s.table.poolFree) ∧
          (∀ z, z ∉ r.zonePart.map ZonePart.zone → (u.zone z).air = (s.zone z).air) ∧
          u = { s with
            table := u.table, zones := u.zones, zoneWait := u.zoneWait, batches := u.batches, batchWait := u.batchWait
            plant := { s.plant with tx := u.plant.tx }, notices := u.notices, replies := u.replies
            upRelay := u.upRelay, plantStreak := u.plantStreak, agent := (s.reply t .done []).agent })

/-! ### The Image Store -/

/-- SAVE-IMAGE writes the copy of the tables its request took, and its completion makes an image of that copy, with its check
word, which is good; COMPARE-IMAGE and its completion tell MATCH exactly when the image is good and equal to the tables (R180,
R181, R183). That the image is bad from the SAVE's first step on is log entry 31, and that a completion reply which waits behind
such a request is composed as the new operation begins log entry 57. -/
def Obligations.ImageSavedAndCompared : Prop :=
  (∀ (s : State) (t : Telegram) (after : Agent), s.mode = .setup → s.store.run = none →
    after =
      (match s.agent.completion with
        | none => { phase := .idle, completion := none }
        | some x => { phase := .placing (s.mgmtReply x.source x.seq x.op x.status []) false, completion := none }) →
    (∀ copy, s.Serving t .saveImage → s.agent.copy = some copy →
      exec .saveImage s = .next
        { s with
          store := { s.store with image := none, run := some (.save copy t.source t.seq) }
          agent := after }) ∧
    (s.Serving t .compareImage → s.engine.phase ≠ .deciding →
      exec .compareImage s = .next
        { s with
          store := { s.store with run := some (.compare t.source t.seq) }
          agent := after }) ∧
    (s.Serving t .compareImage → s.engine.phase = .deciding → exec .compareImage s = .next s)) ∧
  (∀ (x : ImageStore) (im : StoredImage), x.image = some im →
    (im.check = crc16 im.contents.imageBytes → x.good? = some im.contents) ∧
    (im.check ≠ crc16 im.contents.imageBytes → x.good? = none)) ∧
  ∀ (s : State) (source seq : Byte), s.live = true →
    (∀ copy, s.store.run = some (.save copy source seq) →
      ∃ u, exec .saveImageComplete s = .next u ∧ u.store.good? = some copy ∧
        u = { s with
          store := { s.store with image := some { contents := copy, check := crc16 copy.imageBytes }, run := none }
          agent := u.agent } ∧
        (s.agent.phase = .idle →
          u.agent = { phase := .placing (s.mgmtReply source seq 0x0D .done []) false, completion := none }) ∧
        (s.agent.phase ≠ .idle →
          u.agent = { s.agent with
            completion := some { source := source, seq := seq, op := 0x0D, status := .done } })) ∧
    (s.store.run = some (.compare source seq) →
      ∃ u st, exec .compareImageComplete s = .next u ∧
        (st = .done ↔ s.store.good? ≠ none) ∧ (st = .imageBad ↔ s.store.good? = none) ∧
        (u.store.compared = true ↔ s.store.good? = some s.tables) ∧
        u = { s with store := { s.store with run := none, compared := u.store.compared }, agent := u.agent } ∧
        (s.agent.phase = .idle →
          u.agent = { phase := .placing (s.mgmtReply source seq 0x0F st []) false, completion := none }) ∧
        (s.agent.phase ≠ .idle →
          u.agent = { s.agent with completion := some { source := source, seq := seq, op := 0x0F, status := st } }))

/-- LOAD-IMAGE reads the image with the pause raised; when the read has ended the replacement request is made (log entry 5).
It puts all nine tables in from the image, charging every zone that was configured and rekeying every listed record under the
new class rows (R106, R107), a zone that becomes or ceases to be configured as a write of its row would (R72; what an invalid slot
holds is log entry 48), or refuses IN-USE and leaves the tables; the pause is lowered when the request ends (R182). That a
request made out of turn waits, and is carried out by the command given again, is log entry 11; that a refused load makes no
advance of any zone is the model's choice (DESIGN CHOICE, log entry 45). -/
def Obligations.ImageLoaded : Prop :=
  ∀ (s : State) (t : Telegram),
    (s.Serving t .loadImage → s.mode = .setup → s.store.run = none →
      (s.store.good? = none →
        exec .loadImage s = .next
          { s with engine := { s.engine with pause := false }, agent := (s.reply t .imageBad []).agent }) ∧
      (s.store.good? ≠ none →
        exec .loadImage s = .next
          { s with engine := { s.engine with pause := true }, agent := { s.agent with phase := .loading t } })) ∧
    (s.agent.phase = .loading t → s.live = true → ¬s.AgentTurn →
      exec .loadImageReplace s = .next
        (if ZoneRequest.agent ∈ s.zoneWait then s else { s with zoneWait := s.zoneWait ++ [.agent] })) ∧
    ∀ new, s.agent.phase = .loading t → s.live = true → s.store.good? = some new → s.AgentTurn →
      (((∃ c : Fin 16, s.table.classCounts[c.val] ≠ 0 ∧ (new.cls c).floorLife = 0) ∨
          (∃ z, (s.zone z).watch ≠ [] ∧ (s.tables.zone z).kind ≠ (new.zone z).kind)) →
        exec .loadImageReplace s = .next
          { s with
            engine := { s.engine with pause := false }, zoneWait := s.zoneWait.filter fun q => q != .agent
            agent := (s.reply t .inUse []).agent }) ∧
      ((∀ c : Fin 16, s.table.classCounts[c.val] ≠ 0 → (new.cls c).floorLife ≠ 0) →
        (∀ z, (s.zone z).watch ≠ [] → (s.tables.zone z).kind = (new.zone z).kind) →
        ∃ u, exec .loadImageReplace s = .next u ∧
          State.ZoneFrame
            { s with
              tables := new, engine := { s.engine with pause := false }
              agent :=
                { phase := .placing ({ s with tables := new }.mgmtReply t.source t.seq (replyOp t.body) .done []) false
                  completion := s.agent.completion } } u ∧
          (∀ z, (s.tables.zone z).kind ≠ .unset → s.Charged u z) ∧
          (∃ l, s.Posted u l ∧
            ∀ n ∈ l, n.OfAdvance ∧
              ∀ z, n.zone = some z → (n.kind = .zoneStale ∨ n.kind = .zoneFresh) →
                (s.tables.zone z).kind ≠ .unset ∧ (new.zone z).kind ≠ .unset) ∧
          (∀ z, (s.tables.zone z).kind ≠ .unset → (new.zone z).kind ≠ .unset →
            (u.zone z).slots = (s.zone z).slots ∧ (u.zone z).Refreshed new (new.zone z) s.now) ∧
          (∀ z, (s.tables.zone z).kind = .unset →
            (u.zone z).wear = (s.zone z).wear ∧ (u.zone z).dry = (s.zone z).dry ∧
              if (new.zone z).kind = .unset then (u.zone z).air = (s.zone z).air
              else (u.zone z).lastAdvance = s.now) ∧
          (∀ z, ((s.tables.zone z).kind = .unset ↔ (new.zone z).kind ≠ .unset) →
            (u.zone z).stale = true ∧ (u.zone z).fused = none ∧ (u.zone z).rate = (new.zone z).fallback ∧
              (u.zone z).dryOn = false ∧ ∀ j : Fin 3, (u.zone z).slots[j.val] = .invalid) ∧
          (s.ListsRight →
            (∀ i r, s.record? i = some r → r.zonePart = none → u.record? i = some r) ∧
            ∀ z i r, i ∈ (s.zone z).watch → (s.tables.zone z).kind ≠ .unset → s.record? i = some r →
              ∃ r', u.record? i = some r' ∧ r'.consumed = u.settledConsumed r ∧
                ((r.held = true ∨ (u.zone z).wear < s.keyOf i) →
                  u.Enters z i { r with consumed := u.settledConsumed r } r')))

/-! ### Replies and stops -/

/-- A reply joins its queue when there is room, waits at a full one, and is discarded there while the part stops (R175, R186); a
RESET-PART's reply is placed first, at once or when there is room, and its quiesce begins then: the receivers stop, and the
transaction in flight goes on, or the engine stops in OFFERING or PLACING (R20, R154, R189). A completion reply that waits is
placed behind it where there is room (log entries 23 and 55). That a RESET-PART which the agent still holds in a part already
stopping has its reply placed and begins no quiesce is the model's choice (log entry 53). -/
def Obligations.RepliesPlaced : Prop :=
  ∀ (s : State) (after : Agent), s.running = true →
    after =
      (match s.agent.completion with
        | none => { phase := .idle, completion := none }
        | some x => { phase := .placing (s.mgmtReply x.source x.seq x.op x.status []) false, completion := none }) →
    (∀ r, s.agent.phase = .placing r false →
      (s.replies.length < 4 → s.plant.tx ≠ .idle →
        exec .replyPlace s = .next { s with replies := s.replies ++ [r], agent := after }) ∧
      (s.plant.tx = .idle → s.replies = [] → s.upRelay = [] → s.notices.entries = [] →
        exec .replyPlace s = .next
          { s with
            plant := { s.plant with tx := .sending .reply r.chars }, plantStreak := 0, agent := after }) ∧
      (4 ≤ s.replies.length →
        exec .replyPlace s = .next (if s.stopping then { s with agent := after } else s))) ∧
    ∀ (t r : Telegram) (c : Instr) (late : List Telegram) (q : Retention),
      ((c = .resetPart ∧ s.Serving t .resetPart ∧ s.store.run = none ∧
          r = s.mgmtReply t.source t.seq (replyOp t.body) .done []) ∨
        (c = .replyPlace ∧ s.agent.phase = .placing r true)) →
      late =
        ((s.agent.completion.map fun x => s.mgmtReply x.source x.seq x.op x.status []).toList.take
          (3 - s.replies.length)) →
      q = { s.retention with
        quiesce := some { cause := .command, behind := late.length, timed := false, stopped := false } } →
      (4 ≤ s.replies.length → c = .resetPart →
        exec c s = .next { s with agent := { s.agent with phase := .placing r true } }) ∧
      (4 ≤ s.replies.length → c = .replyPlace →
        exec c s = .next (if s.stopping then { s with agent := after } else s)) ∧
      (s.stopping = true → s.replies.length < 4 → s.plant.tx ≠ .idle →
        exec c s = .next { s with replies := s.replies ++ [r], agent := after }) ∧
      (s.stopping = true → s.plant.tx = .idle → s.replies = [] → s.upRelay = [] → s.notices.entries = [] →
        exec c s = .next
          { s with
            plant := { s.plant with tx := .sending .reply r.chars }, plantStreak := 0, agent := after }) ∧
      ∀ placed : State, s.stopping = false → s.replies.length < 4 →
        ((s.plant.tx ≠ .idle ∧ placed = { s with replies := s.replies ++ [r] ++ late }) ∨
          (s.plant.tx = .idle ∧ s.replies = [] ∧ s.upRelay = [] ∧ s.notices.entries = [] ∧
            placed = { s with
              plant := { s.plant with tx := .sending .reply r.chars }, plantStreak := 0, replies := late })) →
        (s.engine.phase ≠ .offering → s.engine.phase ≠ .placing → exec c s = .next (placed.atStop q)) ∧
        (s.engine.phase = .offering →
          exec c s = .next ({ placed.engineAtRest with zoneWait := [] }.atStop q)) ∧
        ∀ u, s.engine.phase = .placing → exec .outputPlace placed = .next u →
          exec c s = .next (u.engineAtRest.atStop q)

/-- The supply monitor's moves (R184), the loss of the backup domain (R187) and the counter (R179). `supplyOk` is the model's
own memory of the main supply (log entry 22). -/
def Obligations.SupplyMonitorMoves : Prop :=
  ∀ s : State,
    (s.retention.monitor = .normal →
      exec .supplyFail s = .next
        { s with retention := { s.retention with monitor := .failPending, supplyOk := false } }) ∧
    (s.retention.monitor = .failPending →
      exec .supplyRecover s = .next { s with retention := { s.retention with monitor := .normal, supplyOk := true } }) ∧
    (s.retention.monitor = .freezing →
      exec .supplyReturn s = .next { s with retention := { s.retention with supplyOk := true } } ∧
        exec .supplyDrop s = .next { s with retention := { s.retention with supplyOk := false } }) ∧
    (s.retention.monitor = .frozen →
      exec .supplyReturn s = .next
          { s with retention := { s.retention with monitor := .restorePending, supplyOk := true } } ∧
        exec .powerApplied s = .next
          { s with retention := { s.retention with monitor := .restorePending, supplyOk := true } } ∧
        exec .backupLoss s = .next
          { s with retention := { s.retention with backupValid := false, checkValid := false } }) ∧
    (s.retention.monitor = .restorePending →
      exec .supplyDrop s = .next { s with retention := { s.retention with monitor := .frozen, supplyOk := false } }) ∧
    ((s.retention.monitor ≠ .frozen ∨ s.retention.backupValid = true) →
      exec .monotonicTick s = .next
        { s with retention := { s.retention with monotonic := min 4294967295 (s.retention.monotonic + 1) } })

/-- A freeze begins when the 2 ms have passed (R184): the receivers stop, waiting requests but the transaction's go, the queues,
the carriers and the zones stay (R20, R74, R185), and a transaction in hand goes on (R154). How an engine in OFFERING or PLACING
and the agent end their work `State.StopBegins` says (R154, R186; log entries 20, 53 and 55). A freeze takes over a quiesce in
progress, which is then forgotten (R189); a start that is due it does not cut (R184). The freeze ends when the work has: the
freeze time and the notice loss are recorded and the check word written (R171, R185); the part then stands in FROZEN, or in
RESTORE-PENDING if the supply has returned (R184; the level is the model's own memory, log entry 22). A loss of the supply
before that leaves no check word (R185), and the part in FROZEN (log entry 21). -/
def Obligations.FreezeRecords : Prop :=
  ∀ s : State,
    (s.retention.monitor = .failPending → s.retention.quiesce = none →
      s.StopBegins .freeze { s.retention with monitor := .freezing }) ∧
    (∀ q, s.retention.monitor = .failPending → s.retention.quiesce = some q →
      exec .freeze s =
        if q.stopped then .next s else exec .freeze { s with retention := { s.retention with quiesce := none } }) ∧
    (s.retention.monitor = .freezing → s.engine.phase = .idle → s.agent.phase = .idle → s.agent.completion = none →
      exec .freezeStop s = .next
        { s with
          floor := { s.floor with tx := .stopped }, plant := { s.plant with tx := .stopped }
          retention := { s.retention with
            monitor := if s.retention.supplyOk then .restorePending else .frozen
            freezeTime := s.retention.monotonic
            noticeLoss := min 255 (s.notices.entries.length + s.notices.lost)
            checkValid := true } }) ∧
    ((s.retention.monitor = .normal ∨ s.retention.monitor = .failPending ∨ s.retention.monitor = .freezing) →
      exec .mainSupplyLoss s = .next
        { s with
          floor := { s.floor with
            rx := .disabled, tx := .stopped
            asm := { stage := .idle, skipping := s.floor.asm.skipping, noisy := false, timer := false } }
          plant := { s.plant with
            rx := .disabled, tx := .stopped
            asm := { stage := .idle, skipping := s.plant.asm.skipping, noisy := false, timer := false } }
          retention := { s.retention with
            monitor := .frozen, supplyOk := false, checkValid := false, quiesce := none } })

/-- A line break of 50 ms begins a quiesce, and with line reset inactive none (R8); the engine and the agent end their work as
`State.StopBegins` says (R154, R186; log entries 20, 53 and 55). When the work has ended the freeze time is recorded, once. A
LINE-BREAK quiesce stops the transmitters then, and so does a RESET-PART one whose reply has already gone; else it waits until
the reply's last character has (R189). It writes no check word (R189). -/
def Obligations.QuiesceRuns : Prop :=
  ∀ s : State,
    (s.plant.rx = .brk → s.lineReset = true → s.live = true →
      s.StopBegins .lineBreak
        { s.retention with
          quiesce := some { cause := .lineBreak, behind := 0, timed := false, stopped := false } }) ∧
    (s.lineReset = false → exec .lineBreak s = .next s) ∧
    ∀ q time, s.retention.quiesce = some q → q.stopped = false → s.engine.phase = .idle → s.agent.phase = .idle →
      s.agent.completion = none → time = (if q.timed then s.retention.freezeTime else s.retention.monotonic) →
      ((q.cause = .lineBreak ∨
          (q.cause = .command ∧
            (s.replies.length < q.behind ∨
              (s.replies.length = q.behind ∧ ∀ chars, s.plant.tx ≠ .sending .reply chars)))) →
        exec .quiesceStop s = .next
          { s with
            floor := { s.floor with tx := .stopped }, plant := { s.plant with tx := .stopped }
            retention := { s.retention with
              freezeTime := time
              noticeLoss := min 255 (s.notices.entries.length + s.notices.lost)
              quiesce := some { q with timed := true, stopped := true } } }) ∧
      (q.cause = .command → q.behind < s.replies.length →
        exec .quiesceStop s = .next
          { s with
            retention := { s.retention with
              freezeTime := time, quiesce := some { q with timed := true } } }) ∧
      (∀ chars, q.cause = .command → s.replies.length = q.behind → s.plant.tx = .sending .reply chars →
        ∃ u, exec .quiesceStop s = .next u ∧ u.plant.tx = s.plant.tx ∧
          exec (.telegramSent .plant) u = .next
            { s with
              floor := { s.floor with tx := .stopped }, plant := { s.plant with tx := .stopped }
              retention := { s.retention with
                freezeTime := time
                noticeLoss := min 255 (s.notices.entries.length + s.notices.lost)
                quiesce := some { q with timed := true, stopped := true } } })

/-! ### Starts -/

/-- A POWER-ON start of a part without a good image leaves the state after reset, whatever stood before; with one, the tables
are the image's, and the mode is its start mode if they validate and SETUP otherwise (R177, R187, R188). The memory of the main
supply is the model's own (log entry 22). -/
def Obligations.PowerOnStartResets : Prop :=
  ∀ s : State, s.retention.monitor = .restorePending →
    (s.retention.backupValid = false ∨ s.retention.checkValid = false) →
    (s.store.good? = none →
      exec .startSequence s = .next
        { State.reset with
          pending := s.pending, store := { image := s.store.image, run := none, compared := false }
          retention := { State.reset.retention with supplyOk := s.retention.supplyOk } }) ∧
    ∀ new, s.store.good? = some new →
      ∃ m, exec .startSequence s = .next
          { State.reset with
            pending := s.pending, store := { image := s.store.image, run := none, compared := false }
            retention := { State.reset.retention with
              supplyOk := s.retention.supplyOk, flags := { State.reset.retention.flags with imageLost := false } }
            tables := new, mode := m
            floor := { State.reset.floor with link := new.part.floor }
            plant := { State.reset.plant with link := new.part.plant }
            lineReset := new.part.lineReset
            zones := Vector.ofFn fun z => Zone.cleared (new.zone z).fallback } ∧
        (new.rhThresholds.toList.Pairwise (· < ·) → new.tempThresholds.toList.Pairwise (· < ·) →
          (∃ z : Fin 32, (new.zone z).kind ≠ .unset) → m = new.part.startMode) ∧
        ((¬new.rhThresholds.toList.Pairwise (· < ·) ∨ ¬new.tempThresholds.toList.Pairwise (· < ·) ∨
          ∀ z : Fin 32, (new.zone z).kind = .unset) → m = .setup)

/-- A start that keeps the retained domain (R75 to R77, R172, R173, R187, R188): after a supply gap each configured zone is
charged up to the freeze as it stood and from there at its blackout rate, with no dry time for the gap; after a quiesce it is
charged to the present. Every zone is then stale at its fallback rate, with no valid slot, no fused conditions and no dry condition
(R77). RESTART stands first, the crossing notices of the restart advance arrive behind it, and no ZONE-STALE and no ZONE-FRESH is
posted (R75 to R77). Just the open batches that are overdue and not reported make their stale request (R165; log entry 27).
Nothing is held, and what is retained but not charged is kept: the records but for their hold marks and what the restart advance
charges to those in a zone, the chains, the free list, the ring and the class counts (R58). The start's own cause flag is set and
the others kept (R187), the written link settings become active (R3, R19), and queues, error counts, reject counts and the compare
result are those of a start (R18, R19, R188). -/
def Obligations.RestartKeepsAccounts : Prop :=
  ∀ (s : State) (supply : Bool),
    ((supply = true ∧ s.retention.monitor = .restorePending ∧ s.retention.backupValid = true ∧
        s.retention.checkValid = true) ∨
      (supply = false ∧ s.retention.monitor ≠ .restorePending ∧
        ∃ q, s.retention.quiesce = some q ∧ q.stopped = true)) →
    ∃ t, exec .startSequence s = .next t ∧
      (∀ z, (s.tables.zone z).kind ≠ .unset →
        (t.zone z).lastAdvance = s.now ∧
        (supply = true →
          (t.zone z).wear = min 281474976710655
              ((s.zone z).wearAt s.retention.freezeTime +
                (s.tables.zone z).blackout * (s.now - s.retention.freezeTime)) ∧
            (t.zone z).dry = (s.zone z).dryAt s.retention.freezeTime) ∧
        (supply = false → (t.zone z).wear = (s.zone z).wearAt s.now ∧ (t.zone z).dry = (s.zone z).dryAt s.now)) ∧
      (∀ z, (s.tables.zone z).kind = .unset →
        (t.zone z).wear = (s.zone z).wear ∧ (t.zone z).dry = (s.zone z).dry) ∧
      (∀ z, (t.zone z).stale = true ∧ (t.zone z).rate = (s.tables.zone z).fallback ∧ (t.zone z).fused = none ∧
        (t.zone z).dryOn = false ∧ ∀ j : Fin 3, (t.zone z).slots[j.val].valid = false) ∧
      (∃ (n : Notice) (rest l : List Notice), t.notices.entries = n :: rest ∧
        n =
          { kind := .restart, high := true, wallTime := s.wallTime, carrier := none, zone := none, station := none
            percent := none, reason := none, extra := .seconds (s.now - s.retention.freezeTime)
            startLost := if supply then s.retention.noticeLoss
              else min 255 (s.notices.entries.length + s.notices.lost) } ∧
        (∀ m ∈ l, m.OfPop) ∧ t.notices = l.foldl NoticeQueue.arrive { entries := [n], lost := 0, nextSeq := 0 }) ∧
      (∀ b : Fin 16, b ∈ t.batchWait ↔
        ∃ x, s.batches[b.val] = some x ∧ x.deadline ≤ s.now ∧ x.stalePosted = false) ∧
      t.batchWait.Nodup ∧
      (∀ i, (t.record? i).map Record.core = (s.record? i).map fun r => { r.core with held := false }) ∧
      (∀ i r, s.record? i = some r → r.zonePart = none → t.record? i = some { r with held := false }) ∧
      t.table.chains = s.table.chains ∧ t.table.poolFree = s.table.poolFree ∧ t.table.ring = s.table.ring ∧
      t.table.classCounts = s.table.classCounts ∧
      t.tables = s.tables ∧ t.mode = s.mode ∧ t.ruleCounters = s.ruleCounters ∧ t.faultCounters = s.faultCounters ∧
      t.batches = s.batches ∧ t.retention.monotonic = s.retention.monotonic ∧ t.retention.offset = s.retention.offset ∧
      t.retention.monitor = (if supply then .normal else s.retention.monitor) ∧
      t.retention.checkValid = false ∧ t.retention.backupValid = true ∧ t.retention.quiesce = none ∧
      t.retention.freezeTime = s.retention.freezeTime ∧ t.retention.supplyOk = s.retention.supplyOk ∧
      (supply = true → t.retention.flags = { s.retention.flags with supplyRestore := true }) ∧
      (∀ q, supply = false → s.retention.quiesce = some q →
        t.retention.flags =
          match q.cause with
          | .command => { s.retention.flags with command := true }
          | .lineBreak => { s.retention.flags with lineBreak := true }) ∧
      (∀ port : LinkPort,
        t.port port =
          { rx := .seek, tx := .starting, queue := []
            link := match port with | .floor => s.tables.part.floor | .plant => s.tables.part.plant
            asm := { stage := .idle, skipping := true, noisy := false, timer := false }
            counts :=
              { framing := 0, noise := 0, check := 0, overrun := 0, cut := 0, stray := 0, timeout := 0, length := 0
                brk := 0 } }) ∧
      t.lineReset = s.tables.part.lineReset ∧ t.floorPref = .answer ∧ t.plantStreak = 0 ∧ t.answers = [] ∧
      t.downRelay = [] ∧ t.replies = [] ∧ t.upRelay = [] ∧ t.zoneWait = [] ∧
      t.engine = { phase := .idle, work := none, pause := false } ∧ t.agent = { phase := .idle, completion := none } ∧
      t.store = { s.store with run := none, compared := false } ∧ t.ambientRejects = 0 ∧ t.agentRejects = 0

/-! ### Invariants of every step -/

/-- No queue passes its size (R14; 01, section 1.6; R51, R166), nor the lost count and the relay streak theirs (R17). -/
def Obligations.QueuesStayBounded : Prop :=
  ∀ s t : State, s.QueuesBounded → step s = .next t → t.QueuesBounded

/-- Counts and clocks stay within their widths (R18, R23, R60, R61, R123, R151, R171, R179), and so do consumed and the bake
count of every record (R37), with the class rows that bound them, that of a waiting rekey among them (R34). -/
def Obligations.CountsStayBounded : Prop :=
  ∀ s t : State, s.CountsBounded → step s = .next t → t.CountsBounded

/-- The carrier table keeps its one canonical form; and its free list, ways and class counts go on agreeing with the records
in use: those, the free ways and the free pool records are 4,096 (R41), and each class count is the number of its records
(R53). Every record stays in the set of its ID, in a way or on its chain (R40, R41), and no two hold one ID (R44). -/
def Obligations.TableStaysCanonical : Prop :=
  ∀ s t : State, step s = .next t →
    (s.table.Canonical → t.table.Canonical) ∧ (s.table.Right → t.table.Right) ∧ (s.PlacesRight → t.PlacesRight)

/-- The watch lists keep their order and their members (R38, R93). -/
def Obligations.ListsStayRight : Prop :=
  ∀ s t : State, s.ListsRight → step s = .next t → t.ListsRight

/-- The open batches keep their members, each once and in one batch, and one batch an oven (R155). -/
def Obligations.BatchesStayRight : Prop :=
  ∀ s t : State, s.ListsRight → s.BatchesRight → step s = .next t → t.BatchesRight

/-- An idle transmitter has nothing waiting, after every step (R15). -/
def Obligations.IdleStaysEmpty : Prop :=
  ∀ s t : State, s.IdleMeansEmpty → step s = .next t → t.IdleMeansEmpty

/-- The state after reset meets the invariants that every step keeps. -/
def Obligations.ResetMeetsInvariants : Prop :=
  State.reset.QueuesBounded ∧ State.reset.CountsBounded ∧ State.reset.table.Canonical ∧ State.reset.table.Right ∧
    State.reset.PlacesRight ∧ State.reset.ListsRight ∧ State.reset.BatchesRight ∧ State.reset.IdleMeansEmpty ∧
    ∀ i : Nat, State.reset.record? i = none

/-- A row image of the right size is accepted exactly when every field is within its range (R34); a row that is accepted says
every bit of the image it was read from, and stands at the place the request named. A request that passes decoding says every
byte of its body, but those a WRITE-RECORD does not select (R32; 02, sections 2.7 and 2.8). -/
def Obligations.RowImagesRoundTrip : Prop :=
  (∀ (table row : Nat) (b : List Byte),
    b.length = rowSize table row → (∃ n, tableRows? table = some n ∧ row < n) →
    ((∃ rw, parseRow table row b = some rw) ↔ rowInRange table row b = true) ∧
      ∀ rw, parseRow table row b = some rw → rw.image = b ∧ rw.place = (table, row)) ∧
  ∀ (body : List Byte) (op : MgmtOp), decodeRequest body = .ok op → op.body (body.drop 10) = body

end
end

