-- ==== Sys2Proof/Laws/Replies.lean ====
section
/-! SUPPORT. Reply data as fields at offsets: what the byte writers of Machine/Operands.lean lay down (00, sections 4.4 and 4.5;
02, section 2.7), and what the agent keeps when a stop begins. -/

namespace Sys2Proof.Machine

/-! ### Bytes -/

@[simp] theorem length_beBytes (n v : Nat) : (beBytes n v).length = n := by
  induction n with
  | zero => rfl
  | succ n ih => simp [beBytes, ih]

@[simp] theorem length_absentBytes (n : Nat) : (absentBytes n).length = n := by simp [absentBytes]

@[simp] theorem length_optBytes (n : Nat) (o : Option Nat) : (optBytes n o).length = n := by cases o <;> simp [optBytes]

/-- The number some bytes spell behind others. -/
theorem foldl_bytes (l : List Byte) (a : Nat) :
    l.foldl (fun n x => n * 256 + x.toNat) a = a * 256 ^ l.length + l.foldl (fun n x => n * 256 + x.toNat) 0 := by
  induction l generalizing a with
  | nil => simp
  | cons x l ih =>
    rw [List.foldl_cons, List.foldl_cons, ih, ih (0 * 256 + x.toNat), List.length_cons, Nat.pow_succ]
    ring

/-- The bytes of a number spell it, cut to their width. -/
theorem foldl_beBytes (n v : Nat) : (beBytes n v).foldl (fun n x => n * 256 + x.toNat) 0 = v % 256 ^ n := by
  induction n with
  | zero => simp [beBytes, Nat.mod_one]
  | succ n ih =>
    rw [beBytes, List.foldl_cons, foldl_bytes, ih, length_beBytes, Nat.pow_succ, Nat.mod_mul]
    simp only [BitVec.toNat_ofNat, Nat.reducePow]
    ring

/-- Absent bytes spell the largest number of their width. -/
theorem foldl_absentBytes (n : Nat) : (absentBytes n).foldl (fun n x => n * 256 + x.toNat) 0 = 256 ^ n - 1 := by
  induction n with
  | zero => rfl
  | succ n ih =>
    have h : 0 < 256 ^ n := by positivity
    rw [absentBytes, List.replicate_succ, List.foldl_cons, foldl_bytes, List.length_replicate, Nat.pow_succ]
    unfold absentBytes at ih
    rw [ih]
    simp
    omega

/-! ### Fields -/

/-- A field behind a prefix. -/
theorem fieldAt_append_right (a b : List Byte) (off size : Nat) (v : Option Nat) :
    FieldAt (a ++ b) (a.length + off) size v ↔ FieldAt b off size v := by
  simp [FieldAt, Nat.add_assoc]

/-- A field that lies in a prefix. -/
theorem fieldAt_append_left (a b : List Byte) {off size : Nat} (v : Option Nat) (h : off + size ≤ a.length) :
    FieldAt (a ++ b) off size v ↔ FieldAt a off size v := by
  have hd : ((a ++ b).drop off).take size = (a.drop off).take size := by
    rw [List.drop_append_of_le_length (by omega), List.take_append_of_le_length (by simp; omega)]
  simp only [FieldAt, hd, List.length_append]
  constructor <;> rintro ⟨-, h2⟩ <;> exact ⟨by omega, h2⟩

/-- A number or the absent field, written at the head of some bytes. -/
theorem fieldAt_optBytes (n : Nat) (o : Option Nat) (b : List Byte) : FieldAt (optBytes n o ++ b) 0 n o := by
  rw [fieldAt_append_left _ _ _ (by simp)]
  cases o with
  | some v => simp [FieldAt, optBytes, foldl_beBytes, List.take_of_length_le]
  | none => simp [FieldAt, optBytes, foldl_absentBytes, List.take_of_length_le]

/-- A number written at the head of some bytes. -/
theorem fieldAt_beBytes (n v : Nat) (b : List Byte) : FieldAt (beBytes n v ++ b) 0 n (some v) := fieldAt_optBytes n (some v) b

/-! ### Stops -/

/-- The Plant transmitter's choice at an idle line reads and writes neither the receivers, the requests that wait, the engine,
the agent nor the Retention Unit. -/
theorem State.kickPlant_with (s : State) (f : PortState) (rx : RxState) (asm : Assembler) (r : Retention) (zw : List ZoneRequest)
    (bw : List (Fin 16)) (e : Engine) (a : Agent) :
    State.kickPlant { s with
      floor := f, plant := { s.plant with rx := rx, asm := asm }, retention := r, zoneWait := zw, batchWait := bw, engine := e
      agent := a } =
    { s.kickPlant with
      floor := f, plant := { s.kickPlant.plant with rx := rx, asm := asm }, retention := r, zoneWait := zw, batchWait := bw
      engine := e, agent := a } := by
  unfold State.kickPlant State.plantChoice? State.plantOrder?
  simp only
  repeat' split
  all_goals rfl

/-- The same of the Floor transmitter. -/
theorem State.kickFloor_with (s : State) (p : PortState) (rx : RxState) (asm : Assembler) (r : Retention) (zw : List ZoneRequest)
    (bw : List (Fin 16)) (e : Engine) (a : Agent) :
    State.kickFloor { s with
      plant := p, floor := { s.floor with rx := rx, asm := asm }, retention := r, zoneWait := zw, batchWait := bw, engine := e
      agent := a } =
    { s.kickFloor with
      plant := p, floor := { s.kickFloor.floor with rx := rx, asm := asm }, retention := r, zoneWait := zw, batchWait := bw
      engine := e, agent := a } := by
  unfold State.kickFloor State.floorChoice?
  simp only
  repeat' split
  all_goals rfl

/-- Placing or discarding a reply leaves the agent out of account. -/
theorem State.pushOrDrop_agent (s : State) (a : Agent) (t : Telegram) :
    { s with agent := a }.pushOrDrop t = { s.pushOrDrop t with agent := a } := by
  have hr : { s with agent := a }.replyRoom = s.replyRoom := rfl
  simp only [State.pushOrDrop, hr]
  split
  · unfold State.pushReply State.kickPlant State.plantChoice? State.plantOrder?
    simp only
    repeat' split
    all_goals rfl
  · rfl

/-- What becomes of the agent when its request is done with: a completion reply that waits is composed (log entry 55). -/
theorem State.agentDrain_eq (s : State) (a : Agent) :
    { s with agent := a }.agentDrain =
      { (a.completion.elim s fun c => s.pushOrDrop (s.completionReply c)) with agent := .atStart } := by
  unfold State.agentDrain
  cases a.completion with
  | none => rfl
  | some c => exact State.pushOrDrop_agent s .atStart _

/-- A reply in PLACING when a stop begins is placed, or discarded at a full queue (R186). -/
theorem State.stopAgent_placing (s : State) (a : Agent) {t : Telegram} {b : Bool} (h : a.phase = .placing t b) :
    { s with agent := a }.stopAgent = { s.pushOrDrop t with agent := a }.agentDrain := by
  simp only [State.stopAgent, h]
  rw [State.pushOrDrop_agent]

/-- The checks of R176 are those of the table there. -/
theorem MgmtOp.setupOnly_iff (op : MgmtOp) : op.setupOnly = true ↔ op.NeedsSetup := by
  rcases op with _ | _ | _ | _ | w | _ | _ | _ | _ | _ | _ | _ | _ | _ | _ | _ | _ | _
  case writeRow => cases w <;> simp [MgmtOp.setupOnly, MgmtOp.NeedsSetup, RowWrite.place]
  all_goals simp [MgmtOp.setupOnly, MgmtOp.NeedsSetup]

theorem MgmtOp.needsStore_iff (op : MgmtOp) (m : Mode) : op.needsStore m = true ↔ op.NeedsStore m := by
  rcases op with _ | m' | _ | _ | _ | _ | _ | _ | _ | _ | _ | _ | _ | _ | _ | _ | _ | _
  case setMode => cases m <;> cases m' <;> simp [MgmtOp.needsStore, MgmtOp.NeedsStore]
  all_goals simp [MgmtOp.needsStore, MgmtOp.NeedsStore]

theorem State.refusal?_iff (s : State) (op : MgmtOp) : s.refusal? op ≠ none ↔ s.Refuses op := by
  unfold State.refusal? State.Refuses
  rw [← MgmtOp.setupOnly_iff, ← MgmtOp.needsStore_iff]
  cases op.setupOnly <;> cases op.needsStore s.mode <;> cases s.mode <;> cases s.store.run <;> simp

/-- What the model's test of a request says (R186; log entry 20). -/
theorem requestAlone_iff (s : State) (t : Telegram) : s.requestAlone t = true ↔ s.AgentAlone t := by
  unfold State.requestAlone State.AgentAlone
  split
  · next op h =>
    simp only [h, Bool.or_eq_true, Option.isSome_iff_ne_none]
    refine or_congr (s.refusal?_iff op) ?_
    unfold State.opAlone
    split <;> simp_all [State.classCount, and_assoc]
  · next h => simp [h]

end Sys2Proof.Machine
end

