-- ==== Sys2Proof/Laws/Bodies.lean ====
section
/-! SUPPORT. Telegram bodies: that the model's checks, working values and composed telegrams are those that Safety.lean spells out
byte by byte (R24, R25, R28 to R31, R114, R115). -/

namespace Sys2Proof.Machine

/-! ### The check of a body (R24) -/

theorem foldl_bytes_lt (l : List Byte) : l.foldl (fun n x => n * 256 + x.toNat) 0 < 256 ^ l.length := by
  induction l with
  | nil => simp
  | cons x l ih =>
    rw [List.foldl_cons, foldl_bytes, List.length_cons, Nat.pow_succ]
    have hx := x.isLt
    have : x.toNat * 256 ^ l.length ≤ 255 * 256 ^ l.length := Nat.mul_le_mul_right _ (by omega)
    simp only [Nat.zero_mul, Nat.zero_add]
    omega

/-- Only all-ones bytes spell the largest number of their width. -/
theorem foldl_bytes_max (l : List Byte) :
    l.foldl (fun n x => n * 256 + x.toNat) 0 = 256 ^ l.length - 1 ↔ l = List.replicate l.length 0xFF := by
  induction l with
  | nil => simp
  | cons x l ih =>
    have hp : 0 < 256 ^ l.length := by positivity
    have hl := foldl_bytes_lt l
    have hx := x.isLt
    rw [List.foldl_cons, foldl_bytes, List.length_cons, Nat.pow_succ, List.replicate_succ, List.cons.injEq, ← ih]
    simp only [Nat.zero_mul, Nat.zero_add]
    have h255 : x = 0xFF ↔ x.toNat = 255 := by rw [← BitVec.toNat_inj]; rfl
    rw [h255]
    constructor
    · intro h
      have : 255 ≤ x.toNat := by
        by_contra hn
        have : x.toNat * 256 ^ l.length ≤ 254 * 256 ^ l.length := Nat.mul_le_mul_right _ (by omega)
        omega
      have : x.toNat = 255 := by omega
      rw [this] at h
      exact ⟨this, by omega⟩
    · rintro ⟨h1, h2⟩
      rw [h1, h2]
      omega

/-- An ID field is absent when its eight bytes are all ones. -/
theorem idAt_absent (b : List Byte) (off : Nat) (h : off + 8 ≤ b.length) :
    idAt b off = absentId ↔ (b.drop off).take 8 = List.replicate 8 0xFF := by
  have hl : ((b.drop off).take 8).length = 8 := by simp; omega
  have k := foldl_bytes_max ((b.drop off).take 8)
  have lt := foldl_bytes_lt ((b.drop off).take 8)
  rw [hl] at k lt
  rw [← k, ← BitVec.toNat_inj]
  show (BitVec.ofNat 64 (((b.drop off).take 8).foldl (fun a b => a * 256 + b.toNat) 0)).toNat = (BitVec.allOnes 64).toNat ↔ _
  rw [BitVec.toNat_ofNat, BitVec.toNat_allOnes, Nat.mod_eq_of_lt (by simpa using lt),
    show (2 : Nat) ^ 64 - 1 = 256 ^ 8 - 1 by norm_num]

/-- The transaction kinds are those of the table of bodies, each with its size and its IDs. -/
theorem bodyForms_lookup (b : Byte) :
    bodyForms.lookup b.toNat = (TxKind.ofByte? b).map fun k => (k.bodySize, if k = .split then [0, 8] else [0]) := by
  obtain ⟨⟨n, h⟩⟩ := b
  have : ∀ n : Fin 256, bodyForms.lookup n.val =
      (TxKind.ofByte? (BitVec.ofFin n)).map fun k => (k.bodySize, if k = .split then [0, 8] else [0]) := by decide +kernel
  exact this ⟨n, h⟩

theorem TxKind.malformed_iff (k : TxKind) (b : List Byte) :
    k.malformed b = false ↔ PassesR24 k.bodySize (if k = .split then [0, 8] else [0]) b := by
  by_cases hl : b.length = k.bodySize
  · cases k <;> simp only [TxKind.bodySize] at hl <;>
      simp [TxKind.malformed, PassesR24, TxKind.bodySize, hl, idAt_absent]
  · simp [TxKind.malformed, PassesR24, hl]

theorem queryMalformed_iff (b : List Byte) : queryMalformed b = false ↔ PassesR24 8 [0] b := by
  by_cases hl : b.length = 8
  · simp [queryMalformed, PassesR24, queryBodySize, hl, idAt_absent]
  · simp [queryMalformed, PassesR24, queryBodySize, hl]

/-! ### Working values at the take (R25, R127) -/

theorem State.newWork_taken (s : State) (t : Telegram) : s.Taken t (s.newWork t) := by
  refine ⟨rfl, fun off x ho hx => ?_⟩
  have hz : zoneOffsetOf t.kind = some off := by
    rw [← ho]
    obtain ⟨⟨n, h⟩⟩ := t.kind
    have : ∀ n : Fin 256, zoneOffsetOf (BitVec.ofFin n) = zoneOffsets.lookup n.val := by decide +kernel
    exact this ⟨n, h⟩
  have hb : t.body.getD off 0 = x := by simp [List.getD, hx]
  simp only [State.newWork, hz, hb, Tables.resolveZone]

/-! ### Composed telegrams (R28 to R31) -/

/-- What lies above the bytes of a number does not change them. -/
theorem beBytes_add (n a v : Nat) {m : Nat} (h : n ≤ m) : beBytes n (a * 256 ^ m + v) = beBytes n v := by
  induction n with
  | zero => rfl
  | succ n ih =>
    obtain ⟨d, rfl⟩ := Nat.exists_eq_add_of_lt h
    have hp : 0 < 256 ^ n := by positivity
    have e : a * 256 ^ (n + d + 1) = a * 256 ^ d * 256 * 256 ^ n := by ring
    rw [beBytes, beBytes, ih (by omega), e, Nat.add_comm, Nat.add_mul_div_right _ _ hp]
    congr 1
    rw [← BitVec.toNat_inj]
    simp

/-- The bytes of a number are those that spell it. -/
theorem beBytes_foldl (l : List Byte) : beBytes l.length (l.foldl (fun n x => n * 256 + x.toNat) 0) = l := by
  induction l with
  | nil => rfl
  | cons x l ih =>
    have hp : 0 < 256 ^ l.length := by positivity
    rw [List.foldl_cons, foldl_bytes, List.length_cons, beBytes, Nat.zero_mul, Nat.zero_add, beBytes_add _ _ _ (Nat.le_refl _), ih,
      Nat.add_comm, Nat.add_mul_div_right _ _ hp, Nat.div_eq_of_lt (foldl_bytes_lt l), Nat.zero_add, BitVec.ofNat_toNat,
      BitVec.setWidth_eq]

theorem Telegram.reportedBytes_eq (t : Telegram) : t.reportedBytes = optIdBytes (reportedId t) := by
  unfold Telegram.reportedBytes reportedId
  rw [bodyForms_lookup]
  cases hk : TxKind.ofByte? t.kind with
  | none => rfl
  | some k =>
    simp only [Option.map_some]
    by_cases h : k.malformed t.body = true
    · rw [if_neg (by rw [← TxKind.malformed_iff, h]; simp), if_pos h]
      rfl
    · have hf : k.malformed t.body = false := by simpa using h
      have hp := (TxKind.malformed_iff k t.body).mp hf
      rw [if_pos hp, if_neg h]
      have h8 : 8 ≤ t.body.length := by rw [hp.1]; cases k <;> decide
      show t.body.take 8 = beBytes 8 (idAt t.body 0).toNat
      obtain ⟨l, hl, hll⟩ : ∃ l, l = t.body.take 8 ∧ l.length = 8 := ⟨_, rfl, by simp; omega⟩
      have e : (idAt t.body 0).toNat = l.foldl (fun n x => n * 256 + x.toNat) 0 := by
        have lt := foldl_bytes_lt l
        rw [hll] at lt
        show (BitVec.ofNat 64 ((t.body.drop 0).take 8 |>.foldl (fun a b => a * 256 + b.toNat) 0)).toNat = _
        rw [List.drop_zero, ← hl, BitVec.toNat_ofNat, Nat.mod_eq_of_lt (by simpa using lt)]
      have k := beBytes_foldl l
      rw [hll] at k
      rw [← hl, e, k]

/-- The REFUSAL that the model composes (R29). -/
theorem State.refusal_eq (s : State) (t : Telegram) (reason : Byte) :
    s.refusal t (reportedId t) reason = s.refusalBytes t reason := by
  rw [State.refusalBytes, Telegram.reportedBytes_eq]
  rfl

/-- The annotated copy that the model composes (R28). -/
theorem Telegram.annotated_eq (t : Telegram) (reason : Byte) (band : Option Nat) :
    t.annotated reason band = t.marked reason band := by
  cases band with
  | none => rfl
  | some n => simp [Telegram.annotated, Telegram.marked, optBytes, beBytes, markedOffset]

/-- A field that lies behind a prefix. -/
theorem fieldAt_behind {a b : List Byte} {off size : Nat} {v : Option Nat} (h : a.length ≤ off)
    (hb : FieldAt b (off - a.length) size v) : FieldAt (a ++ b) off size v := by
  have k := fieldAt_append_right a b (off - a.length) size v
  rw [Nat.add_sub_cancel' h] at k
  exact k.mpr hb

theorem fieldAt_only (n : Nat) (o : Option Nat) : FieldAt (optBytes n o) 0 n o := by simpa using fieldAt_optBytes n o []

theorem optByte_eq (o : Option Byte) : optByte o = optBytes 1 (o.map BitVec.toNat) := by
  cases o <;> simp [optByte, optBytes, absentBytes, beBytes]

theorem NoticeKind.code_eq (k : NoticeKind) :
    [k.code] = optBytes 1 (some
      (1 + [NoticeKind.warn, .limit, .overrunEnd, .retired, .bakeShort, .bakeStale, .policy, .copy, .zoneStale, .zoneFresh,
        .restart].idxOf k)) := by
  cases k <;> decide

/-- The fields of the extra field (02, section 2.6). -/
theorem Extra.bytes_eq (e : Extra) :
    e.bytes =
      match e with
      | .absent => optBytes 4 none
      | .policy v => optBytes 1 (some ([Verdict.pass, .mark, .hold].idxOf v)) ++ optBytes 3 none
      | .copy kind seq v =>
        optBytes 1 (some kind.toNat) ++
          (optBytes 1 (some seq.toNat) ++ (optBytes 1 (some ([Verdict.pass, .mark, .hold].idxOf v)) ++ optBytes 1 none))
      | .seconds m => optBytes 4 (some m) := by
  cases e with
  | absent => rfl
  | policy v => cases v <;> rfl
  | copy kind seq v => cases v <;> simp [Extra.bytes, optBytes, beBytes, absentBytes, Verdict.code]
  | seconds m => rfl

/-- The content of the NOTICE that the model forms (R31, R170). -/
theorem NoticeQueue.telegram_laidOut (q : NoticeQueue) (part : PartConfig) (n : Notice) :
    LaidOut (q.telegram part n).body 23 n.fields := by
  have hb : (q.telegram part n).body =
      [n.kind.code] ++ (optBytes 1 (some n.high.toNat) ++ (optBytes 4 (some n.wallTime) ++ (beBytes 1 (q.lostField n) ++
        (optBytes 8 (n.carrier.map BitVec.toNat) ++ (optBytes 1 (n.zone.map Fin.val) ++
          (optBytes 1 (n.station.map BitVec.toNat) ++ (optBytes 1 n.percent ++ (optBytes 1 (n.reason.map BitVec.toNat) ++
            n.extra.bytes)))))))) := by
    have hh : boolByte n.high = BitVec.ofNat 8 n.high.toNat := by cases n.high <;> rfl
    simp [NoticeQueue.telegram, optIdBytes, optByte_eq, optBytes, beBytes, hh]
  have he : n.extra.bytes.length = 4 := by rw [Extra.bytes_eq]; cases n.extra <;> simp
  rw [hb, NoticeKind.code_eq]
  refine ⟨by simp [he], ?_⟩
  rw [Extra.bytes_eq, Notice.fields]
  cases n.extra <;> simp only [List.forall_mem_append, List.forall_mem_cons]
  all_goals repeat' with_reducible refine And.intro ?_ ?_
  all_goals
    iterate 13
      try
        first
          | exact List.forall_mem_nil _
          | exact fieldAt_optBytes _ _ _
          | exact fieldAt_only _ _
          | refine fieldAt_behind (by simp) ?_
            simp only [length_optBytes, length_beBytes, Nat.reduceSub]

/-! ### Range checkers (R114, R115) -/

theorem CheckerRow.bit_iff (c : CheckerRow) (v : Sources) : c.bit v = true ↔ c.Admits v := by
  unfold CheckerRow.bit CheckerRow.Admits Sources.value?
  cases c.source <;> cases v.zoneRh <;> cases v.zoneTemp <;> simp [CheckerRow.inRange, CheckerRow.inSignedRange]

/-! ### Repeats (R50) -/

theorem repeatOf?_some (t : Telegram) (m : Option RepeatMemory) (x : RepeatMemory) :
    repeatOf? m t = some x ↔ m = some x ∧ t.Repeats x := by
  cases m with
  | none => simp [repeatOf?]
  | some y =>
    by_cases h : y.matches t = true
    · simp only [repeatOf?, h, if_true, Option.some.injEq]
      simp only [RepeatMemory.matches, Bool.and_eq_true, beq_iff_eq] at h
      constructor
      · rintro rfl; exact ⟨rfl, h.1.1.symm, h.1.2.symm, h.2.symm⟩
      · exact And.left
    · simp only [repeatOf?, h]
      simp only [RepeatMemory.matches, Bool.and_eq_true, beq_iff_eq] at h
      constructor
      · intro k; cases k
      · rintro ⟨k, k1, k2, k3⟩
        cases k
        exact absurd ⟨⟨k1.symm, k2.symm⟩, k3.symm⟩ h

end Sys2Proof.Machine
end

