-- ==== Sys2Proof/Laws/State.lean ====
section
/-! SUPPORT. One lemma per field for each named update of the state, true by unfolding. -/

namespace Sys2Proof.Machine

variable (s : State)

/-! ### setRecord -/

@[simp] theorem State.setRecord_floor (i : Nat) (r : Record) : (s.setRecord i r).floor = s.floor := rfl
@[simp] theorem State.setRecord_plant (i : Nat) (r : Record) : (s.setRecord i r).plant = s.plant := rfl
@[simp] theorem State.setRecord_lineReset (i : Nat) (r : Record) : (s.setRecord i r).lineReset = s.lineReset := rfl
@[simp] theorem State.setRecord_floorPref (i : Nat) (r : Record) : (s.setRecord i r).floorPref = s.floorPref := rfl
@[simp] theorem State.setRecord_plantStreak (i : Nat) (r : Record) : (s.setRecord i r).plantStreak = s.plantStreak := rfl
@[simp] theorem State.setRecord_upRelay (i : Nat) (r : Record) : (s.setRecord i r).upRelay = s.upRelay := rfl
@[simp] theorem State.setRecord_downRelay (i : Nat) (r : Record) : (s.setRecord i r).downRelay = s.downRelay := rfl
@[simp] theorem State.setRecord_answers (i : Nat) (r : Record) : (s.setRecord i r).answers = s.answers := rfl
@[simp] theorem State.setRecord_replies (i : Nat) (r : Record) : (s.setRecord i r).replies = s.replies := rfl
@[simp] theorem State.setRecord_notices (i : Nat) (r : Record) : (s.setRecord i r).notices = s.notices := rfl
@[simp] theorem State.setRecord_engine (i : Nat) (r : Record) : (s.setRecord i r).engine = s.engine := rfl
@[simp] theorem State.setRecord_table (i : Nat) (r : Record) : (s.setRecord i r).table = { s.table with records := insertKey s.table.records i r } := rfl
@[simp] theorem State.setRecord_zones (i : Nat) (r : Record) : (s.setRecord i r).zones = s.zones := rfl
@[simp] theorem State.setRecord_zoneWait (i : Nat) (r : Record) : (s.setRecord i r).zoneWait = s.zoneWait := rfl
@[simp] theorem State.setRecord_ambientRejects (i : Nat) (r : Record) : (s.setRecord i r).ambientRejects = s.ambientRejects := rfl
@[simp] theorem State.setRecord_ruleCounters (i : Nat) (r : Record) : (s.setRecord i r).ruleCounters = s.ruleCounters := rfl
@[simp] theorem State.setRecord_faultCounters (i : Nat) (r : Record) : (s.setRecord i r).faultCounters = s.faultCounters := rfl
@[simp] theorem State.setRecord_batches (i : Nat) (r : Record) : (s.setRecord i r).batches = s.batches := rfl
@[simp] theorem State.setRecord_batchWait (i : Nat) (r : Record) : (s.setRecord i r).batchWait = s.batchWait := rfl
@[simp] theorem State.setRecord_tables (i : Nat) (r : Record) : (s.setRecord i r).tables = s.tables := rfl
@[simp] theorem State.setRecord_mode (i : Nat) (r : Record) : (s.setRecord i r).mode = s.mode := rfl
@[simp] theorem State.setRecord_agent (i : Nat) (r : Record) : (s.setRecord i r).agent = s.agent := rfl
@[simp] theorem State.setRecord_agentRejects (i : Nat) (r : Record) : (s.setRecord i r).agentRejects = s.agentRejects := rfl
@[simp] theorem State.setRecord_store (i : Nat) (r : Record) : (s.setRecord i r).store = s.store := rfl
@[simp] theorem State.setRecord_retention (i : Nat) (r : Record) : (s.setRecord i r).retention = s.retention := rfl
@[simp] theorem State.setRecord_pending (i : Nat) (r : Record) : (s.setRecord i r).pending = s.pending := rfl

/-! ### setZone -/

@[simp] theorem State.setZone_floor (z : Fin 32) (x : Zone) : (s.setZone z x).floor = s.floor := rfl
@[simp] theorem State.setZone_plant (z : Fin 32) (x : Zone) : (s.setZone z x).plant = s.plant := rfl
@[simp] theorem State.setZone_lineReset (z : Fin 32) (x : Zone) : (s.setZone z x).lineReset = s.lineReset := rfl
@[simp] theorem State.setZone_floorPref (z : Fin 32) (x : Zone) : (s.setZone z x).floorPref = s.floorPref := rfl
@[simp] theorem State.setZone_plantStreak (z : Fin 32) (x : Zone) : (s.setZone z x).plantStreak = s.plantStreak := rfl
@[simp] theorem State.setZone_upRelay (z : Fin 32) (x : Zone) : (s.setZone z x).upRelay = s.upRelay := rfl
@[simp] theorem State.setZone_downRelay (z : Fin 32) (x : Zone) : (s.setZone z x).downRelay = s.downRelay := rfl
@[simp] theorem State.setZone_answers (z : Fin 32) (x : Zone) : (s.setZone z x).answers = s.answers := rfl
@[simp] theorem State.setZone_replies (z : Fin 32) (x : Zone) : (s.setZone z x).replies = s.replies := rfl
@[simp] theorem State.setZone_notices (z : Fin 32) (x : Zone) : (s.setZone z x).notices = s.notices := rfl
@[simp] theorem State.setZone_engine (z : Fin 32) (x : Zone) : (s.setZone z x).engine = s.engine := rfl
@[simp] theorem State.setZone_table (z : Fin 32) (x : Zone) : (s.setZone z x).table = s.table := rfl
@[simp] theorem State.setZone_zones (z : Fin 32) (x : Zone) : (s.setZone z x).zones = s.zones.set z.val x := rfl
@[simp] theorem State.setZone_zoneWait (z : Fin 32) (x : Zone) : (s.setZone z x).zoneWait = s.zoneWait := rfl
@[simp] theorem State.setZone_ambientRejects (z : Fin 32) (x : Zone) : (s.setZone z x).ambientRejects = s.ambientRejects := rfl
@[simp] theorem State.setZone_ruleCounters (z : Fin 32) (x : Zone) : (s.setZone z x).ruleCounters = s.ruleCounters := rfl
@[simp] theorem State.setZone_faultCounters (z : Fin 32) (x : Zone) : (s.setZone z x).faultCounters = s.faultCounters := rfl
@[simp] theorem State.setZone_batches (z : Fin 32) (x : Zone) : (s.setZone z x).batches = s.batches := rfl
@[simp] theorem State.setZone_batchWait (z : Fin 32) (x : Zone) : (s.setZone z x).batchWait = s.batchWait := rfl
@[simp] theorem State.setZone_tables (z : Fin 32) (x : Zone) : (s.setZone z x).tables = s.tables := rfl
@[simp] theorem State.setZone_mode (z : Fin 32) (x : Zone) : (s.setZone z x).mode = s.mode := rfl
@[simp] theorem State.setZone_agent (z : Fin 32) (x : Zone) : (s.setZone z x).agent = s.agent := rfl
@[simp] theorem State.setZone_agentRejects (z : Fin 32) (x : Zone) : (s.setZone z x).agentRejects = s.agentRejects := rfl
@[simp] theorem State.setZone_store (z : Fin 32) (x : Zone) : (s.setZone z x).store = s.store := rfl
@[simp] theorem State.setZone_retention (z : Fin 32) (x : Zone) : (s.setZone z x).retention = s.retention := rfl
@[simp] theorem State.setZone_pending (z : Fin 32) (x : Zone) : (s.setZone z x).pending = s.pending := rfl

/-! ### countFault -/

@[simp] theorem State.countFault_floor (f : FaultCode) : (s.countFault f).floor = s.floor := rfl
@[simp] theorem State.countFault_plant (f : FaultCode) : (s.countFault f).plant = s.plant := rfl
@[simp] theorem State.countFault_lineReset (f : FaultCode) : (s.countFault f).lineReset = s.lineReset := rfl
@[simp] theorem State.countFault_floorPref (f : FaultCode) : (s.countFault f).floorPref = s.floorPref := rfl
@[simp] theorem State.countFault_plantStreak (f : FaultCode) : (s.countFault f).plantStreak = s.plantStreak := rfl
@[simp] theorem State.countFault_upRelay (f : FaultCode) : (s.countFault f).upRelay = s.upRelay := rfl
@[simp] theorem State.countFault_downRelay (f : FaultCode) : (s.countFault f).downRelay = s.downRelay := rfl
@[simp] theorem State.countFault_answers (f : FaultCode) : (s.countFault f).answers = s.answers := rfl
@[simp] theorem State.countFault_replies (f : FaultCode) : (s.countFault f).replies = s.replies := rfl
@[simp] theorem State.countFault_notices (f : FaultCode) : (s.countFault f).notices = s.notices := rfl
@[simp] theorem State.countFault_engine (f : FaultCode) : (s.countFault f).engine = s.engine := rfl
@[simp] theorem State.countFault_table (f : FaultCode) : (s.countFault f).table = s.table := rfl
@[simp] theorem State.countFault_zones (f : FaultCode) : (s.countFault f).zones = s.zones := rfl
@[simp] theorem State.countFault_zoneWait (f : FaultCode) : (s.countFault f).zoneWait = s.zoneWait := rfl
@[simp] theorem State.countFault_ambientRejects (f : FaultCode) : (s.countFault f).ambientRejects = s.ambientRejects := rfl
@[simp] theorem State.countFault_ruleCounters (f : FaultCode) : (s.countFault f).ruleCounters = s.ruleCounters := rfl
@[simp] theorem State.countFault_faultCounters (f : FaultCode) : (s.countFault f).faultCounters = s.faultCounters.set f.index.val (bump32 s.faultCounters[f.index.val]) := rfl
@[simp] theorem State.countFault_batches (f : FaultCode) : (s.countFault f).batches = s.batches := rfl
@[simp] theorem State.countFault_batchWait (f : FaultCode) : (s.countFault f).batchWait = s.batchWait := rfl
@[simp] theorem State.countFault_tables (f : FaultCode) : (s.countFault f).tables = s.tables := rfl
@[simp] theorem State.countFault_mode (f : FaultCode) : (s.countFault f).mode = s.mode := rfl
@[simp] theorem State.countFault_agent (f : FaultCode) : (s.countFault f).agent = s.agent := rfl
@[simp] theorem State.countFault_agentRejects (f : FaultCode) : (s.countFault f).agentRejects = s.agentRejects := rfl
@[simp] theorem State.countFault_store (f : FaultCode) : (s.countFault f).store = s.store := rfl
@[simp] theorem State.countFault_retention (f : FaultCode) : (s.countFault f).retention = s.retention := rfl
@[simp] theorem State.countFault_pending (f : FaultCode) : (s.countFault f).pending = s.pending := rfl

/-! ### rejectAmbient -/

@[simp] theorem State.rejectAmbient_floor : (s.rejectAmbient).floor = s.floor := rfl
@[simp] theorem State.rejectAmbient_plant : (s.rejectAmbient).plant = s.plant := rfl
@[simp] theorem State.rejectAmbient_lineReset : (s.rejectAmbient).lineReset = s.lineReset := rfl
@[simp] theorem State.rejectAmbient_floorPref : (s.rejectAmbient).floorPref = s.floorPref := rfl
@[simp] theorem State.rejectAmbient_plantStreak : (s.rejectAmbient).plantStreak = s.plantStreak := rfl
@[simp] theorem State.rejectAmbient_upRelay : (s.rejectAmbient).upRelay = s.upRelay := rfl
@[simp] theorem State.rejectAmbient_downRelay : (s.rejectAmbient).downRelay = s.downRelay := rfl
@[simp] theorem State.rejectAmbient_answers : (s.rejectAmbient).answers = s.answers := rfl
@[simp] theorem State.rejectAmbient_replies : (s.rejectAmbient).replies = s.replies := rfl
@[simp] theorem State.rejectAmbient_notices : (s.rejectAmbient).notices = s.notices := rfl
@[simp] theorem State.rejectAmbient_engine : (s.rejectAmbient).engine = s.engine := rfl
@[simp] theorem State.rejectAmbient_table : (s.rejectAmbient).table = s.table := rfl
@[simp] theorem State.rejectAmbient_zones : (s.rejectAmbient).zones = s.zones := rfl
@[simp] theorem State.rejectAmbient_zoneWait : (s.rejectAmbient).zoneWait = s.zoneWait := rfl
@[simp] theorem State.rejectAmbient_ambientRejects : (s.rejectAmbient).ambientRejects = bump16 s.ambientRejects := rfl
@[simp] theorem State.rejectAmbient_ruleCounters : (s.rejectAmbient).ruleCounters = s.ruleCounters := rfl
@[simp] theorem State.rejectAmbient_faultCounters : (s.rejectAmbient).faultCounters = s.faultCounters := rfl
@[simp] theorem State.rejectAmbient_batches : (s.rejectAmbient).batches = s.batches := rfl
@[simp] theorem State.rejectAmbient_batchWait : (s.rejectAmbient).batchWait = s.batchWait := rfl
@[simp] theorem State.rejectAmbient_tables : (s.rejectAmbient).tables = s.tables := rfl
@[simp] theorem State.rejectAmbient_mode : (s.rejectAmbient).mode = s.mode := rfl
@[simp] theorem State.rejectAmbient_agent : (s.rejectAmbient).agent = s.agent := rfl
@[simp] theorem State.rejectAmbient_agentRejects : (s.rejectAmbient).agentRejects = s.agentRejects := rfl
@[simp] theorem State.rejectAmbient_store : (s.rejectAmbient).store = s.store := rfl
@[simp] theorem State.rejectAmbient_retention : (s.rejectAmbient).retention = s.retention := rfl
@[simp] theorem State.rejectAmbient_pending : (s.rejectAmbient).pending = s.pending := rfl

/-! ### engineTo -/

@[simp] theorem State.engineTo_floor (p : EnginePhase) (w : Work) : (s.engineTo p w).floor = s.floor := rfl
@[simp] theorem State.engineTo_plant (p : EnginePhase) (w : Work) : (s.engineTo p w).plant = s.plant := rfl
@[simp] theorem State.engineTo_lineReset (p : EnginePhase) (w : Work) : (s.engineTo p w).lineReset = s.lineReset := rfl
@[simp] theorem State.engineTo_floorPref (p : EnginePhase) (w : Work) : (s.engineTo p w).floorPref = s.floorPref := rfl
@[simp] theorem State.engineTo_plantStreak (p : EnginePhase) (w : Work) : (s.engineTo p w).plantStreak = s.plantStreak := rfl
@[simp] theorem State.engineTo_upRelay (p : EnginePhase) (w : Work) : (s.engineTo p w).upRelay = s.upRelay := rfl
@[simp] theorem State.engineTo_downRelay (p : EnginePhase) (w : Work) : (s.engineTo p w).downRelay = s.downRelay := rfl
@[simp] theorem State.engineTo_answers (p : EnginePhase) (w : Work) : (s.engineTo p w).answers = s.answers := rfl
@[simp] theorem State.engineTo_replies (p : EnginePhase) (w : Work) : (s.engineTo p w).replies = s.replies := rfl
@[simp] theorem State.engineTo_notices (p : EnginePhase) (w : Work) : (s.engineTo p w).notices = s.notices := rfl
@[simp] theorem State.engineTo_engine (p : EnginePhase) (w : Work) : (s.engineTo p w).engine = { s.engine with phase := p, work := some w } := rfl
@[simp] theorem State.engineTo_table (p : EnginePhase) (w : Work) : (s.engineTo p w).table = s.table := rfl
@[simp] theorem State.engineTo_zones (p : EnginePhase) (w : Work) : (s.engineTo p w).zones = s.zones := rfl
@[simp] theorem State.engineTo_zoneWait (p : EnginePhase) (w : Work) : (s.engineTo p w).zoneWait = s.zoneWait := rfl
@[simp] theorem State.engineTo_ambientRejects (p : EnginePhase) (w : Work) : (s.engineTo p w).ambientRejects = s.ambientRejects := rfl
@[simp] theorem State.engineTo_ruleCounters (p : EnginePhase) (w : Work) : (s.engineTo p w).ruleCounters = s.ruleCounters := rfl
@[simp] theorem State.engineTo_faultCounters (p : EnginePhase) (w : Work) : (s.engineTo p w).faultCounters = s.faultCounters := rfl
@[simp] theorem State.engineTo_batches (p : EnginePhase) (w : Work) : (s.engineTo p w).batches = s.batches := rfl
@[simp] theorem State.engineTo_batchWait (p : EnginePhase) (w : Work) : (s.engineTo p w).batchWait = s.batchWait := rfl
@[simp] theorem State.engineTo_tables (p : EnginePhase) (w : Work) : (s.engineTo p w).tables = s.tables := rfl
@[simp] theorem State.engineTo_mode (p : EnginePhase) (w : Work) : (s.engineTo p w).mode = s.mode := rfl
@[simp] theorem State.engineTo_agent (p : EnginePhase) (w : Work) : (s.engineTo p w).agent = s.agent := rfl
@[simp] theorem State.engineTo_agentRejects (p : EnginePhase) (w : Work) : (s.engineTo p w).agentRejects = s.agentRejects := rfl
@[simp] theorem State.engineTo_store (p : EnginePhase) (w : Work) : (s.engineTo p w).store = s.store := rfl
@[simp] theorem State.engineTo_retention (p : EnginePhase) (w : Work) : (s.engineTo p w).retention = s.retention := rfl
@[simp] theorem State.engineTo_pending (p : EnginePhase) (w : Work) : (s.engineTo p w).pending = s.pending := rfl

/-! ### engineAsks -/

@[simp] theorem State.engineAsks_floor (p : EnginePhase) (w : Work) : (s.engineAsks p w).floor = s.floor := rfl
@[simp] theorem State.engineAsks_plant (p : EnginePhase) (w : Work) : (s.engineAsks p w).plant = s.plant := rfl
@[simp] theorem State.engineAsks_lineReset (p : EnginePhase) (w : Work) : (s.engineAsks p w).lineReset = s.lineReset := rfl
@[simp] theorem State.engineAsks_floorPref (p : EnginePhase) (w : Work) : (s.engineAsks p w).floorPref = s.floorPref := rfl
@[simp] theorem State.engineAsks_plantStreak (p : EnginePhase) (w : Work) : (s.engineAsks p w).plantStreak = s.plantStreak := rfl
@[simp] theorem State.engineAsks_upRelay (p : EnginePhase) (w : Work) : (s.engineAsks p w).upRelay = s.upRelay := rfl
@[simp] theorem State.engineAsks_downRelay (p : EnginePhase) (w : Work) : (s.engineAsks p w).downRelay = s.downRelay := rfl
@[simp] theorem State.engineAsks_answers (p : EnginePhase) (w : Work) : (s.engineAsks p w).answers = s.answers := rfl
@[simp] theorem State.engineAsks_replies (p : EnginePhase) (w : Work) : (s.engineAsks p w).replies = s.replies := rfl
@[simp] theorem State.engineAsks_notices (p : EnginePhase) (w : Work) : (s.engineAsks p w).notices = s.notices := rfl
@[simp] theorem State.engineAsks_engine (p : EnginePhase) (w : Work) : (s.engineAsks p w).engine = { s.engine with phase := p, work := some w } := rfl
@[simp] theorem State.engineAsks_table (p : EnginePhase) (w : Work) : (s.engineAsks p w).table = s.table := rfl
@[simp] theorem State.engineAsks_zones (p : EnginePhase) (w : Work) : (s.engineAsks p w).zones = s.zones := rfl
@[simp] theorem State.engineAsks_zoneWait (p : EnginePhase) (w : Work) : (s.engineAsks p w).zoneWait = s.zoneWait ++ [.engine] := rfl
@[simp] theorem State.engineAsks_ambientRejects (p : EnginePhase) (w : Work) : (s.engineAsks p w).ambientRejects = s.ambientRejects := rfl
@[simp] theorem State.engineAsks_ruleCounters (p : EnginePhase) (w : Work) : (s.engineAsks p w).ruleCounters = s.ruleCounters := rfl
@[simp] theorem State.engineAsks_faultCounters (p : EnginePhase) (w : Work) : (s.engineAsks p w).faultCounters = s.faultCounters := rfl
@[simp] theorem State.engineAsks_batches (p : EnginePhase) (w : Work) : (s.engineAsks p w).batches = s.batches := rfl
@[simp] theorem State.engineAsks_batchWait (p : EnginePhase) (w : Work) : (s.engineAsks p w).batchWait = s.batchWait := rfl
@[simp] theorem State.engineAsks_tables (p : EnginePhase) (w : Work) : (s.engineAsks p w).tables = s.tables := rfl
@[simp] theorem State.engineAsks_mode (p : EnginePhase) (w : Work) : (s.engineAsks p w).mode = s.mode := rfl
@[simp] theorem State.engineAsks_agent (p : EnginePhase) (w : Work) : (s.engineAsks p w).agent = s.agent := rfl
@[simp] theorem State.engineAsks_agentRejects (p : EnginePhase) (w : Work) : (s.engineAsks p w).agentRejects = s.agentRejects := rfl
@[simp] theorem State.engineAsks_store (p : EnginePhase) (w : Work) : (s.engineAsks p w).store = s.store := rfl
@[simp] theorem State.engineAsks_retention (p : EnginePhase) (w : Work) : (s.engineAsks p w).retention = s.retention := rfl
@[simp] theorem State.engineAsks_pending (p : EnginePhase) (w : Work) : (s.engineAsks p w).pending = s.pending := rfl

/-! ### placeOutput -/

@[simp] theorem State.placeOutput_floor (w : Work) (q : OutputQueue) (t : Telegram) : (s.placeOutput w q t).floor = s.floor := rfl
@[simp] theorem State.placeOutput_plant (w : Work) (q : OutputQueue) (t : Telegram) : (s.placeOutput w q t).plant = s.plant := rfl
@[simp] theorem State.placeOutput_lineReset (w : Work) (q : OutputQueue) (t : Telegram) : (s.placeOutput w q t).lineReset = s.lineReset := rfl
@[simp] theorem State.placeOutput_floorPref (w : Work) (q : OutputQueue) (t : Telegram) : (s.placeOutput w q t).floorPref = s.floorPref := rfl
@[simp] theorem State.placeOutput_plantStreak (w : Work) (q : OutputQueue) (t : Telegram) : (s.placeOutput w q t).plantStreak = s.plantStreak := rfl
@[simp] theorem State.placeOutput_upRelay (w : Work) (q : OutputQueue) (t : Telegram) : (s.placeOutput w q t).upRelay = s.upRelay := rfl
@[simp] theorem State.placeOutput_downRelay (w : Work) (q : OutputQueue) (t : Telegram) : (s.placeOutput w q t).downRelay = s.downRelay := rfl
@[simp] theorem State.placeOutput_answers (w : Work) (q : OutputQueue) (t : Telegram) : (s.placeOutput w q t).answers = s.answers := rfl
@[simp] theorem State.placeOutput_replies (w : Work) (q : OutputQueue) (t : Telegram) : (s.placeOutput w q t).replies = s.replies := rfl
@[simp] theorem State.placeOutput_notices (w : Work) (q : OutputQueue) (t : Telegram) : (s.placeOutput w q t).notices = s.notices := rfl
@[simp] theorem State.placeOutput_engine (w : Work) (q : OutputQueue) (t : Telegram) : (s.placeOutput w q t).engine = { s.engine with phase := .placing, work := some { w with output := some { queue := q, tel := t } } } := rfl
@[simp] theorem State.placeOutput_table (w : Work) (q : OutputQueue) (t : Telegram) : (s.placeOutput w q t).table = s.table := rfl
@[simp] theorem State.placeOutput_zones (w : Work) (q : OutputQueue) (t : Telegram) : (s.placeOutput w q t).zones = s.zones := rfl
@[simp] theorem State.placeOutput_zoneWait (w : Work) (q : OutputQueue) (t : Telegram) : (s.placeOutput w q t).zoneWait = s.zoneWait := rfl
@[simp] theorem State.placeOutput_ambientRejects (w : Work) (q : OutputQueue) (t : Telegram) : (s.placeOutput w q t).ambientRejects = s.ambientRejects := rfl
@[simp] theorem State.placeOutput_ruleCounters (w : Work) (q : OutputQueue) (t : Telegram) : (s.placeOutput w q t).ruleCounters = s.ruleCounters := rfl
@[simp] theorem State.placeOutput_faultCounters (w : Work) (q : OutputQueue) (t : Telegram) : (s.placeOutput w q t).faultCounters = s.faultCounters := rfl
@[simp] theorem State.placeOutput_batches (w : Work) (q : OutputQueue) (t : Telegram) : (s.placeOutput w q t).batches = s.batches := rfl
@[simp] theorem State.placeOutput_batchWait (w : Work) (q : OutputQueue) (t : Telegram) : (s.placeOutput w q t).batchWait = s.batchWait := rfl
@[simp] theorem State.placeOutput_tables (w : Work) (q : OutputQueue) (t : Telegram) : (s.placeOutput w q t).tables = s.tables := rfl
@[simp] theorem State.placeOutput_mode (w : Work) (q : OutputQueue) (t : Telegram) : (s.placeOutput w q t).mode = s.mode := rfl
@[simp] theorem State.placeOutput_agent (w : Work) (q : OutputQueue) (t : Telegram) : (s.placeOutput w q t).agent = s.agent := rfl
@[simp] theorem State.placeOutput_agentRejects (w : Work) (q : OutputQueue) (t : Telegram) : (s.placeOutput w q t).agentRejects = s.agentRejects := rfl
@[simp] theorem State.placeOutput_store (w : Work) (q : OutputQueue) (t : Telegram) : (s.placeOutput w q t).store = s.store := rfl
@[simp] theorem State.placeOutput_retention (w : Work) (q : OutputQueue) (t : Telegram) : (s.placeOutput w q t).retention = s.retention := rfl
@[simp] theorem State.placeOutput_pending (w : Work) (q : OutputQueue) (t : Telegram) : (s.placeOutput w q t).pending = s.pending := rfl

/-! ### faulted -/

@[simp] theorem State.faulted_floor (w : Work) (f : FaultCode) : (s.faulted w f).floor = s.floor := rfl
@[simp] theorem State.faulted_plant (w : Work) (f : FaultCode) : (s.faulted w f).plant = s.plant := rfl
@[simp] theorem State.faulted_lineReset (w : Work) (f : FaultCode) : (s.faulted w f).lineReset = s.lineReset := rfl
@[simp] theorem State.faulted_floorPref (w : Work) (f : FaultCode) : (s.faulted w f).floorPref = s.floorPref := rfl
@[simp] theorem State.faulted_plantStreak (w : Work) (f : FaultCode) : (s.faulted w f).plantStreak = s.plantStreak := rfl
@[simp] theorem State.faulted_upRelay (w : Work) (f : FaultCode) : (s.faulted w f).upRelay = s.upRelay := rfl
@[simp] theorem State.faulted_downRelay (w : Work) (f : FaultCode) : (s.faulted w f).downRelay = s.downRelay := rfl
@[simp] theorem State.faulted_answers (w : Work) (f : FaultCode) : (s.faulted w f).answers = s.answers := rfl
@[simp] theorem State.faulted_replies (w : Work) (f : FaultCode) : (s.faulted w f).replies = s.replies := rfl
@[simp] theorem State.faulted_notices (w : Work) (f : FaultCode) : (s.faulted w f).notices = s.notices := rfl
@[simp] theorem State.faulted_engine (w : Work) (f : FaultCode) : (s.faulted w f).engine = { s.engine with phase := .commitOpen, work := some { w with fault := some f } } := rfl
@[simp] theorem State.faulted_table (w : Work) (f : FaultCode) : (s.faulted w f).table = s.table := rfl
@[simp] theorem State.faulted_zones (w : Work) (f : FaultCode) : (s.faulted w f).zones = s.zones := rfl
@[simp] theorem State.faulted_zoneWait (w : Work) (f : FaultCode) : (s.faulted w f).zoneWait = s.zoneWait := rfl
@[simp] theorem State.faulted_ambientRejects (w : Work) (f : FaultCode) : (s.faulted w f).ambientRejects = s.ambientRejects := rfl
@[simp] theorem State.faulted_ruleCounters (w : Work) (f : FaultCode) : (s.faulted w f).ruleCounters = s.ruleCounters := rfl
@[simp] theorem State.faulted_faultCounters (w : Work) (f : FaultCode) : (s.faulted w f).faultCounters = s.faultCounters := rfl
@[simp] theorem State.faulted_batches (w : Work) (f : FaultCode) : (s.faulted w f).batches = s.batches := rfl
@[simp] theorem State.faulted_batchWait (w : Work) (f : FaultCode) : (s.faulted w f).batchWait = s.batchWait := rfl
@[simp] theorem State.faulted_tables (w : Work) (f : FaultCode) : (s.faulted w f).tables = s.tables := rfl
@[simp] theorem State.faulted_mode (w : Work) (f : FaultCode) : (s.faulted w f).mode = s.mode := rfl
@[simp] theorem State.faulted_agent (w : Work) (f : FaultCode) : (s.faulted w f).agent = s.agent := rfl
@[simp] theorem State.faulted_agentRejects (w : Work) (f : FaultCode) : (s.faulted w f).agentRejects = s.agentRejects := rfl
@[simp] theorem State.faulted_store (w : Work) (f : FaultCode) : (s.faulted w f).store = s.store := rfl
@[simp] theorem State.faulted_retention (w : Work) (f : FaultCode) : (s.faulted w f).retention = s.retention := rfl
@[simp] theorem State.faulted_pending (w : Work) (f : FaultCode) : (s.faulted w f).pending = s.pending := rfl

/-! ### engineIdle -/

@[simp] theorem State.engineIdle_floor : (s.engineIdle).floor = s.floor := rfl
@[simp] theorem State.engineIdle_plant : (s.engineIdle).plant = s.plant := rfl
@[simp] theorem State.engineIdle_lineReset : (s.engineIdle).lineReset = s.lineReset := rfl
@[simp] theorem State.engineIdle_floorPref : (s.engineIdle).floorPref = s.floorPref := rfl
@[simp] theorem State.engineIdle_plantStreak : (s.engineIdle).plantStreak = s.plantStreak := rfl
@[simp] theorem State.engineIdle_upRelay : (s.engineIdle).upRelay = s.upRelay := rfl
@[simp] theorem State.engineIdle_downRelay : (s.engineIdle).downRelay = s.downRelay := rfl
@[simp] theorem State.engineIdle_answers : (s.engineIdle).answers = s.answers := rfl
@[simp] theorem State.engineIdle_replies : (s.engineIdle).replies = s.replies := rfl
@[simp] theorem State.engineIdle_notices : (s.engineIdle).notices = s.notices := rfl
@[simp] theorem State.engineIdle_engine : (s.engineIdle).engine = { s.engine with phase := .idle, work := none } := rfl
@[simp] theorem State.engineIdle_table : (s.engineIdle).table = s.table := rfl
@[simp] theorem State.engineIdle_zones : (s.engineIdle).zones = s.zones := rfl
@[simp] theorem State.engineIdle_zoneWait : (s.engineIdle).zoneWait = s.zoneWait := rfl
@[simp] theorem State.engineIdle_ambientRejects : (s.engineIdle).ambientRejects = s.ambientRejects := rfl
@[simp] theorem State.engineIdle_ruleCounters : (s.engineIdle).ruleCounters = s.ruleCounters := rfl
@[simp] theorem State.engineIdle_faultCounters : (s.engineIdle).faultCounters = s.faultCounters := rfl
@[simp] theorem State.engineIdle_batches : (s.engineIdle).batches = s.batches := rfl
@[simp] theorem State.engineIdle_batchWait : (s.engineIdle).batchWait = s.batchWait := rfl
@[simp] theorem State.engineIdle_tables : (s.engineIdle).tables = s.tables := rfl
@[simp] theorem State.engineIdle_mode : (s.engineIdle).mode = s.mode := rfl
@[simp] theorem State.engineIdle_agent : (s.engineIdle).agent = s.agent := rfl
@[simp] theorem State.engineIdle_agentRejects : (s.engineIdle).agentRejects = s.agentRejects := rfl
@[simp] theorem State.engineIdle_store : (s.engineIdle).store = s.store := rfl
@[simp] theorem State.engineIdle_retention : (s.engineIdle).retention = s.retention := rfl
@[simp] theorem State.engineIdle_pending : (s.engineIdle).pending = s.pending := rfl

/-! ### setPause -/

@[simp] theorem State.setPause_floor (b : Bool) : (s.setPause b).floor = s.floor := rfl
@[simp] theorem State.setPause_plant (b : Bool) : (s.setPause b).plant = s.plant := rfl
@[simp] theorem State.setPause_lineReset (b : Bool) : (s.setPause b).lineReset = s.lineReset := rfl
@[simp] theorem State.setPause_floorPref (b : Bool) : (s.setPause b).floorPref = s.floorPref := rfl
@[simp] theorem State.setPause_plantStreak (b : Bool) : (s.setPause b).plantStreak = s.plantStreak := rfl
@[simp] theorem State.setPause_upRelay (b : Bool) : (s.setPause b).upRelay = s.upRelay := rfl
@[simp] theorem State.setPause_downRelay (b : Bool) : (s.setPause b).downRelay = s.downRelay := rfl
@[simp] theorem State.setPause_answers (b : Bool) : (s.setPause b).answers = s.answers := rfl
@[simp] theorem State.setPause_replies (b : Bool) : (s.setPause b).replies = s.replies := rfl
@[simp] theorem State.setPause_notices (b : Bool) : (s.setPause b).notices = s.notices := rfl
@[simp] theorem State.setPause_engine (b : Bool) : (s.setPause b).engine = { s.engine with pause := b } := rfl
@[simp] theorem State.setPause_table (b : Bool) : (s.setPause b).table = s.table := rfl
@[simp] theorem State.setPause_zones (b : Bool) : (s.setPause b).zones = s.zones := rfl
@[simp] theorem State.setPause_zoneWait (b : Bool) : (s.setPause b).zoneWait = s.zoneWait := rfl
@[simp] theorem State.setPause_ambientRejects (b : Bool) : (s.setPause b).ambientRejects = s.ambientRejects := rfl
@[simp] theorem State.setPause_ruleCounters (b : Bool) : (s.setPause b).ruleCounters = s.ruleCounters := rfl
@[simp] theorem State.setPause_faultCounters (b : Bool) : (s.setPause b).faultCounters = s.faultCounters := rfl
@[simp] theorem State.setPause_batches (b : Bool) : (s.setPause b).batches = s.batches := rfl
@[simp] theorem State.setPause_batchWait (b : Bool) : (s.setPause b).batchWait = s.batchWait := rfl
@[simp] theorem State.setPause_tables (b : Bool) : (s.setPause b).tables = s.tables := rfl
@[simp] theorem State.setPause_mode (b : Bool) : (s.setPause b).mode = s.mode := rfl
@[simp] theorem State.setPause_agent (b : Bool) : (s.setPause b).agent = s.agent := rfl
@[simp] theorem State.setPause_agentRejects (b : Bool) : (s.setPause b).agentRejects = s.agentRejects := rfl
@[simp] theorem State.setPause_store (b : Bool) : (s.setPause b).store = s.store := rfl
@[simp] theorem State.setPause_retention (b : Bool) : (s.setPause b).retention = s.retention := rfl
@[simp] theorem State.setPause_pending (b : Bool) : (s.setPause b).pending = s.pending := rfl

/-! ### beginRekey -/

@[simp] theorem State.beginRekey_floor (t : Telegram) (c : Fin 16) (r : ClassRow) : (s.beginRekey t c r).floor = s.floor := rfl
@[simp] theorem State.beginRekey_plant (t : Telegram) (c : Fin 16) (r : ClassRow) : (s.beginRekey t c r).plant = s.plant := rfl
@[simp] theorem State.beginRekey_lineReset (t : Telegram) (c : Fin 16) (r : ClassRow) : (s.beginRekey t c r).lineReset = s.lineReset := rfl
@[simp] theorem State.beginRekey_floorPref (t : Telegram) (c : Fin 16) (r : ClassRow) : (s.beginRekey t c r).floorPref = s.floorPref := rfl
@[simp] theorem State.beginRekey_plantStreak (t : Telegram) (c : Fin 16) (r : ClassRow) : (s.beginRekey t c r).plantStreak = s.plantStreak := rfl
@[simp] theorem State.beginRekey_upRelay (t : Telegram) (c : Fin 16) (r : ClassRow) : (s.beginRekey t c r).upRelay = s.upRelay := rfl
@[simp] theorem State.beginRekey_downRelay (t : Telegram) (c : Fin 16) (r : ClassRow) : (s.beginRekey t c r).downRelay = s.downRelay := rfl
@[simp] theorem State.beginRekey_answers (t : Telegram) (c : Fin 16) (r : ClassRow) : (s.beginRekey t c r).answers = s.answers := rfl
@[simp] theorem State.beginRekey_replies (t : Telegram) (c : Fin 16) (r : ClassRow) : (s.beginRekey t c r).replies = s.replies := rfl
@[simp] theorem State.beginRekey_notices (t : Telegram) (c : Fin 16) (r : ClassRow) : (s.beginRekey t c r).notices = s.notices := rfl
@[simp] theorem State.beginRekey_engine (t : Telegram) (c : Fin 16) (r : ClassRow) : (s.beginRekey t c r).engine = { s.engine with pause := true } := rfl
@[simp] theorem State.beginRekey_table (t : Telegram) (c : Fin 16) (r : ClassRow) : (s.beginRekey t c r).table = s.table := rfl
@[simp] theorem State.beginRekey_zones (t : Telegram) (c : Fin 16) (r : ClassRow) : (s.beginRekey t c r).zones = s.zones := rfl
@[simp] theorem State.beginRekey_zoneWait (t : Telegram) (c : Fin 16) (r : ClassRow) : (s.beginRekey t c r).zoneWait = s.zoneWait := rfl
@[simp] theorem State.beginRekey_ambientRejects (t : Telegram) (c : Fin 16) (r : ClassRow) : (s.beginRekey t c r).ambientRejects = s.ambientRejects := rfl
@[simp] theorem State.beginRekey_ruleCounters (t : Telegram) (c : Fin 16) (r : ClassRow) : (s.beginRekey t c r).ruleCounters = s.ruleCounters := rfl
@[simp] theorem State.beginRekey_faultCounters (t : Telegram) (c : Fin 16) (r : ClassRow) : (s.beginRekey t c r).faultCounters = s.faultCounters := rfl
@[simp] theorem State.beginRekey_batches (t : Telegram) (c : Fin 16) (r : ClassRow) : (s.beginRekey t c r).batches = s.batches := rfl
@[simp] theorem State.beginRekey_batchWait (t : Telegram) (c : Fin 16) (r : ClassRow) : (s.beginRekey t c r).batchWait = s.batchWait := rfl
@[simp] theorem State.beginRekey_tables (t : Telegram) (c : Fin 16) (r : ClassRow) : (s.beginRekey t c r).tables = s.tables := rfl
@[simp] theorem State.beginRekey_mode (t : Telegram) (c : Fin 16) (r : ClassRow) : (s.beginRekey t c r).mode = s.mode := rfl
@[simp] theorem State.beginRekey_agent (t : Telegram) (c : Fin 16) (r : ClassRow) : (s.beginRekey t c r).agent = { s.agent with phase := .rekeying t c r } := rfl
@[simp] theorem State.beginRekey_agentRejects (t : Telegram) (c : Fin 16) (r : ClassRow) : (s.beginRekey t c r).agentRejects = s.agentRejects := rfl
@[simp] theorem State.beginRekey_store (t : Telegram) (c : Fin 16) (r : ClassRow) : (s.beginRekey t c r).store = s.store := rfl
@[simp] theorem State.beginRekey_retention (t : Telegram) (c : Fin 16) (r : ClassRow) : (s.beginRekey t c r).retention = s.retention := rfl
@[simp] theorem State.beginRekey_pending (t : Telegram) (c : Fin 16) (r : ClassRow) : (s.beginRekey t c r).pending = s.pending := rfl

/-! ### takeZoneRequest -/

@[simp] theorem State.takeZoneRequest_floor : (s.takeZoneRequest).floor = s.floor := rfl
@[simp] theorem State.takeZoneRequest_plant : (s.takeZoneRequest).plant = s.plant := rfl
@[simp] theorem State.takeZoneRequest_lineReset : (s.takeZoneRequest).lineReset = s.lineReset := rfl
@[simp] theorem State.takeZoneRequest_floorPref : (s.takeZoneRequest).floorPref = s.floorPref := rfl
@[simp] theorem State.takeZoneRequest_plantStreak : (s.takeZoneRequest).plantStreak = s.plantStreak := rfl
@[simp] theorem State.takeZoneRequest_upRelay : (s.takeZoneRequest).upRelay = s.upRelay := rfl
@[simp] theorem State.takeZoneRequest_downRelay : (s.takeZoneRequest).downRelay = s.downRelay := rfl
@[simp] theorem State.takeZoneRequest_answers : (s.takeZoneRequest).answers = s.answers := rfl
@[simp] theorem State.takeZoneRequest_replies : (s.takeZoneRequest).replies = s.replies := rfl
@[simp] theorem State.takeZoneRequest_notices : (s.takeZoneRequest).notices = s.notices := rfl
@[simp] theorem State.takeZoneRequest_engine : (s.takeZoneRequest).engine = s.engine := rfl
@[simp] theorem State.takeZoneRequest_table : (s.takeZoneRequest).table = s.table := rfl
@[simp] theorem State.takeZoneRequest_zones : (s.takeZoneRequest).zones = s.zones := rfl
@[simp] theorem State.takeZoneRequest_zoneWait : (s.takeZoneRequest).zoneWait = s.zoneWait.tail := rfl
@[simp] theorem State.takeZoneRequest_ambientRejects : (s.takeZoneRequest).ambientRejects = s.ambientRejects := rfl
@[simp] theorem State.takeZoneRequest_ruleCounters : (s.takeZoneRequest).ruleCounters = s.ruleCounters := rfl
@[simp] theorem State.takeZoneRequest_faultCounters : (s.takeZoneRequest).faultCounters = s.faultCounters := rfl
@[simp] theorem State.takeZoneRequest_batches : (s.takeZoneRequest).batches = s.batches := rfl
@[simp] theorem State.takeZoneRequest_batchWait : (s.takeZoneRequest).batchWait = s.batchWait := rfl
@[simp] theorem State.takeZoneRequest_tables : (s.takeZoneRequest).tables = s.tables := rfl
@[simp] theorem State.takeZoneRequest_mode : (s.takeZoneRequest).mode = s.mode := rfl
@[simp] theorem State.takeZoneRequest_agent : (s.takeZoneRequest).agent = s.agent := rfl
@[simp] theorem State.takeZoneRequest_agentRejects : (s.takeZoneRequest).agentRejects = s.agentRejects := rfl
@[simp] theorem State.takeZoneRequest_store : (s.takeZoneRequest).store = s.store := rfl
@[simp] theorem State.takeZoneRequest_retention : (s.takeZoneRequest).retention = s.retention := rfl
@[simp] theorem State.takeZoneRequest_pending : (s.takeZoneRequest).pending = s.pending := rfl

/-! ### withdrawAgent -/

@[simp] theorem State.withdrawAgent_floor : (s.withdrawAgent).floor = s.floor := rfl
@[simp] theorem State.withdrawAgent_plant : (s.withdrawAgent).plant = s.plant := rfl
@[simp] theorem State.withdrawAgent_lineReset : (s.withdrawAgent).lineReset = s.lineReset := rfl
@[simp] theorem State.withdrawAgent_floorPref : (s.withdrawAgent).floorPref = s.floorPref := rfl
@[simp] theorem State.withdrawAgent_plantStreak : (s.withdrawAgent).plantStreak = s.plantStreak := rfl
@[simp] theorem State.withdrawAgent_upRelay : (s.withdrawAgent).upRelay = s.upRelay := rfl
@[simp] theorem State.withdrawAgent_downRelay : (s.withdrawAgent).downRelay = s.downRelay := rfl
@[simp] theorem State.withdrawAgent_answers : (s.withdrawAgent).answers = s.answers := rfl
@[simp] theorem State.withdrawAgent_replies : (s.withdrawAgent).replies = s.replies := rfl
@[simp] theorem State.withdrawAgent_notices : (s.withdrawAgent).notices = s.notices := rfl
@[simp] theorem State.withdrawAgent_engine : (s.withdrawAgent).engine = s.engine := rfl
@[simp] theorem State.withdrawAgent_table : (s.withdrawAgent).table = s.table := rfl
@[simp] theorem State.withdrawAgent_zones : (s.withdrawAgent).zones = s.zones := rfl
@[simp] theorem State.withdrawAgent_zoneWait : (s.withdrawAgent).zoneWait = s.zoneWait.filter fun q => q != .agent := rfl
@[simp] theorem State.withdrawAgent_ambientRejects : (s.withdrawAgent).ambientRejects = s.ambientRejects := rfl
@[simp] theorem State.withdrawAgent_ruleCounters : (s.withdrawAgent).ruleCounters = s.ruleCounters := rfl
@[simp] theorem State.withdrawAgent_faultCounters : (s.withdrawAgent).faultCounters = s.faultCounters := rfl
@[simp] theorem State.withdrawAgent_batches : (s.withdrawAgent).batches = s.batches := rfl
@[simp] theorem State.withdrawAgent_batchWait : (s.withdrawAgent).batchWait = s.batchWait := rfl
@[simp] theorem State.withdrawAgent_tables : (s.withdrawAgent).tables = s.tables := rfl
@[simp] theorem State.withdrawAgent_mode : (s.withdrawAgent).mode = s.mode := rfl
@[simp] theorem State.withdrawAgent_agent : (s.withdrawAgent).agent = s.agent := rfl
@[simp] theorem State.withdrawAgent_agentRejects : (s.withdrawAgent).agentRejects = s.agentRejects := rfl
@[simp] theorem State.withdrawAgent_store : (s.withdrawAgent).store = s.store := rfl
@[simp] theorem State.withdrawAgent_retention : (s.withdrawAgent).retention = s.retention := rfl
@[simp] theorem State.withdrawAgent_pending : (s.withdrawAgent).pending = s.pending := rfl

/-! ### dropPlantHead -/

@[simp] theorem State.dropPlantHead_floor : (s.dropPlantHead).floor = s.floor := rfl
@[simp] theorem State.dropPlantHead_plant : (s.dropPlantHead).plant = { s.plant with queue := s.plant.queue.tail } := rfl
@[simp] theorem State.dropPlantHead_lineReset : (s.dropPlantHead).lineReset = s.lineReset := rfl
@[simp] theorem State.dropPlantHead_floorPref : (s.dropPlantHead).floorPref = s.floorPref := rfl
@[simp] theorem State.dropPlantHead_plantStreak : (s.dropPlantHead).plantStreak = s.plantStreak := rfl
@[simp] theorem State.dropPlantHead_upRelay : (s.dropPlantHead).upRelay = s.upRelay := rfl
@[simp] theorem State.dropPlantHead_downRelay : (s.dropPlantHead).downRelay = s.downRelay := rfl
@[simp] theorem State.dropPlantHead_answers : (s.dropPlantHead).answers = s.answers := rfl
@[simp] theorem State.dropPlantHead_replies : (s.dropPlantHead).replies = s.replies := rfl
@[simp] theorem State.dropPlantHead_notices : (s.dropPlantHead).notices = s.notices := rfl
@[simp] theorem State.dropPlantHead_engine : (s.dropPlantHead).engine = s.engine := rfl
@[simp] theorem State.dropPlantHead_table : (s.dropPlantHead).table = s.table := rfl
@[simp] theorem State.dropPlantHead_zones : (s.dropPlantHead).zones = s.zones := rfl
@[simp] theorem State.dropPlantHead_zoneWait : (s.dropPlantHead).zoneWait = s.zoneWait := rfl
@[simp] theorem State.dropPlantHead_ambientRejects : (s.dropPlantHead).ambientRejects = s.ambientRejects := rfl
@[simp] theorem State.dropPlantHead_ruleCounters : (s.dropPlantHead).ruleCounters = s.ruleCounters := rfl
@[simp] theorem State.dropPlantHead_faultCounters : (s.dropPlantHead).faultCounters = s.faultCounters := rfl
@[simp] theorem State.dropPlantHead_batches : (s.dropPlantHead).batches = s.batches := rfl
@[simp] theorem State.dropPlantHead_batchWait : (s.dropPlantHead).batchWait = s.batchWait := rfl
@[simp] theorem State.dropPlantHead_tables : (s.dropPlantHead).tables = s.tables := rfl
@[simp] theorem State.dropPlantHead_mode : (s.dropPlantHead).mode = s.mode := rfl
@[simp] theorem State.dropPlantHead_agent : (s.dropPlantHead).agent = s.agent := rfl
@[simp] theorem State.dropPlantHead_agentRejects : (s.dropPlantHead).agentRejects = s.agentRejects := rfl
@[simp] theorem State.dropPlantHead_store : (s.dropPlantHead).store = s.store := rfl
@[simp] theorem State.dropPlantHead_retention : (s.dropPlantHead).retention = s.retention := rfl
@[simp] theorem State.dropPlantHead_pending : (s.dropPlantHead).pending = s.pending := rfl

/-! ### reply -/

@[simp] theorem State.reply_floor (t : Telegram) (st : MgmtStatus) (d : List Byte) : (s.reply t st d).floor = s.floor := rfl
@[simp] theorem State.reply_plant (t : Telegram) (st : MgmtStatus) (d : List Byte) : (s.reply t st d).plant = s.plant := rfl
@[simp] theorem State.reply_lineReset (t : Telegram) (st : MgmtStatus) (d : List Byte) : (s.reply t st d).lineReset = s.lineReset := rfl
@[simp] theorem State.reply_floorPref (t : Telegram) (st : MgmtStatus) (d : List Byte) : (s.reply t st d).floorPref = s.floorPref := rfl
@[simp] theorem State.reply_plantStreak (t : Telegram) (st : MgmtStatus) (d : List Byte) : (s.reply t st d).plantStreak = s.plantStreak := rfl
@[simp] theorem State.reply_upRelay (t : Telegram) (st : MgmtStatus) (d : List Byte) : (s.reply t st d).upRelay = s.upRelay := rfl
@[simp] theorem State.reply_downRelay (t : Telegram) (st : MgmtStatus) (d : List Byte) : (s.reply t st d).downRelay = s.downRelay := rfl
@[simp] theorem State.reply_answers (t : Telegram) (st : MgmtStatus) (d : List Byte) : (s.reply t st d).answers = s.answers := rfl
@[simp] theorem State.reply_replies (t : Telegram) (st : MgmtStatus) (d : List Byte) : (s.reply t st d).replies = s.replies := rfl
@[simp] theorem State.reply_notices (t : Telegram) (st : MgmtStatus) (d : List Byte) : (s.reply t st d).notices = s.notices := rfl
@[simp] theorem State.reply_engine (t : Telegram) (st : MgmtStatus) (d : List Byte) : (s.reply t st d).engine = s.engine := rfl
@[simp] theorem State.reply_table (t : Telegram) (st : MgmtStatus) (d : List Byte) : (s.reply t st d).table = s.table := rfl
@[simp] theorem State.reply_zones (t : Telegram) (st : MgmtStatus) (d : List Byte) : (s.reply t st d).zones = s.zones := rfl
@[simp] theorem State.reply_zoneWait (t : Telegram) (st : MgmtStatus) (d : List Byte) : (s.reply t st d).zoneWait = s.zoneWait := rfl
@[simp] theorem State.reply_ambientRejects (t : Telegram) (st : MgmtStatus) (d : List Byte) : (s.reply t st d).ambientRejects = s.ambientRejects := rfl
@[simp] theorem State.reply_ruleCounters (t : Telegram) (st : MgmtStatus) (d : List Byte) : (s.reply t st d).ruleCounters = s.ruleCounters := rfl
@[simp] theorem State.reply_faultCounters (t : Telegram) (st : MgmtStatus) (d : List Byte) : (s.reply t st d).faultCounters = s.faultCounters := rfl
@[simp] theorem State.reply_batches (t : Telegram) (st : MgmtStatus) (d : List Byte) : (s.reply t st d).batches = s.batches := rfl
@[simp] theorem State.reply_batchWait (t : Telegram) (st : MgmtStatus) (d : List Byte) : (s.reply t st d).batchWait = s.batchWait := rfl
@[simp] theorem State.reply_tables (t : Telegram) (st : MgmtStatus) (d : List Byte) : (s.reply t st d).tables = s.tables := rfl
@[simp] theorem State.reply_mode (t : Telegram) (st : MgmtStatus) (d : List Byte) : (s.reply t st d).mode = s.mode := rfl
@[simp] theorem State.reply_agent (t : Telegram) (st : MgmtStatus) (d : List Byte) : (s.reply t st d).agent = { phase := .placing (s.mgmtReply t.source t.seq (replyOp t.body) st d) false, completion := s.agent.completion } := rfl
@[simp] theorem State.reply_agentRejects (t : Telegram) (st : MgmtStatus) (d : List Byte) : (s.reply t st d).agentRejects = s.agentRejects := rfl
@[simp] theorem State.reply_store (t : Telegram) (st : MgmtStatus) (d : List Byte) : (s.reply t st d).store = s.store := rfl
@[simp] theorem State.reply_retention (t : Telegram) (st : MgmtStatus) (d : List Byte) : (s.reply t st d).retention = s.retention := rfl
@[simp] theorem State.reply_pending (t : Telegram) (st : MgmtStatus) (d : List Byte) : (s.reply t st d).pending = s.pending := rfl

/-! ### writeTable -/

@[simp] theorem State.writeTable_floor (w : RowWrite) : (s.writeTable w).floor = s.floor := rfl
@[simp] theorem State.writeTable_plant (w : RowWrite) : (s.writeTable w).plant = s.plant := rfl
@[simp] theorem State.writeTable_lineReset (w : RowWrite) : (s.writeTable w).lineReset = s.lineReset := rfl
@[simp] theorem State.writeTable_floorPref (w : RowWrite) : (s.writeTable w).floorPref = s.floorPref := rfl
@[simp] theorem State.writeTable_plantStreak (w : RowWrite) : (s.writeTable w).plantStreak = s.plantStreak := rfl
@[simp] theorem State.writeTable_upRelay (w : RowWrite) : (s.writeTable w).upRelay = s.upRelay := rfl
@[simp] theorem State.writeTable_downRelay (w : RowWrite) : (s.writeTable w).downRelay = s.downRelay := rfl
@[simp] theorem State.writeTable_answers (w : RowWrite) : (s.writeTable w).answers = s.answers := rfl
@[simp] theorem State.writeTable_replies (w : RowWrite) : (s.writeTable w).replies = s.replies := rfl
@[simp] theorem State.writeTable_notices (w : RowWrite) : (s.writeTable w).notices = s.notices := rfl
@[simp] theorem State.writeTable_engine (w : RowWrite) : (s.writeTable w).engine = s.engine := rfl
@[simp] theorem State.writeTable_table (w : RowWrite) : (s.writeTable w).table = s.table := rfl
@[simp] theorem State.writeTable_zones (w : RowWrite) : (s.writeTable w).zones = s.zones := rfl
@[simp] theorem State.writeTable_zoneWait (w : RowWrite) : (s.writeTable w).zoneWait = s.zoneWait := rfl
@[simp] theorem State.writeTable_ambientRejects (w : RowWrite) : (s.writeTable w).ambientRejects = s.ambientRejects := rfl
@[simp] theorem State.writeTable_ruleCounters (w : RowWrite) : (s.writeTable w).ruleCounters = s.ruleCounters := rfl
@[simp] theorem State.writeTable_faultCounters (w : RowWrite) : (s.writeTable w).faultCounters = s.faultCounters := rfl
@[simp] theorem State.writeTable_batches (w : RowWrite) : (s.writeTable w).batches = s.batches := rfl
@[simp] theorem State.writeTable_batchWait (w : RowWrite) : (s.writeTable w).batchWait = s.batchWait := rfl
@[simp] theorem State.writeTable_tables (w : RowWrite) : (s.writeTable w).tables = s.tables.write w := rfl
@[simp] theorem State.writeTable_mode (w : RowWrite) : (s.writeTable w).mode = s.mode := rfl
@[simp] theorem State.writeTable_agent (w : RowWrite) : (s.writeTable w).agent = s.agent := rfl
@[simp] theorem State.writeTable_agentRejects (w : RowWrite) : (s.writeTable w).agentRejects = s.agentRejects := rfl
@[simp] theorem State.writeTable_store (w : RowWrite) : (s.writeTable w).store = s.store := rfl
@[simp] theorem State.writeTable_retention (w : RowWrite) : (s.writeTable w).retention = s.retention := rfl
@[simp] theorem State.writeTable_pending (w : RowWrite) : (s.writeTable w).pending = s.pending := rfl

/-! ### setBatch -/

@[simp] theorem State.setBatch_floor (b : Fin 16) (x : Option Batch) : (s.setBatch b x).floor = s.floor := rfl
@[simp] theorem State.setBatch_plant (b : Fin 16) (x : Option Batch) : (s.setBatch b x).plant = s.plant := rfl
@[simp] theorem State.setBatch_lineReset (b : Fin 16) (x : Option Batch) : (s.setBatch b x).lineReset = s.lineReset := rfl
@[simp] theorem State.setBatch_floorPref (b : Fin 16) (x : Option Batch) : (s.setBatch b x).floorPref = s.floorPref := rfl
@[simp] theorem State.setBatch_plantStreak (b : Fin 16) (x : Option Batch) : (s.setBatch b x).plantStreak = s.plantStreak := rfl
@[simp] theorem State.setBatch_upRelay (b : Fin 16) (x : Option Batch) : (s.setBatch b x).upRelay = s.upRelay := rfl
@[simp] theorem State.setBatch_downRelay (b : Fin 16) (x : Option Batch) : (s.setBatch b x).downRelay = s.downRelay := rfl
@[simp] theorem State.setBatch_answers (b : Fin 16) (x : Option Batch) : (s.setBatch b x).answers = s.answers := rfl
@[simp] theorem State.setBatch_replies (b : Fin 16) (x : Option Batch) : (s.setBatch b x).replies = s.replies := rfl
@[simp] theorem State.setBatch_notices (b : Fin 16) (x : Option Batch) : (s.setBatch b x).notices = s.notices := rfl
@[simp] theorem State.setBatch_engine (b : Fin 16) (x : Option Batch) : (s.setBatch b x).engine = s.engine := rfl
@[simp] theorem State.setBatch_table (b : Fin 16) (x : Option Batch) : (s.setBatch b x).table = s.table := rfl
@[simp] theorem State.setBatch_zones (b : Fin 16) (x : Option Batch) : (s.setBatch b x).zones = s.zones := rfl
@[simp] theorem State.setBatch_zoneWait (b : Fin 16) (x : Option Batch) : (s.setBatch b x).zoneWait = s.zoneWait := rfl
@[simp] theorem State.setBatch_ambientRejects (b : Fin 16) (x : Option Batch) : (s.setBatch b x).ambientRejects = s.ambientRejects := rfl
@[simp] theorem State.setBatch_ruleCounters (b : Fin 16) (x : Option Batch) : (s.setBatch b x).ruleCounters = s.ruleCounters := rfl
@[simp] theorem State.setBatch_faultCounters (b : Fin 16) (x : Option Batch) : (s.setBatch b x).faultCounters = s.faultCounters := rfl
@[simp] theorem State.setBatch_batches (b : Fin 16) (x : Option Batch) : (s.setBatch b x).batches = s.batches.set b.val x := rfl
@[simp] theorem State.setBatch_batchWait (b : Fin 16) (x : Option Batch) : (s.setBatch b x).batchWait = s.batchWait.filter fun q => q != b := rfl
@[simp] theorem State.setBatch_tables (b : Fin 16) (x : Option Batch) : (s.setBatch b x).tables = s.tables := rfl
@[simp] theorem State.setBatch_mode (b : Fin 16) (x : Option Batch) : (s.setBatch b x).mode = s.mode := rfl
@[simp] theorem State.setBatch_agent (b : Fin 16) (x : Option Batch) : (s.setBatch b x).agent = s.agent := rfl
@[simp] theorem State.setBatch_agentRejects (b : Fin 16) (x : Option Batch) : (s.setBatch b x).agentRejects = s.agentRejects := rfl
@[simp] theorem State.setBatch_store (b : Fin 16) (x : Option Batch) : (s.setBatch b x).store = s.store := rfl
@[simp] theorem State.setBatch_retention (b : Fin 16) (x : Option Batch) : (s.setBatch b x).retention = s.retention := rfl
@[simp] theorem State.setBatch_pending (b : Fin 16) (x : Option Batch) : (s.setBatch b x).pending = s.pending := rfl

/-! ### retain -/

@[simp] theorem State.retain_floor (f : Retention → Retention) : (s.retain f).floor = s.floor := rfl
@[simp] theorem State.retain_plant (f : Retention → Retention) : (s.retain f).plant = s.plant := rfl
@[simp] theorem State.retain_lineReset (f : Retention → Retention) : (s.retain f).lineReset = s.lineReset := rfl
@[simp] theorem State.retain_floorPref (f : Retention → Retention) : (s.retain f).floorPref = s.floorPref := rfl
@[simp] theorem State.retain_plantStreak (f : Retention → Retention) : (s.retain f).plantStreak = s.plantStreak := rfl
@[simp] theorem State.retain_upRelay (f : Retention → Retention) : (s.retain f).upRelay = s.upRelay := rfl
@[simp] theorem State.retain_downRelay (f : Retention → Retention) : (s.retain f).downRelay = s.downRelay := rfl
@[simp] theorem State.retain_answers (f : Retention → Retention) : (s.retain f).answers = s.answers := rfl
@[simp] theorem State.retain_replies (f : Retention → Retention) : (s.retain f).replies = s.replies := rfl
@[simp] theorem State.retain_notices (f : Retention → Retention) : (s.retain f).notices = s.notices := rfl
@[simp] theorem State.retain_engine (f : Retention → Retention) : (s.retain f).engine = s.engine := rfl
@[simp] theorem State.retain_table (f : Retention → Retention) : (s.retain f).table = s.table := rfl
@[simp] theorem State.retain_zones (f : Retention → Retention) : (s.retain f).zones = s.zones := rfl
@[simp] theorem State.retain_zoneWait (f : Retention → Retention) : (s.retain f).zoneWait = s.zoneWait := rfl
@[simp] theorem State.retain_ambientRejects (f : Retention → Retention) : (s.retain f).ambientRejects = s.ambientRejects := rfl
@[simp] theorem State.retain_ruleCounters (f : Retention → Retention) : (s.retain f).ruleCounters = s.ruleCounters := rfl
@[simp] theorem State.retain_faultCounters (f : Retention → Retention) : (s.retain f).faultCounters = s.faultCounters := rfl
@[simp] theorem State.retain_batches (f : Retention → Retention) : (s.retain f).batches = s.batches := rfl
@[simp] theorem State.retain_batchWait (f : Retention → Retention) : (s.retain f).batchWait = s.batchWait := rfl
@[simp] theorem State.retain_tables (f : Retention → Retention) : (s.retain f).tables = s.tables := rfl
@[simp] theorem State.retain_mode (f : Retention → Retention) : (s.retain f).mode = s.mode := rfl
@[simp] theorem State.retain_agent (f : Retention → Retention) : (s.retain f).agent = s.agent := rfl
@[simp] theorem State.retain_agentRejects (f : Retention → Retention) : (s.retain f).agentRejects = s.agentRejects := rfl
@[simp] theorem State.retain_store (f : Retention → Retention) : (s.retain f).store = s.store := rfl
@[simp] theorem State.retain_retention (f : Retention → Retention) : (s.retain f).retention = f s.retention := rfl
@[simp] theorem State.retain_pending (f : Retention → Retention) : (s.retain f).pending = s.pending := rfl

/-! ### setMonitor -/

@[simp] theorem State.setMonitor_floor (m : Monitor) (ok : Bool) : (s.setMonitor m ok).floor = s.floor := rfl
@[simp] theorem State.setMonitor_plant (m : Monitor) (ok : Bool) : (s.setMonitor m ok).plant = s.plant := rfl
@[simp] theorem State.setMonitor_lineReset (m : Monitor) (ok : Bool) : (s.setMonitor m ok).lineReset = s.lineReset := rfl
@[simp] theorem State.setMonitor_floorPref (m : Monitor) (ok : Bool) : (s.setMonitor m ok).floorPref = s.floorPref := rfl
@[simp] theorem State.setMonitor_plantStreak (m : Monitor) (ok : Bool) : (s.setMonitor m ok).plantStreak = s.plantStreak := rfl
@[simp] theorem State.setMonitor_upRelay (m : Monitor) (ok : Bool) : (s.setMonitor m ok).upRelay = s.upRelay := rfl
@[simp] theorem State.setMonitor_downRelay (m : Monitor) (ok : Bool) : (s.setMonitor m ok).downRelay = s.downRelay := rfl
@[simp] theorem State.setMonitor_answers (m : Monitor) (ok : Bool) : (s.setMonitor m ok).answers = s.answers := rfl
@[simp] theorem State.setMonitor_replies (m : Monitor) (ok : Bool) : (s.setMonitor m ok).replies = s.replies := rfl
@[simp] theorem State.setMonitor_notices (m : Monitor) (ok : Bool) : (s.setMonitor m ok).notices = s.notices := rfl
@[simp] theorem State.setMonitor_engine (m : Monitor) (ok : Bool) : (s.setMonitor m ok).engine = s.engine := rfl
@[simp] theorem State.setMonitor_table (m : Monitor) (ok : Bool) : (s.setMonitor m ok).table = s.table := rfl
@[simp] theorem State.setMonitor_zones (m : Monitor) (ok : Bool) : (s.setMonitor m ok).zones = s.zones := rfl
@[simp] theorem State.setMonitor_zoneWait (m : Monitor) (ok : Bool) : (s.setMonitor m ok).zoneWait = s.zoneWait := rfl
@[simp] theorem State.setMonitor_ambientRejects (m : Monitor) (ok : Bool) : (s.setMonitor m ok).ambientRejects = s.ambientRejects := rfl
@[simp] theorem State.setMonitor_ruleCounters (m : Monitor) (ok : Bool) : (s.setMonitor m ok).ruleCounters = s.ruleCounters := rfl
@[simp] theorem State.setMonitor_faultCounters (m : Monitor) (ok : Bool) : (s.setMonitor m ok).faultCounters = s.faultCounters := rfl
@[simp] theorem State.setMonitor_batches (m : Monitor) (ok : Bool) : (s.setMonitor m ok).batches = s.batches := rfl
@[simp] theorem State.setMonitor_batchWait (m : Monitor) (ok : Bool) : (s.setMonitor m ok).batchWait = s.batchWait := rfl
@[simp] theorem State.setMonitor_tables (m : Monitor) (ok : Bool) : (s.setMonitor m ok).tables = s.tables := rfl
@[simp] theorem State.setMonitor_mode (m : Monitor) (ok : Bool) : (s.setMonitor m ok).mode = s.mode := rfl
@[simp] theorem State.setMonitor_agent (m : Monitor) (ok : Bool) : (s.setMonitor m ok).agent = s.agent := rfl
@[simp] theorem State.setMonitor_agentRejects (m : Monitor) (ok : Bool) : (s.setMonitor m ok).agentRejects = s.agentRejects := rfl
@[simp] theorem State.setMonitor_store (m : Monitor) (ok : Bool) : (s.setMonitor m ok).store = s.store := rfl
@[simp] theorem State.setMonitor_retention (m : Monitor) (ok : Bool) : (s.setMonitor m ok).retention = { s.retention with monitor := m, supplyOk := ok } := rfl
@[simp] theorem State.setMonitor_pending (m : Monitor) (ok : Bool) : (s.setMonitor m ok).pending = s.pending := rfl

/-! ### setQuiesce -/

@[simp] theorem State.setQuiesce_floor (q : Option Quiesce) : (s.setQuiesce q).floor = s.floor := rfl
@[simp] theorem State.setQuiesce_plant (q : Option Quiesce) : (s.setQuiesce q).plant = s.plant := rfl
@[simp] theorem State.setQuiesce_lineReset (q : Option Quiesce) : (s.setQuiesce q).lineReset = s.lineReset := rfl
@[simp] theorem State.setQuiesce_floorPref (q : Option Quiesce) : (s.setQuiesce q).floorPref = s.floorPref := rfl
@[simp] theorem State.setQuiesce_plantStreak (q : Option Quiesce) : (s.setQuiesce q).plantStreak = s.plantStreak := rfl
@[simp] theorem State.setQuiesce_upRelay (q : Option Quiesce) : (s.setQuiesce q).upRelay = s.upRelay := rfl
@[simp] theorem State.setQuiesce_downRelay (q : Option Quiesce) : (s.setQuiesce q).downRelay = s.downRelay := rfl
@[simp] theorem State.setQuiesce_answers (q : Option Quiesce) : (s.setQuiesce q).answers = s.answers := rfl
@[simp] theorem State.setQuiesce_replies (q : Option Quiesce) : (s.setQuiesce q).replies = s.replies := rfl
@[simp] theorem State.setQuiesce_notices (q : Option Quiesce) : (s.setQuiesce q).notices = s.notices := rfl
@[simp] theorem State.setQuiesce_engine (q : Option Quiesce) : (s.setQuiesce q).engine = s.engine := rfl
@[simp] theorem State.setQuiesce_table (q : Option Quiesce) : (s.setQuiesce q).table = s.table := rfl
@[simp] theorem State.setQuiesce_zones (q : Option Quiesce) : (s.setQuiesce q).zones = s.zones := rfl
@[simp] theorem State.setQuiesce_zoneWait (q : Option Quiesce) : (s.setQuiesce q).zoneWait = s.zoneWait := rfl
@[simp] theorem State.setQuiesce_ambientRejects (q : Option Quiesce) : (s.setQuiesce q).ambientRejects = s.ambientRejects := rfl
@[simp] theorem State.setQuiesce_ruleCounters (q : Option Quiesce) : (s.setQuiesce q).ruleCounters = s.ruleCounters := rfl
@[simp] theorem State.setQuiesce_faultCounters (q : Option Quiesce) : (s.setQuiesce q).faultCounters = s.faultCounters := rfl
@[simp] theorem State.setQuiesce_batches (q : Option Quiesce) : (s.setQuiesce q).batches = s.batches := rfl
@[simp] theorem State.setQuiesce_batchWait (q : Option Quiesce) : (s.setQuiesce q).batchWait = s.batchWait := rfl
@[simp] theorem State.setQuiesce_tables (q : Option Quiesce) : (s.setQuiesce q).tables = s.tables := rfl
@[simp] theorem State.setQuiesce_mode (q : Option Quiesce) : (s.setQuiesce q).mode = s.mode := rfl
@[simp] theorem State.setQuiesce_agent (q : Option Quiesce) : (s.setQuiesce q).agent = s.agent := rfl
@[simp] theorem State.setQuiesce_agentRejects (q : Option Quiesce) : (s.setQuiesce q).agentRejects = s.agentRejects := rfl
@[simp] theorem State.setQuiesce_store (q : Option Quiesce) : (s.setQuiesce q).store = s.store := rfl
@[simp] theorem State.setQuiesce_retention (q : Option Quiesce) : (s.setQuiesce q).retention = { s.retention with quiesce := q } := rfl
@[simp] theorem State.setQuiesce_pending (q : Option Quiesce) : (s.setQuiesce q).pending = s.pending := rfl

/-! ### stopReceivers -/

@[simp] theorem State.stopReceivers_floor : (s.stopReceivers).floor = s.floor.stopReceiver := rfl
@[simp] theorem State.stopReceivers_plant : (s.stopReceivers).plant = s.plant.stopReceiver := rfl
@[simp] theorem State.stopReceivers_lineReset : (s.stopReceivers).lineReset = s.lineReset := rfl
@[simp] theorem State.stopReceivers_floorPref : (s.stopReceivers).floorPref = s.floorPref := rfl
@[simp] theorem State.stopReceivers_plantStreak : (s.stopReceivers).plantStreak = s.plantStreak := rfl
@[simp] theorem State.stopReceivers_upRelay : (s.stopReceivers).upRelay = s.upRelay := rfl
@[simp] theorem State.stopReceivers_downRelay : (s.stopReceivers).downRelay = s.downRelay := rfl
@[simp] theorem State.stopReceivers_answers : (s.stopReceivers).answers = s.answers := rfl
@[simp] theorem State.stopReceivers_replies : (s.stopReceivers).replies = s.replies := rfl
@[simp] theorem State.stopReceivers_notices : (s.stopReceivers).notices = s.notices := rfl
@[simp] theorem State.stopReceivers_engine : (s.stopReceivers).engine = s.engine := rfl
@[simp] theorem State.stopReceivers_table : (s.stopReceivers).table = s.table := rfl
@[simp] theorem State.stopReceivers_zones : (s.stopReceivers).zones = s.zones := rfl
@[simp] theorem State.stopReceivers_zoneWait : (s.stopReceivers).zoneWait = s.zoneWait := rfl
@[simp] theorem State.stopReceivers_ambientRejects : (s.stopReceivers).ambientRejects = s.ambientRejects := rfl
@[simp] theorem State.stopReceivers_ruleCounters : (s.stopReceivers).ruleCounters = s.ruleCounters := rfl
@[simp] theorem State.stopReceivers_faultCounters : (s.stopReceivers).faultCounters = s.faultCounters := rfl
@[simp] theorem State.stopReceivers_batches : (s.stopReceivers).batches = s.batches := rfl
@[simp] theorem State.stopReceivers_batchWait : (s.stopReceivers).batchWait = s.batchWait := rfl
@[simp] theorem State.stopReceivers_tables : (s.stopReceivers).tables = s.tables := rfl
@[simp] theorem State.stopReceivers_mode : (s.stopReceivers).mode = s.mode := rfl
@[simp] theorem State.stopReceivers_agent : (s.stopReceivers).agent = s.agent := rfl
@[simp] theorem State.stopReceivers_agentRejects : (s.stopReceivers).agentRejects = s.agentRejects := rfl
@[simp] theorem State.stopReceivers_store : (s.stopReceivers).store = s.store := rfl
@[simp] theorem State.stopReceivers_retention : (s.stopReceivers).retention = s.retention := rfl
@[simp] theorem State.stopReceivers_pending : (s.stopReceivers).pending = s.pending := rfl

/-! ### stopTransmitters -/

@[simp] theorem State.stopTransmitters_floor : (s.stopTransmitters).floor = { s.floor with tx := .stopped } := rfl
@[simp] theorem State.stopTransmitters_plant : (s.stopTransmitters).plant = { s.plant with tx := .stopped } := rfl
@[simp] theorem State.stopTransmitters_lineReset : (s.stopTransmitters).lineReset = s.lineReset := rfl
@[simp] theorem State.stopTransmitters_floorPref : (s.stopTransmitters).floorPref = s.floorPref := rfl
@[simp] theorem State.stopTransmitters_plantStreak : (s.stopTransmitters).plantStreak = s.plantStreak := rfl
@[simp] theorem State.stopTransmitters_upRelay : (s.stopTransmitters).upRelay = s.upRelay := rfl
@[simp] theorem State.stopTransmitters_downRelay : (s.stopTransmitters).downRelay = s.downRelay := rfl
@[simp] theorem State.stopTransmitters_answers : (s.stopTransmitters).answers = s.answers := rfl
@[simp] theorem State.stopTransmitters_replies : (s.stopTransmitters).replies = s.replies := rfl
@[simp] theorem State.stopTransmitters_notices : (s.stopTransmitters).notices = s.notices := rfl
@[simp] theorem State.stopTransmitters_engine : (s.stopTransmitters).engine = s.engine := rfl
@[simp] theorem State.stopTransmitters_table : (s.stopTransmitters).table = s.table := rfl
@[simp] theorem State.stopTransmitters_zones : (s.stopTransmitters).zones = s.zones := rfl
@[simp] theorem State.stopTransmitters_zoneWait : (s.stopTransmitters).zoneWait = s.zoneWait := rfl
@[simp] theorem State.stopTransmitters_ambientRejects : (s.stopTransmitters).ambientRejects = s.ambientRejects := rfl
@[simp] theorem State.stopTransmitters_ruleCounters : (s.stopTransmitters).ruleCounters = s.ruleCounters := rfl
@[simp] theorem State.stopTransmitters_faultCounters : (s.stopTransmitters).faultCounters = s.faultCounters := rfl
@[simp] theorem State.stopTransmitters_batches : (s.stopTransmitters).batches = s.batches := rfl
@[simp] theorem State.stopTransmitters_batchWait : (s.stopTransmitters).batchWait = s.batchWait := rfl
@[simp] theorem State.stopTransmitters_tables : (s.stopTransmitters).tables = s.tables := rfl
@[simp] theorem State.stopTransmitters_mode : (s.stopTransmitters).mode = s.mode := rfl
@[simp] theorem State.stopTransmitters_agent : (s.stopTransmitters).agent = s.agent := rfl
@[simp] theorem State.stopTransmitters_agentRejects : (s.stopTransmitters).agentRejects = s.agentRejects := rfl
@[simp] theorem State.stopTransmitters_store : (s.stopTransmitters).store = s.store := rfl
@[simp] theorem State.stopTransmitters_retention : (s.stopTransmitters).retention = s.retention := rfl
@[simp] theorem State.stopTransmitters_pending : (s.stopTransmitters).pending = s.pending := rfl

end Sys2Proof.Machine
end

