-- ==== Sys2Proof/Laws/Tables.lean ====
section
/-! SUPPORT. Lists sorted by key: read after write, and the canonical form kept by every operation of the carrier table. -/

namespace Sys2Proof.Machine

variable {α : Type}

/-! ### Read after write -/

@[simp] theorem lookupKey_insertKey_self (l : List (Nat × α)) (k : Nat) (v : α) :
    lookupKey (insertKey l k v) k = some v := by
  induction l with
  | nil => simp [insertKey, lookupKey]
  | cons p rest ih =>
    obtain ⟨k', v'⟩ := p
    simp only [insertKey]
    split
    · simp [lookupKey]
    · split
      · simp [lookupKey]
      · simp_all [lookupKey]

theorem lookupKey_insertKey_ne (l : List (Nat × α)) {k j : Nat} (v : α) (h : j ≠ k) :
    lookupKey (insertKey l k v) j = lookupKey l j := by
  induction l with
  | nil => simp [insertKey, lookupKey, Ne.symm h]
  | cons p rest ih =>
    obtain ⟨k', v'⟩ := p
    simp only [insertKey]
    split
    · simp [lookupKey, Ne.symm h]
    · split
      · subst_vars
        simp [lookupKey, Ne.symm h]
      · simp [lookupKey, ih]

theorem lookupKey_eraseKey_ne (l : List (Nat × α)) {k j : Nat} (h : j ≠ k) :
    lookupKey (eraseKey l k) j = lookupKey l j := by
  induction l with
  | nil => rfl
  | cons p rest ih =>
    obtain ⟨k', v'⟩ := p
    simp only [eraseKey]
    split
    · subst_vars
      simp [lookupKey, Ne.symm h]
    · simp [lookupKey, ih]

theorem lookupKey_eq_none_of_lt {l : List (Nat × α)} {k : Nat} (h : ∀ p ∈ l, k < p.1) : lookupKey l k = none := by
  induction l with
  | nil => rfl
  | cons p rest ih =>
    obtain ⟨k', v'⟩ := p
    have hk : k < k' := h (k', v') (by simp)
    simp only [lookupKey, if_neg (Nat.ne_of_gt hk)]
    exact ih fun q hq => h q (by simp [hq])

theorem lookupKey_eraseKey_self {l : List (Nat × α)} (k : Nat) (h : KeysRising l) : lookupKey (eraseKey l k) k = none := by
  induction l with
  | nil => rfl
  | cons p rest ih =>
    obtain ⟨k', v'⟩ := p
    rw [KeysRising, List.pairwise_cons] at h
    simp only [eraseKey]
    split
    · subst_vars
      exact lookupKey_eq_none_of_lt h.1
    · simp_all [lookupKey]

/-! ### The canonical form -/

theorem mem_insertKey {l : List (Nat × α)} {k : Nat} {v : α} {p : Nat × α} (h : p ∈ insertKey l k v) :
    p = (k, v) ∨ p ∈ l := by
  induction l with
  | nil => simp_all [insertKey]
  | cons q rest ih =>
    obtain ⟨k', v'⟩ := q
    simp only [insertKey] at h
    split at h
    · simpa using h
    · split at h <;> simp only [List.mem_cons] at h ⊢ <;> grind

theorem mem_eraseKey {l : List (Nat × α)} {k : Nat} {p : Nat × α} (h : p ∈ eraseKey l k) : p ∈ l := by
  induction l with
  | nil => simp [eraseKey] at h
  | cons q rest ih =>
    obtain ⟨k', v'⟩ := q
    simp only [eraseKey] at h
    split at h <;> simp only [List.mem_cons] at h ⊢ <;> grind

theorem keysRising_insertKey {l : List (Nat × α)} (k : Nat) (v : α) (h : KeysRising l) : KeysRising (insertKey l k v) := by
  induction l with
  | nil => simp [insertKey, KeysRising]
  | cons q rest ih =>
    obtain ⟨k', v'⟩ := q
    simp only [KeysRising, List.pairwise_cons] at h ih
    simp only [insertKey]
    split
    · simp only [KeysRising, List.pairwise_cons, List.mem_cons]
      grind
    · split
      · subst_vars
        simp only [KeysRising, List.pairwise_cons]
        exact h
      · simp only [KeysRising, List.pairwise_cons]
        refine ⟨fun p hp => ?_, ih h.2⟩
        rcases mem_insertKey hp with rfl | hp
        · simp only
          omega
        · exact h.1 p hp

theorem keysRising_eraseKey {l : List (Nat × α)} (k : Nat) (h : KeysRising l) : KeysRising (eraseKey l k) := by
  induction l with
  | nil => simp [eraseKey]
  | cons q rest ih =>
    obtain ⟨k', v'⟩ := q
    simp only [KeysRising, List.pairwise_cons] at h ih
    simp only [eraseKey]
    split
    · exact h.2
    · simp only [KeysRising, List.pairwise_cons]
      exact ⟨fun p hp => h.1 p (mem_eraseKey hp), ih h.2⟩

theorem keysRising_map {β : Type} {l : List (Nat × α)} (f : Nat × α → β) (h : KeysRising l) :
    KeysRising (l.map fun p => (p.1, f p)) := by
  simpa [KeysRising, List.pairwise_map] using h

theorem CarrierTable.Canonical.setChain {t : CarrierTable} (h : t.Canonical) (set : Nat) (l : List Nat) :
    (t.setChain set l).Canonical := by
  refine ⟨h.records, ?_, fun p hp => ?_⟩
  · simp only [CarrierTable.setChain]
    split
    · exact keysRising_eraseKey set h.chains
    · exact keysRising_insertKey set l h.chains
  · simp only [CarrierTable.setChain] at hp
    split at hp
    · exact h.nonempty p (mem_eraseKey hp)
    · rcases mem_insertKey hp with rfl | hp
      · assumption
      · exact h.nonempty p hp

theorem CarrierTable.Canonical.insert {t : CarrierTable} (h : t.Canonical) (i : Nat) (r : Record) :
    ({ t with records := insertKey t.records i r } : CarrierTable).Canonical :=
  ⟨keysRising_insertKey i r h.records, h.chains, h.nonempty⟩

theorem CarrierTable.Canonical.countClass {t : CarrierTable} (h : t.Canonical) (c : Fin 16) (f : Nat → Nat) :
    (t.countClass c f).Canonical := ⟨h.records, h.chains, h.nonempty⟩

theorem CarrierTable.Canonical.appendRing {t : CarrierTable} (h : t.Canonical) (e : RingEntry) :
    (t.appendRing e).Canonical := ⟨h.records, h.chains, h.nonempty⟩

theorem CarrierTable.Canonical.create {t t' : CarrierTable} {i : Nat} {r : Record} (h : t.Canonical)
    (hc : t.create? r = some (i, t')) : t'.Canonical := by
  simp only [CarrierTable.create?] at hc
  split at hc
  · cases hc
    exact (h.insert _ _).countClass _ _
  · split at hc
    · next j rest _ =>
      cases hc
      have h' : ({ t with poolFree := rest, records := insertKey t.records i r } : CarrierTable).Canonical :=
        ⟨keysRising_insertKey _ _ h.records, h.chains, h.nonempty⟩
      exact (h'.setChain _ _).countClass _ _
    · cases hc

theorem CarrierTable.Canonical.remove {t : CarrierTable} (h : t.Canonical) (i : Nat) (r : Record) :
    (t.remove i r).Canonical := by
  have h0 : ({ t with records := eraseKey t.records i } : CarrierTable).Canonical :=
    ⟨keysRising_eraseKey i h.records, h.chains, h.nonempty⟩
  have h' := h0.countClass r.cls (· - 1)
  simp only [CarrierTable.remove]
  split
  · exact h'
  · have h2 := h'.setChain (setIndex r.id) ((t.chainOf (setIndex r.id)).erase i)
    exact ⟨h2.records, h2.chains, h2.nonempty⟩

end Sys2Proof.Machine
end

