-- ==== Sys2Proof/Laws/Frames.lean ====
section
/-! SUPPORT. What the shared operations leave unchanged: notices and outputs on the Plant side, and the Zone Engine's work. -/

namespace Sys2Proof.Machine

/-! ### The Plant side -/

theorem State.PlantFrame.refl (s : State) : s.PlantFrame s := rfl

theorem State.PlantFrame.trans {s t u : State} (h : s.PlantFrame t) (k : t.PlantFrame u) : s.PlantFrame u := by
  unfold State.PlantFrame at *
  calc u = _ := k
    _ = _ := by rw [h]

theorem State.sendNotice_frame (s : State) (n : Notice) : s.PlantFrame (s.sendNotice n) := rfl

theorem State.sendReply_frame (s : State) (t : Telegram) (rest : List Telegram) : s.PlantFrame (s.sendReply t rest) := rfl

theorem State.sendUpRelay_frame (s : State) (t : Telegram) (rest : List Telegram) (k : Nat) :
    s.PlantFrame (s.sendUpRelay t rest k) := rfl

theorem State.plantOrder?_frame {s t : State} (h : s.plantOrder? = some t) : s.PlantFrame t := by
  simp only [State.plantOrder?] at h
  split at h
  · cases h; rfl
  · split at h
    · cases h; rfl
    · split at h <;> cases h <;> rfl

theorem State.plantChoice?_frame {s t : State} (h : s.plantChoice? = some t) : s.PlantFrame t := by
  simp only [State.plantChoice?] at h
  split at h
  · split at h
    · cases h; rfl
    · exact State.plantOrder?_frame h
  · exact State.plantOrder?_frame h

theorem State.kickPlant_frame (s : State) : s.PlantFrame s.kickPlant := by
  simp only [State.kickPlant]
  split
  · cases h : s.plantChoice? with
    | none => rfl
    | some t => exact State.plantChoice?_frame h
  · rfl

theorem State.post_frame (s : State) (n : Notice) : s.PlantFrame (s.post n) :=
  State.PlantFrame.trans (t := { s with notices := s.notices.arrive n }) rfl (State.kickPlant_frame _)

theorem State.pushReply_frame (s : State) (t : Telegram) : s.PlantFrame (s.pushReply t) :=
  State.PlantFrame.trans (t := { s with replies := s.replies ++ [t] }) rfl (State.kickPlant_frame _)

theorem State.pushUpRelay_frame (s : State) (t : Telegram) : s.PlantFrame (s.pushUpRelay t) :=
  State.PlantFrame.trans (t := { s with upRelay := s.upRelay ++ [t] }) rfl (State.kickPlant_frame _)

theorem State.PlantFrame.record? {s t : State} (h : s.PlantFrame t) (i : Nat) : t.record? i = s.record? i := by rw [h]; rfl

theorem State.PlantFrame.zone {s t : State} (h : s.PlantFrame t) (z : Fin 32) : t.zone z = s.zone z := by rw [h]; rfl

theorem State.PlantFrame.zoneFrame {s t : State} (h : s.PlantFrame t) : s.ZoneFrame t := by
  refine ⟨?_, fun i => by rw [h.record?]⟩
  have h' := h
  unfold State.PlantFrame at h'
  rw [h']

/-! ### The Zone Engine -/

theorem State.SameCores.refl (s : State) : s.SameCores s := fun _ => rfl

theorem State.SameCores.trans {s t u : State} (h : s.SameCores t) (k : t.SameCores u) : s.SameCores u :=
  fun i => (k i).trans (h i)

theorem State.ZoneFrame.refl (s : State) : s.ZoneFrame s := ⟨rfl, State.SameCores.refl s⟩

theorem State.ZoneFrame.trans {s t u : State} (h : s.ZoneFrame t) (k : t.ZoneFrame u) : s.ZoneFrame u := by
  refine ⟨?_, h.2.trans k.2⟩
  calc u = _ := k.1
    _ = _ := by rw [h.1]

@[simp] theorem State.setZone_record? (s : State) (z : Fin 32) (x : Zone) (i : Nat) :
    (s.setZone z x).record? i = s.record? i := rfl

@[simp] theorem State.setRecord_record?_self (s : State) (i : Nat) (r : Record) : (s.setRecord i r).record? i = some r := by
  simp [State.record?]

theorem State.setRecord_record?_ne (s : State) {i j : Nat} (r : Record) (h : j ≠ i) :
    (s.setRecord i r).record? j = s.record? j := by
  simp [State.record?, lookupKey_insertKey_ne _ _ h]

@[simp] theorem State.setRecord_zone (s : State) (i : Nat) (r : Record) (z : Fin 32) : (s.setRecord i r).zone z = s.zone z :=
  rfl

@[simp] theorem State.setZone_zone_self (s : State) (z : Fin 32) (x : Zone) : (s.setZone z x).zone z = x := by
  simp [State.zone]

theorem State.setZone_zone_ne (s : State) {z y : Fin 32} (x : Zone) (h : y ≠ z) : (s.setZone z x).zone y = s.zone y := by
  have : z.val ≠ y.val := fun e => h (Fin.ext e.symm)
  simp [State.zone, this]

theorem State.setZone_frame (s : State) (z : Fin 32) (x : Zone) : s.ZoneFrame (s.setZone z x) := ⟨rfl, fun _ => rfl⟩

theorem State.setRecord_frame {s : State} {i : Nat} {r r' : Record} (h : s.record? i = some r) (hc : r'.core = r.core) :
    s.ZoneFrame (s.setRecord i r') := by
  refine ⟨rfl, fun j => ?_⟩
  by_cases hj : j = i
  · subst hj
    simp [h, hc]
  · rw [State.setRecord_record?_ne _ _ hj]

/-! Records: what the exposure arithmetic leaves unchanged. -/

@[simp] theorem Record.settle_core (r : Record) (w : Nat) : (r.settle w).core = r.core := by
  simp only [Record.settle]; split <;> rfl

theorem Record.cross?_core {r r' : Record} {c : ClassRow} {k : NoticeKind} (h : r.cross? c = some (r', k)) :
    r'.core = r.core := by
  simp only [Record.cross?] at h
  repeat' split at h
  all_goals first
    | (cases h; rfl)
    | cases h

@[simp] theorem Record.rejudgeWarn_core (r : Record) (c : ClassRow) : (r.rejudgeWarn c).core = r.core := by
  simp only [Record.rejudgeWarn]; split <;> rfl

@[simp] theorem Record.rejudge_core (r : Record) (c : ClassRow) : (r.rejudge c).core = r.core := by
  simp only [Record.rejudge, Record.rejudgeWarn_core]; split <;> rfl

@[simp] theorem Record.enterZone_core (r : Record) (z : Fin 32) (x : Zone) (k : ZoneKind) (c : ClassRow) (n : Nat) :
    (r.enterZone z x k c n).core = r.core := by
  simp only [Record.enterZone]; split
  · split <;> rfl
  · rfl

@[simp] theorem Record.leaveZone_core (r : Record) : r.leaveZone.core = r.core := rfl

@[simp] theorem Record.takeCredit_core (r : Record) (c : ClassRow) (d : Nat) : (r.takeCredit c d).core = r.core := by
  simp only [Record.takeCredit]; split
  · simp only [Record.rejudgeWarn]; split <;> rfl
  · rfl

/-! Zone Engine operations, from the inside out. -/

theorem State.unlist_frame (s : State) (z : Fin 32) (i : Nat) : s.ZoneFrame (s.unlist z i) := State.setZone_frame _ _ _

theorem State.enlist_frame (s : State) (i : Nat) : s.ZoneFrame (s.enlist i) := by
  simp only [State.enlist]
  split
  · next r hr =>
    split
    · refine State.ZoneFrame.trans (State.setRecord_frame hr ?_) (State.setZone_frame _ _ _)
      rfl
    · exact .refl s
  · exact .refl s

theorem State.crossOnce_frame (s : State) (i : Nat) (st : Option Byte) : s.ZoneFrame (s.crossOnce i st) := by
  simp only [State.crossOnce]
  split
  · next r hr =>
    split
    · next r' k hk => exact (State.setRecord_frame hr (Record.cross?_core hk)).trans (State.post_frame _ _).zoneFrame
    · exact .refl s
  · exact .refl s

theorem State.crossAll_frame (s : State) (i : Nat) (st : Option Byte) : s.ZoneFrame (s.crossAll i st) :=
  ((State.crossOnce_frame s i st).trans (State.crossOnce_frame _ i st)).trans (State.crossOnce_frame _ i st)

theorem State.settleCross_frame (s : State) (i : Nat) (st : Option Byte) (b : Bool) : s.ZoneFrame (s.settleCross i st b) := by
  simp only [State.settleCross]
  split
  · next r hr =>
    split
    · next zp _ =>
      have h := (State.setRecord_frame hr (Record.settle_core r (s.zone zp.zone).wear)).trans
        (State.crossAll_frame _ i st)
      split
      · exact (h.trans (State.unlist_frame _ _ _)).trans (State.enlist_frame _ _)
      · exact h
    · exact .refl s
  · exact .refl s

theorem popWalk_frame (z : Fin 32) (l : List Nat) (s : State) : s.ZoneFrame (popWalk z l s) := by
  induction l generalizing s with
  | nil => exact .refl s
  | cons i rest ih =>
    simp only [popWalk]
    split
    · split
      · split
        · split
          · exact ih _
          · exact (State.settleCross_frame s i none true).trans (ih _)
        · exact .refl s
      · exact ih _
    · exact ih _

theorem State.pop_frame (s : State) (z : Fin 32) : s.ZoneFrame (s.pop z) := popWalk_frame _ _ _

theorem State.chargeZone_frame (s : State) (z : Fin 32) : s.ZoneFrame (s.chargeZone z) := ⟨rfl, fun _ => rfl⟩

theorem State.refreshZone_frame (s : State) (z : Fin 32) (st : Option Byte) : s.ZoneFrame (s.refreshZone z st) := by
  simp only [State.refreshZone]
  split
  · exact State.setZone_frame _ _ _
  · split <;> exact (State.setZone_frame _ _ _).trans (State.post_frame _ _).zoneFrame

theorem State.refreshPop_frame (s : State) (z : Fin 32) (st : Option Byte) : s.ZoneFrame (s.refreshPop z st) :=
  (State.refreshZone_frame s z st).trans (State.pop_frame _ z)

theorem State.advance_frame (s : State) (z : Fin 32) : s.ZoneFrame (s.advance z) := by
  simp only [State.advance]
  split
  · exact (State.chargeZone_frame s z).trans (State.refreshPop_frame _ _ _)
  · exact .refl s

theorem foldl_zoneFrame {α : Type} (f : State → α → State) (hf : ∀ (s : State) (a : α), s.ZoneFrame (f s a)) (l : List α) (s : State) :
    s.ZoneFrame (l.foldl f s) := by
  induction l generalizing s with
  | nil => exact .refl s
  | cons a rest ih => exact (hf s a).trans (ih _)

theorem State.advanceAll_frame (s : State) (zs : List (Fin 32)) : s.ZoneFrame (s.advanceAll zs) :=
  foldl_zoneFrame _ State.advance_frame _ _

theorem State.modRecord_frame (s : State) (i : Nat) (f : Record → Record) (hf : ∀ r, (f r).core = r.core) :
    s.ZoneFrame (s.modRecord i f) := by
  simp only [State.modRecord]
  split
  · next r hr => exact State.setRecord_frame hr (hf r)
  · exact .refl s

theorem State.attach_frame (s : State) (i : Nat) (z : Fin 32) (st : Option Byte) : s.ZoneFrame (s.attach i z st) := by
  simp only [State.attach]
  split
  · next r hr =>
    exact ((State.setRecord_frame hr (by simp)).trans (State.crossAll_frame _ i st)).trans (State.enlist_frame _ i)
  · exact .refl s

theorem State.creditLeaving_core (s : State) (r : Record) (z : Option (Fin 32)) : (s.creditLeaving r z).core = r.core := by
  simp only [State.creditLeaving]
  split
  · split
    · simp
    · rfl
  · rfl

theorem State.relistTo_frame (s : State) (i : Nat) (cs : CarrierState) (z : Option (Fin 32)) (st : Option Byte) :
    s.ZoneFrame (s.relistTo i cs z st) := by
  simp only [State.relistTo]
  split
  · next r hr =>
    have hc : ∀ z', (s.creditLeaving (match r.zonePart with
        | some zp => r.settle (s.zone zp.zone).wear
        | none => r) z').core = r.core := by
      intro z'
      rw [State.creditLeaving_core]
      split <;> simp
    have mid : s.ZoneFrame (match r.zonePart with
        | some zp => s.unlist zp.zone i
        | none => s : State) := by
      split
      · exact State.unlist_frame _ _ _
      · exact .refl s
    have hm : (match r.zonePart with
        | some zp => s.unlist zp.zone i
        | none => s : State).record? i = some r := by
      split <;> exact hr
    split
    · refine State.ZoneFrame.trans ?_ (State.attach_frame _ _ _ _)
      refine mid.trans (State.setRecord_frame hm ?_)
      exact hc _
    · refine mid.trans (State.setRecord_frame hm ?_)
      rw [Record.rejudgeWarn_core]
      exact hc _
  · exact .refl s

theorem State.relistStay_frame (s : State) (i : Nat) (st : Option Byte) : s.ZoneFrame (s.relistStay i st) :=
  State.settleCross_frame _ _ _ _

theorem State.rekeyZone_frame (s : State) (sel : Record → Bool) (z : Fin 32) : s.ZoneFrame (s.rekeyZone sel z) := by
  simp only [State.rekeyZone]
  refine (State.setZone_frame _ _ _).trans (foldl_zoneFrame _ (fun s i => ?_) _ _)
  exact (State.modRecord_frame _ _ _ fun r => Record.settle_core r _).trans (State.attach_frame _ _ _ _)

end Sys2Proof.Machine
end

