-- ==== Sys2Proof/Laws/Clocks.lean ====
section
/-! SUPPORT. The readings, conditions and clocks of the zones: what an advance makes of them, and that list work leaves them. -/

namespace Sys2Proof.Machine

/-- Every zone keeps its readings, conditions and clocks. -/
def State.SameAir (s t : State) : Prop := ∀ y, (t.zone y).air = (s.zone y).air

theorem State.SameAir.refl (s : State) : s.SameAir s := fun _ => rfl

theorem State.SameAir.trans {s t u : State} (h : s.SameAir t) (k : t.SameAir u) : s.SameAir u :=
  fun y => (k y).trans (h y)

theorem State.SameAir.wear {s t : State} (h : s.SameAir t) (y : Fin 32) : (t.zone y).wear = (s.zone y).wear :=
  show (t.zone y).air.wear = (s.zone y).air.wear by rw [h y]

theorem State.SameAir.dry {s t : State} (h : s.SameAir t) (y : Fin 32) : (t.zone y).dry = (s.zone y).dry :=
  show (t.zone y).air.dry = (s.zone y).air.dry by rw [h y]

theorem State.SameAir.lastAdvance {s t : State} (h : s.SameAir t) (y : Fin 32) :
    (t.zone y).lastAdvance = (s.zone y).lastAdvance :=
  show (t.zone y).air.lastAdvance = (s.zone y).air.lastAdvance by rw [h y]

theorem State.SameAir.rate {s t : State} (h : s.SameAir t) (y : Fin 32) : (t.zone y).rate = (s.zone y).rate :=
  show (t.zone y).air.rate = (s.zone y).air.rate by rw [h y]

theorem State.PlantFrame.sameAir {s t : State} (h : s.PlantFrame t) : s.SameAir t := fun y => by rw [h.zone]

theorem State.setZone_sameAir {s : State} {z : Fin 32} {x : Zone} (h : x.air = (s.zone z).air) : s.SameAir (s.setZone z x) := by
  intro y
  by_cases hy : y = z
  · subst hy; simpa using h
  · rw [State.setZone_zone_ne _ _ hy]

theorem State.setRecord_sameAir (s : State) (i : Nat) (r : Record) : s.SameAir (s.setRecord i r) := fun _ => rfl

theorem State.unlist_sameAir (s : State) (z : Fin 32) (i : Nat) : s.SameAir (s.unlist z i) := State.setZone_sameAir rfl

theorem State.enlist_sameAir (s : State) (i : Nat) : s.SameAir (s.enlist i) := by
  simp only [State.enlist]
  split
  · split
    · exact (State.setRecord_sameAir _ _ _).trans (State.setZone_sameAir rfl)
    · exact .refl s
  · exact .refl s

theorem State.crossOnce_sameAir (s : State) (i : Nat) (st : Option Byte) : s.SameAir (s.crossOnce i st) := by
  simp only [State.crossOnce]
  split
  · split
    · exact (State.setRecord_sameAir _ _ _).trans (State.post_frame _ _).sameAir
    · exact .refl s
  · exact .refl s

theorem State.crossAll_sameAir (s : State) (i : Nat) (st : Option Byte) : s.SameAir (s.crossAll i st) :=
  ((State.crossOnce_sameAir s i st).trans (State.crossOnce_sameAir _ i st)).trans (State.crossOnce_sameAir _ i st)

theorem State.settleCross_sameAir (s : State) (i : Nat) (st : Option Byte) (b : Bool) : s.SameAir (s.settleCross i st b) := by
  simp only [State.settleCross]
  split
  · next r _ =>
    split
    · next zp _ =>
      have h := (State.setRecord_sameAir s i (r.settle (s.zone zp.zone).wear)).trans (State.crossAll_sameAir _ i st)
      split
      · exact (h.trans (State.unlist_sameAir _ _ _)).trans (State.enlist_sameAir _ _)
      · exact h
    · exact .refl s
  · exact .refl s

theorem popWalk_sameAir (z : Fin 32) (l : List Nat) (s : State) : s.SameAir (popWalk z l s) := by
  induction l generalizing s with
  | nil => exact .refl s
  | cons i rest ih =>
    simp only [popWalk]
    split
    · split
      · split
        · split
          · exact ih _
          · exact (State.settleCross_sameAir s i none true).trans (ih _)
        · exact .refl s
      · exact ih _
    · exact ih _

theorem State.pop_sameAir (s : State) (z : Fin 32) : s.SameAir (s.pop z) := popWalk_sameAir _ _ _

theorem State.attach_sameAir (s : State) (i : Nat) (z : Fin 32) (st : Option Byte) : s.SameAir (s.attach i z st) := by
  simp only [State.attach]
  split
  · exact ((State.setRecord_sameAir _ _ _).trans (State.crossAll_sameAir _ _ _)).trans (State.enlist_sameAir _ _)
  · exact .refl s

/-! ### The queue of the Zone Engine, which list work leaves alone -/

theorem State.PlantFrame.zoneWait {s t : State} (h : s.PlantFrame t) : t.zoneWait = s.zoneWait := by rw [h]

@[simp] theorem State.post_zoneWait (s : State) (n : Notice) : (s.post n).zoneWait = s.zoneWait := (State.post_frame s n).zoneWait

@[simp] theorem State.unlist_zoneWait (s : State) (z : Fin 32) (i : Nat) : (s.unlist z i).zoneWait = s.zoneWait := rfl

@[simp] theorem State.enlist_zoneWait (s : State) (i : Nat) : (s.enlist i).zoneWait = s.zoneWait := by
  unfold State.enlist
  repeat' split
  all_goals rfl

@[simp] theorem State.crossOnce_zoneWait (s : State) (i : Nat) (st : Option Byte) : (s.crossOnce i st).zoneWait = s.zoneWait := by
  unfold State.crossOnce
  repeat' split
  all_goals simp

@[simp] theorem State.crossAll_zoneWait (s : State) (i : Nat) (st : Option Byte) : (s.crossAll i st).zoneWait = s.zoneWait := by
  simp [State.crossAll]

@[simp] theorem State.settleCross_zoneWait (s : State) (i : Nat) (st : Option Byte) (b : Bool) :
    (s.settleCross i st b).zoneWait = s.zoneWait := by
  simp only [State.settleCross]
  repeat' split
  all_goals simp

@[simp] theorem popWalk_zoneWait (z : Fin 32) (l : List Nat) (s : State) : (popWalk z l s).zoneWait = s.zoneWait := by
  induction l generalizing s with
  | nil => rfl
  | cons i rest ih =>
    simp only [popWalk]
    repeat' split
    all_goals simp [ih]

@[simp] theorem State.refreshZone_zoneWait (s : State) (z : Fin 32) (st : Option Byte) :
    (s.refreshZone z st).zoneWait = s.zoneWait := by
  simp only [State.refreshZone]
  repeat' split
  all_goals simp

@[simp] theorem State.refreshPop_zoneWait (s : State) (z : Fin 32) (st : Option Byte) :
    (s.refreshPop z st).zoneWait = s.zoneWait := by
  simp [State.refreshPop, State.pop]

@[simp] theorem State.attach_zoneWait (s : State) (i : Nat) (z : Fin 32) (st : Option Byte) :
    (s.attach i z st).zoneWait = s.zoneWait := by
  unfold State.attach
  split <;> simp

/-- An advance of a configured zone withdraws the zone's waiting timer request, and leaves every other (R68). -/
theorem State.advance_zoneWait {s : State} {z : Fin 32} (h : (s.tables.zone z).configured = true) :
    (s.advance z).zoneWait = s.zoneWait.filter fun q => q != .timer z := by
  simp [State.advance, h, State.chargeZone]

/-! ### What an advance does to the clocks (R66) -/

/-- A refresh leaves the clocks and the slots of every zone, and changes no other zone. -/
theorem State.refreshZone_zone (s : State) (z : Fin 32) (st : Option Byte) (y : Fin 32) :
    (s.refreshZone z st).zone y =
      if y = z then (s.zone z).refresh s.tables (s.tables.zone z) s.now else s.zone y := by
  have key : (s.setZone z ((s.zone z).refresh s.tables (s.tables.zone z) s.now)).zone y =
      if y = z then (s.zone z).refresh s.tables (s.tables.zone z) s.now else s.zone y := by
    split
    · subst_vars; simp
    · rw [State.setZone_zone_ne _ _ ‹_›]
  simp only [State.refreshZone]
  split
  · exact key
  · split <;> rw [(State.post_frame _ _).zone] <;> exact key

@[simp] theorem Zone.refresh_wear (x : Zone) (t : Tables) (c : ZoneConfig) (n : Nat) : (x.refresh t c n).wear = x.wear := by
  simp only [Zone.refresh]; split <;> rfl

@[simp] theorem Zone.refresh_dry (x : Zone) (t : Tables) (c : ZoneConfig) (n : Nat) : (x.refresh t c n).dry = x.dry := by
  simp only [Zone.refresh]; split <;> rfl

@[simp] theorem Zone.refresh_lastAdvance (x : Zone) (t : Tables) (c : ZoneConfig) (n : Nat) :
    (x.refresh t c n).lastAdvance = x.lastAdvance := by
  simp only [Zone.refresh]; split <;> rfl

@[simp] theorem Zone.refresh_slots (x : Zone) (t : Tables) (c : ZoneConfig) (n : Nat) :
    (x.refresh t c n).slots = x.slots := by
  simp only [Zone.refresh]; split <;> rfl

@[simp] theorem Zone.charge_wear (x : Zone) (t : Nat) :
    (x.charge t).wear = satAdd Config.max48 x.wear (x.rate * (t - x.lastAdvance)) := by
  simp only [Zone.charge, Zone.addDry]; split <;> rfl

@[simp] theorem Zone.charge_dry (x : Zone) (t : Nat) :
    (x.charge t).dry = if x.dryOn then satAdd Config.max32 x.dry (t - x.lastAdvance) else x.dry := by
  by_cases h : x.dryOn = true <;> simp [Zone.charge, Zone.addDry, Zone.addWear, h]

@[simp] theorem Zone.charge_lastAdvance (x : Zone) (t : Nat) : (x.charge t).lastAdvance = t := rfl

/-- What an advance of a configured zone leaves of every zone but its list. -/
theorem State.advance_air {s : State} {z : Fin 32} (h : (s.tables.zone z).configured = true) (y : Fin 32) :
    ((s.advance z).zone y).air =
      if y = z then (((s.zone z).charge s.now).refresh s.tables (s.tables.zone z) s.now).air else (s.zone y).air := by
  simp only [State.advance, h, if_true, State.refreshPop]
  rw [State.pop_sameAir, State.refreshZone_zone]
  by_cases hy : y = z
  · subst hy
    simp only [if_true]
    have : (s.chargeZone y).zone y = (s.zone y).charge s.now := State.setZone_zone_self s y _
    rw [this]
    rfl
  · simp only [if_neg hy]
    have : (s.chargeZone z).zone y = s.zone y := State.setZone_zone_ne s _ hy
    rw [this]

/-- An advance of a zone of kind NONE is not made (R66). -/
theorem State.advance_none {s : State} {z : Fin 32} (h : (s.tables.zone z).configured = false) : s.advance z = s := by
  simp [State.advance, h]

/-! ### Freshness, fusion and the grid (R63 to R65) -/

/-- The middle of three, as fusion computes it (R63). -/
theorem isMedian_fuse {α : Type} [LinearOrder α] (a b c : α) : IsMedian (max (min a b) (min (max a b) c)) a b c := by
  rcases le_total a b with h | h
  · rw [min_eq_left h, max_eq_right h]
    rcases le_total b c with k | k
    · rw [min_eq_left k, max_eq_right h]
      exact ⟨a, c, h, k, .refl _⟩
    · rw [min_eq_right k]
      rcases le_total a c with l | l
      · rw [max_eq_right l]
        exact ⟨a, b, l, k, (List.Perm.swap _ _ []).cons a⟩
      · rw [max_eq_left l]
        exact ⟨c, b, l, h, List.perm_append_comm (l₁ := [a, b]) (l₂ := [c])⟩
  · rw [min_eq_right h, max_eq_left h]
    rcases le_total a c with k | k
    · rw [min_eq_left k, max_eq_right h]
      exact ⟨b, c, h, k, List.Perm.swap _ _ _⟩
    · rw [min_eq_right k]
      rcases le_total b c with l | l
      · rw [max_eq_right l]
        exact ⟨b, a, l, k, List.perm_append_comm (l₁ := [a]) (l₂ := [b, c])⟩
      · rw [max_eq_left l]
        exact ⟨c, a, l, h, (List.reverse_perm [a, b, c]).symm⟩

theorem Tables.rhBand_eq (t : Tables) (v : Nat) : t.rhBand v = t.rhThresholds.toList.countP fun x => decide (x ≤ v) :=
  List.countP_eq_length_filter.symm

theorem Tables.tempBand_eq (t : Tables) (v : Int) :
    t.tempBand v = t.tempThresholds.toList.countP fun x => decide (x ≤ v) := List.countP_eq_length_filter.symm

/-- A pair of bands names a cell of the grid (R64, R65). -/
theorem Tables.cell_eq (t : Tables) (rh : Nat) (temp : Int) :
    t.grid[t.rhBand rh * 6 + t.tempBand temp]? = some (t.cell (t.rhBand rh) (t.tempBand temp)) := by
  have h1 : t.rhBand rh ≤ 7 := by
    have := List.length_filter_le (fun x => decide (x ≤ rh)) t.rhThresholds.toList
    simpa [Tables.rhBand] using this
  have h2 : t.tempBand temp ≤ 5 := by
    have := List.length_filter_le (fun x => decide (x ≤ temp)) t.tempThresholds.toList
    simpa [Tables.tempBand] using this
  have h : t.rhBand rh * 6 + t.tempBand temp < 48 := by omega
  simp [Tables.cell, h]

/-- What step 5 of an advance leaves of a zone (R63 to R65). -/
theorem Zone.refresh_refreshed (x : Zone) (t : Tables) (cfg : ZoneConfig) (now : Nat) :
    (x.refresh t cfg now).Refreshed t cfg now := by
  obtain ⟨l, hl⟩ : ∃ l, l = x.slots.toList.filter fun sl => sl.valid && decide (now - sl.arrival ≤ cfg.staleness) := ⟨_, rfl⟩
  have hlen : l.length ≤ 3 := by
    rw [hl]
    simpa using List.length_filter_le (fun sl => sl.valid && decide (now - sl.arrival ≤ cfg.staleness)) x.slots.toList
  have hf : (x.slots.toList.filter fun sl => sl.fresh now cfg.staleness) = l := hl.symm
  refine ⟨l, by simpa using hl, ?_, ?_⟩
  · intro e
    simp [Zone.refresh, Zone.fusedNow, hf, e, fuse]
  · intro e
    have key : ∀ temp rh, fuse (l.map Slot.temp) = some temp → fuse (l.map Slot.rh) = some rh →
        x.refresh t cfg now =
          { x with
            fused := some { temp := temp, rh := rh, rhBand := t.rhBand rh, tempBand := t.tempBand temp }
            stale := false, rate := (t.cell (t.rhBand rh) (t.tempBand temp)).rate
            dryOn := cfg.kind == .dry && (t.cell (t.rhBand rh) (t.tempBand temp)).dry } := by
      intro temp rh h1 h2
      simp [Zone.refresh, Zone.fusedNow, hf, h1, h2]
    obtain ⟨temp, rh, h1, h2, h3, h4, h5⟩ : ∃ temp rh, fuse (l.map Slot.temp) = some temp ∧ fuse (l.map Slot.rh) = some rh ∧
        (∀ a, l = [a] → temp = a.temp ∧ rh = a.rh) ∧
        (∀ a b, l = [a, b] → temp = max a.temp b.temp ∧ rh = max a.rh b.rh) ∧
        (∀ a b c, l = [a, b, c] → IsMedian temp a.temp b.temp c.temp ∧ IsMedian rh a.rh b.rh c.rh) := by
      match l, e, hlen with
      | [a], _, _ => exact ⟨_, _, rfl, rfl, by simp, by simp, by simp⟩
      | [a, b], _, _ => exact ⟨_, _, rfl, rfl, by simp, by simp, by simp⟩
      | [a, b, c], _, _ =>
        refine ⟨_, _, rfl, rfl, by simp, by simp, ?_⟩
        intro a' b' c' h
        simp only [List.cons.injEq, and_true] at h
        obtain ⟨rfl, rfl, rfl⟩ := h
        exact ⟨isMedian_fuse _ _ _, isMedian_fuse _ _ _⟩
    rw [key temp rh h1 h2]
    exact ⟨rfl, _, _, rfl, h3, h4, h5, t.rhBand_eq rh, t.tempBand_eq temp, t.cell_eq rh temp, rfl, rfl⟩

/-- Fusion answers just where a reading slot is fresh (R63). -/
theorem Zone.fusedNow_isSome (x : Zone) (t : Tables) (limit now : Nat) :
    (x.fusedNow t limit now).isSome = true ↔ x.HasFresh limit now := by
  have hlen : (x.slots.toList.filter fun sl => sl.fresh now limit).length ≤ 3 := by
    simpa using List.length_filter_le (fun sl => sl.fresh now limit) x.slots.toList
  have hm : x.HasFresh limit now ↔ (x.slots.toList.filter fun sl => sl.fresh now limit) ≠ [] := by
    simp [Zone.HasFresh, Slot.fresh, List.filter_eq_nil_iff]
  rw [hm, Zone.fusedNow]
  generalize (x.slots.toList.filter fun sl => sl.fresh now limit) = l at hlen
  match l, hlen with
  | [], _ => simp [fuse]
  | [a], _ => simp [fuse]
  | [a, b], _ => simp [fuse]
  | [a, b, c], _ => simp [fuse]

/-- A grid write leaves a zone that is not stale, with a fresh reading, as step 5 of an advance under the new grid (R73). -/
theorem Zone.regrid_refreshed {x : Zone} {t : Tables} {cfg : ZoneConfig} {now : Nat} (h : x.stale = false)
    (hf : x.HasFresh cfg.staleness now) : (x.regrid t cfg now).Refreshed t cfg now := by
  obtain ⟨f, hf⟩ := Option.isSome_iff_exists.mp ((x.fusedNow_isSome t cfg.staleness now).mpr hf)
  have e : x.regrid t cfg now = x.refresh t cfg now := by simp [Zone.regrid, Zone.refresh, Zone.fusedAtGrid, hf, h]
  exact e ▸ x.refresh_refreshed t cfg now

/-- One whose readings have all aged keeps its fused conditions, with bands, rate and dry condition from the new grid (log entry
46). -/
theorem Zone.regrid_aged {x : Zone} {t : Tables} {cfg : ZoneConfig} {now : Nat} {f : Fused} (h : x.stale = false)
    (hf : ¬x.HasFresh cfg.staleness now) (hx : x.fused = some f) :
    x.regrid t cfg now =
      { x with
        fused := some { f with rhBand := t.rhBand f.rh, tempBand := t.tempBand f.temp }
        rate := (t.cell (t.rhBand f.rh) (t.tempBand f.temp)).rate
        dryOn := cfg.kind == .dry && (t.cell (t.rhBand f.rh) (t.tempBand f.temp)).dry } := by
  have hn : x.fusedNow t cfg.staleness now = none := by
    rw [← x.fusedNow_isSome t] at hf
    simpa using hf
  simp [Zone.regrid, Zone.fusedAtGrid, hn, hx, h]

end Sys2Proof.Machine
end

