-- ==== Sys2Proof/Laws/Charges.lean ====
section
/-! SUPPORT. Which zones a request charges up to the present, and which it leaves. -/

namespace Sys2Proof.Machine

/-! ### What the Zone Engine reads and never writes -/

theorem State.ZoneFrame.now {s t : State} (h : s.ZoneFrame t) : t.now = s.now := by rw [h.1]; rfl

theorem State.ZoneFrame.tables {s t : State} (h : s.ZoneFrame t) : t.tables = s.tables := by rw [h.1]

theorem State.ZoneFrame.classOf {s t : State} (h : s.ZoneFrame t) (r : Record) : t.classOf r = s.classOf r := by
  simp only [State.classOf, h.tables]

theorem ZoneConfig.configured_iff (c : ZoneConfig) : c.configured = true ↔ c.kind ≠ .unset := by
  simp [ZoneConfig.configured]

/-- The engine moves on after a Zone Engine request that served it: nothing but the engine changes further. -/
theorem State.ZoneFrame.engineTo {s u : State} (h : s.ZoneFrame u) (p : EnginePhase) (w : Work) :
    State.ZoneFrame { s with engine := (u.engineTo p w).engine } (u.engineTo p w) ∧
      (u.engineTo p w).engine = { s.engine with phase := p, work := some w } := by
  have he : u.engine = s.engine := by rw [h.1]
  refine ⟨⟨?_, h.2⟩, by rw [← he]; rfl⟩
  have k := congrArg (fun x : State => { x with engine := (u.engineTo p w).engine }) h.1
  exact k

/-- Only the Zone Engine's queue is changed by a request that is taken, withdrawn or left waiting. -/
theorem State.zoneWait_frame (s : State) (q : List ZoneRequest) : s.ZoneFrame { s with zoneWait := q } := ⟨rfl, fun _ => rfl⟩

/-! ### Charged zones -/

/-- The clocks, and that no timer request of the zone waits, are all that being charged speaks of. -/
theorem State.Charged.of_air {s t u : State} {z : Fin 32} (h : s.Charged t z) (k : (u.zone z).air = (t.zone z).air)
    (kw : ZoneRequest.timer z ∈ u.zoneWait → ZoneRequest.timer z ∈ t.zoneWait) : s.Charged u z :=
  ⟨(show (u.zone z).air.wear = (t.zone z).air.wear by rw [k]).trans h.1,
    (show (u.zone z).air.dry = (t.zone z).air.dry by rw [k]).trans h.2.1,
    (show (u.zone z).air.lastAdvance = (t.zone z).air.lastAdvance by rw [k]).trans h.2.2.1, fun m => h.2.2.2 (kw m)⟩

theorem State.Charged.sameAir {s t u : State} {z : Fin 32} (h : s.Charged t z) (k : t.SameAir u)
    (kw : u.zoneWait = t.zoneWait) : s.Charged u z := h.of_air (k z) (by rw [kw]; exact id)

/-- Being charged from a state depends on its time and on the zone's clocks there. -/
theorem State.Charged.from_air {s s' t : State} {z : Fin 32} (h : s'.Charged t z) (hn : s'.now = s.now)
    (k : (s'.zone z).air = (s.zone z).air) : s.Charged t z := by
  have hw : (s'.zone z).wearAt s'.now = (s.zone z).wearAt s.now := by
    rw [hn]
    show (s'.zone z).air.wearAt _ = (s.zone z).air.wearAt _
    rw [k]
  have hd : (s'.zone z).dryAt s'.now = (s.zone z).dryAt s.now := by
    rw [hn]
    show (s'.zone z).air.dryAt _ = (s.zone z).air.dryAt _
    rw [k]
  exact ⟨h.1.trans hw, h.2.1.trans hd, h.2.2.1.trans hn, h.2.2.2⟩

theorem State.chargeZone_zone (s : State) (z y : Fin 32) :
    (s.chargeZone z).zone y = if y = z then (s.zone z).charge s.now else s.zone y := by
  by_cases h : y = z
  · subst h; rw [if_pos rfl]; exact State.setZone_zone_self s y _
  · rw [if_neg h]; exact State.setZone_zone_ne s _ h

theorem State.chargeZone_charged (s : State) (z : Fin 32) : s.Charged (s.chargeZone z) z := by
  have h : (s.chargeZone z).zone z = (s.zone z).charge s.now := by rw [State.chargeZone_zone, if_pos rfl]
  unfold State.Charged
  rw [h]
  refine ⟨Zone.charge_wear _ _, ?_, rfl, by simp [State.chargeZone]⟩
  rw [Zone.charge_dry]
  rfl

theorem State.chargeZone_other (s : State) {z y : Fin 32} (h : y ≠ z) : (s.chargeZone z).zone y = s.zone y := by
  rw [State.chargeZone_zone, if_neg h]

/-- Steps 5 and 6 of an advance leave the clocks of every zone, and everything of the other zones but their lists. -/
theorem State.refreshPop_air (s : State) (z : Fin 32) (st : Option Byte) (y : Fin 32) :
    ((s.refreshPop z st).zone y).air =
      if y = z then ((s.zone z).refresh s.tables (s.tables.zone z) s.now).air else (s.zone y).air := by
  unfold State.refreshPop
  rw [State.pop_sameAir, State.refreshZone_zone]
  split <;> rfl

theorem State.refreshPop_charged {s t : State} {z y : Fin 32} {st : Option Byte} (h : s.Charged t y) :
    s.Charged (t.refreshPop z st) y := by
  by_cases hy : y = z
  · subst hy
    have k := State.refreshPop_air t y st y
    rw [if_pos rfl] at k
    refine ⟨(show ((t.refreshPop y st).zone y).air.wear = _ from ?_).trans h.1,
      (show ((t.refreshPop y st).zone y).air.dry = _ from ?_).trans h.2.1,
      (show ((t.refreshPop y st).zone y).air.lastAdvance = _ from ?_).trans h.2.2.1, by simpa using h.2.2.2⟩ <;> rw [k]
    · exact Zone.refresh_wear _ _ _ _
    · exact Zone.refresh_dry _ _ _ _
    · exact Zone.refresh_lastAdvance _ _ _ _
  · have k := State.refreshPop_air t z st y
    rw [if_neg hy] at k
    exact h.of_air k (by simp)

theorem State.advance_charged {s : State} {z : Fin 32} (h : (s.tables.zone z).kind ≠ .unset) :
    s.Charged (s.advance z) z := by
  simp only [State.advance, (ZoneConfig.configured_iff _).mpr h, if_true]
  exact State.refreshPop_charged (State.chargeZone_charged s z)

theorem State.advance_other (s : State) {z y : Fin 32} (h : y ≠ z) : ((s.advance z).zone y).air = (s.zone y).air := by
  by_cases hc : (s.tables.zone z).configured = true
  · rw [State.advance_air hc, if_neg h]
  · rw [State.advance_none (by simpa using hc)]

/-- A run of advances puts no request into the Zone Engine's queue. -/
theorem State.advanceAll_zoneWait (s : State) (zs : List (Fin 32)) {q : ZoneRequest} (h : q ∈ (s.advanceAll zs).zoneWait) :
    q ∈ s.zoneWait := by
  induction zs generalizing s with
  | nil => exact h
  | cons a rest ih =>
    have k := ih (s.advance a) h
    by_cases hc : (s.tables.zone a).configured = true
    · rw [State.advance_zoneWait hc] at k
      exact (List.mem_filter.mp k).1
    · rwa [State.advance_none (by simpa using hc)] at k

/-- What a run of advances does to a zone: charged once if it is among them and configured, and otherwise left. -/
theorem State.advanceAll_air (s : State) (zs : List (Fin 32)) (hn : zs.Nodup) (z : Fin 32) :
    if z ∈ zs ∧ (s.tables.zone z).kind ≠ .unset then s.Charged (s.advanceAll zs) z
    else ((s.advanceAll zs).zone z).air = (s.zone z).air := by
  induction zs generalizing s with
  | nil => simp [State.advanceAll]
  | cons a rest ih =>
    have hf := State.advance_frame s a
    have step : s.advanceAll (a :: rest) = (s.advance a).advanceAll rest := rfl
    have ih' := ih (s.advance a) hn.of_cons
    rw [hf.tables] at ih'
    rw [step]
    by_cases hz : z = a
    · subst hz
      have hm : z ∉ rest := (List.nodup_cons.mp hn).1
      rw [if_neg (fun h => hm h.1)] at ih'
      by_cases hk : (s.tables.zone z).kind = .unset
      · rw [if_neg (fun h => h.2 hk), ih', State.advance_none (by simp [ZoneConfig.configured, hk])]
      · rw [if_pos ⟨List.mem_cons_self, hk⟩]
        exact (State.advance_charged hk).of_air ih' (State.advanceAll_zoneWait _ rest)
    · have ho := State.advance_other s hz
      by_cases hm : z ∈ rest ∧ (s.tables.zone z).kind ≠ .unset
      · rw [if_pos hm] at ih'
        rw [if_pos ⟨List.mem_cons_of_mem _ hm.1, hm.2⟩]
        exact ih'.from_air hf.now ho
      · rw [if_neg hm] at ih'
        rw [if_neg (fun h => hm ⟨(List.mem_cons.mp h.1).resolve_left hz, h.2⟩), ih', ho]

/-- The same for the charges of a run of zones, before any refresh. -/
theorem foldl_chargeZone_zone (s : State) (zs : List (Fin 32)) (hn : zs.Nodup) (z : Fin 32) :
    (zs.foldl State.chargeZone s).zone z = if z ∈ zs then (s.zone z).charge s.now else s.zone z := by
  induction zs generalizing s with
  | nil => simp
  | cons a rest ih =>
    rw [List.foldl_cons, ih _ hn.of_cons, (State.chargeZone_frame s a).now]
    by_cases hz : z = a
    · subst hz
      have hm : z ∉ rest := (List.nodup_cons.mp hn).1
      rw [if_neg hm, State.chargeZone_zone, if_pos rfl, if_pos List.mem_cons_self]
    · rw [State.chargeZone_other s hz]
      simp [hz]

/-! ### The zones a request names -/

theorem zonesNamed_nodup (a b : Option (Fin 32)) : (zonesNamed a b).Nodup := by
  cases a <;> cases b <;> simp only [zonesNamed]
  case none.none => exact List.nodup_nil
  case none.some => exact List.nodup_singleton _
  case some.none => exact List.nodup_singleton _
  case some.some x y =>
    by_cases h : x = y
    · simp [h]
    · by_cases hl : x < y <;> simp [h, hl, Ne.symm h]

theorem mem_zonesNamed (a b : Option (Fin 32)) (z : Fin 32) : z ∈ zonesNamed a b ↔ a = some z ∨ b = some z := by
  cases a <;> cases b <;> simp only [zonesNamed]
  case none.none => simp
  case none.some y => simp [eq_comm]
  case some.none x => simp [eq_comm]
  case some.some x y =>
    by_cases h : x = y
    · subst h; simp [eq_comm]
    · by_cases hl : x < y
      · simp [h, hl, eq_comm]
      · simp [h, hl, eq_comm, or_comm]

theorem configuredZones_nodup (t : Tables) : t.configuredZones.Nodup := (List.nodup_finRange 32).filter _

theorem mem_configuredZones (t : Tables) (z : Fin 32) : z ∈ t.configuredZones ↔ (t.zone z).kind ≠ .unset := by
  simp [Tables.configuredZones, allZones, ZoneConfig.configured]

end Sys2Proof.Machine
end

