-- ==== Sys2Proof/Laws/Creates.lean ====
section
/-! SUPPORT. Creates and class writes that wait for each other, and faults found at a commit. -/

namespace Sys2Proof.Machine

/-- A SPLIT is legal in a state exactly when its transition creates a child there (R139). -/
theorem split_transition_iff (st : CarrierState) : TxKind.split.transition st = .split ↔ st ∈ legalStates .split := by
  cases st <;> decide

/-- A SPLIT asks for its create exactly when its relist waits with a transition that is legal in its carrier's state. -/
theorem State.splitAsks_iff (s : State) : s.splitAsks = true ↔ s.SplitToCreate := by
  unfold State.splitAsks State.SplitToCreate State.heldState?
  split
  · rename_i w hp hw
    cases ho : w.outcome <;> cases hh : w.held <;>
      simp [hp, hw, ho, hh, Bool.and_eq_true, and_assoc]
    rename_i o i
    cases s.record? i <;> simp [split_transition_iff, and_left_comm]
  · rename_i hn
    simp only [Bool.false_eq_true, false_iff]
    rintro ⟨hp, w, o, i, r, hw, -⟩
    exact hn w hp hw

/-- The fixing again of R149 gives REFUSED in ENFORCE and RELAYED-MARKED otherwise. -/
theorem Work.refault_eq (w : Work) (f : FaultCode) : w.refault f = w.faultedAtCommit f := by
  unfold Work.refault Work.faultedAtCommit fixOutcome
  cases w.commitMode with
  | none => rfl
  | some m => cases m <;> rfl

/-- A class write is past its count check exactly when its rekey has begun. -/
theorem State.rekeyBegun_iff (s : State) : s.rekeyBegun = true ↔ ∃ t c row, s.agent.phase = .rekeying t c row := by
  unfold State.rekeyBegun
  split
  · rename_i t c row h
    exact ⟨fun _ => ⟨t, c, row, h⟩, fun _ => rfl⟩
  · rename_i hn
    exact ⟨fun h => (nomatch h), fun ⟨t, c, row, h⟩ => absurd h (hn t c row)⟩

/-- The relist of a SPLIT that creates waits while a class write is past its count check (R178). -/
theorem execCommitRelist_waits {s : State} (h : s.rekeyBegun = true) (hs : s.splitAsks = true) :
    execCommitRelist s = .next s := by
  unfold execCommitRelist
  split
  · simp [h, hs]
  · rfl

/-- Every other relist takes place at its turn. -/
theorem execCommitRelist_turn {s : State} {w : Work} (hp : s.engine.phase = .commitRelist) (hw : s.engine.work = some w)
    (ht : s.engineTurn = true) (hn : s.rekeyBegun = false ∨ s.splitAsks = false) :
    execCommitRelist s = .next (s.takeZoneRequest.commitRelistStep w) := by
  unfold execCommitRelist
  rcases hn with hn | hn <;> simp [hp, hw, ht, hn]

/-- A class write holds its count check while a SPLIT waits to create (R178; log entry 51). -/
theorem State.classWrite_holds {s : State} {t : Telegram} {c : Fin 16} {r : ClassRow} (hc : s.classCount c ≠ 0)
    (hl : r.floorLife ≠ 0) (hs : s.stopping = false) (h : s.splitAsks = true) : s.classWrite t c r = s := by
  simp [State.classWrite, hc, hl, hs, h]

end Sys2Proof.Machine
end

