-- ==== Sys2Proof/Laws/Images.lean ====
section
/-! SUPPORT. The image in the Image Store: what it is good for (R180), and what a request that is taken or given up leaves. -/

namespace Sys2Proof.Machine

/-- An image made of a copy of the tables carries the check word of its contents. -/
@[simp] theorem Tables.toImage_good (t : Tables) : t.toImage.good = true := by simp [StoredImage.good, Tables.toImage]

@[simp] theorem Tables.toImage_contents (t : Tables) : t.toImage.contents = t := rfl

/-- A store that holds the image of a copy gives the copy back. -/
theorem ImageStore.good?_toImage (x : ImageStore) (t : Tables) (h : x.image = some t.toImage) : x.good? = some t := by
  simp [ImageStore.good?, h]

/-- The contents of a good image are those of the image held. -/
theorem ImageStore.good?_some {x : ImageStore} {t : Tables} (h : x.good? = some t) :
    ∃ im, x.image = some im ∧ im.good = true ∧ im.contents = t := by
  unfold ImageStore.good? at h
  split at h
  · next im hi =>
    split at h
    · next hg => exact ⟨im, hi, hg, by simpa using h⟩
    · cases h
  · cases h

@[simp] theorem State.takeRequest_tables (s : State) (t : Telegram) : (s.takeRequest t).tables = s.tables := rfl
@[simp] theorem State.takeRequest_table (s : State) (t : Telegram) : (s.takeRequest t).table = s.table := rfl
@[simp] theorem State.takeRequest_zones (s : State) (t : Telegram) : (s.takeRequest t).zones = s.zones := rfl
@[simp] theorem State.takeRequest_batches (s : State) (t : Telegram) : (s.takeRequest t).batches = s.batches := rfl
@[simp] theorem State.takeRequest_store (s : State) (t : Telegram) : (s.takeRequest t).store = s.store := rfl
@[simp] theorem State.takeRequest_retention (s : State) (t : Telegram) : (s.takeRequest t).retention = s.retention := rfl
@[simp] theorem State.takeRequest_phase (s : State) (t : Telegram) :
    (s.takeRequest t).engine.phase = s.engine.phase := rfl
@[simp] theorem State.takeRequest_work (s : State) (t : Telegram) :
    (s.takeRequest t).engine.work = s.engine.work := rfl
@[simp] theorem State.takeRequest_agent_phase (s : State) (t : Telegram) :
    (s.takeRequest t).agent.phase = .executing t := rfl

end Sys2Proof.Machine
end

