-- ==== Sys2Proof/Laws/Records.lean ====
section
/-! SUPPORT. What the Zone Engine's work does to one carrier: crossings, settlement, relists, pops. -/

namespace Sys2Proof.Machine

/-! ### Crossings (R84, R85) -/

/-- What one crossing makes of a record. -/
def Record.crossed (c : ClassRow) (r : Record) : Record := ((r.cross? c).map Prod.fst).getD r

theorem State.crossOnce_record? {s : State} {i : Nat} {r : Record} (h : s.record? i = some r) (st : Option Byte) :
    (s.crossOnce i st).record? i = some (r.crossed (s.classOf r)) := by
  simp only [State.crossOnce, h, Record.crossed]
  cases hc : r.cross? (s.classOf r) with
  | none => simpa using h
  | some p => rw [(State.post_frame _ _).record?]; simp

theorem State.crossOnce_record?_ne (s : State) {i j : Nat} (st : Option Byte) (h : j ≠ i) :
    (s.crossOnce i st).record? j = s.record? j := by
  simp only [State.crossOnce]
  split
  · split
    · rw [(State.post_frame _ _).record?, State.setRecord_record?_ne _ _ h]
    · rfl
  · rfl

theorem Record.crossed_core (c : ClassRow) (r : Record) : (r.crossed c).core = r.core := by
  unfold Record.crossed
  cases h : r.cross? c with
  | none => rfl
  | some p => exact Record.cross?_core (r' := p.1) (k := p.2) (by simpa using h)

theorem Record.crossed_cls (c : ClassRow) (r : Record) : (r.crossed c).cls = r.cls :=
  show (r.crossed c).core.cls = r.core.cls by rw [Record.crossed_core]

theorem Record.crossed_consumed (c : ClassRow) (r : Record) : (r.crossed c).consumed = r.consumed := by
  unfold Record.crossed
  cases h : r.cross? c with
  | none => rfl
  | some p =>
    simp only [Record.cross?] at h
    simp only [Option.map_some, Option.getD_some]
    repeat' split at h
    all_goals first
      | (cases h; rfl)
      | cases h

/-- A crossing leaves the zone part, or takes it away and expires the carrier. -/
theorem Record.crossed_zonePart (c : ClassRow) (r : Record) :
    (r.crossed c).zonePart = r.zonePart ∨ ((r.crossed c).zonePart = none ∧ (r.crossed c).state = .expired) := by
  unfold Record.crossed
  cases h : r.cross? c with
  | none => exact .inl rfl
  | some p =>
    simp only [Record.cross?] at h
    simp only [Option.map_some, Option.getD_some]
    repeat' split at h
    all_goals first
      | (cases h; exact .inl rfl)
      | (cases h; exact .inr ⟨rfl, rfl⟩)
      | cases h

/-- Three crossings at most: warn point, budget and end of grace (R84). -/
def Record.crossedAll (c : ClassRow) (r : Record) : Record := ((r.crossed c).crossed c).crossed c

theorem State.crossAll_record? {s : State} {i : Nat} {r : Record} (h : s.record? i = some r) (st : Option Byte) :
    (s.crossAll i st).record? i = some (r.crossedAll (s.classOf r)) := by
  have h1 := State.crossOnce_record? h st
  have h2 := State.crossOnce_record? h1 st
  have h3 := State.crossOnce_record? h2 st
  have c1 : (s.crossOnce i st).classOf (r.crossed (s.classOf r)) = s.classOf r := by
    rw [(State.crossOnce_frame s i st).classOf]; simp [State.classOf, Record.crossed_cls]
  have c2 : ((s.crossOnce i st).crossOnce i st).classOf ((r.crossed (s.classOf r)).crossed (s.classOf r)) = s.classOf r := by
    rw [(State.crossOnce_frame _ i st).classOf, (State.crossOnce_frame s i st).classOf]
    simp [State.classOf, Record.crossed_cls]
  rw [c1] at h2 h3
  rw [c2] at h3
  exact h3

theorem State.crossAll_record?_ne (s : State) {i j : Nat} (st : Option Byte) (h : j ≠ i) :
    (s.crossAll i st).record? j = s.record? j := by
  unfold State.crossAll
  rw [State.crossOnce_record?_ne _ _ h, State.crossOnce_record?_ne _ _ h, State.crossOnce_record?_ne _ _ h]

theorem Record.crossedAll_core (c : ClassRow) (r : Record) : (r.crossedAll c).core = r.core := by
  unfold Record.crossedAll
  rw [Record.crossed_core, Record.crossed_core, Record.crossed_core]

theorem Record.crossedAll_cls (c : ClassRow) (r : Record) : (r.crossedAll c).cls = r.cls :=
  show (r.crossedAll c).core.cls = r.core.cls by rw [Record.crossedAll_core]

theorem Record.crossedAll_consumed (c : ClassRow) (r : Record) : (r.crossedAll c).consumed = r.consumed := by
  unfold Record.crossedAll
  rw [Record.crossed_consumed, Record.crossed_consumed, Record.crossed_consumed]

theorem Record.crossed_of_none {c : ClassRow} {r : Record} (h : r.cross? c = none) : r.crossed c = r := by
  simp [Record.crossed, h]

theorem Record.crossed_zoneless {c : ClassRow} {r : Record} (h : r.zonePart = none) : r.crossed c = r :=
  Record.crossed_of_none (by simp [Record.cross?, h])

/-- How far a carrier is from having no crossing due: warn point, budget, end of grace. -/
def Record.crossRank (r : Record) : Nat :=
  if r.zonePart = none then 0
  else
    match r.state with
    | .dry | .exposed | .mounted => if r.warnIssued then 2 else 3
    | .overrun => 1
    | _ => 0

/-- A crossing lowers the rank, so three are enough. -/
theorem Record.crossed_rank (c : ClassRow) (r : Record) : (r.crossed c).cross? c = none ∨ (r.crossed c).crossRank < r.crossRank := by
  by_cases hz : r.zonePart = none
  · left; rw [Record.crossed_zoneless hz]; simp [Record.cross?, hz]
  · cases h : r.cross? c with
    | none => left; rw [Record.crossed_of_none h]; exact h
    | some p =>
      right
      have e : r.crossed c = p.1 := by simp [Record.crossed, h]
      rw [e]
      obtain ⟨r', k⟩ := p
      obtain ⟨zp, hzp⟩ := Option.ne_none_iff_exists'.mp hz
      simp only [Record.cross?, hzp] at h
      split at h
      · cases h
      · cases hs : r.state <;> cases hw : r.warnIssued <;> rw [hs] at h <;> simp [hw] at h <;> (try split at h) <;>
          (try simp only [Prod.mk.injEq, Option.some.injEq] at h) <;> (try obtain ⟨h, -⟩ := h) <;>
          (try subst h) <;> simp [Record.crossRank, Record.leaveZone, hzp, hs, hw]

theorem Record.crossed_fixed {c : ClassRow} {r : Record} (h : r.cross? c = none) : (r.crossed c).cross? c = none := by
  rw [Record.crossed_of_none h]; exact h

theorem Record.crossRank_le (r : Record) : r.crossRank ≤ 3 := by
  unfold Record.crossRank
  split
  · omega
  · split <;> (try split) <;> omega

theorem Record.cross?_of_rank {r : Record} (c : ClassRow) (h : r.crossRank = 0) : r.cross? c = none := by
  unfold Record.crossRank at h
  split at h
  · next hz => simp [Record.cross?, hz]
  · cases hs : r.state <;> simp only [hs] at h <;> (try (split at h <;> omega)) <;> (try omega) <;>
      (cases hz : r.zonePart <;> simp [Record.cross?, hz, hs])

/-- After the crossings of a request none is due (R84). -/
theorem Record.crossedAll_settled (c : ClassRow) (r : Record) : (r.crossedAll c).cross? c = none := by
  unfold Record.crossedAll
  have h1 := Record.crossed_rank c r
  have h2 := Record.crossed_rank c (r.crossed c)
  have h3 := Record.crossed_rank c ((r.crossed c).crossed c)
  have h0 := Record.crossRank_le r
  rcases h1 with h1 | h1
  · exact Record.crossed_fixed (Record.crossed_fixed h1)
  · rcases h2 with h2 | h2
    · exact Record.crossed_fixed h2
    · rcases h3 with h3 | h3
      · exact h3
      · exact Record.cross?_of_rank c (by omega)

theorem Record.crossedAll_zonePart (c : ClassRow) (r : Record) :
    (r.crossedAll c).zonePart = r.zonePart ∨ ((r.crossedAll c).zonePart = none ∧ (r.crossedAll c).state = .expired) := by
  unfold Record.crossedAll
  have step : ∀ x : Record, (x.zonePart = none ∧ x.state = .expired) →
      ((x.crossed c).zonePart = none ∧ (x.crossed c).state = .expired) := by
    intro x hx
    rw [Record.crossed_zoneless hx.1]
    exact hx
  rcases Record.crossed_zonePart c r with h1 | h1
  · rcases Record.crossed_zonePart c (r.crossed c) with h2 | h2
    · rcases Record.crossed_zonePart c ((r.crossed c).crossed c) with h3 | h3
      · exact .inl (h3.trans (h2.trans h1))
      · exact .inr h3
    · exact .inr (step _ h2)
  · exact .inr (step _ (step _ h1))

/-! ### Keys: what the watch key may change of a record -/

/-- A record whose watch key is put aside: what crossings and settlement look at. -/
theorem Record.cross?_setKey (r : Record) (c : ClassRow) (zp : ZonePart) (k : Nat) (h : r.zonePart = some zp)
    (hn : r.cross? c = none) : ({ r with zonePart := some { zp with key := k } } : Record).cross? c = none := by
  simp only [Record.cross?, h] at hn
  simp only [Record.cross?]
  have e : ({ r with zonePart := some { zp with key := k } } : Record).nextThreshold c = r.nextThreshold c := rfl
  rw [e]
  split at hn
  · next hlt => simp [hlt]
  · next hlt =>
    simp only [hlt, if_false]
    cases hs : r.state <;> simp only [hs] at hn <;> (try (repeat' split at hn)) <;> simp_all

/-- What `enlist` makes of the record it lists. -/
theorem State.enlist_record? {s : State} {i : Nat} {r : Record} (h : s.record? i = some r) :
    (s.enlist i).record? i = some
      { r with zonePart := r.zonePart.map fun zp => { zp with key := r.watchKey (s.classOf r) zp.stamp } } := by
  simp only [State.enlist, h]
  cases hz : r.zonePart with
  | none => simp only [Option.map_none, h]; rw [← hz]
  | some zp => simp

theorem State.enlist_record?_ne (s : State) {i j : Nat} (h : j ≠ i) : (s.enlist i).record? j = s.record? j := by
  simp only [State.enlist]
  split
  · split
    · rw [State.setZone_record?, State.setRecord_record?_ne _ _ h]
    · rfl
  · rfl

theorem mem_insertWatch (f : Nat → Nat) (i k : Nat) (l : List Nat) (j : Nat) : j ∈ insertWatch f i k l ↔ j = i ∨ j ∈ l := by
  have h : j ∈ l ↔ j ∈ (l.reverse.dropWhile fun j => k < f j).reverse ∨ j ∈ (l.reverse.takeWhile fun j => k < f j).reverse := by
    conv_lhs => rw [← List.mem_reverse, ← List.takeWhile_append_dropWhile (p := fun j => decide (k < f j)) (l := l.reverse)]
    simp only [List.mem_append, List.mem_reverse]
    exact or_comm
  simp only [insertWatch, List.mem_append, List.mem_cons, h]
  tauto

theorem nodup_insertWatch (f : Nat → Nat) (i k : Nat) {l : List Nat} (hn : l.Nodup) (hi : i ∉ l) :
    (insertWatch f i k l).Nodup := by
  have e : (insertWatch f i k l).Perm (i :: l) := by
    have h : l.reverse.dropWhile (fun j => decide (k < f j)) ++ l.reverse.takeWhile (fun j => decide (k < f j)) |>.Perm l :=
      (List.perm_append_comm.trans (by rw [List.takeWhile_append_dropWhile])).trans (List.reverse_perm l)
    refine (List.perm_middle).trans (List.Perm.cons _ ?_)
    exact ((List.reverse_perm _).append (List.reverse_perm _)).trans h
  exact e.nodup_iff.mpr (List.nodup_cons.mpr ⟨hi, hn⟩)

/-! ### Settlement with crossings (R80, R97) -/

theorem State.settleCross_record?_ne (s : State) {i j : Nat} (st : Option Byte) (b : Bool) (h : j ≠ i) :
    (s.settleCross i st b).record? j = s.record? j := by
  simp only [State.settleCross]
  split
  · split
    · have k : ∀ r', ((s.setRecord i r').crossAll i st).record? j = s.record? j := fun r' => by
        rw [State.crossAll_record?_ne _ _ h, State.setRecord_record?_ne _ _ h]
      split
      · rw [State.enlist_record?_ne _ h]
        exact k _
      · exact k _
    · rfl
  · rfl

theorem Record.settle_cls (r : Record) (w : Nat) : (r.settle w).cls = r.cls :=
  show (r.settle w).core.cls = r.core.cls by rw [Record.settle_core]

/-- A carrier that has been settled with its crossings is charged up to W, and no crossing is due. -/
theorem State.settleCross_settledAt (s : State) (i : Nat) (st : Option Byte) (b : Bool) :
    (s.settleCross i st b).SettledAt i := by
  intro r2 zp2 h2 hz2
  cases hr : s.record? i with
  | none =>
    have : s.settleCross i st b = s := by simp [State.settleCross, hr]
    rw [this, hr] at h2
    cases h2
  | some r =>
    by_cases hz : r.zonePart = none
    · have : s.settleCross i st b = s := by simp [State.settleCross, hr, hz]
      rw [this, hr] at h2
      cases h2
      rw [hz] at hz2
      cases hz2
    obtain ⟨zp, hzp⟩ := Option.ne_none_iff_exists'.mp hz
    have hair := State.settleCross_sameAir s i st b
    have hcls := (State.settleCross_frame s i st b).classOf
    rw [hair.wear, hcls]
    set r' := r.settle (s.zone zp.zone).wear with hr'
    have hset : (s.setRecord i r').record? i = some r' := State.setRecord_record?_self _ _ _
    have hcr := State.crossAll_record? hset st
    have hc' : (s.setRecord i r').classOf r' = s.classOf r := by
      show s.tables.cls r'.cls = s.tables.cls r.cls
      rw [hr', Record.settle_cls]
    rw [hc'] at hcr
    have hzp' : r'.zonePart = some { zp with stamp := (s.zone zp.zone).wear } := by simp [hr', Record.settle, hzp]
    have hfix := Record.crossedAll_settled (s.classOf r) r'
    have hzone := Record.crossedAll_zonePart (s.classOf r) r'
    have hcls2 : ∀ x : Record, x.cls = r.cls → s.classOf x = s.classOf r := fun x hx => by simp [State.classOf, hx]
    have hcc : (r'.crossedAll (s.classOf r)).cls = r.cls := by
      rw [Record.crossedAll_cls, hr', Record.settle_cls]
    have e : s.settleCross i st b =
        if b || (r'.cross? (((s.setRecord i r').crossAll i st |> fun _ => s).classOf r')).isSome then
          (((s.setRecord i r').crossAll i st).unlist zp.zone i).enlist i
        else (s.setRecord i r').crossAll i st := by
      simp only [State.settleCross, hr, hzp]
      rfl
    rw [e] at h2
    split at h2
    · have hu : (((s.setRecord i r').crossAll i st).unlist zp.zone i).record? i = some (r'.crossedAll (s.classOf r)) := hcr
      have hen := State.enlist_record? hu
      rw [hen] at h2
      cases h2
      rcases hzone with hzone | ⟨hzone, -⟩
      · rw [hzp'] at hzone
        simp only [hzone, Option.map_some] at hz2
        cases hz2
        refine ⟨rfl, ?_⟩
        refine Eq.trans (congrArg _ (hcls2 _ hcc)) ?_
        simp only [hzone, Option.map_some]
        exact Record.cross?_setKey _ _ _ _ hzone hfix
      · simp [hzone] at hz2
    · rw [hcr] at h2
      cases h2
      rcases hzone with hzone | ⟨hzone, -⟩
      · rw [hzone, hzp'] at hz2
        cases hz2
        refine ⟨rfl, ?_⟩
        rw [hcls2 _ hcc]
        exact hfix
      · rw [hzone] at hz2
        cases hz2

/-! ### Pops and advances pass over a held record (R48, R100) -/

theorem popWalk_held (z : Fin 32) (l : List Nat) {s : State} {i : Nat} {r : Record} (h : s.record? i = some r)
    (hh : r.held = true) : (popWalk z l s).record? i = some r := by
  induction l generalizing s with
  | nil => exact h
  | cons j rest ih =>
    simp only [popWalk]
    cases hj : s.record? j with
    | none => exact ih h
    | some q =>
      cases hq : q.zonePart with
      | none => simp only [hq]; exact ih h
      | some zp =>
        simp only [hq]
        split
        · by_cases hij : i = j
          · subst hij
            rw [h] at hj
            cases hj
            rw [if_pos hh]
            exact ih h
          · split
            · exact ih h
            · exact ih (by rw [State.settleCross_record?_ne _ _ _ hij]; exact h)
        · exact h

theorem State.refreshZone_record? (s : State) (z : Fin 32) (st : Option Byte) (i : Nat) :
    (s.refreshZone z st).record? i = s.record? i := by
  simp only [State.refreshZone]
  split
  · rfl
  · split <;> (rw [(State.post_frame _ _).record?]; rfl)

theorem State.advance_held {s : State} {z : Fin 32} {i : Nat} {r : Record} (h : s.record? i = some r) (hh : r.held = true) :
    (s.advance z).record? i = some r := by
  simp only [State.advance]
  split
  · refine popWalk_held z _ ?_ hh
    rw [State.refreshZone_record?]
    exact h
  · exact h

/-! ### Attach and relist (R94, R96) -/

theorem State.attach_record?_ne (s : State) {i j : Nat} (z : Fin 32) (st : Option Byte) (h : j ≠ i) :
    (s.attach i z st).record? j = s.record? j := by
  simp only [State.attach]
  split
  · rw [State.enlist_record?_ne _ h, State.crossAll_record?_ne _ _ h, State.setRecord_record?_ne _ _ h]
  · rfl

theorem State.mem_enlist {s : State} {i : Nat} {r : Record} {zp : ZonePart} (h : s.record? i = some r)
    (hz : r.zonePart = some zp) : i ∈ ((s.enlist i).zone zp.zone).watch := by
  simp only [State.enlist, h, hz, State.setZone_zone_self]
  exact (mem_insertWatch _ _ _ _ _).mpr (.inl rfl)

/-- What an attach makes of a record: in the zone, charged up to its W and listed by its key, unless a crossing expired it. -/
theorem State.attach_spec {s : State} {i : Nat} {r : Record} (h : s.record? i = some r) (z : Fin 32) (st : Option Byte) :
    ∃ r', (s.attach i z st).record? i = some r' ∧ r'.core = r.core ∧ r'.consumed = r.consumed ∧
      r'.cross? (s.classOf r) = none ∧
      ((r'.state = .expired ∧ r'.zonePart = none) ∨
        ∃ zp, r'.zonePart = some zp ∧ zp.zone = z ∧ zp.stamp = (s.zone z).wear ∧
          zp.key = r'.watchKey (s.classOf r) zp.stamp ∧ i ∈ ((s.attach i z st).zone z).watch) := by
  set c := s.classOf r with hc
  set e := (r.enterZone z (s.zone z) (s.tables.zone z).kind c s.now).rejudge c with he
  have hcore : e.core = r.core := by simp [he]
  have hcls : e.cls = r.cls := show e.core.cls = r.core.cls by rw [hcore]
  have hez : ∃ zp, e.zonePart = some zp ∧ zp.zone = z ∧ zp.stamp = (s.zone z).wear := by
    have h1 : ∀ x : Record, (x.rejudge c).zonePart = x.zonePart := by
      intro x
      simp only [Record.rejudge, Record.rejudgeWarn]
      repeat' split
      all_goals rfl
    rw [he, h1]
    simp only [Record.enterZone]
    split
    · split <;> exact ⟨_, rfl, rfl, rfl⟩
    · exact ⟨_, rfl, rfl, rfl⟩
  have hcons : e.consumed = r.consumed := by
    have h1 : ∀ x : Record, (x.rejudge c).consumed = x.consumed := by
      intro x
      simp only [Record.rejudge, Record.rejudgeWarn]
      repeat' split
      all_goals rfl
    rw [he, h1]
    simp only [Record.enterZone]
    split
    · split <;> rfl
    · rfl
  have hatt : s.attach i z st = ((s.setRecord i e).crossAll i st).enlist i := by simp only [State.attach, h]; rfl
  have h1 : (s.setRecord i e).record? i = some e := State.setRecord_record?_self _ _ _
  have h2 := State.crossAll_record? h1 st
  have hce : (s.setRecord i e).classOf e = c := by show s.tables.cls e.cls = _; rw [hcls]; rfl
  rw [hce] at h2
  have h3 := State.enlist_record? h2
  have hcx : ((s.setRecord i e).crossAll i st).classOf (e.crossedAll c) = c := by
    rw [(State.crossAll_frame _ i st).classOf]
    show s.tables.cls (e.crossedAll c).cls = _
    rw [Record.crossedAll_cls, hcls]
    rfl
  rw [hcx] at h3
  refine ⟨_, hatt ▸ h3, ?_, ?_, ?_, ?_⟩
  · show (e.crossedAll c).core = r.core
    rw [Record.crossedAll_core, hcore]
  · show (e.crossedAll c).consumed = r.consumed
    rw [Record.crossedAll_consumed, hcons]
  · have hfix := Record.crossedAll_settled c e
    cases hz : (e.crossedAll c).zonePart with
    | none => simp [Record.cross?]
    | some zp => simpa [hz] using Record.cross?_setKey _ _ _ ((e.crossedAll c).watchKey c zp.stamp) hz hfix
  · rcases Record.crossedAll_zonePart c e with hz | ⟨hz, hs⟩
    · right
      obtain ⟨zp, h4, h5, h6⟩ := hez
      rw [h4] at hz
      refine ⟨{ zp with key := (e.crossedAll c).watchKey c zp.stamp }, by simp [hz], h5, h6, rfl, ?_⟩
      rw [hatt, ← h5]
      exact State.mem_enlist h2 hz
    · left
      exact ⟨hs, by simp [hz]⟩

/-- What a commit relist into a zone makes of a record. -/
theorem State.relistTo_spec {s : State} {i : Nat} {r : Record} (h : s.record? i = some r) (cs : CarrierState) (z : Fin 32)
    (st : Option Byte) :
    ∃ r', (s.relistTo i cs (some z) st).record? i = some r' ∧ r'.core = r.core ∧
      r'.consumed = (s.creditLeaving (match r.zonePart with
        | some zp => r.settle (s.zone zp.zone).wear
        | none => r) (some z)).consumed ∧
      r'.cross? (s.classOf r) = none ∧
      ((r'.state = .expired ∧ r'.zonePart = none) ∨
        ∃ zp, r'.zonePart = some zp ∧ zp.zone = z ∧ zp.stamp = (s.zone z).wear ∧
          zp.key = r'.watchKey (s.classOf r) zp.stamp ∧ i ∈ ((s.relistTo i cs (some z) st).zone z).watch) := by
  simp only [State.relistTo, h]
  set settled := (match r.zonePart with
    | some zp => r.settle (s.zone zp.zone).wear
    | none => r) with hs
  set s' := (match r.zonePart with
    | some zp => s.unlist zp.zone i
    | none => s) with hs'
  have hcore : (s.creditLeaving settled (some z)).core = r.core := by
    rw [State.creditLeaving_core, hs]
    split <;> simp
  have hframe : s.ZoneFrame s' := by
    rw [hs']
    split
    · exact State.unlist_frame _ _ _
    · exact .refl s
  have hair : s.SameAir s' := by
    rw [hs']
    split
    · exact State.unlist_sameAir _ _ _
    · exact .refl s
  set q : Record := { s.creditLeaving settled (some z) with state := cs } with hq
  have hqc : q.core = r.core := hcore
  have hqcls : q.cls = r.cls := show q.core.cls = r.core.cls by rw [hqc]
  have hset : (s'.setRecord i q).record? i = some q := State.setRecord_record?_self _ _ _
  obtain ⟨r', h1, h2, h3, h4, h5⟩ := State.attach_spec hset z st
  have hcl : (s'.setRecord i q).classOf q = s.classOf r := by
    show s'.tables.cls q.cls = s.tables.cls r.cls
    rw [hframe.tables, hqcls]
  rw [hcl] at h4 h5
  refine ⟨r', h1, h2.trans hqc, h3, h4, ?_⟩
  rcases h5 with h5 | ⟨zp, h5, h6, h7, h8, h9⟩
  · exact .inl h5
  · refine .inr ⟨zp, h5, h6, h7.trans ?_, h8, h9⟩
    exact hair.wear z

theorem State.relistTo_sameAir (s : State) (i : Nat) (cs : CarrierState) (z : Option (Fin 32)) (st : Option Byte) :
    s.SameAir (s.relistTo i cs z st) := by
  simp only [State.relistTo]
  split
  · next r hr =>
    have mid : s.SameAir (match r.zonePart with
        | some zp => s.unlist zp.zone i
        | none => s : State) := by
      split
      · exact State.unlist_sameAir _ _ _
      · exact .refl s
    split
    · exact (mid.trans (State.setRecord_sameAir _ _ _)).trans (State.attach_sameAir _ _ _ _)
    · exact mid.trans (State.setRecord_sameAir _ _ _)
  · exact .refl s

/-! ### Lists without repeats -/

theorem State.PlantFrame.watch {s t : State} (h : s.PlantFrame t) (z : Fin 32) : (t.zone z).watch = (s.zone z).watch := by
  rw [h.zone]

theorem State.crossOnce_watch (s : State) (i : Nat) (st : Option Byte) (z : Fin 32) :
    ((s.crossOnce i st).zone z).watch = (s.zone z).watch := by
  simp only [State.crossOnce]
  split
  · split
    · rw [(State.post_frame _ _).watch]; rfl
    · rfl
  · rfl

theorem State.crossAll_watch (s : State) (i : Nat) (st : Option Byte) (z : Fin 32) :
    ((s.crossAll i st).zone z).watch = (s.zone z).watch := by
  unfold State.crossAll
  rw [State.crossOnce_watch, State.crossOnce_watch, State.crossOnce_watch]

theorem State.unlist_watch (s : State) (z y : Fin 32) (i : Nat) :
    ((s.unlist z i).zone y).watch = if y = z then (s.zone z).watch.erase i else (s.zone y).watch := by
  unfold State.unlist
  by_cases h : y = z
  · subst h; simp
  · rw [State.setZone_zone_ne _ _ h, if_neg h]

/-- A list without repeats stays so when a carrier is taken out of it and listed again. -/
theorem State.enlist_unlist_nodup (s : State) (z y : Fin 32) (i : Nat) (hn : (s.zone y).watch.Nodup)
    (hz : ∀ r zp, s.record? i = some r → r.zonePart = some zp → zp.zone = z) :
    (((s.unlist z i).enlist i).zone y).watch.Nodup := by
  have hu : ((s.unlist z i).zone y).watch.Nodup := by
    rw [State.unlist_watch]
    split
    · subst_vars; exact hn.erase i
    · exact hn
  simp only [State.enlist]
  split
  · next r hr =>
    split
    · next zp hzp =>
      have hr' : s.record? i = some r := hr
      have e := hz r zp hr' hzp
      by_cases hy : y = zp.zone
      · subst hy
        rw [State.setZone_zone_self]
        refine nodup_insertWatch _ _ _ hu ?_
        rw [State.setRecord_zone, State.unlist_watch, e, if_pos rfl]
        rw [e] at hn
        exact List.Nodup.not_mem_erase hn
      · rw [State.setZone_zone_ne _ _ hy]
        exact hu
    · exact hu
  · exact hu

theorem State.settleCross_nodup (s : State) (i : Nat) (st : Option Byte) (b : Bool) (y : Fin 32)
    (hn : (s.zone y).watch.Nodup) : ((s.settleCross i st b).zone y).watch.Nodup := by
  simp only [State.settleCross]
  split
  · next r hr =>
    split
    · next zp hzp =>
      set r' := r.settle (s.zone zp.zone).wear with hr'
      have hw : (((s.setRecord i r').crossAll i st).zone y).watch.Nodup := by rw [State.crossAll_watch]; exact hn
      split
      · refine State.enlist_unlist_nodup _ _ _ _ hw ?_
        intro q zq hq hzq
        have h1 : (s.setRecord i r').record? i = some r' := State.setRecord_record?_self _ _ _
        rw [State.crossAll_record? h1 st] at hq
        cases hq
        have h2 : r'.zonePart = some { zp with stamp := (s.zone zp.zone).wear } := by simp [hr', Record.settle, hzp]
        rcases Record.crossedAll_zonePart ((s.setRecord i r').classOf r') r' with h3 | ⟨h3, -⟩
        · rw [h3, h2] at hzq
          cases hzq
          rfl
        · rw [h3] at hzq
          cases hzq
      · exact hw
    · exact hn
  · exact hn

theorem popWalk_nodup (z y : Fin 32) (l : List Nat) {s : State} (hn : (s.zone y).watch.Nodup) :
    ((popWalk z l s).zone y).watch.Nodup := by
  induction l generalizing s with
  | nil => exact hn
  | cons j rest ih =>
    simp only [popWalk]
    split
    · split
      · split
        · split
          · exact ih hn
          · exact ih (State.settleCross_nodup _ _ _ _ _ hn)
        · exact hn
      · exact ih hn
    · exact ih hn

theorem Zone.refresh_watch (x : Zone) (t : Tables) (c : ZoneConfig) (n : Nat) : (x.refresh t c n).watch = x.watch := by
  simp only [Zone.refresh]; split <;> rfl

theorem Zone.charge_watch (x : Zone) (t : Nat) : (x.charge t).watch = x.watch := by
  simp only [Zone.charge, Zone.addDry]; split <;> rfl

/-- No list takes a repeat from an advance. -/
theorem State.advance_nodup {s : State} (z y : Fin 32) (hn : (s.zone y).watch.Nodup) :
    ((s.advance z).zone y).watch.Nodup := by
  simp only [State.advance]
  split
  · refine popWalk_nodup z y _ ?_
    rw [State.refreshZone_zone]
    split
    · rw [Zone.refresh_watch, State.chargeZone_zone, if_pos rfl, Zone.charge_watch]
      subst_vars
      exact hn
    · next h => rw [State.chargeZone_other _ h]; exact hn
  · exact hn

/-- A carrier that is taken out of a list without repeats is no longer in it. -/
theorem State.unlist_not_mem {s : State} {z : Fin 32} (i : Nat) (hn : (s.zone z).watch.Nodup) :
    i ∉ ((s.unlist z i).zone z).watch := by
  rw [State.unlist_watch, if_pos rfl]
  exact List.Nodup.not_mem_erase hn

/-! ### Crossings, settlement and attach in the terms of the statements -/

theorem Record.watchKey_eq (r : Record) (c : ClassRow) (stamp : Nat) :
    r.watchKey c stamp = keyAt c r.state r.warnIssued r.consumed stamp := rfl

/-- The crossings of a request leave the state and flag of `afterCrossings`, and a carrier they expire has left its zone. -/
theorem Record.crossedAll_eq (c : ClassRow) (r : Record) (hz : r.zonePart ≠ none) :
    r.crossedAll c =
      if (afterCrossings c r.state r.warnIssued r.consumed).1 = .expired ∧ r.state ≠ .expired then
        { r with
          state := (afterCrossings c r.state r.warnIssued r.consumed).1
          warnIssued := (afterCrossings c r.state r.warnIssued r.consumed).2 }.leaveZone
      else
        { r with
          state := (afterCrossings c r.state r.warnIssued r.consumed).1
          warnIssued := (afterCrossings c r.state r.warnIssued r.consumed).2 } := by
  obtain ⟨zp, hzp⟩ := Option.ne_none_iff_exists'.mp hz
  rcases r with ⟨id, cls, st, cons, bc, warn, el, lb, mem, zp', dp, bp, held⟩
  subst hzp
  cases st
  case baking | expired | retired =>
    simp [Record.crossedAll, Record.crossed, Record.cross?, afterCrossings]
  case overrun =>
    by_cases he : cons < c.budget + c.graceUnits <;>
      simp [Record.crossedAll, Record.crossed, Record.cross?, Record.nextThreshold, afterCrossings, Record.leaveZone, he]
  case dry | exposed =>
    by_cases hw : cons < c.warnPoint <;> by_cases hb : cons < c.budget <;> cases warn <;>
      simp [Record.crossedAll, Record.crossed, Record.cross?, Record.nextThreshold, afterCrossings, Record.leaveZone, hw, hb]
  case mounted =>
    by_cases hw : cons < c.warnPoint <;> by_cases hb : cons < c.budget <;> cases warn <;>
      by_cases hg : c.graceUnits = 0 <;> by_cases he : cons < c.budget + c.graceUnits <;>
      simp [Record.crossedAll, Record.crossed, Record.cross?, Record.nextThreshold, afterCrossings, Record.leaveZone, hw, hb,
        hg, he, Nat.pos_iff_ne_zero, ← Nat.not_lt]

/-- A carrier has a crossing due exactly when its crossings change state or flag. -/
theorem Record.cross?_isSome (c : ClassRow) (r : Record) (hz : r.zonePart ≠ none) :
    (r.cross? c).isSome = true ↔ afterCrossings c r.state r.warnIssued r.consumed ≠ (r.state, r.warnIssued) := by
  obtain ⟨zp, hzp⟩ := Option.ne_none_iff_exists'.mp hz
  rcases r with ⟨id, cls, st, cons, bc, warn, el, lb, mem, zp', dp, bp, held⟩
  subst hzp
  by_cases hw : cons < c.warnPoint <;> by_cases hb : cons < c.budget <;> by_cases hg : c.graceUnits = 0 <;>
    by_cases he : cons < c.budget + c.graceUnits <;> cases st <;> cases warn <;>
    simp [Record.cross?, Record.nextThreshold, afterCrossings, Record.leaveZone, hw, hb, hg, he, Nat.pos_iff_ne_zero,
      ← Nat.not_lt]

theorem Record.settle_zoned {r : Record} {zp : ZonePart} (h : r.zonePart = some zp) (w : Nat) :
    r.settle w =
      { r with consumed := min 4294967295 (r.consumed + (w - zp.stamp)), zonePart := some { zp with stamp := w } } := by
  simp only [Record.settle, h]; rfl

/-- What a settlement with its crossings makes of a record (R80, R84, R97). -/
theorem State.settleCross_settles {s : State} {i : Nat} {r : Record} (h : s.record? i = some r) (st : Option Byte) :
    ∃ r', (s.settleCross i st false).record? i = some r' ∧ r'.held = r.held ∧ (s.settleCross i st false).Settles r r' := by
  cases hz : r.zonePart with
  | none =>
    have e : s.settleCross i st false = s := by simp [State.settleCross, h, hz]
    rw [e]
    refine ⟨r, h, rfl, ?_⟩
    unfold State.Settles
    split
    · rfl
    · next k => rw [hz] at k; cases k
  | some zp =>
    have hair := State.settleCross_sameAir s i st false
    have htab := (State.settleCross_frame s i st false).tables
    obtain ⟨w, hw⟩ : ∃ w, w = (s.zone zp.zone).wear := ⟨_, rfl⟩
    set c := s.tables.cls r.cls with hc
    set r1 := r.settle w with hr1
    have hr1' := Record.settle_zoned hz w
    have hz1 : r1.zonePart ≠ none := by rw [hr1, hr1']; simp
    have hset : (s.setRecord i r1).record? i = some r1 := State.setRecord_record?_self _ _ _
    have hcr := State.crossAll_record? hset st
    have hc1 : (s.setRecord i r1).classOf r1 = c := by
      show s.tables.cls r1.cls = _
      rw [hr1, Record.settle_cls]
    rw [hc1] at hcr
    have hcc : s.classOf r1 = c := hc1
    have hx := Record.crossedAll_eq c r1 hz1
    have hdue := Record.cross?_isSome c r1 hz1
    have e : s.settleCross i st false =
        if (r1.cross? c).isSome then (((s.setRecord i r1).crossAll i st).unlist zp.zone i).enlist i
        else (s.setRecord i r1).crossAll i st := by
      simp only [State.settleCross, h, hz, Bool.false_or, ← hw, ← hr1, hcc]
    have hsc : (s.settleCross i st false).settledConsumed r = r1.consumed := by
      simp only [State.settledConsumed, hz, hair.wear, hr1, hr1', ← hw]
    have key : ∃ r', (s.settleCross i st false).record? i = some r' ∧
        r' = if (r1.cross? c).isSome then
            { r1.crossedAll c with
              zonePart := (r1.crossedAll c).zonePart.map fun zq => { zq with key := (r1.crossedAll c).watchKey c zq.stamp } }
          else r1.crossedAll c := by
      rw [e]
      split
      · have hu : (((s.setRecord i r1).crossAll i st).unlist zp.zone i).record? i = some (r1.crossedAll c) := hcr
        have hen := State.enlist_record? hu
        have hcx : (((s.setRecord i r1).crossAll i st).unlist zp.zone i).classOf (r1.crossedAll c) = c := by
          show ((s.setRecord i r1).crossAll i st).classOf (r1.crossedAll c) = c
          rw [(State.crossAll_frame _ i st).classOf]
          show s.tables.cls (r1.crossedAll c).cls = _
          rw [Record.crossedAll_cls, hr1, Record.settle_cls]
        rw [hcx] at hen
        exact ⟨_, hen, rfl⟩
      · exact ⟨_, hcr, rfl⟩
    obtain ⟨r', hr', er'⟩ := key
    refine ⟨r', hr', ?_, ?_⟩
    · rw [er', hx]
      split <;> split <;> simp [Record.leaveZone, hr1, hr1']
    · simp only [State.Settles, hz]
      refine ⟨_, _, rfl, rfl, ?_⟩
      rw [hsc, htab, hair.wear, ← hw]
      have e1 : r1.state = r.state := by rw [hr1, hr1']
      have e2 : r1.warnIssued = r.warnIssued := by rw [hr1, hr1']
      rw [e1, e2] at hx hdue
      rw [er', hx]
      by_cases hd : afterCrossings c r.state r.warnIssued r1.consumed = (r.state, r.warnIssued)
      · have h1 : ¬(r1.cross? c).isSome = true := fun k => hdue.mp k hd
        rw [if_neg h1]
        simp only [← hc, hd]
        split
        · next k => exact absurd k.1 k.2
        · simp [hr1, hr1']
      · rw [if_pos (hdue.mpr hd)]
        simp only [← hc, hd, if_false]
        split <;> simp only [Record.leaveZone, hr1, hr1', Record.watchKey_eq, Option.map_some, Option.map_none]

/-- The warn-issued flag judged again (R86), as one update. -/
theorem Record.rejudgeWarn_eq (r : Record) (c : ClassRow) :
    r.rejudgeWarn c = { r with warnIssued := r.warnIssued && decide (c.warnPoint ≤ r.consumed) } := by
  rcases r with ⟨id, cls, st, cons, bc, warn, el, lb, mem, zp, dp, bp, held⟩
  by_cases hp : cons < c.warnPoint <;> cases warn <;> simp [Record.rejudgeWarn, hp, ← Nat.not_lt]

/-- Passed thresholds judged again (R86), as one update. -/
theorem Record.rejudge_eq (r : Record) (c : ClassRow) :
    r.rejudge c =
      { r with
        state := if r.state = .overrun ∧ r.consumed < c.budget then .mounted else r.state
        warnIssued := r.warnIssued && decide (c.warnPoint ≤ r.consumed) } := by
  by_cases ho : r.state = .overrun ∧ r.consumed < c.budget <;> simp [Record.rejudge, Record.rejudgeWarn_eq, ho]

/-- Entering a zone (R39, R87, R94), as one update. -/
theorem Record.enterZone_eq (r : Record) (z : Fin 32) (x : Zone) (kind : ZoneKind) (c : ClassRow) (now : Nat) :
    r.enterZone z x kind c now =
      { r with
        zonePart := some
          { zone := z, stamp := x.wear, key := 0
            entered :=
              match r.zonePart with
              | some zp => if zp.zone = z then zp.entered else now
              | none => now }
        dryPart :=
          if kind ≠ .dry then none
          else if r.zonePart.map ZonePart.zone = some z ∧ r.dryPart ≠ none then r.dryPart
          else some x.dry
        eligible :=
          if kind ≠ .dry then false
          else if r.zonePart.map ZonePart.zone = some z ∧ r.dryPart ≠ none then r.eligible
          else decide (1 ≤ c.ratio) && decide (r.consumed ≤ c.ceiling * 3840) } := by
  rcases r with ⟨id, cls, st, cons, bc, warn, el, lb, mem, zp, dp, bp, held⟩
  rcases zp with _ | zp
  · by_cases hk : kind = .dry
    · simp [Record.enterZone, Record.judgeEligible, ClassRow.ceilingUnits, Config.unitsPerMinute, hk]
      rfl
    · simp [Record.enterZone, hk]
  · by_cases hk : kind = .dry <;> by_cases hs : zp.zone = z <;> cases dp <;>
      simp [Record.enterZone, Record.judgeEligible, ClassRow.ceilingUnits, Config.unitsPerMinute, hk, hs] <;> rfl

/-- What an attach makes of a record that stands in no list (R94). -/
theorem State.attach_enters {s : State} {i : Nat} {r : Record} (h : s.record? i = some r) (z : Fin 32) (st : Option Byte) :
    ∃ r', (s.attach i z st).record? i = some r' ∧ (s.attach i z st).Enters z i r r' := by
  have hair := State.attach_sameAir s i z st
  have hframe := State.attach_frame s i z st
  obtain ⟨c, hc⟩ : ∃ c, c = s.tables.cls r.cls := ⟨_, rfl⟩
  obtain ⟨e, he⟩ : ∃ e, e = (r.enterZone z (s.zone z) (s.tables.zone z).kind c s.now).rejudge c := ⟨_, rfl⟩
  have hcls : e.cls = r.cls := show e.core.cls = r.core.cls by rw [he]; simp
  have hatt : s.attach i z st = ((s.setRecord i e).crossAll i st).enlist i := by
    simp only [State.attach, h, he, hc]; rfl
  have h2 := State.crossAll_record? (State.setRecord_record?_self s i e) st
  have hce : (s.setRecord i e).classOf e = c := by show s.tables.cls e.cls = _; rw [hcls, hc]
  rw [hce] at h2
  have h3 := State.enlist_record? h2
  have hcx : ((s.setRecord i e).crossAll i st).classOf (e.crossedAll c) = c := by
    rw [(State.crossAll_frame _ i st).classOf]
    show s.tables.cls (e.crossedAll c).cls = _
    rw [Record.crossedAll_cls, hcls, hc]
  rw [hcx] at h3
  have ez : e =
      { r with
        state := if r.state = .overrun ∧ r.consumed < c.budget then .mounted else r.state
        warnIssued := r.warnIssued && decide (c.warnPoint ≤ r.consumed)
        zonePart := some
          { zone := z, stamp := (s.zone z).wear, key := 0
            entered :=
              match r.zonePart with
              | some zp => if zp.zone = z then zp.entered else s.now
              | none => s.now }
        dryPart :=
          if (s.tables.zone z).kind ≠ .dry then none
          else if r.zonePart.map ZonePart.zone = some z ∧ r.dryPart ≠ none then r.dryPart
          else some (s.zone z).dry
        eligible :=
          if (s.tables.zone z).kind ≠ .dry then false
          else if r.zonePart.map ZonePart.zone = some z ∧ r.dryPart ≠ none then r.eligible
          else decide (1 ≤ c.ratio) && decide (r.consumed ≤ c.ceiling * 3840) } := by
    rw [he, Record.rejudge_eq, Record.enterZone_eq]
  have hx := Record.crossedAll_eq c e (by rw [ez]; simp)
  have hst : e.state ≠ .expired ↔ r.state ≠ .expired := by
    rw [ez]
    by_cases ho : r.state = .overrun ∧ r.consumed < c.budget
    · simp [ho]
    · simp [ho]
  refine ⟨_, hatt ▸ h3, c, _, by rw [hframe.tables, hc], rfl, ?_⟩
  rw [hframe.tables, hframe.now, hair.wear, hair.dry]
  by_cases hd : (afterCrossings c e.state e.warnIssued e.consumed).1 = .expired ∧ e.state ≠ .expired
  · rw [if_pos hd] at hx
    rw [hx]
    rw [hst] at hd
    rw [ez] at hd ⊢
    rw [if_pos hd]
    simp [Record.leaveZone]
  · rw [if_neg hd] at hx
    have hzx : (e.crossedAll c).zonePart = e.zonePart := by rw [hx]
    rw [hst] at hd
    have hmem := State.mem_enlist (s := (s.setRecord i e).crossAll i st) h2 (hzx.trans (by rw [ez]))
    rw [hx]
    rw [ez] at hd ⊢
    rw [if_neg hd]
    exact ⟨hatt ▸ hmem, by cases r.zonePart <;> simp [Record.watchKey_eq]⟩

/-- What a relist leaves of consumed: settled, and credited when the carrier leaves its DRY zone eligible (R80, R88, R96). -/
theorem State.creditLeaving_consumed {s : State} {r settled : Record} (dest : Option (Fin 32))
    (h : settled = match r.zonePart with
      | some zp => r.settle (s.zone zp.zone).wear
      | none => r) :
    (s.creditLeaving settled dest).consumed = s.departedConsumed r dest := by
  subst h
  cases hz : r.zonePart with
  | none => simp [State.creditLeaving, State.departedConsumed, State.settledConsumed, hz]
  | some zp =>
    have hs := Record.settle_zoned hz (s.zone zp.zone).wear
    simp only [State.creditLeaving, State.departedConsumed, State.settledConsumed, hz, hs, Record.takeCredit, Record.credit,
      Record.rejudgeWarn_eq, State.classOf]
    by_cases hd : r.state = .dry ∧ dest ≠ some zp.zone <;> cases r.eligible <;>
      by_cases hr : (s.tables.cls r.cls).ratio = 0 <;> simp [hd, hr, Config.unitsPerSecond]

end Sys2Proof.Machine
end

