-- ==== Sys2Proof/Laws/Notices.lean ====
section
/-! SUPPORT. The notices that the Zone Engine's work posts, in their order (R67, R85, R102). -/

namespace Sys2Proof.Machine

/-- From `s` to `t` just these notices have arrived, and a Plant transmitter at work is left so. -/
def State.Posts (s t : State) (l : List Notice) : Prop :=
  s.plant.tx ≠ .idle → t.plant.tx = s.plant.tx ∧ t.notices = l.foldl NoticeQueue.arrive s.notices

theorem State.Posts.posted {s t : State} {l : List Notice} (h : s.Posts t l) : s.Posted t l := fun k => (h k).2

/-- What touches neither the Plant port nor the Notice Queue posts nothing. -/
theorem State.Posts.nothing {s t : State} (hp : t.plant = s.plant) (hn : t.notices = s.notices) : s.Posts t [] :=
  fun _ => ⟨by rw [hp], hn⟩

theorem State.Posts.trans {s t u : State} {l m : List Notice} (h : s.Posts t l) (k : t.Posts u m) : s.Posts u (l ++ m) := by
  intro hs
  obtain ⟨h1, h2⟩ := h hs
  obtain ⟨k1, k2⟩ := k (h1 ▸ hs)
  exact ⟨k1.trans h1, by rw [k2, h2, List.foldl_append]⟩

theorem State.post_posts (s : State) (n : Notice) : s.Posts (s.post n) [n] := by
  intro h
  have e : s.post n = { s with notices := s.notices.arrive n } := by simp [State.post, State.kickPlant, h]
  rw [e]
  exact ⟨rfl, rfl⟩

theorem State.setZone_posts (s : State) (z : Fin 32) (x : Zone) : s.Posts (s.setZone z x) [] := .nothing rfl rfl

theorem State.setRecord_posts (s : State) (i : Nat) (r : Record) : s.Posts (s.setRecord i r) [] := .nothing rfl rfl

theorem State.unlist_posts (s : State) (z : Fin 32) (i : Nat) : s.Posts (s.unlist z i) [] := .nothing rfl rfl

theorem State.enlist_posts (s : State) (i : Nat) : s.Posts (s.enlist i) [] := by
  unfold State.enlist
  repeat' split
  all_goals exact .nothing rfl rfl

/-! ### Crossings (R84, R85, R102) -/

/-- The notice of one crossing of a carrier in zone `z`. -/
def State.crossingNotice (s : State) (r : Record) (z : Fin 32) (station : Option Byte) (kind : NoticeKind) : Notice :=
  { kind := kind, high := decide (kind ≠ .warn), wallTime := s.wallTime, carrier := some r.id, zone := some z
    station := station, percent := some (min 255 (r.consumed * 100 / ((s.tables.cls r.cls).floorLife * 3840)))
    reason := none, extra := .absent, startLost := 0 }

theorem State.crossingNotices_eq (s : State) (r : Record) (z : Fin 32) (st : CarrierState) (w : Bool) (station : Option Byte) :
    s.crossingNotices r z st w r.consumed station =
      (crossingKinds (s.tables.cls r.cls) st w r.consumed).map (s.crossingNotice r z station) := rfl

theorem Record.cross?_crossing {r r' : Record} {c : ClassRow} {k : NoticeKind} (h : r.cross? c = some (r', k)) :
    r.zonePart ≠ none ∧ k.crossingHigh = decide (k ≠ .warn) ∧ r'.consumed = r.consumed := by
  simp only [Record.cross?] at h
  repeat' split at h
  all_goals first
    | (cases h; exact ⟨by simp_all, rfl, rfl⟩)
    | cases h

/-- One crossing posts one notice, and none posts none. -/
theorem State.crossOnce_posts {s : State} {i : Nat} {r : Record} {z : Fin 32} (h : s.record? i = some r)
    (hz : r.zonePart = none ∨ r.zonePart.map ZonePart.zone = some z) (st : Option Byte) :
    s.Posts (s.crossOnce i st) (((r.cross? (s.classOf r)).map Prod.snd).toList.map (s.crossingNotice r z st)) := by
  unfold State.crossOnce
  simp only [h]
  cases hc : r.cross? (s.classOf r) with
  | none => exact .nothing rfl rfl
  | some p =>
    obtain ⟨hp, hk, hco⟩ := Record.cross?_crossing hc
    have hzz := hz.resolve_left hp
    have hn : s.notice p.2 p.2.crossingHigh (some r.id) (r.zonePart.map ZonePart.zone) st
        (some ((s.classOf r).pct p.1.consumed)) none .absent = s.crossingNotice r z st p.2 := by
      rw [hzz, hk, hco]; rfl
    show s.Posts ((s.setRecord i p.1).post (s.notice p.2 p.2.crossingHigh (some r.id) (r.zonePart.map ZonePart.zone) st
      (some ((s.classOf r).pct p.1.consumed)) none .absent)) [s.crossingNotice r z st p.2]
    rw [hn]
    exact (State.setRecord_posts s i p.1).trans (State.post_posts _ _)

/-- The kinds of the crossings due, one after another, are those of `crossingKinds` (R84, R85). -/
theorem Record.crossingKinds_eq (c : ClassRow) (r : Record) (hz : r.zonePart ≠ none) :
    ((r.cross? c).map Prod.snd).toList ++ (((r.crossed c).cross? c).map Prod.snd).toList ++
      ((((r.crossed c).crossed c).cross? c).map Prod.snd).toList = crossingKinds c r.state r.warnIssued r.consumed := by
  obtain ⟨zp, hzp⟩ := Option.ne_none_iff_exists'.mp hz
  rcases r with ⟨id, cls, st, cons, bc, warn, el, lb, mem, zp', dp, bp, held⟩
  subst hzp
  cases st
  case baking | expired | retired => simp [Record.crossed, Record.cross?, crossingKinds]
  case overrun =>
    by_cases he : cons < c.budget + c.graceUnits <;>
      simp [Record.crossed, Record.cross?, Record.nextThreshold, crossingKinds, Record.leaveZone, he]
  case dry | exposed =>
    by_cases hw : cons < c.warnPoint <;> by_cases hb : cons < c.budget <;> cases warn <;>
      simp [Record.crossed, Record.cross?, Record.nextThreshold, crossingKinds, Record.leaveZone, hw, hb]
  case mounted =>
    by_cases hw : cons < c.warnPoint <;> by_cases hb : cons < c.budget <;> cases warn <;>
      by_cases hg : c.graceUnits = 0 <;> by_cases he : cons < c.budget + c.graceUnits <;>
      simp [Record.crossed, Record.cross?, Record.nextThreshold, crossingKinds, Record.leaveZone, hw, hb, hg, he,
        Nat.pos_iff_ne_zero, ← Nat.not_lt]

/-- The notices of a record's crossings do not change with its crossings. -/
theorem State.crossOnce_notice {s : State} {i : Nat} (st : Option Byte) (r : Record) (z : Fin 32) :
    (s.crossOnce i st).crossingNotice (r.crossed (s.classOf r)) z st = s.crossingNotice r z st := by
  have hf := State.crossOnce_frame s i st
  have hid : (r.crossed (s.classOf r)).id = r.id :=
    show (r.crossed (s.classOf r)).core.id = r.core.id by rw [Record.crossed_core]
  have hw : (s.crossOnce i st).wallTime = s.wallTime := by rw [hf.1]; rfl
  funext k
  unfold State.crossingNotice
  rw [hid, Record.crossed_consumed, Record.crossed_cls, hf.tables, hw]

/-- The crossings of a request post the notices of `crossingNotices` (R84, R85, R102). -/
theorem State.crossAll_posts {s : State} {i : Nat} {r : Record} {zp : ZonePart} (h : s.record? i = some r)
    (hz : r.zonePart = some zp) (st : Option Byte) :
    s.Posts (s.crossAll i st) (s.crossingNotices r zp.zone r.state r.warnIssued r.consumed st) := by
  have keep : ∀ x : Record, (x.zonePart = none ∨ x.zonePart.map ZonePart.zone = some zp.zone) →
      ((x.crossed (s.classOf r)).zonePart = none ∨ (x.crossed (s.classOf r)).zonePart.map ZonePart.zone = some zp.zone) := by
    intro x hx
    rcases Record.crossed_zonePart (s.classOf r) x with k | k
    · rw [k]; exact hx
    · exact .inl k.1
  have z0 : r.zonePart = none ∨ r.zonePart.map ZonePart.zone = some zp.zone := .inr (by rw [hz]; rfl)
  have h1 := State.crossOnce_record? h st
  have c1 : (s.crossOnce i st).classOf (r.crossed (s.classOf r)) = s.classOf r := by
    rw [(State.crossOnce_frame s i st).classOf]; simp [State.classOf, Record.crossed_cls]
  have h2 := State.crossOnce_record? h1 st
  have n2 := State.crossOnce_notice (s := s.crossOnce i st) (i := i) st (r.crossed (s.classOf r)) zp.zone
  rw [c1] at h2 n2
  have c2 : ((s.crossOnce i st).crossOnce i st).classOf ((r.crossed (s.classOf r)).crossed (s.classOf r)) = s.classOf r := by
    rw [(State.crossOnce_frame _ i st).classOf, (State.crossOnce_frame s i st).classOf]
    simp [State.classOf, Record.crossed_cls]
  have p1 := State.crossOnce_posts h z0 st
  have p2 := State.crossOnce_posts h1 (keep _ z0) st
  have p3 := State.crossOnce_posts h2 (keep _ (keep _ z0)) st
  rw [c1, State.crossOnce_notice] at p2
  rw [c2, n2, State.crossOnce_notice] at p3
  have all := (p1.trans p2).trans p3
  rw [← List.map_append, ← List.map_append, Record.crossingKinds_eq _ _ (by rw [hz]; simp)] at all
  exact all

/-! ### Settlement, pop, attach and advance -/

/-- A settlement with its crossings posts the notices of `settleNotices` (R80, R84, R85, R97, R100). -/
theorem State.settleCross_posts {s : State} {i : Nat} {r : Record} (h : s.record? i = some r) (st : Option Byte) (b : Bool) :
    s.Posts (s.settleCross i st b) (s.settleNotices s r st) := by
  unfold State.settleCross State.settleNotices
  simp only [h]
  cases hz : r.zonePart with
  | none => exact .nothing rfl rfl
  | some zp =>
    obtain ⟨w, hw⟩ : ∃ w, w = (s.zone zp.zone).wear := ⟨_, rfl⟩
    simp only [← hw]
    have hs := Record.settle_zoned hz w
    have hz' : (r.settle w).zonePart = some { zp with stamp := w } := by rw [hs]
    have all := (State.setRecord_posts s i (r.settle w)).trans
      (State.crossAll_posts (State.setRecord_record?_self s i (r.settle w)) hz' st)
    have e : (s.setRecord i (r.settle w)).crossingNotices (r.settle w) zp.zone (r.settle w).state (r.settle w).warnIssued
        (r.settle w).consumed st = s.crossingNotices r zp.zone r.state r.warnIssued (s.settledConsumed r) st := by
      simp only [State.settledConsumed, hz, ← hw, hs]
      rfl
    rw [e] at all
    split
    · simpa using (all.trans (State.unlist_posts _ zp.zone i)).trans (State.enlist_posts _ i)
    · exact all

theorem crossingKinds_mem {c : ClassRow} {st : CarrierState} {w : Bool} {n : Nat} {k : NoticeKind}
    (h : k ∈ crossingKinds c st w n) : k = .warn ∨ k = .limit ∨ k = .overrunEnd := by
  unfold crossingKinds at h
  split at h <;> (try split_ifs at h) <;> simp at h <;> tauto

/-- The notices of a settlement that no station caused are those of a pop (R102). -/
theorem State.settleNotices_ofPop {s t : State} {r : Record} {n : Notice} (h : n ∈ s.settleNotices t r none) : n.OfPop := by
  unfold State.settleNotices at h
  split at h
  · next zp _ =>
    obtain ⟨k, hk, rfl⟩ := List.mem_map.mp h
    exact ⟨rfl, by simp, by simp, crossingKinds_mem hk⟩
  · cases h

theorem popWalk_posts (z : Fin 32) (l : List Nat) (s : State) :
    ∃ ns, (∀ n ∈ ns, Notice.OfPop n) ∧ s.Posts (popWalk z l s) ns := by
  induction l generalizing s with
  | nil => exact ⟨[], by simp, .nothing rfl rfl⟩
  | cons i rest ih =>
    unfold popWalk
    split
    · next r hr =>
      split
      · split
        · split
          · exact ih s
          · obtain ⟨ns, h1, h2⟩ := ih (s.settleCross i none true)
            refine ⟨s.settleNotices s r none ++ ns, ?_, (State.settleCross_posts hr none true).trans h2⟩
            intro n hn
            rcases List.mem_append.mp hn with k | k
            · exact State.settleNotices_ofPop k
            · exact h1 n k
        · exact ⟨[], by simp, .nothing rfl rfl⟩
      · exact ih s
    · exact ih s

/-- Step 5 of an advance posts the notice of a change of the stale flag (R67). -/
theorem State.refreshZone_posts (s : State) (z : Fin 32) (st : Option Byte) :
    s.Posts (s.refreshZone z st) (s.staleNotices (s.refreshZone z st) z st) := by
  have hz := State.refreshZone_zone s z st z
  rw [if_pos rfl] at hz
  unfold State.staleNotices
  rw [hz]
  unfold State.refreshZone
  simp only []
  split
  · exact State.setZone_posts _ _ _
  · split
    · exact (State.setZone_posts _ _ _).trans (State.post_posts _ _)
    · exact (State.setZone_posts _ _ _).trans (State.post_posts _ _)

/-- Steps 5 and 6 of an advance: the notice of the stale flag, then those of the pop (R67, R100). -/
theorem State.refreshPop_posts (s : State) (z : Fin 32) (st : Option Byte) :
    ∃ ns, (∀ n ∈ ns, Notice.OfPop n) ∧ s.Posts (s.refreshPop z st) (s.staleNotices (s.refreshPop z st) z st ++ ns) := by
  obtain ⟨ns, h1, h2⟩ := popWalk_posts z ((s.refreshZone z st).zone z).watch (s.refreshZone z st)
  refine ⟨ns, h1, ?_⟩
  have hst : ((s.refreshPop z st).zone z).stale = ((s.refreshZone z st).zone z).stale :=
    show ((s.refreshPop z st).zone z).air.stale = ((s.refreshZone z st).zone z).air.stale by
      rw [State.refreshPop, State.pop_sameAir (s.refreshZone z st) z z]
  have e : s.staleNotices (s.refreshPop z st) z st = s.staleNotices (s.refreshZone z st) z st := by
    simp only [State.staleNotices, hst]
  rw [e]
  exact (State.refreshZone_posts s z st).trans h2

/-- An advance posts notices of its stale flag and of its pop, and no others (R67, R100, R102). -/
theorem State.advance_posts (s : State) (z : Fin 32) : ∃ ns, (∀ n ∈ ns, Notice.OfAdvance n) ∧ s.Posts (s.advance z) ns := by
  unfold State.advance
  split
  · obtain ⟨ns, h1, h2⟩ := State.refreshPop_posts (s.chargeZone z) z none
    refine ⟨_, ?_, (State.Posts.nothing (s := s) (t := s.chargeZone z) rfl rfl).trans h2⟩
    intro n hn
    simp only [List.nil_append, List.mem_append] at hn
    rcases hn with hn | hn
    · right
      unfold State.staleNotices at hn
      split at hn
      · cases hn
      · split at hn <;> (rw [List.mem_singleton] at hn; subst hn; exact ⟨rfl, rfl, by simp, by simp⟩)
    · exact .inl (h1 n hn)
  · exact ⟨[], by simp, .nothing rfl rfl⟩

theorem State.advanceAll_posts (zs : List (Fin 32)) (s : State) :
    ∃ ns, (∀ n ∈ ns, Notice.OfAdvance n) ∧ s.Posts (s.advanceAll zs) ns := by
  induction zs generalizing s with
  | nil => exact ⟨[], by simp, .nothing rfl rfl⟩
  | cons z zs ih =>
    obtain ⟨l, hl, pl⟩ := State.advance_posts s z
    obtain ⟨m, hm, pm⟩ := ih (s.advance z)
    exact ⟨l ++ m, fun n hn => (List.mem_append.mp hn).elim (hl n) (hm n), pl.trans pm⟩

/-- An attach posts the notices of `enterNotices` (R86, R94). -/
theorem State.attach_posts {s : State} {i : Nat} {r : Record} (h : s.record? i = some r) (z : Fin 32) (st : Option Byte) :
    s.Posts (s.attach i z st) (s.enterNotices r z st) := by
  unfold State.attach
  simp only [h]
  obtain ⟨e, he⟩ : ∃ e, e = (r.enterZone z (s.zone z) (s.tables.zone z).kind (s.classOf r) s.now).rejudge (s.classOf r) :=
    ⟨_, rfl⟩
  rw [← he]
  have ez := he
  rw [Record.rejudge_eq, Record.enterZone_eq] at ez
  obtain ⟨zp, hzp, hzz⟩ : ∃ zp, e.zonePart = some zp ∧ zp.zone = z := by rw [ez]; exact ⟨_, rfl, rfl⟩
  have all := ((State.setRecord_posts s i e).trans
    (State.crossAll_posts (State.setRecord_record?_self s i e) hzp st)).trans (State.enlist_posts _ i)
  have hn : (s.setRecord i e).crossingNotices e zp.zone e.state e.warnIssued e.consumed st = s.enterNotices r z st := by
    rw [hzz]
    subst ez
    rfl
  rw [hn] at all
  simpa using all

/-! ### The rekey (R105, R106) -/

/-- An attach changes the list of no zone but its own. -/
theorem State.attach_watch_ne (s : State) (i : Nat) {z y : Fin 32} (st : Option Byte) (hy : y ≠ z) :
    ((s.attach i z st).zone y).watch = (s.zone y).watch := by
  unfold State.attach
  cases h : s.record? i with
  | none => rfl
  | some r =>
    simp only []
    obtain ⟨e, he⟩ : ∃ e, e = (r.enterZone z (s.zone z) (s.tables.zone z).kind (s.classOf r) s.now).rejudge (s.classOf r) :=
      ⟨_, rfl⟩
    rw [← he]
    rw [Record.rejudge_eq, Record.enterZone_eq] at he
    have h2 := State.crossAll_record? (State.setRecord_record?_self s i e) st
    have hw := State.crossAll_watch (s.setRecord i e) i st y
    unfold State.enlist
    simp only [h2]
    split
    · next zp hz =>
      have hzz : zp.zone = z := by
        rcases Record.crossedAll_zonePart ((s.setRecord i e).classOf e) e with k | k
        · rw [k, he] at hz; cases hz; rfl
        · rw [k.1] at hz; cases hz
      rw [State.setZone_zone_ne _ _ (hzz ▸ hy)]
      exact hw
    · exact hw

/-- Two states that agree on the tables and on the time post the same notices of an attach. -/
theorem State.ZoneFrame.enterNotices {s t : State} (h : s.ZoneFrame t) (r : Record) (z : Fin 32) (st : Option Byte) :
    t.enterNotices r z st = s.enterNotices r z st := by rw [h.1]; rfl

theorem State.SameAir.settledConsumed {s t : State} (h : s.SameAir t) (r : Record) :
    t.settledConsumed r = s.settledConsumed r := by
  unfold State.settledConsumed
  split
  · rw [h.wear]
  · rfl

/-- The notices of one record of a rekey. -/
def State.rekeyed (s : State) (z : Fin 32) (r : Record) : List Notice :=
  s.enterNotices { r with consumed := s.settledConsumed r } z none

/-- What one record of a rekey leaves alone: all that other records and other zones' lists are judged by. -/
structure State.RekeyFrame (s t : State) (z : Fin 32) (is : List Nat) : Prop where
  frame : s.ZoneFrame t
  air : s.SameAir t
  record : ∀ j, j ∉ is → t.record? j = s.record? j
  watch : ∀ y, y ≠ z → (t.zone y).watch = (s.zone y).watch

theorem State.RekeyFrame.rekeyed {s t : State} {z : Fin 32} {is : List Nat} (h : s.RekeyFrame t z is) (y : Fin 32) (r : Record) :
    t.rekeyed y r = s.rekeyed y r := by
  unfold State.rekeyed
  rw [h.air.settledConsumed, h.frame.enterNotices]

theorem State.RekeyFrame.trans {s t u : State} {z : Fin 32} {is js : List Nat} (h : s.RekeyFrame t z is)
    (k : t.RekeyFrame u z js) : s.RekeyFrame u z (is ++ js) where
  frame := h.frame.trans k.frame
  air := h.air.trans k.air
  record j hj := by
    rw [List.mem_append, not_or] at hj
    rw [k.record j hj.2, h.record j hj.1]
  watch y hy := by rw [k.watch y hy, h.watch y hy]

/-- One record of a rekey is settled and attached again, with the notices of its crossings (R106). -/
theorem State.rekeyRecord_spec {s : State} {i : Nat} {r : Record} {zp : ZonePart} (h : s.record? i = some r)
    (hz : r.zonePart = some zp) :
    s.RekeyFrame (s.rekeyRecord zp.zone i) zp.zone [i] ∧ s.Posts (s.rekeyRecord zp.zone i) (s.rekeyed zp.zone r) := by
  have hm : s.rekeyRecord zp.zone i = (s.setRecord i (r.settle (s.zone zp.zone).wear)).attach i zp.zone none := by
    simp only [State.rekeyRecord, State.modRecord, h]
  have hs := Record.settle_zoned hz (s.zone zp.zone).wear
  rw [hm]
  refine ⟨⟨?_, ?_, ?_, ?_⟩, ?_⟩
  · exact (State.setRecord_frame h (Record.settle_core r _)).trans (State.attach_frame _ _ _ _)
  · exact (State.setRecord_sameAir s i _).trans (State.attach_sameAir _ _ _ _)
  · intro j hj
    have hj' : j ≠ i := by simpa using hj
    rw [State.attach_record?_ne _ _ _ hj', State.setRecord_record?_ne _ _ hj']
  · intro y hy
    rw [State.attach_watch_ne _ _ _ hy]
    rfl
  · have all := (State.setRecord_posts s i (r.settle (s.zone zp.zone).wear)).trans
      (State.attach_posts (State.setRecord_record?_self s i _) zp.zone none)
    have e : (s.setRecord i (r.settle (s.zone zp.zone).wear)).enterNotices (r.settle (s.zone zp.zone).wear) zp.zone none =
        s.rekeyed zp.zone r := by
      rw [hs]
      simp only [State.rekeyed, State.settledConsumed, hz]
      rfl
    rw [e] at all
    simpa using all

/-- The records of a chain stand in zone `z`, each once. -/
def State.ChainIn (s : State) (z : Fin 32) (is : List Nat) : Prop :=
  is.Nodup ∧ ∀ i ∈ is, ∃ r zp, s.record? i = some r ∧ r.zonePart = some zp ∧ zp.zone = z

theorem State.rekeyChain_spec (z : Fin 32) (is : List Nat) (s : State) (h : s.ChainIn z is) :
    s.RekeyFrame (is.foldl (fun a i => a.rekeyRecord z i) s) z is ∧
      s.Posts (is.foldl (fun a i => a.rekeyRecord z i) s) ((is.filterMap s.record?).flatMap (s.rekeyed z)) := by
  induction is generalizing s with
  | nil => exact ⟨⟨.refl s, .refl s, fun _ _ => rfl, fun _ _ => rfl⟩, .nothing rfl rfl⟩
  | cons i is ih =>
    obtain ⟨hn, hr⟩ := h
    rw [List.nodup_cons] at hn
    obtain ⟨r, zp, h1, h2, rfl⟩ := hr i (.head _)
    obtain ⟨f1, p1⟩ := State.rekeyRecord_spec h1 h2
    have keep : ∀ j ∈ is, (s.rekeyRecord zp.zone i).record? j = s.record? j := fun j hj =>
      f1.record j (by rw [List.mem_singleton]; rintro rfl; exact hn.1 hj)
    obtain ⟨f2, p2⟩ := ih (s.rekeyRecord zp.zone i) ⟨hn.2, fun j hj => by rw [keep j hj]; exact hr j (.tail _ hj)⟩
    refine ⟨f1.trans f2, ?_⟩
    have e : (is.filterMap (s.rekeyRecord zp.zone i).record?).flatMap ((s.rekeyRecord zp.zone i).rekeyed zp.zone) =
        (is.filterMap s.record?).flatMap (s.rekeyed zp.zone) := by
      rw [List.filterMap_congr keep]
      exact List.flatMap_congr fun x _ => f1.rekeyed _ x
    have all := p1.trans p2
    rw [e] at all
    simpa [h1] using all

/-- The selected members of a list are its selected records. -/
theorem State.selected_filterMap (s : State) (sel : Record → Bool) (is : List Nat) :
    (is.filter (s.selected sel)).filterMap s.record? = (is.filterMap s.record?).filter sel := by
  induction is with
  | nil => rfl
  | cons i is ih =>
    cases h : s.record? i with
    | none => simp [h, State.selected, ih]
    | some r => cases hs : sel r <;> simp [h, hs, State.selected, ih]

/-- The rekey of one zone: the notices of its selected members, in list order (R106). -/
theorem State.rekeyZone_spec (s : State) (sel : Record → Bool) (z : Fin 32) (h : s.ChainIn z (s.zone z).watch) :
    s.RekeyFrame (s.rekeyZone sel z) z (s.zone z).watch ∧
      s.Posts (s.rekeyZone sel z) ((((s.zone z).watch.filterMap s.record?).filter sel).flatMap (s.rekeyed z)) := by
  obtain ⟨chain, hc⟩ : ∃ c, c = (s.zone z).watch.filter (s.selected sel) := ⟨_, rfl⟩
  obtain ⟨a, ha⟩ : ∃ a, a = s.setZone z { s.zone z with watch := (s.zone z).watch.filter fun i => !s.selected sel i } :=
    ⟨_, rfl⟩
  have hm : s.rekeyZone sel z = chain.foldl (fun a i => a.rekeyRecord z i) a := by rw [hc, ha]; rfl
  have sub : ∀ i ∈ chain, i ∈ (s.zone z).watch := fun i hi => by rw [hc] at hi; exact (List.mem_filter.mp hi).1
  have f0 : s.RekeyFrame a z [] := by
    subst ha
    exact ⟨State.setZone_frame _ _ _, State.setZone_sameAir rfl, fun _ _ => rfl, fun y hy => by
      rw [State.setZone_zone_ne _ _ hy]⟩
  have p0 : s.Posts a [] := by subst ha; exact State.setZone_posts _ _ _
  have rec0 : a.record? = s.record? := by subst ha; rfl
  obtain ⟨f1, p1⟩ := State.rekeyChain_spec z chain a ⟨by rw [hc]; exact h.1.filter _, fun i hi => by
    rw [rec0]; exact h.2 i (sub i hi)⟩
  have all := f0.trans f1
  rw [hm]
  refine ⟨⟨all.frame, all.air, fun j hj => all.record j fun k => hj (sub j k), all.watch⟩, ?_⟩
  have e : (chain.filterMap a.record?).flatMap (a.rekeyed z) =
      (((s.zone z).watch.filterMap s.record?).filter sel).flatMap (s.rekeyed z) := by
    rw [rec0, hc, State.selected_filterMap]
    exact List.flatMap_congr fun x _ => f0.rekeyed _ x
  have post := p0.trans p1
  rw [e] at post
  simpa using post

/-- The rekey of several zones: the notices of each in turn. A record stands in one zone, so no zone's rekey touches the list
of another. -/
theorem State.rekeyZones_posts (sel : Record → Bool) (zs : List (Fin 32)) (s : State) (hn : zs.Nodup)
    (h : ∀ z ∈ zs, s.ChainIn z (s.zone z).watch) :
    s.ZoneFrame (zs.foldl (fun a z => a.rekeyZone sel z) s) ∧ s.SameAir (zs.foldl (fun a z => a.rekeyZone sel z) s) ∧
      s.Posts (zs.foldl (fun a z => a.rekeyZone sel z) s)
        (zs.flatMap fun z => (((s.zone z).watch.filterMap s.record?).filter sel).flatMap (s.rekeyed z)) := by
  induction zs generalizing s with
  | nil => exact ⟨.refl s, .refl s, .nothing rfl rfl⟩
  | cons z zs ih =>
    rw [List.nodup_cons] at hn
    obtain ⟨f1, p1⟩ := State.rekeyZone_spec s sel z (h z (.head _))
    have ne : ∀ y ∈ zs, y ≠ z := by rintro y hy rfl; exact hn.1 hy
    have keep : ∀ y ∈ zs, ∀ i ∈ (s.zone y).watch, (s.rekeyZone sel z).record? i = s.record? i := by
      intro y hy i hi
      refine f1.record i fun k => ne y hy ?_
      obtain ⟨r, zp, h1, h2, h3⟩ := (h y (.tail _ hy)).2 i hi
      obtain ⟨r', zp', k1, k2, k3⟩ := (h z (.head _)).2 i k
      rw [h1] at k1; cases k1
      rw [h2] at k2; cases k2
      rw [← h3, k3]
    obtain ⟨f2, a2, p2⟩ := ih (s.rekeyZone sel z) hn.2 fun y hy => by
      rw [f1.watch y (ne y hy)]
      exact ⟨(h y (.tail _ hy)).1, fun i hi => by rw [keep y hy i hi]; exact (h y (.tail _ hy)).2 i hi⟩
    refine ⟨f1.frame.trans f2, f1.air.trans a2, ?_⟩
    have e : (zs.flatMap fun y =>
          ((((s.rekeyZone sel z).zone y).watch.filterMap (s.rekeyZone sel z).record?).filter sel).flatMap
            ((s.rekeyZone sel z).rekeyed y)) =
        zs.flatMap fun y => (((s.zone y).watch.filterMap s.record?).filter sel).flatMap (s.rekeyed y) := by
      refine List.flatMap_congr fun y hy => ?_
      rw [f1.watch y (ne y hy), List.filterMap_congr (keep y hy)]
      exact List.flatMap_congr fun x _ => f1.rekeyed _ x
    have all := p1.trans p2
    rw [e] at all
    simpa using all

/-- The rekey of a class under a new row, after the advances that left `v`: what it posts is `rekeyNotices` (R102, R105, R106). -/
theorem State.classRekey_posts (v : State) (c : Fin 16) (row : ClassRow) (t : State)
    (ht : t = v.tables.configuredZones.foldl (fun a z => a.rekeyZone (fun r => r.cls == c) z)
      { v with tables := { v.tables with classes := v.tables.classes.set c.val row } })
    (h : ∀ z, v.ChainIn z (v.zone z).watch) : v.Posts t (v.rekeyNotices t c) := by
  obtain ⟨a, ha⟩ : ∃ a, a = { v with tables := { v.tables with classes := v.tables.classes.set c.val row } } := ⟨_, rfl⟩
  rw [← ha] at ht
  obtain ⟨f, air, p⟩ := State.rekeyZones_posts (fun r => r.cls == c) v.tables.configuredZones a
    (configuredZones_nodup _) fun z _ => by subst ha; exact h z
  rw [← ht] at f air p
  have e : v.rekeyNotices t c = v.tables.configuredZones.flatMap fun z =>
      (((a.zone z).watch.filterMap a.record?).filter fun r => r.cls == c).flatMap (a.rekeyed z) := by
    have zs : (List.finRange 32).filter (fun z => decide ((v.tables.zone z).kind ≠ .unset)) = v.tables.configuredZones := by
      simp [Tables.configuredZones, allZones, ZoneConfig.configured, bne, BEq.beq]
    have mem : a.record? = v.record? ∧ ∀ z, (a.zone z) = v.zone z := by subst ha; exact ⟨rfl, fun _ => rfl⟩
    unfold State.rekeyNotices
    rw [zs]
    refine List.flatMap_congr fun z _ => ?_
    rw [mem.1, mem.2 z]
    have hc : (fun r : Record => decide (r.cls = c)) = fun r => r.cls == c := by funext r; simp [BEq.beq]
    rw [hc]
    refine List.flatMap_congr fun x _ => ?_
    unfold State.rekeyed
    rw [air.settledConsumed, f.enterNotices]
  rw [e]
  subst ha
  exact p

end Sys2Proof.Machine
end

