-- ==== Sys2Proof/Laws/Queues.lean ====
section
/-! SUPPORT. The queues stay within their sizes under the shared operations on notices, outputs and transmitters. -/

namespace Sys2Proof.Machine

theorem NoticeQueue.arrive_length {q : NoticeQueue} (n : Notice) (h : q.entries.length ≤ 32) :
    (q.arrive n).entries.length ≤ 32 := by
  unfold NoticeQueue.arrive
  by_cases hr : q.entries.length < Config.noticeCap
  · have : q.entries.length < 32 := hr
    simp only [hr, if_true, List.length_append, List.length_singleton]
    omega
  · simp only [hr, if_false]
    by_cases hl : (q.entries.any fun e => !e.high) = true
    · obtain ⟨e, he, hp⟩ := List.any_eq_true.mp hl
      have h1 := List.length_eraseP_of_mem (p := fun e : Notice => !e.high) he hp
      have h2 : 0 < q.entries.length := List.length_pos_of_mem he
      simp only [hl, if_true, List.length_append, List.length_singleton]
      omega
    · simp only [hl]
      exact h

theorem NoticeQueue.arrive_lost {q : NoticeQueue} (n : Notice) (h : q.lost ≤ 255) : (q.arrive n).lost ≤ 255 := by
  unfold NoticeQueue.arrive
  by_cases hr : q.entries.length < Config.noticeCap
  · simpa only [hr, if_true] using h
  · simp only [hr, if_false]
    exact Nat.min_le_left _ _

theorem State.QueuesBounded.plantOrder {s t : State} (h : s.QueuesBounded) (ht : s.plantOrder? = some t)
    (h8 : s.plantStreak = 8 → s.notices.oldest? false = none) : t.QueuesBounded := by
  obtain ⟨h1, h2, h3, h4, h5, h6, h7, h8', h9, h10⟩ := h
  have er : ∀ b, (s.notices.entries.eraseP (fun e => e.high == b)).length ≤ 32 := fun b =>
    (List.length_eraseP_le ..).trans h7
  simp only [State.plantOrder?] at ht
  split at ht
  · cases ht
    exact ⟨h1, h2, h3, h4, h5, h6, er _, h8', Nat.zero_le _, Nat.zero_le _⟩
  · split at ht
    · next t' rest hr =>
      cases ht
      rw [hr] at h6
      exact ⟨h1, h2, h3, h4, h5, by simp at h6; simp only [State.sendReply]; omega, h7, h8', h9, Nat.zero_le _⟩
    · split at ht
      · next t' rest n hu hn =>
        cases ht
        rw [hu] at h3
        refine ⟨h1, h2, by simp at h3; simp only [State.sendUpRelay]; omega, h4, h5, h6, h7, h8', h9, ?_⟩
        have : s.plantStreak ≠ 8 := fun e => by simp [h8 e] at hn
        simp only [State.sendUpRelay]
        omega
      · next t' rest hu hn =>
        cases ht
        rw [hu] at h3
        exact ⟨h1, h2, by simp at h3; simp only [State.sendUpRelay]; omega, h4, h5, h6, h7, h8', h9, Nat.zero_le _⟩
      · cases ht
        exact ⟨h1, h2, h3, h4, h5, h6, er _, h8', Nat.zero_le _, Nat.zero_le _⟩
      · cases ht

theorem State.QueuesBounded.plantChoice {s t : State} (h : s.QueuesBounded) (ht : s.plantChoice? = some t) :
    t.QueuesBounded := by
  unfold State.plantChoice? at ht
  by_cases h8 : s.plantStreak = Config.streakLimit
  · rw [if_pos h8] at ht
    split at ht
    · cases ht
      obtain ⟨h1, h2, h3, h4, h5, h6, h7, h8', h9, h10⟩ := h
      exact ⟨h1, h2, h3, h4, h5, h6, (List.length_eraseP_le ..).trans h7, h8', Nat.zero_le _, Nat.zero_le _⟩
    · exact h.plantOrder ht fun _ => ‹_›
  · rw [if_neg h8] at ht
    exact h.plantOrder ht fun e => absurd e h8

theorem State.QueuesBounded.kickPlant {s : State} (h : s.QueuesBounded) : s.kickPlant.QueuesBounded := by
  simp only [State.kickPlant]
  split
  · cases ht : s.plantChoice? with
    | none => exact h
    | some t => exact h.plantChoice ht
  · exact h

theorem State.QueuesBounded.floorChoice {s t : State} (h : s.QueuesBounded) (ht : s.floorChoice? = some t) :
    t.QueuesBounded := by
  obtain ⟨h1, h2, h3, h4, h5, h6, h7, h8, h9, h10⟩ := h
  have ans : ∀ a as, s.answers = a :: as → as.length ≤ 16 := fun a as e => by rw [e] at h5; simp at h5; omega
  have dn : ∀ a as, s.downRelay = a :: as → as.length ≤ 16 := fun a as e => by rw [e] at h4; simp at h4; omega
  simp only [State.floorChoice?] at ht
  split at ht
  · cases ht
  · cases ht
    exact ⟨h1, h2, h3, h4, ans _ _ ‹_›, h6, h7, h8, h9, h10⟩
  · cases ht
    exact ⟨h1, h2, h3, dn _ _ ‹_›, h5, h6, h7, h8, h9, h10⟩
  · split at ht
    · cases ht
      exact ⟨h1, h2, h3, h4, ans _ _ ‹_›, h6, h7, h8, h9, h10⟩
    · cases ht
      exact ⟨h1, h2, h3, dn _ _ ‹_›, h5, h6, h7, h8, h9, h10⟩

theorem State.QueuesBounded.kickFloor {s : State} (h : s.QueuesBounded) : s.kickFloor.QueuesBounded := by
  simp only [State.kickFloor]
  split
  · cases ht : s.floorChoice? with
    | none => exact h
    | some t => exact h.floorChoice ht
  · exact h

theorem State.QueuesBounded.post {s : State} (h : s.QueuesBounded) (n : Notice) : (s.post n).QueuesBounded :=
  State.QueuesBounded.kickPlant
    ⟨h.floor, h.plant, h.upRelay, h.downRelay, h.answers, h.replies, NoticeQueue.arrive_length n h.notices, h.ring,
      NoticeQueue.arrive_lost n h.lost, h.streak⟩

theorem State.QueuesBounded.pushUpRelay {s : State} (h : s.QueuesBounded) (t : Telegram) (room : s.upRelay.length < 16) :
    (s.pushUpRelay t).QueuesBounded :=
  State.QueuesBounded.kickPlant
    ⟨h.floor, h.plant, by simp; omega, h.downRelay, h.answers, h.replies, h.notices, h.ring, h.lost, h.streak⟩

theorem State.QueuesBounded.pushReply {s : State} (h : s.QueuesBounded) (t : Telegram) (room : s.replies.length < 4) :
    (s.pushReply t).QueuesBounded :=
  State.QueuesBounded.kickPlant
    ⟨h.floor, h.plant, h.upRelay, h.downRelay, h.answers, by simp; omega, h.notices, h.ring, h.lost, h.streak⟩

theorem State.QueuesBounded.pushAnswer {s : State} (h : s.QueuesBounded) (t : Telegram) (room : s.answers.length < 16) :
    (s.pushAnswer t).QueuesBounded :=
  State.QueuesBounded.kickFloor
    ⟨h.floor, h.plant, h.upRelay, h.downRelay, by simp; omega, h.replies, h.notices, h.ring, h.lost, h.streak⟩

theorem State.QueuesBounded.pushDownRelay {s : State} (h : s.QueuesBounded) (t : Telegram)
    (room : s.downRelay.length < 16) : (s.pushDownRelay t).QueuesBounded :=
  State.QueuesBounded.kickFloor
    ⟨h.floor, h.plant, h.upRelay, by simp; omega, h.answers, h.replies, h.notices, h.ring, h.lost, h.streak⟩

end Sys2Proof.Machine
end

