-- ==== Sys2Proof/Tests/Slice0.lean ====
section
/-! SUPPORT. Tests of the model against figures of the manual, and for each statement a state and operands that meet its
hypotheses. -/

namespace Sys2Proof.Machine.Tests

set_option Elab.async false

/-! ### Helpers -/

/-- The configuration of the worked cases: class 5 of chapter 5, zone 1 DRY, zone 4 FLOOR, zone 9 LINE, and their stations. -/
def class5 : ClassRow :=
  { floorLife := 10080, warnPercent := 80, grace := 240, ratio := 5, ceiling := 720, bake := #v[120, 240, 0, 0],
    bakeLimit := 2 }

def zoneRow (k : ZoneKind) : ZoneConfig := { kind := k, staleness := 3600, interval := 60, fallback := 64, blackout := 128 }

def tables : Tables :=
  { Tables.default with
    stations := (((Tables.default.stations.set 12 { cls := .kitting, home := some 4 }).set 21
      { cls := .line, home := none }).set 40 { cls := .oven, home := none }).set 30 { cls := .sensor, home := none }
    zones := ((Tables.default.zones.set 1 (zoneRow .dry)).set 4 (zoneRow .floor)).set 9 (zoneRow .line)
    rhThresholds := #v[50, 100, 200, 300, 400, 500, 600]
    tempThresholds := #v[0, 100, 200, 250, 300]
    classes := Tables.default.classes.set 5 class5 }

/-- A part at work: both transmitters busy, no notice waiting. -/
def part : State :=
  { State.reset with
    tables := tables
    floor := { State.reset.floor with tx := .sending .answer [] }
    plant := { State.reset.plant with tx := .sending .upRelay [] }
    notices := { entries := [], lost := 0, nextSeq := 0 } }

/-- The reel of the worked cases (set 5, way 0) in zone 4. -/
def reel : Record :=
  { id := 0x405, cls := 5, state := .exposed, consumed := 0, bakeCount := 0, warnIssued := false, eligible := false,
    lastBakeShort := false, memory := none,
    zonePart := some { zone := 4, stamp := 0, key := 30965760, entered := 0 }, dryPart := none, bakePart := none,
    held := false }

/-- A part whose carrier table holds one record, at index 15, standing in the list of zone 4. -/
def holding (r : Record) (s : State) : State :=
  { s with
    table := { s.table with records := [(15, r)], classCounts := s.table.classCounts.set 5 1 }
    zones := s.zones.set 4 { s.zones[4] with watch := [15] } }

def tel (kind : Byte) (body : List Byte) : Telegram := { dest := 9, source := 12, kind := kind, seq := 1, body := body }

/-- The body of a MOVE of the reel to a zone. -/
def moveTel (zone : Byte) : Telegram := tel 0x13 (idBytes 0x405 ++ [zone])

/-- An engine at a phase with a telegram and further working values. -/
def engineAt (p : EnginePhase) (t : Telegram) (f : Work → Work) (s : State) : State :=
  { s with engine := { phase := p, work := some (f (s.newWork t)), pause := false } }

/-- The engine's request is at the head of the Zone Engine's queue. -/
def asking (s : State) : State := { s with zoneWait := [.engine] }

def request (body : List Byte) : Telegram := { dest := 254, source := 1, kind := 0x50, seq := 7, body := body }

/-- The agent executes a request. -/
def agentAt (body : List Byte) (s : State) : State :=
  { s with agent := { phase := .executing (request body), completion := none } }

def retained (f : Retention → Retention) (s : State) : State := { s with retention := f s.retention }

def monitorAt (m : Monitor) (s : State) : State := retained (fun r => { r with monitor := m }) s

/-- The next state of a command, or the state itself. -/
def after (c : Instr) (s : State) : State :=
  match exec c s with
  | .next t => t
  | _ => s

/-- The command answers a next state. -/
def goes (c : Instr) (s : State) : Bool :=
  match exec c s with
  | .next _ => true
  | _ => false

theorem goes_exec {c : Instr} {s : State} (h : goes c s = true) : exec c s = .next (after c s) := by
  unfold goes at h
  unfold after
  split at h
  · next t ht => rw [ht]
  · cases h

/-! ### Well-formedness: a zone above 31 and a batch above 15 are refused -/

theorem test_wf_advance_timer : (Instr.advanceTimerExpiry 32).WellFormed = false := by decide
theorem test_wf_timer_request : (Instr.timerRequest 32).WellFormed = false := by decide
theorem test_wf_stale_timer : (Instr.staleTimerExpiry 16).WellFormed = false := by decide
theorem test_wf_bake_stale : (Instr.bakeStale 16).WellFormed = false := by decide
theorem test_wf_top_numbers :
    (Instr.timerRequest 31).WellFormed = true ∧ (Instr.bakeStale 15).WellFormed = true := by decide

/-! ### Figures of the manual -/

/-- R10: "over the nine bytes 0x31 to 0x39 the check word is 0x29B1". -/
theorem test_check_word : crc16 [0x31, 0x32, 0x33, 0x34, 0x35, 0x36, 0x37, 0x38, 0x39] = 0x29B1 := by decide +kernel

/-- R40: the ID 0x123456789ABCDEF0 belongs to set 600. -/
theorem test_set_600 : setIndex 0x123456789ABCDEF0 = 600 := by decide +kernel

/-- R40: three IDs of set 5. -/
theorem test_set_5 : setIndex 0x405 = 5 ∧ setIndex 0x0001000000000004 = 5 ∧ setIndex 0x0000000200000003 = 5 := by
  decide +kernel

/-- 05, section 5.9: the figures of the class 5 reel. -/
theorem test_class5_figures :
    class5.budget = 38707200 ∧ class5.warnPoint = 30965760 ∧ class5.graceUnits = 921600 ∧ class5.ceilingUnits = 2764800 :=
  by decide

/-- 05, section 5.9: after three hours on the floor, 864,000 units are pct 2, 9,855 and 7,884 minutes. -/
theorem test_figures_after_three_hours :
    class5.figures .exposed 864000 80 = { pct := 2, remaining := 9855, remainingAtRate := 7884 } := by decide +kernel

/-- 05, section 5.9: ten hours in the cabinet are worth 460,800 units, twenty hours more than was consumed. -/
theorem test_dry_credit :
    let r := { reel with consumed := 864000, eligible := true, dryPart := some 1200000 }
    (r.takeCredit class5 1236000).consumed = 403200 ∧ (r.takeCredit class5 1272000).consumed = 0 := by decide

/-- 05, section 5.10: budget and grace in one settlement, pct 102. -/
theorem test_budget_and_grace :
    let r := { reel with state := .mounted, warnIssued := true, consumed := 39700000 }
    r.cross? class5 = some ({ r with state := .overrun }, .limit) ∧
      ({ r with state := .overrun }.cross? class5).map Prod.snd = some .overrunEnd ∧ class5.pct 39700000 = 102 := by decide

/-- R139: BAKE-OUT of a carrier that is not BAKING is illegal; an expired one may be baked; DEMOUNT in OVERRUN expires. -/
theorem test_transitions :
    TxKind.bakeOut.transition .dry = .illegal ∧ TxKind.bakeIn.transition .expired = .bakeIn ∧
      TxKind.demount.transition .overrun = .expire ∧ TxKind.move.transition .dry = .illegal := by decide

/-- R113: class 0 has an empty thermometer, class 15 a full one. -/
theorem test_thermometer : thermometer 0 = 0 ∧ thermometer 3 = 7 ∧ thermometer 15 = 32767 := by decide

/-- R63: the median of three, the higher of two. -/
theorem test_fusion : fuse [590, 632, 610] = some 610 ∧ fuse [7, 9] = some 9 ∧ fuse ([] : List Nat) = none := by decide

/-- R2: N = 7 at x16 makes 128 clocks in a bit, 115,200 bits in a second. -/
theorem test_bit_rate : Config.referenceClock / LinkSettings.default.clocksPerBit = 115200 := by decide +kernel

/-! ### Steps -/

/-- R187, R188: a cold part with no image comes up in the state after reset. -/
theorem test_cold_start :
    after .startSequence (retained (fun r => { r with monitor := .restorePending, backupValid := false })
      { part with mode := .enforce, faultCounters := Vector.replicate 16 3 }) = State.reset := by decide +kernel

/-- 08, section 8.10: an OPEN whose checks have passed is created in set 5, way 0. -/
theorem test_create :
    (after .create (engineAt .commitCreate (tel 0x10 (idBytes 0x405 ++ [5, 4, 0, 225])) id part)).table.records.map Prod.fst
      = [15] := by decide +kernel

/-- 05, section 5.9: three hours in zone 4 at rate 80 charge 864,000 units. -/
theorem test_settle_three_hours :
    let s := retained (fun r => { r with monotonic := 10800 }) (holding { reel with held := true } part)
    let s := { s with zones := s.zones.set 4 { s.zones[4] with rate := 80 } }
    let t := after .settleRequest (asking (engineAt .settling (moveTel 9) (fun w => { w with held := some 15 }) s))
    (t.record? 15).map Record.consumed = some 864000 ∧ (t.zone 4).wear = 864000 := by decide +kernel

/-- R23: a request to the agent with another kind is counted and dropped. -/
theorem test_agent_reject :
    (after .plantRoutingTake { part with plant := { part.plant with queue := [{ request [1, 0] with kind := 0x10 }] } }).agentRejects
      = 1 := by decide +kernel

/-- R177: SET-MODE out of SETUP is refused for thresholds that do not rise. -/
theorem test_set_mode_refused :
    (after .setMode (agentAt [0x02, 1] { part with tables := { tables with rhThresholds := Vector.replicate 7 0 } })).replyHeld?
      = some { dest := 1, source := 254, kind := 0x51, seq := 7, body := [0x02, 0x09, 0x04, 0x00, 0x00] } := by
  decide +kernel

/-- R179: a tick at the top of the counter holds. -/
theorem test_tick_saturates :
    (after .monotonicTick (retained (fun r => { r with monotonic := 4294967295 }) part)).now = 4294967295 := by
  decide +kernel

/-! ### The hypotheses of the statements can be met

For each statement one theorem, `meets_` and its name, with a state and operands for each of its clauses. -/

/-- A character on a clean line. -/
def char (mark : Bool) (data : Byte) : LineChar := LinkChar.line { mark := mark, data := data }

/-- The Floor Port with another receiver, assembler or queue. -/
def onFloor (f : PortState → PortState) (s : State) : State := { s with floor := f s.floor }

def onPlant (f : PortState → PortState) (s : State) : State := { s with plant := f s.plant }

def open_ (stage : AsmState) (p : PortState) : PortState :=
  { p with asm := { stage := stage, skipping := false, noisy := false, timer := true } }

def note (high : Bool) : Notice := { Notice.restartPowerOn with high := high }

def queued (l : List Notice) (s : State) : State := { s with notices := { s.notices with entries := l } }

theorem meets_StepRunsFrontCommand :
    { part with pending := [.lineBreak, .freeze] }.pending = .lineBreak :: [.freeze] ∧ part.pending = [] := by
  decide +kernel

theorem meets_EveryCommandGoesOn :
    (Instr.advanceTimerExpiry 31).WellFormed = true ∧ (Instr.advanceTimerExpiry 32).WellFormed = false ∧
      (Instr.staleTimerExpiry 15).WellFormed = true ∧ (Instr.staleTimerExpiry 16).WellFormed = false := by decide

/-- A part that waits in RESTORE-PENDING with its retained domain lost. -/
def cold : State := retained (fun r => { r with monitor := .restorePending, backupValid := false, monotonic := 9 }) part

theorem meets_EveryCommandGoesOn_cold :
    let s := { cold with mode := .watch }
    exec .startSequence s = .next (after .startSequence s) ∧ s.retention.monotonic ≤ 4294967295 ∧
      (after .startSequence s).retention.monotonic < s.retention.monotonic ∧ (after .startSequence s).mode ≠ s.mode :=
  ⟨goes_exec (by decide +kernel), by decide +kernel⟩

theorem meets_CharactersAndLineErrors_first :
    (part.port .floor).rx = .seek ∧ { char true 9 with start := .level true }.start.majority = true ∧
      (char true 9).start.majority = false ∧ (char true 9).stop.majority = true ∧ (char true 9).mark.majority = true ∧
      (char false 9).mark.majority = false ∧ (part.port .floor).asm.stage = .idle := by decide +kernel

/-- A character whose first stop bit is low. -/
def broken : LineChar := { char false 0 with stop := .level false }

/-- A header that waits for its length character. -/
def headed : State := onFloor (open_ (.header 9 [12, 0x13, 1])) part

theorem meets_CharactersAndLineErrors :
    (part.port .plant).rx = .seek ∧ broken.start.majority = false ∧ broken.stop.majority = false ∧
      ((onPlant (fun p => { p with rx := .char }) part).port .plant).rx = .char ∧
      ((onPlant (fun p => { p with rx := .brk }) part).port .plant).rx = .brk ∧
      (headed.port .floor).rx = .seek ∧ (headed.port .floor).asm.timer = true ∧
      (headed.port .floor).asm.stage = .header 9 [12, 0x13, 1] ∧
      (char false 49).start.majority = false ∧ (char false 49).stop.majority = true ∧
      (char false 49).mark.majority = false ∧ 48 < (char false 49).char.data.toNat ∧
      (char false 48).start.majority = false ∧ (char false 48).stop.majority = true ∧
      (char false 48).mark.majority = false ∧ (char false 48).char.data.toNat ≤ 48 := by decide +kernel

/-- An open telegram whose low check character is still to come. -/
def checking : State :=
  onFloor (open_ (.check (moveTel 9) (some ((moveTel 9).checkWord.extractLsb' 8 8)))) part

theorem meets_CheckWordDecides :
    let good := char false ((moveTel 9).checkWord.extractLsb' 0 8)
    let bad := char false (~~~(moveTel 9).checkWord.extractLsb' 0 8)
    let high := (moveTel 9).checkWord.extractLsb' 8 8
    (checking.port .floor).rx = .seek ∧ (checking.port .floor).asm.stage = .check (moveTel 9) (some high) ∧
      good.start.majority = false ∧ good.stop.majority = true ∧ good.mark.majority = false ∧
      high ++ good.char.data = crc16 (moveTel 9).bytes ∧
      bad.start.majority = false ∧ bad.stop.majority = true ∧ bad.mark.majority = false ∧
      high ++ bad.char.data ≠ crc16 (moveTel 9).bytes := by decide +kernel

theorem meets_TelegramReceivedWhole :
    (part.port .plant).rx = .seek ∧ (tel 0x13 (List.replicate 48 7)).body.length ≤ 48 := by decide +kernel

/-- Telegrams in every outbound queue of the Floor side. -/
def floorBusy : State := { part with answers := [tel 0x31 [1]], downRelay := [tel 0x60 [2]], floorPref := .relay }

theorem meets_FloorTransmitterChooses :
    floorBusy.floor.tx = .sending .answer [] ∧ part.answers = [] ∧ part.downRelay = [] ∧
      floorBusy.answers = tel 0x31 [1] :: [] ∧ { floorBusy with floorPref := .answer }.floorPref = .answer ∧
      floorBusy.downRelay = tel 0x60 [2] :: [] ∧ floorBusy.floorPref = .relay ∧
      (onFloor (fun p => { p with tx := .starting }) floorBusy).floor.tx = .starting := by decide +kernel

/-- The Plant side with an upstream relay, a reply and notices waiting. -/
def plantBusy (l : List Notice) (replies up : List Telegram) (streak : Nat) : State :=
  queued l { part with replies := replies, upRelay := up, plantStreak := streak }

theorem meets_PlantTransmitterChooses :
    part.plant.tx = .sending .upRelay [] ∧ part.retention.quiesce = none ∧
      (let s := plantBusy [note true, note false] [tel 0x51 []] [tel 0x13 []] 8;
        s.notices.oldest? false = some (note false) ∧ s.plantStreak = 8) ∧
      (let s := plantBusy [note false, note true] [tel 0x51 []] [tel 0x13 []] 7;
        s.notices.oldest? true = some (note true) ∧ ¬(s.plantStreak = 8 ∧ (s.notices.oldest? false).isSome = true)) ∧
      (let s := plantBusy [note false] [tel 0x51 []] [tel 0x13 []] 7;
        s.notices.oldest? true = none ∧ s.replies = tel 0x51 [] :: []) ∧
      (let s := plantBusy [note false] [] [tel 0x13 []] 7;
        s.notices.oldest? true = none ∧ s.replies = [] ∧ s.upRelay = tel 0x13 [] :: []) ∧
      (let s := plantBusy [note false] [] [] 0;
        s.notices.oldest? true = none ∧ s.notices.oldest? false = some (note false) ∧ s.replies = [] ∧ s.upRelay = []) ∧
      (let s := plantBusy [] [] [] 0;
        s.notices.oldest? true = none ∧ s.notices.oldest? false = none ∧ s.replies = [] ∧ s.upRelay = []) ∧
      (onPlant (fun p => { p with tx := .starting }) part).plant.tx = .starting := by decide +kernel

/-- The oldest low notice behind a high one and ahead of another low one. -/
theorem meets_PlantTransmitterChooses_oldest :
    let q : NoticeQueue := { entries := [note true] ++ note false :: [note false, note true], lost := 255, nextSeq := 255 }
    (note false).high = false ∧ (∀ e ∈ [note true], e.high ≠ false) ∧
      (q.take false).entries = [note true, note false, note true] ∧ (q.take false).nextSeq = 0 := by decide +kernel

/-- R170, 02, section 2.6: a COPY notice of carrier 0x405 in zone 9, byte by byte, with a lost count of 3. -/
theorem test_notice_body :
    let n : Notice :=
      { kind := .copy, high := false, wallTime := 0x01020304, carrier := some 0x405, zone := some 9, station := none
        percent := some 80, reason := some 0x41, extra := .copy 0x14 7 .hold, startLost := 0 }
    ({ entries := [], lost := 3, nextSeq := 9 : NoticeQueue }.telegram PartConfig.default n).body =
      [0x08, 0, 1, 2, 3, 4, 3, 0, 0, 0, 0, 0, 0, 4, 5, 9, 0xFF, 80, 0x41, 0x14, 7, 2, 0xFF] := by decide +kernel

theorem meets_LowNoticeWaitsAtMostEight :
    let s := plantBusy [note false] [] (List.replicate 8 (tel 0x13 [])) 0
    s.plant.tx = .sending .upRelay [] ∧ s.retention.quiesce = none ∧ s.notices.oldest? true = none ∧ s.replies = [] ∧
      s.notices.oldest? false = some (note false) ∧ s.plantStreak ≤ 8 ∧ 8 - s.plantStreak ≤ s.upRelay.length := by
  decide +kernel

theorem meets_NoticeArrives :
    let l := List.replicate 31 (note true)
    l.length < 32 ∧ 32 ≤ (l ++ note false :: []).length ∧ (note false).high = false ∧
      (∀ e ∈ l, e.high = true) ∧ 32 ≤ (l ++ [note true]).length ∧ (l ++ [note true]).length ≤ 32 ∧
      ({ entries := l ++ [note true], lost := 255, nextSeq := 0 : NoticeQueue }.oldest? true).isSome = true ∧
      ∀ e ∈ l ++ [note true], e.high = true := by decide +kernel

/-- A telegram at the head of the Plant receive queue. -/
def atPlant (t : Telegram) (s : State) : State := onPlant (fun p => { p with queue := [t] }) s

theorem meets_PlantRoutingTakes :
    let s := atPlant (request [0x0D]) part
    let r := atPlant (tel 0x60 []) part
    s.plant.queue = request [0x0D] :: [] ∧ s.live = true ∧ (request [0x0D]).dest = s.tables.part.own ∧
      (request [0x0D]).kind = 0x50 ∧ s.agent.phase = .idle ∧ s.agent.completion = none ∧
      decodeRequest (request [0x0D]).body = .ok .saveImage ∧ decodeRequest (request [0x0E]).body = .ok .loadImage ∧
      decodeRequest (request [0x10]).body ≠ .ok .saveImage ∧ decodeRequest (request [0x10]).body ≠ .ok .loadImage ∧
      s.mode = .setup ∧ s.store.run = none ∧ { s with mode := .watch }.mode ≠ .setup ∧
      (agentAt [0x0D] s).agent.phase ≠ .idle ∧ { request [] with kind := 0x51 }.kind ≠ 0x50 ∧
      r.plant.queue = tel 0x60 [] :: [] ∧ (tel 0x60 []).dest ≠ r.tables.part.own ∧ r.downRelay.length < 16 ∧
      r.floor.tx ≠ .idle ∧ (onFloor (fun p => { p with tx := .idle }) r).floor.tx = .idle ∧ r.answers = [] ∧
      r.downRelay = [] ∧ 16 ≤ { r with downRelay := List.replicate 16 (tel 0x60 []) }.downRelay.length := by
  decide +kernel

/-- A telegram at the head of the Floor receive queue. -/
def atFloor (t : Telegram) (s : State) : State := onFloor (fun p => { p with queue := [t] }) s

theorem meets_TransactionTakeRoutes :
    let s := atFloor (moveTel 9) part
    let own (kind : Byte) (body : List Byte) : Telegram := { tel kind body with dest := 254 }
    s.floor.queue = moveTel 9 :: [] ∧ s.live = true ∧ s.engine.phase = .idle ∧ s.engine.pause = false ∧
      (own 0x1A (idBytes 5)).dest = s.tables.part.own ∧ PassesR24 8 [0] (own 0x1A (idBytes 5)).body ∧
      ¬PassesR24 8 [0] (own 0x1A [0]).body ∧ ¬PassesR24 8 [0] (own 0x1A (List.replicate 8 0xFF)).body ∧
      (own 0x13 []).kind ≠ 0x1A ∧ (moveTel 9).dest ≠ s.tables.part.own ∧
      bodyForms.lookup (moveTel 9).kind.toNat = some (9, [0]) ∧ (s.tables.station 99).cls = .unassigned ∧
      (s.tables.station (moveTel 9).source).cls ≠ .unassigned ∧ PassesR24 9 [0] (moveTel 9).body ∧
      (tel 0x20 [0, 0, 0, 0, 0, 0]).body.length = 6 ∧ (tel 0x20 []).body.length ≠ 6 ∧
      bodyForms.lookup (tel 0x1A []).kind.toNat = none ∧ (tel 0x1A []).kind ≠ 0x20 ∧
      bodyForms.lookup (tel 0x10 []).kind.toNat = some (12, [0]) ∧ bodyForms.lookup (tel 0x19 []).kind.toNat = some (8, [0]) ∧
      bodyForms.lookup (tel 0x0F []).kind.toNat = none := by decide +kernel

/-- R24: a SPLIT of 17 bytes whose child ID is all ones, and one of 16 bytes. -/
theorem meets_TransactionTakeRoutes_split :
    bodyForms.lookup 0x18 = some (17, [0, 8]) ∧ PassesR24 17 [0, 8] (idBytes 0x405 ++ idBytes 6 ++ [9]) ∧
      ¬PassesR24 17 [0, 8] (idBytes 0x405 ++ List.replicate 8 0xFF ++ [9]) ∧
      ¬PassesR24 17 [0, 8] (idBytes 0x405 ++ idBytes 6) := by decide +kernel

/-- R25: the zone byte of a MOVE; 0xFF is the home zone of station 12, and of station 21, which has none, stays 0xFF. -/
theorem test_zone_of_a_take :
    (part.newWork (moveTel 9)).zone = 9 ∧ (part.newWork (moveTel 0xFF)).zone = 4 ∧
      (part.newWork { moveTel 0xFF with source := 21 }).zone = 255 := by decide +kernel

/-- An AMBIENT of the sensor for a zone and slot, waiting for the Zone Engine. -/
def offering (zone slot source : Byte) : State :=
  asking (engineAt .offering { tel 0x20 [zone, slot, 0, 200, 1, 244] with source := source } id part)

theorem meets_SampleIntakeTaken :
    let s := offering 4 2 30
    s.engine.phase = .offering ∧ s.live = true ∧ s.zoneWait.head? = some .engine ∧
      (s.engine.work.map fun w => (zone? w.zone, (byteAt w.tel.body 1).toNat, (s.tables.station w.tel.source).cls))
        = some (some 4, 2, .sensor) ∧ (s.tables.zone 4).kind ≠ .unset ∧
      ((offering 32 0 30).engine.work.map fun w => zone? w.zone) = some none ∧
      ((offering 4 3 30).engine.work.map fun w => (byteAt w.tel.body 1).toNat) = some 3 ∧
      (s.tables.station 12).cls ≠ .sensor ∧ (s.tables.zone 31).kind = .unset := by decide +kernel

/-- R68: an accepted sample withdraws the timer request of its zone, and no other. -/
theorem test_sample_withdraws_timer :
    (after .sampleIntake { offering 4 2 30 with zoneWait := [.engine, .timer 4, .timer 9, .agent] }).zoneWait =
      [.timer 9, .agent] := by decide +kernel

/-! Records and commits -/

/-- The memory of a telegram that was relayed. -/
def remembers (t : Telegram) (r : Record) : Record :=
  { r with memory := some { source := t.source, seq := t.seq, kind := t.kind, outcome := .relayed, reason := none } }

def splitTel (child : CarrierId) : Telegram := tel 0x18 (idBytes 0x405 ++ idBytes child ++ [9])

def openTel (id : CarrierId) : Telegram := tel 0x10 (idBytes id ++ [5, 4, 0, 0])

theorem meets_CarrierLookupDecides :
    let s := holding reel part
    (engineAt .lookup (moveTel 9) id s).engine.phase = .lookup ∧ s.running = true ∧
      s.table.find? (carrierIdOf (tel 0x1A (idBytes 0x405))) = some (15, reel) ∧
      TxKind.ofByte? (tel 0x1A []).kind = none ∧ s.table.find? (carrierIdOf (tel 0x1A (idBytes 6))) = none ∧
      TxKind.ofByte? (openTel 6).kind = some .open_ ∧ s.table.find? (carrierIdOf (openTel 6)) = none ∧
      s.table.find? (carrierIdOf (openTel 0x405)) = some (15, reel) ∧ reel.memory = none ∧
      TxKind.ofByte? (moveTel 9).kind = some .move ∧ s.table.find? (carrierIdOf (moveTel 9)) = some (15, reel) ∧
      TxKind.ofByte? (splitTel 0x405).kind = some .split ∧
      s.table.find? (childIdOf (splitTel 0x405)) ≠ none ∧ s.table.find? (childIdOf (splitTel 6)) = none ∧
      ((remembers (moveTel 9) reel).memory.map fun m =>
        (decide ((moveTel 9).Repeats m), decide ({ moveTel 9 with kind := 0x14 }.Repeats m))) = some (true, false) ∧
      ((remembers (openTel 0x405) reel).memory.map fun m => decide ((openTel 0x405).Repeats m)) = some true := by
  decide +kernel

/-- R28, R29: the annotated copy and the REFUSAL of a MOVE, byte by byte; a body that fails R24 reports no carrier. -/
theorem test_marked_and_refused :
    (moveTel 9).marked 0x07 (some 80) = tel 0x93 ([0, 0, 0, 0, 0, 0, 4, 5, 9] ++ [0x07, 80]) ∧
      (part.refusal (moveTel 9) (reportedId (moveTel 9)) 0x07).body = [0, 0, 0, 0, 0, 0, 4, 5, 0x07, 0x13, 1] ∧
      (part.refusal (tel 0x13 [9]) (reportedId (tel 0x13 [9])) 0x01).body = List.replicate 8 0xFF ++ [0x01, 0x13, 1] := by
  decide +kernel

def closeTel : Telegram := tel 0x19 (idBytes 0x405)

def closed (seq : Byte) : RingEntry := { id := 0x405, source := 12, seq := seq, outcome := .relayed, reason := none }

theorem meets_RingSearchNewestFirst :
    let s := { part with table := { part.table with ring := [closed 1] ++ closed 1 :: [closed 2] } }
    (engineAt .ring closeTel id s).engine.phase = .ring ∧ s.running = true ∧ (closed 1).id = carrierIdOf closeTel ∧
      (closed 1).source = closeTel.source ∧ (closed 1).seq = closeTel.seq ∧
      (∀ x ∈ [closed 2], ¬(x.id = carrierIdOf closeTel ∧ x.source = closeTel.source ∧ x.seq = closeTel.seq)) ∧
      (∀ x ∈ part.table.ring, ¬(x.id = carrierIdOf closeTel ∧ x.source = closeTel.source ∧ x.seq = closeTel.seq)) ∧
      (engineAt .lookup closeTel id part).engine.phase ≠ .ring ∧
      TxKind.ofByte? closeTel.kind = some .close ∧ part.table.find? (carrierIdOf closeTel) = none ∧
      (after .carrierLookup (engineAt .lookup closeTel id part)).engine.phase = .ring := by decide +kernel

theorem meets_RingSearchNewestFirst_entry :
    exec .carrierLookup (engineAt .lookup closeTel id part) =
      .next (after .carrierLookup (engineAt .lookup closeTel id part)) := goes_exec (by decide +kernel)

/-- A table whose set 5 is occupied and whose pool is empty. -/
def fullSet : State :=
  { part with
    table := { part.table with records := [(15, reel), (16, { reel with id := 1 }), (17, { reel with id := 2 })], poolFree := [] } }

theorem meets_FreeRecordProbeAnswers :
    (engineAt .probe (openTel 0x0001000000000004) id part).engine.phase = .probe ∧ part.running = true ∧
      TxKind.ofByte? (openTel 0x0001000000000004).kind = some .open_ ∧
      (∃ i ∈ waysOf (setIndex (newIdOf (openTel 0x0001000000000004) .open_)), part.record? i = none) ∧
      (∀ i ∈ waysOf (setIndex (newIdOf (openTel 0x0001000000000004) .open_)), fullSet.record? i ≠ none) ∧
      fullSet.table.poolFree = [] := by decide +kernel

theorem meets_CreateAndDelete_created :
    part.table.poolFree.head? = some 3072 ∧ part.table.records = [] ∧ part.table.find? reel.id = none ∧
      ((part.table.create? reel).map Prod.fst) = some 15 := by decide +kernel

/-- Nothing of an empty table is in use. -/
theorem meets_CreateAndDelete_pool : ∀ j ∈ part.table.poolFree, lookupKey part.table.records j = none := fun _ _ => rfl

theorem canonical_holding (r : Record) : (holding r part).table.Canonical :=
  ⟨List.pairwise_singleton _ _, List.Pairwise.nil, fun _ h => nomatch h⟩

theorem record_holding {r x : Record} {s : State} {i : Nat} (h : (holding r s).record? i = some x) : i = 15 ∧ x = r := by
  unfold State.record? holding lookupKey at h
  split at h
  · exact ⟨‹15 = i›.symm, (Option.some.inj h).symm⟩
  · cases h

theorem watch_holding : ∀ z : Fin 32, ∀ i ∈ ((holding reel part).zone z).watch, i = 15 ∧ z = 4 := by decide +kernel

/-- A table whose records are all in ways, with the free list of an empty one, is right when its counts are. -/
theorem right_of {t : CarrierTable} (canonical : t.Canonical) (ways : ∀ i r, lookupKey t.records i = some r → i < 3072)
    (pool : t.poolFree = List.range' 3072 1024) (total : t.records.length + t.freeWays + t.poolFree.length = 4096)
    (classes : ∀ c : Fin 16, t.classCounts[c.val] = t.countOf c) : t.Right where
  canonical := canonical
  indices i r h := by have := ways i r h; omega
  once := by rw [pool]; exact List.nodup_range'
  pool i := by
    rw [pool, List.mem_range'_1]
    constructor
    · refine fun h => ⟨h.1, by omega, ?_⟩
      cases hx : lookupKey t.records i with
      | none => rfl
      | some x => have := ways i x hx; omega
    · exact fun h => ⟨h.1, by omega⟩
  total := total
  classes := classes

theorem ways_holding {r x : Record} {i : Nat} (h : (holding r part).record? i = some x) : i < 3072 := by
  have := (record_holding h).1
  omega

/-- A class write of class 5 whose rekey has begun and waits, behind an engine's request or at its turn. -/
def rekeying (wait : List ZoneRequest) (s : State) : State :=
  { s with
    engine := { s.engine with pause := true }, zoneWait := wait
    agent := { phase := .rekeying (request [0x05, 0x05, 0, 5]) 5 class5, completion := none } }

theorem meets_CreateAndDelete_agent :
    (∀ t k row, part.agent.phase ≠ .rekeying t k row) ∧
      (rekeying [.agent] part).agent.phase = .rekeying (request [0x05, 0x05, 0, 5]) 5 class5 ∧
      (rekeying [.agent] (engineAt .commitCreate (openTel 0x405) id part)).engine.phase = .commitCreate :=
  ⟨fun _ _ _ h => (nomatch (show AgentPhase.idle = .rekeying _ _ _ from h)), rfl, rfl⟩

theorem meets_CreateAndDelete :
    let s := engineAt .commitCreate (openTel 0x405) id part
    let d := engineAt .commitDelete closeTel (fun w => { w with held := some 15 }) (holding reel part)
    s.engine.phase = .commitCreate ∧ s.running = true ∧ openClassOf (openTel 0x405) = (5 : Fin 16).val ∧
      (s.tables.cls 5).floorLife ≠ 0 ∧ TxKind.ofByte? (openTel 0x405).kind = some .open_ ∧
      s.table.room (carrierIdOf (openTel 0x405)) = true ∧ d.engine.phase = .commitDelete ∧ d.running = true ∧
      d.record? 15 = some reel := by decide +kernel

/-- The class of an OPEN is not configured, or is none; a configured class, and no room. -/
theorem meets_CreateAndDelete_faults :
    let open6 (c : Byte) := tel 0x10 (idBytes 0x405 ++ [c, 4, 0, 0])
    let f := engineAt .commitCreate (openTel 0x0001000000000004) id fullSet
    (∀ c : Fin 16, openClassOf (open6 6) = c.val → (part.tables.cls c).floorLife = 0) ∧
      (∀ c : Fin 16, openClassOf (open6 16) ≠ c.val) ∧ f.engine.phase = .commitCreate ∧ f.running = true ∧
      openClassOf (openTel 0x0001000000000004) = (5 : Fin 16).val ∧ (f.tables.cls 5).floorLife ≠ 0 ∧
      f.table.room (carrierIdOf (openTel 0x0001000000000004)) = false := by decide +kernel

/-- A commit relist of a carrier of zone 4 that is held. -/
def relisting (t : Telegram) (f : Work → Work) : State :=
  asking (engineAt .commitRelist t (fun w => f { w with held := some 15 }) (holding { reel with held := true } part))

/-- A settle request of the reel, held, with a telegram. -/
def settling (t : Telegram) (r : Record) : State :=
  asking (engineAt .settling t (fun w => { w with held := some 15 }) (holding { r with held := true } part))

theorem meets_SettleRequestSettles :
    let s := settling (moveTel 9) reel
    let n := asking (engineAt .settling (openTel 6) id part)
    s.engine.phase = .settling ∧ s.running = true ∧ s.zoneWait.head? = some .engine ∧
      TxKind.ofByte? (moveTel 9).kind = some .move ∧ (s.engine.work.bind Work.held) = some 15 ∧
      s.record? 15 = some { reel with held := true } ∧ s.zoneOf? 15 = some 4 ∧ (s.tables.zone 4).kind ≠ .unset ∧
      (s.engine.work.bind Work.bodyZone?) = some 9 ∧ TxKind.ofByte? (openTel 6).kind = some .open_ ∧
      (n.engine.work.bind Work.held) = none ∧ openClassOf (openTel 6) = (5 : Fin 16).val ∧
      (n.tables.cls 5).floorLife ≠ 0 := by decide +kernel

/-- R85, R102: a settlement of a transaction posts the crossing with its source; the Plant transmitter is at work. -/
theorem test_settle_posts_warn :
    let s := settling (moveTel 9) { reel with consumed := 30965760 }
    s.plant.tx ≠ .idle ∧
      (after .settleRequest s).notices.entries.map (fun n => (n.kind, n.carrier, n.station, n.percent))
        = [(.warn, some 0x405, some 12, some 80)] := by decide +kernel

/-- For every fault of steps 7 to 11 a settle request that meets it, and one each that goes to the probe and to the decision. -/
theorem meets_SettledChecksDecide :
    let s := settling (moveTel 9) reel
    s.engine.phase = .settling ∧ s.running = true ∧ s.zoneWait.head? = some .engine ∧
      (s.engine.work.map Work.fault) = some none ∧ TxKind.ofByte? (moveTel 9).kind = some .move ∧
      (part.tables.station 12).cls ≠ .oven ∧ (part.tables.station 40).cls = .oven ∧ zone? 40 = none ∧
      (part.tables.zone 9).kind ∉ suitedKinds .store ∧ (part.tables.cls 6).floorLife = 0 ∧
      CarrierState.exposed ∉ legalStates .issue ∧ CarrierState.exposed ∈ legalStates .move ∧ class5.bake[2] = 0 ∧
      (part.batchOf? 40) = none := by decide +kernel

/-- The same request takes place, and its decision is that of SETUP. -/
theorem meets_SettledChecksDecide_goes :
    (after .settleRequest (settling (moveTel 9) reel)).engine.phase = .commitOpen ∧
      ((after .settleRequest (settling (moveTel 9) reel)).engine.work.map Work.fault) = some none ∧
      (after .settleRequest (settling (splitTel 6) reel)).engine.phase = .probe := by decide +kernel

theorem meets_QueryAnswered :
    let q := tel 0x1A (idBytes 0x405)
    let s := settling q reel
    s.engine.phase = .settling ∧ s.running = true ∧ s.zoneWait.head? = some .engine ∧ TxKind.ofByte? q.kind = none ∧
      s.record? 15 = some { reel with held := true } ∧ reel.zonePart.map ZonePart.zone = some 4 ∧
      (s.tables.zone 4).kind ≠ .unset := by
  decide +kernel

/-- Just short of its warn point, with the clock one unit before its key and at it. -/
theorem meets_CrossingComesAtTheKey :
    let zp : ZonePart := { zone := 4, stamp := 5000000, key := 0, entered := 0 }
    let r := { reel with zonePart := some zp, consumed := 30965759 }
    r.zonePart = some zp ∧ r.state = .exposed ∧ r.consumed < r.nextThreshold class5 ∧
      r.nextThreshold class5 ≤ 4294967295 ∧
      zp.stamp + (r.nextThreshold class5 - r.consumed) ≤ 281474976710655 ∧ zp.stamp ≤ 5000000 ∧
      r.watchKey class5 zp.stamp = 5000001 := by decide +kernel

/-- A rule that matches every key, and one that is not valid. -/
def always : RuleRow := { valid := true, value := 0, mask := 0, action := { Action.default with worst := true } }

theorem meets_KeyFieldsStandInPlace :
    let w := part.newWork (moveTel 9)
    (part.lookupRequest w .move).key = (part.keyFields w .move).key := rfl

/-- R115: bounds that hold a value at either end, a temperature below 0, an unavailable source, and the default row. -/
theorem test_range_bits :
    let v : Sources :=
      { pct := 80, remaining := 0, dwell := 0, bakeCount := 0, zoneRh := none, zoneTemp := some (-1), cls := 5, station := 12 }
    let bit (source : RangeSource) (low high : BitVec 16) := { source := source, low := low, high := high : CheckerRow }.bit v
    bit .pct 80 80 = true ∧ bit .pct 81 255 = false ∧ bit .zoneTemp 0xFFFF 0xFFFF = true ∧ bit .zoneTemp 0 0xFFFF = false ∧
      bit .zoneRh 0 0xFFFF = false ∧ bit .cls 1 0 = false := by decide +kernel

theorem meets_FirstMatchWins :
    always.hits 5 = true ∧ { always with valid := false }.hits 5 = false ∧ part.tables.passHit 5 = .dflt := by
  decide +kernel

theorem meets_OutcomesCombine :
    let a := Action.default
    Verdict.mark.code > Verdict.pass.code ∧ Verdict.hold.code > Verdict.mark.code ∧ { a with final := true }.final = true ∧
      a.final = false ∧ a.worst = false ∧ { a with worst := true }.worst = true ∧
      { a with verdict := .hold }.verdict.code > a.verdict.code := by decide

/-- A lookup that waits for the matcher. -/
def deciding : State :=
  engineAt .deciding (moveTel 9)
    (fun w => { w with lookup := some (part.lookupRequest { w with settled := some reel } .move) }) part

theorem meets_PolicyLookupCounts :
    deciding.engine.phase = .deciding ∧ deciding.running = true ∧
      (deciding.engine.work.bind Work.lookup).isSome = true ∧ ∀ i : Fin 64, deciding.ruleCounters[i.val] ≤ 4294967295 := by
  decide +kernel

theorem meets_CommitOpensAndCloses : Mode.setup ≠ .enforce ∧ Mode.watch ≠ .enforce := by decide

theorem meets_CommitOpensAndCloses_open :
    let pass : Work → Work := fun w => { w with verdict := some (.pass, 0x40) }
    let s := engineAt .commitOpen (openTel 0x405) pass part
    let c := engineAt .commitOpen closeTel (fun w => pass { w with held := some 15 }) (holding reel part)
    let e := engineAt .commitOpen closeTel (fun w => pass { w with held := some 15 })
      (holding { reel with zonePart := none } part)
    s.engine.phase = .commitOpen ∧ s.running = true ∧
      (fixOutcome none (some (.pass, 0x40)) s.mode).transition = true ∧ TxKind.ofByte? (openTel 0x405).kind = some .open_ ∧
      TxKind.ofByte? closeTel.kind = some .close ∧ (c.engine.work.bind fun w => w.held.bind c.zoneOf?) ≠ none ∧
      (e.engine.work.bind fun w => w.held.bind e.zoneOf?) = none ∧ TxKind.ofByte? (moveTel 9).kind = some .move ∧
      (fixOutcome (some .zoneKind) none s.mode).transition = false ∧ (s.engine.work.bind Work.held) = none ∧
      (s.engine.work.bind Work.created) = none := by decide +kernel

theorem meets_CommitOpensAndCloses_close :
    let o := fixOutcome none (some (.pass, 0x40)) .enforce
    let s := engineAt .commitClose (moveTel 9) (fun w => { w with held := some 15, outcome := some o })
      (holding { reel with held := true } part)
    let c := engineAt .commitClose closeTel (fun w => { w with outcome := some o }) part
    let p := engineAt .commitClose (splitTel 6) (fun w => { w with held := some 15, created := some 18, outcome := some o })
      (holding { reel with held := true } part)
    let p := { p with table := { p.table with records := p.table.records ++ [(18, { reel with id := 6 })] } }
    p.record? 15 = some { reel with held := true } ∧ p.record? 18 = some { reel with id := 6 } ∧
      TxKind.ofByte? (splitTel 6).kind ≠ some .close ∧ s.engine.phase = .commitClose ∧ s.running = true ∧ (s.engine.work.bind Work.outcome) = some o ∧
      s.record? 15 = some { reel with held := true } ∧ TxKind.ofByte? (moveTel 9).kind ≠ some .close ∧
      c.engine.phase = .commitClose ∧ (c.engine.work.bind Work.held) = none ∧ (c.engine.work.bind Work.created) = none ∧
      (c.engine.work.bind Work.fault) = none ∧ TxKind.ofByte? closeTel.kind = some .close ∧ o.transition = true := by
  decide +kernel

/-- The closing COMMIT of an OPEN that its create has faulted. -/
theorem meets_CommitOpensAndCloses_faulted :
    let o := fixOutcome (some .classUnknown) none .enforce
    let s := engineAt .commitClose (openTel 0x405) (fun w => { w with fault := some .classUnknown, outcome := some o }) part
    s.engine.phase = .commitClose ∧ s.running = true ∧ (s.engine.work.bind Work.outcome) = some o ∧
      (s.engine.work.bind Work.held) = none ∧ (s.engine.work.bind Work.created) = none ∧
      (s.engine.work.bind Work.fault) = some .classUnknown ∧ TxKind.ofByte? (openTel 0x405).kind ≠ some .close := by
  decide +kernel

theorem meets_CommitRelistMoves :
    let o := fixOutcome none (some (.pass, 0x40)) .enforce
    let s := relisting (moveTel 9) fun w => { w with outcome := some o, settled := some reel }
    s.engine.phase = .commitRelist ∧ s.running = true ∧ s.zoneWait.head? = some .engine ∧ o.transition = true ∧
      TxKind.ofByte? (moveTel 9).kind = some .move ∧ zonedResult .move reel.state .line = some .exposed ∧
      (s.engine.work.map fun w => zone? w.zone) = some (some 9) ∧ (s.tables.zone 9).kind = .line ∧
      ZoneKind.line ∈ suitedKinds .move ∧ s.record? 15 = some { reel with held := true } ∧ s.zoneOf? 15 = some 4 ∧
      (s.tables.zone 4).kind ≠ .unset ∧ (fixOutcome (some .zoneKind) none .enforce).transition = false ∧
      reel.state ∉ legalStates .issue ∧ TxKind.ofByte? (tel 0x15 (idBytes 0x405 ++ [9])).kind = some .demount ∧
      (holding { reel with state := .overrun, held := true } part).record? 15
        = some { reel with state := .overrun, held := true } ∧
      (holding { reel with state := .expired, zonePart := none, held := true } part).record? 15
        = some { reel with state := .expired, zonePart := none, held := true } ∧
      TxKind.move ∈ ([.store, .issue, .move, .mount, .demount] : List TxKind) := by decide +kernel

/-- A zone that is NONE, one that does not exist, and one whose kind does not suit. -/
theorem meets_CommitRelistMoves_faults :
    let kindOf (z : Byte) := (relisting (moveTel z) id).engine.work.map (relisting (moveTel z) id).bodyKind
    kindOf 31 = some .unset ∧ kindOf 32 = some .unset ∧ kindOf 1 = some .dry ∧ ZoneKind.dry ∉ suitedKinds .move ∧
      ZoneKind.unset ∉ suitedKinds .move ∧ zonedResult .move reel.state .dry = some .exposed ∧
      zonedResult .move reel.state .unset = some .exposed := by decide +kernel

/-- The bake of the worked oven load, entered at 1,000. -/
def baked : BakePart := { oven := 40, tier := 1, entered := 1000, preState := .exposed }

def inOven : Record := { reel with state := .baking, zonePart := none, bakePart := some baked, held := true }

def bakeOutTel : Telegram := { tel 0x17 (idBytes 0x405 ++ [4]) with source := 40 }

theorem meets_CommitBakes :
    let o := fixOutcome none (some (.pass, 0x40)) .enforce
    let t := { tel 0x16 (idBytes 0x405 ++ [3]) with source := 40 }
    let s := relisting t fun w => { w with outcome := some o, settled := some reel }
    let b := asking (engineAt .commitRelist bakeOutTel
      (fun w => { w with held := some 15, outcome := some o, settled := some inOven }) (holding inOven part))
    s.engine.phase = .commitRelist ∧ s.running = true ∧ s.zoneWait.head? = some .engine ∧ o.transition = true ∧
      s.record? 15 = some { reel with held := true } ∧ TxKind.ofByte? t.kind = some .bakeIn ∧ reel.state = .exposed ∧
      tierOf t = (3 : Fin 4).val ∧ s.zoneOf? 15 = some 4 ∧ (s.tables.zone 4).kind ≠ .unset ∧ (s.zone 4).watch.Nodup ∧
      b.record? 15 = some inOven ∧ TxKind.ofByte? bakeOutTel.kind = some .bakeOut ∧ inOven.state = .baking ∧
      inOven.bakePart = some baked ∧ (b.engine.work.map fun w => zone? w.zone) = some (some 4) ∧
      (b.tables.zone 4).kind ≠ .unset ∧ class5.bakeLimit < min 15 (2 + 1) ∧ min 15 (1 + 1) ≤ class5.bakeLimit ∧
      baked.preState ≠ .expired ∧ { baked with preState := .expired }.preState = .expired := by decide +kernel

/-- A BAKE-OUT to a zone that has become NONE. -/
theorem meets_CommitBakes_fault :
    let b := asking (engineAt .commitRelist { bakeOutTel with body := idBytes 0x405 ++ [31] } (fun w => { w with held := some 15 })
      (holding inOven part))
    b.engine.work.map b.bodyKind = some .unset ∧ inOven.zonePart = none := by decide +kernel

theorem meets_CommitCreates :
    let o := fixOutcome none (some (.pass, 0x40)) .enforce
    let r := { reel with held := true }
    let s := asking (engineAt .commitRelist (openTel 0x405) (fun w => { w with created := some 15, outcome := some o })
      (holding { r with zonePart := none } part))
    let p := relisting (splitTel 6) fun w => { w with outcome := some o, settled := some reel }
    s.engine.phase = .commitRelist ∧ s.running = true ∧ s.zoneWait.head? = some .engine ∧ o.transition = true ∧
      (s.engine.work.map fun w => (zone? w.zone, w.held, w.created)) = some (some 4, none, some 15) ∧
      s.record? 15 = some { r with zonePart := none } ∧ TxKind.ofByte? (openTel 0x405).kind = some .open_ ∧
      (s.tables.zone 4).kind ≠ .unset ∧ (s.tables.zone 31).kind = .unset ∧ s.table.room 6 = true ∧
      TxKind.ofByte? (splitTel 6).kind = some .split ∧ (p.engine.work.map fun w => zone? w.zone) = some (some 9) ∧
      p.record? 15 = some r ∧ reel.state ∈ legalStates .split ∧ (p.tables.zone 9).kind ≠ .unset ∧
      (p.tables.cls r.cls).floorLife ≠ 0 ∧ p.table.room (childIdOf (splitTel 6)) = true := by decide +kernel

/-- A child's zone that is NONE, a class that is not configured, and no room for the child. -/
theorem meets_CommitCreates_faults :
    let n := relisting { splitTel 6 with body := idBytes 0x405 ++ idBytes 6 ++ [31] } id
    let o := relisting { openTel 0x405 with body := idBytes 0x405 ++ [5, 31, 0, 0] } id
    n.engine.work.map n.bodyKind = some .unset ∧ o.engine.work.map o.bodyKind = some .unset ∧
      (Tables.default.cls reel.cls).floorLife = 0 ∧ fullSet.record? 15 = some reel ∧
      fullSet.table.room (childIdOf (splitTel 0x0001000000000004)) = false ∧ fullSet.table.poolFree = [] := by
  decide +kernel

/-- The pool records of that table are not in use. -/
theorem meets_CommitCreates_pool : ∀ j ∈ (holding reel part).table.poolFree, (holding reel part).record? j = none := by
  decide +kernel

theorem meets_UnlinkLeavesTheList :
    let r := { reel with held := true }
    let s := asking (engineAt .commitUnlink closeTel (fun w => { w with held := some 15 }) (holding r part))
    s.engine.phase = .commitUnlink ∧ s.running = true ∧ s.zoneWait.head? = some .engine ∧ s.record? 15 = some r ∧
      r.held = true ∧ (r.zonePart.map ZonePart.zone) = some 4 ∧ (s.zone 4).watch.Nodup ∧
      (s.tables.zone 4).kind ≠ .unset := by decide +kernel

/-! Batches -/

def batch : Batch :=
  { oven := 40, tier := 1, openTime := 900, members := [7, 15], longest := 14400, deadline := 44100, stalePosted := false }

theorem meets_BatchMembership :
    let s := engineAt .commitJoin (tel 0x16 (idBytes 0x405 ++ [1])) (fun w => { w with held := some 15 })
      (holding inOven { part with batches := part.batches.set 1 (some batch) })
    let l := engineAt .commitLeave (tel 0x17 (idBytes 0x405 ++ [4]))
      (fun w => { w with held := some 15, settled := some inOven })
      (holding inOven { part with batches := part.batches.set 0 (some { batch with members := [15] }) })
    s.engine.phase = .commitJoin ∧ s.running = true ∧ s.record? 15 = some inOven ∧ inOven.bakePart = some baked ∧
      s.batches[1] = some batch ∧ batch.oven = baked.oven ∧ s.batches[0] = none ∧
      (∀ j : Fin 16, part.batches[j.val] = none) ∧ l.engine.phase = .commitLeave ∧
      l.batches[0] = some { batch with members := [15] } ∧ batch.members = [7] ++ 15 :: [] ∧ 15 ∉ [7] ∧
      ([7] ++ [] : List Nat) ≠ [] := by decide +kernel

/-- A bake of exactly the required seconds, and one of a second less. -/
theorem meets_BakeOutcomeTable :
    class5.bake[baked.tier.val] * 60 ≤ 15400 - baked.entered ∧ 15399 - baked.entered < class5.bake[baked.tier.val] * 60 :=
  by decide +kernel

def placing (q : OutputQueue) (s : State) : State :=
  engineAt .placing (moveTel 9) (fun w => { w with output := some { queue := q, tel := moveTel 9 } }) s

theorem meets_OutputPlaced :
    let full := { part with upRelay := List.replicate 16 (moveTel 9), answers := List.replicate 16 (moveTel 9) }
    let idle := onPlant (fun p => { p with tx := .idle }) (onFloor (fun p => { p with tx := .idle }) part)
    (placing .upRelay part).engine.phase = .placing ∧ part.running = true ∧
      ((placing .upRelay part).engine.work.bind Work.output) = some { queue := .upRelay, tel := moveTel 9 } ∧
      part.upRelay.length < 16 ∧ part.plant.tx ≠ .idle ∧ part.answers.length < 16 ∧ part.floor.tx ≠ .idle ∧
      idle.plant.tx = .idle ∧ idle.floor.tx = .idle ∧ idle.upRelay = [] ∧ idle.replies = [] ∧ idle.notices.entries = [] ∧
      idle.answers = [] ∧ idle.downRelay = [] ∧ 16 ≤ full.upRelay.length ∧ 16 ≤ full.answers.length := by decide +kernel

theorem meets_TimersAndTheirRequests :
    let s := retained (fun r => { r with monotonic := 60 }) part
    let b := holding reel { part with
      batches := part.batches.set 15 (some { batch with members := [15], deadline := 0 }), batchWait := [15] }
    s.live = true ∧ (s.tables.zone 4).kind ≠ .unset ∧ (s.zone 4).lastAdvance + (s.tables.zone 4).interval = 60 ∧
      (s.zone 4).lastAdvance + (s.tables.zone 4).interval ≤ s.now ∧ ZoneRequest.timer 4 ∉ s.zoneWait ∧
      b.live = true ∧ b.batches[15] = some { batch with members := [15], deadline := 0 } ∧ 15 ∉ part.batchWait ∧
      15 ∈ b.batchWait ∧ b.record? 15 = some reel ∧ b.plant.tx ≠ .idle ∧
      { s with zoneWait := [.timer 4] }.zoneWait.head? = some (.timer 4) ∧ s.zoneWait.head? ≠ some (.timer 4) ∧
      (s.tables.zone 31).kind = .unset ∧ part.now < (part.zone 4).lastAdvance + (part.tables.zone 4).interval ∧
      (let x := { part with zones := part.zones.set 4 { part.zones[4] with lastAdvance := 4294967236 } };
        4294967295 < (x.zone 4).lastAdvance + (x.tables.zone 4).interval) ∧
      ZoneRequest.timer 4 ∈ { s with zoneWait := [.timer 4] }.zoneWait := by decide +kernel

/-! Management requests -/

theorem serving (body : List Byte) (op : MgmtOp) (s : State) (h1 : s.running = true) (h2 : decodeRequest body = .ok op) :
    (agentAt body s).Serving (request body) op := ⟨rfl, h1, h2⟩

theorem meets_ReadsChangeNothing :
    (agentAt [0x01, 0] part).Serving (request [0x01, 0]) (.readStatus false) ∧
      (agentAt [0x01, 1] part).Serving (request [0x01, 1]) (.readStatus true) ∧
      (agentAt [0x04, 0x0B, 0, 15] part).Serving (request [0x04, 0x0B, 0, 15]) (.readRow 0x0B 15) ∧
      (agentAt [0x06, 0, 0, 0, 0, 0, 0, 4, 5] part).Serving (request [0x06, 0, 0, 0, 0, 0, 0, 4, 5]) (.readRecord 0x405) ∧
      (holding reel part).table.find? 0x405 = some (15, reel) ∧ part.table.find? 0x405 = none ∧
      (agentAt [0x0B, 15, 63] part).Serving (request [0x0B, 15, 63]) (.readBatch 15 63) :=
  ⟨serving _ _ _ (by decide +kernel) (by decide +kernel), serving _ _ _ (by decide +kernel) (by decide +kernel),
    serving _ _ _ (by decide +kernel) (by decide +kernel), serving _ _ _ (by decide +kernel) (by decide +kernel),
    by decide +kernel, by decide +kernel, serving _ _ _ (by decide +kernel) (by decide +kernel)⟩

/-- Big-endian fields, and an absent one (00, sections 4.4 and 4.5). -/
theorem test_fields : FieldAt [0x12, 0x34, 0xFF] 0 2 (some 0x1234) ∧ FieldAt [0x12, 0x34, 0xFF] 2 1 none := by
  unfold FieldAt
  decide

/-- A batch whose members are listed from a position inside and beyond its list. -/
theorem meets_ReadsChangeNothing_batch :
    min 12 (batch.members.length - 1) = 1 ∧ min 12 (batch.members.length - 63) = 0 ∧ batch.members[1 + 0]? = some 15 := by
  decide +kernel

/-- A COMPARE-IMAGE runs in the Image Store. -/
def comparing (s : State) : State := { s with store := { s.store with run := some (.compare 1 7) } }

/-- A body for each case of R32, and bodies that pass. -/
theorem meets_RequestsRefused_bodies :
    requestRefusal? [] = some .badValue ∧ requestRefusal? [0x12] = some .unknownOp ∧
      requestRefusal? [0x06, 1] = some .badValue ∧ requestRefusal? [0x05, 0x0A, 0, 0] = some .badTable ∧
      requestRefusal? [0x04, 0x0B, 0, 16] = some .badRow ∧ requestRefusal? [0x04, 0x0B, 0, 15] = none ∧
      requestRefusal? [0x05, 0x01, 0, 254, 3] = some .badValue ∧ requestRefusal? [0x05, 0x01, 0, 254, 8, 31] = some .badValue ∧
      requestRefusal? [0x05, 0x01, 0, 254, 7, 31] = none ∧ requestRefusal? [0x09, 32, 0] = some .badValue ∧
      (agentAt [0x12] part).agent.phase = .executing (request [0x12]) ∧ (agentAt [0x12] part).running = true := by
  decide +kernel

theorem meets_RequestsRefused :
    decodeRequest [0x12] = .error .unknownOp ∧ decodeRequest [] = .error .badValue ∧
      (agentAt [0x0D] { part with mode := .watch }).Serving (request [0x0D]) .saveImage ∧
      MgmtOp.saveImage.command? = some .saveImage ∧ MgmtOp.saveImage.NeedsSetup ∧ Mode.watch ≠ .setup ∧
      (agentAt [0x0E] { part with mode := .watch }).Serving (request [0x0E]) .loadImage ∧
      (agentAt [0x0D] (comparing part)).Serving (request [0x0D]) .saveImage ∧
      MgmtOp.saveImage.NeedsStore .setup ∧ (comparing part).store.run ≠ none ∧ (comparing part).mode = .setup :=
  ⟨by decide +kernel, by decide +kernel, serving _ _ _ (by decide +kernel) (by decide +kernel), rfl, .inr (.inl rfl), by decide,
    serving _ _ _ (by decide +kernel) (by decide +kernel), serving _ _ _ (by decide +kernel) (by decide +kernel),
    .inr (.inl rfl), by decide +kernel, by decide +kernel⟩

/-- R176 at its bounds: WRITE-ROW of the tables 0x02 and 0x08 needs SETUP and the store, of 0x01 and 0x09 the store alone, as do
RESET-PART and a SET-MODE out of SETUP. -/
theorem meets_RequestsRefused_rows (i : Fin 255) (r : StationRow) (z : Fin 32) (x : ZoneConfig) (a : Action) (p : PartConfig) :
    MgmtOp.NeedsSetup (.writeRow (.zone z x)) ∧ MgmtOp.NeedsSetup (.writeRow (.dflt true a)) ∧
      ¬MgmtOp.NeedsSetup (.writeRow (.station i r)) ∧ ¬MgmtOp.NeedsSetup (.writeRow (.part p)) ∧
      MgmtOp.NeedsStore (.writeRow (.station i r)) .watch ∧ MgmtOp.NeedsStore .resetPart .watch ∧
      MgmtOp.NeedsStore (.setMode .watch) .setup ∧ ¬MgmtOp.NeedsStore (.setMode .setup) .setup ∧
      ¬MgmtOp.NeedsStore (.setMode .watch) .enforce := by
  simp [MgmtOp.NeedsSetup, MgmtOp.NeedsStore, RowWrite.place]

theorem meets_SetModeValidates :
    (agentAt [0x02, 1] part).Serving (request [0x02, 1]) (.setMode .watch) ∧ part.store.run = none ∧ part.mode = .setup ∧
      part.tables.rhThresholds.toList.Pairwise (· < ·) ∧ part.tables.tempThresholds.toList.Pairwise (· < ·) ∧
      (∃ z : Fin 32, (part.tables.zone z).kind ≠ .unset) ∧ (∀ z : Fin 32, (Tables.default.zone z).kind = .unset) ∧
      ¬Tables.default.rhThresholds.toList.Pairwise (· < ·) ∧ ¬Tables.default.tempThresholds.toList.Pairwise (· < ·) :=
  ⟨serving _ _ _ (by decide +kernel) (by decide +kernel), by decide +kernel⟩

theorem meets_TimeFlagsAndCounters :
    (agentAt [0x03, 255, 255, 255, 255] part).Serving (request [0x03, 255, 255, 255, 255]) (.setTime 4294967295) ∧
      part.retention.monotonic ≤ 4294967295 ∧
      (agentAt [0x10] part).Serving (request [0x10]) .clearStartCause ∧
      (agentAt [0x0C, 0, 63] part).Serving (request [0x0C, 0, 63]) (.clearRules (some 63)) ∧
      (agentAt [0x0C, 1, 255] part).Serving (request [0x0C, 1, 255]) (.clearFaults none) :=
  ⟨serving _ _ _ (by decide +kernel) (by decide +kernel), by decide +kernel,
    serving _ _ _ (by decide +kernel) (by decide +kernel), serving _ _ _ (by decide +kernel) (by decide +kernel),
    serving _ _ _ (by decide +kernel) (by decide +kernel)⟩

/-- WRITE-ROW of station row 254, of the part configuration row and of pass default B. -/
def stationBody : List Byte := [0x05, 0x01, 0, 254, 3, 31]
def partBody : List Byte := [0x05, 0x09, 0, 0, 9, 1, 2, 7, 0, 1, 7, 1, 2, 0]
def defaultBody : List Byte := [0x05, 0x08, 0, 1, 1, 0xFD, 2, 0x48, 63]

theorem meets_RowsWritten :
    (agentAt stationBody part).Serving (request stationBody)
        (.writeRow (.station 254 { cls := .line, home := some 31 })) ∧
      MgmtOp.command? (.writeRow (.station 254 { cls := .line, home := some 31 })) = some .stationWrite ∧
      (∃ rw, (agentAt partBody part).Serving (request partBody) (.writeRow rw) ∧
        MgmtOp.command? (.writeRow rw) = some .partConfigurationWrite) ∧
      (∃ rw, (agentAt defaultBody part).Serving (request defaultBody) (.writeRow rw) ∧
        MgmtOp.command? (.writeRow rw) = some .policyTableWrite) ∧
      part.mode = .setup ∧ part.store.run = none :=
  ⟨serving _ _ _ (by decide +kernel) (by decide +kernel), rfl,
    ⟨.part { own := 9, supervisor := 1, startMode := .enforce, floor := .default, lineReset := false,
             plant := { divisor := 7, x64 := true, twoStops := true } },
      serving _ _ _ (by decide +kernel) (by decide +kernel), rfl⟩,
    ⟨.dflt true { Action.default with
        verdict := .mark, reason := 0xFD, notice := .high, worst := true, count := true, counter := 63 },
      serving _ _ _ (by decide +kernel) (by decide +kernel), rfl⟩,
    by decide +kernel, by decide +kernel⟩

/-- WRITE-ROW of zone 4: the same kind, and kind NONE. -/
def zoneBody (kind : Byte) : List Byte := [0x05, 0x02, 0, 4, kind, 14, 16, 0, 60, 0, 64, 0, 128]

theorem meets_ZoneRowWritten :
    let s := holding reel part
    (agentAt (zoneBody 1) part).Serving (request (zoneBody 1)) (.writeRow (.zone 4 (zoneRow .floor))) ∧
      part.mode = .setup ∧ part.store.run = none ∧ part.AgentTurn ∧
      (agentAt (zoneBody 0) s).Serving (request (zoneBody 0)) (.writeRow (.zone 4 (zoneRow .unset))) ∧
      (s.zone 4).watch ≠ [] ∧ (s.tables.zone 4).kind ≠ (zoneRow .unset).kind ∧ (part.zone 4).watch = [] ∧
      (part.tables.zone 4).kind ≠ .unset ∧ (Tables.default.zone 4).kind = .unset :=
  ⟨serving _ _ _ (by decide +kernel) (by decide +kernel), by decide +kernel, by decide +kernel, .inl (by decide +kernel),
    serving _ _ _ (by decide +kernel) (by decide +kernel), by decide +kernel⟩

/-- A row of kind NONE over a zone of kind NONE, and over a configured one. -/
theorem meets_ZoneRowWritten_none :
    let s := { part with tables := { tables with zones := Tables.default.zones } }
    (agentAt (zoneBody 0) s).Serving (request (zoneBody 0)) (.writeRow (.zone 4 (zoneRow .unset))) ∧ s.mode = .setup ∧
      s.store.run = none ∧ s.AgentTurn ∧ (s.tables.zone 4).kind = .unset ∧ (zoneRow .unset).kind = .unset ∧
      (s.zone 4).watch = [] ∧ (part.tables.zone 4).kind ≠ .unset :=
  ⟨serving _ _ _ (by decide +kernel) (by decide +kernel), by decide +kernel, by decide +kernel, .inl (by decide +kernel),
    by decide +kernel, rfl, by decide +kernel, by decide +kernel⟩

/-- R67, R72: a write that shortens the staleness limit posts ZONE-STALE; one of kind NONE over kind NONE posts nothing. -/
theorem test_zone_write_notices :
    let x : Zone :=
      { part.zone 4 with
        stale := false, fused := some { temp := 0, rh := 0, rhBand := 0, tempBand := 1 }
        slots := (part.zone 4).slots.set 0 { temp := 0, rh := 0, arrival := 0, valid := true } }
    let s := retained (fun r => { r with monotonic := 4000 }) (agentAt (zoneBody 1) { part with zones := part.zones.set 4 x })
    let n := agentAt (zoneBody 0) { part with tables := { tables with zones := Tables.default.zones } }
    ((after .zoneConfigurationWrite s).notices.entries.map fun n => (n.kind, n.zone)) = [(.zoneStale, some 4)] ∧
      (after .zoneConfigurationWrite n).notices.entries = [] ∧
      (after .zoneConfigurationWrite n).zones = part.zones := by decide +kernel

/-- WRITE-ROW of the last grid cell. -/
def gridBody : List Byte := [0x05, 0x03, 0, 47, 3, 255, 1]

theorem meets_GridRowWritten :
    (agentAt gridBody part).Serving (request gridBody) (.writeRow (.grid 47 { rate := 1023, dry := true })) ∧
      MgmtOp.command? (.writeRow (.grid 47 { rate := 1023, dry := true })) = some .gridWrite ∧ part.mode = .setup ∧
      part.store.run = none ∧ part.AgentTurn ∧ (part.tables.zone 4).kind ≠ .unset ∧ (part.zone 4).stale = true :=
  ⟨serving _ _ _ (by decide +kernel) (by decide +kernel), rfl, by decide +kernel, by decide +kernel,
    .inl (by decide +kernel), by decide +kernel, by decide +kernel⟩

/-- A zone that is not stale at the top of the grid: with a fresh reading, and with one that has aged. -/
theorem meets_GridRowWritten_fresh :
    let x : Zone :=
      { part.zone 4 with
        stale := false, fused := some { temp := 400, rh := 700, rhBand := 7, tempBand := 5 }
        slots := (part.zone 4).slots.set 0 { temp := 400, rh := 700, arrival := 0, valid := true } }
    x.stale = false ∧ x.HasFresh 3600 3600 ∧ ¬x.HasFresh 3600 3601 ∧
      x.fused = some { temp := 400, rh := 700, rhBand := 7, tempBand := 5 } := by
  unfold Zone.HasFresh
  decide +kernel

/-- A part that holds one listed record, with a command waiting. -/
def listed : State := { holding reel part with pending := [.telegramSent .plant] }

theorem meets_ListsStayRight : listed.ListsRight where
  table := right_of (canonical_holding reel) (fun _ _ => ways_holding) rfl (by decide +kernel) (by decide +kernel)
  once := by decide +kernel
  ordered := by decide +kernel
  member z i h := by
    obtain ⟨rfl, rfl⟩ := watch_holding z i h
    exact ⟨reel, _, rfl, rfl, rfl, by decide +kernel⟩
  listed i r h _ _ _ := by
    obtain ⟨rfl, rfl⟩ := record_holding (s := part) h
    exact ⟨_, rfl, by decide +kernel⟩
  zoned i r h _ := by obtain ⟨rfl, rfl⟩ := record_holding (s := part) h; rfl
  baking i r h hb := by obtain ⟨rfl, rfl⟩ := record_holding (s := part) h; exact absurd rfl hb
  held i w r h := by cases (show none = some w from h)
  unlinked i z h := by cases (show EnginePhase.idle = .commitDelete from h.1)
  created i r h := by cases (show EnginePhase.idle = .commitRelist from h.1)
  creating w h := by cases (show EnginePhase.idle = .commitCreate from h)
  stopped _ := rfl

/-- WRITE-ROW of class 5: its row, and a row that unconfigures it. -/
def classBody (life : List Byte) : List Byte :=
  [0x05, 0x05, 0, 5] ++ life ++ [80, 0, 240, 5, 2, 208, 0, 120, 0, 240, 0, 0, 0, 0, 2]

theorem meets_ClassRowWritten :
    let s := holding reel part
    let z := monitorAt .freezing s
    (agentAt (classBody [0, 0, 39, 96]) s).Serving (request (classBody [0, 0, 39, 96])) (.writeRow (.cls 5 class5)) ∧
      (agentAt (classBody [0, 0, 0, 0]) s).Serving (request (classBody [0, 0, 0, 0]))
        (.writeRow (.cls 5 { class5 with floorLife := 0 })) ∧
      (agentAt (classBody [0, 0, 39, 96]) z).Serving (request (classBody [0, 0, 39, 96])) (.writeRow (.cls 5 class5)) ∧
      s.mode = .setup ∧ s.store.run = none ∧ s.table.classCounts[5] ≠ 0 ∧ part.table.classCounts[5] = 0 ∧
      class5.floorLife ≠ 0 ∧ s.stopping = false ∧ z.stopping = true ∧ z.agent.completion = none :=
  ⟨serving _ _ _ (by decide +kernel) (by decide +kernel), serving _ _ _ (by decide +kernel) (by decide +kernel),
    serving _ _ _ (by decide +kernel) (by decide +kernel), by decide +kernel, by decide +kernel, by decide +kernel,
    by decide +kernel, by decide +kernel, by decide +kernel, by decide +kernel, by decide +kernel⟩

/-- A SPLIT whose relist waits to create its child. -/
def splitWaits : State :=
  relisting (splitTel 6) fun w => { w with outcome := some (fixOutcome none (some (.pass, 0x40)) .enforce), settled := some reel }

theorem meets_ClassRowWritten_split :
    (agentAt (classBody [0, 0, 39, 96]) splitWaits).Serving (request (classBody [0, 0, 39, 96])) (.writeRow (.cls 5 class5)) ∧
      splitWaits.SplitToCreate ∧ splitWaits.mode = .setup ∧ splitWaits.store.run = none ∧
      splitWaits.table.classCounts[5] ≠ 0 ∧ splitWaits.stopping = false ∧ ¬(holding reel part).SplitToCreate ∧
      (rekeying [.engine, .agent] splitWaits).SplitToCreate :=
  ⟨serving _ _ _ (by decide +kernel) (by decide +kernel),
    ⟨rfl, _, _, _, _, rfl, by decide +kernel, rfl, rfl, rfl, rfl, by decide +kernel⟩, by decide +kernel, by decide +kernel,
    by decide +kernel, by decide +kernel, fun h => (nomatch (show EnginePhase.idle = .commitRelist from h.1)),
    ⟨rfl, _, _, _, _, rfl, by decide +kernel, rfl, rfl, rfl, rfl, by decide +kernel⟩⟩

/-- R178: the relist goes first and creates; then the class write begins its rekey. -/
theorem test_class_write_waits_for_split :
    let s := agentAt (classBody [0, 0, 39, 96]) splitWaits
    (after .classWrite s).zoneWait = [.engine] ∧ (after .commitRelist (after .classWrite s)).table.classCounts[5] = 2 ∧
      (after .classWrite (after .commitRelist (after .classWrite s))).agent.phase ≠ s.agent.phase := by decide +kernel

/-- The rekey that has begun: behind another request, at its turn, while a create waits, and when a freeze begins. -/
theorem meets_ClassRowWritten_begun :
    let s := rekeying [.agent] part
    s.agent.phase = .rekeying (request [0x05, 0x05, 0, 5]) 5 class5 ∧ s.live = true ∧ s.AgentTurn ∧
      ¬(rekeying [.engine] part).AgentTurn ∧ (engineAt .commitCreate (openTel 6) id s).engine.phase = .commitCreate ∧
      (monitorAt .failPending s).retention.monitor = .failPending ∧ s.retention.quiesce = none ∧
      s.agent.completion = none :=
  ⟨rfl, by decide +kernel, .inr rfl, fun h => by rcases h with h | h <;> revert h <;> decide +kernel, rfl, rfl, rfl, rfl⟩

/-- The reel in zone 4, and an expired reel of class 6. -/
def twoReels : State :=
  { holding reel part with
    table := { part.table with
      records := [(14, { reel with cls := 6, state := .expired, zonePart := none }), (15, reel)]
      classCounts := (part.table.classCounts.set 5 1).set 6 1 } }

theorem record_twoReels {i : Nat} {r : Record} (h : twoReels.record? i = some r) :
    (i = 14 ∧ r = { reel with cls := 6, state := .expired, zonePart := none }) ∨ (i = 15 ∧ r = reel) := by
  unfold State.record? twoReels lookupKey at h
  split at h
  · exact .inl ⟨‹14 = i›.symm, (Option.some.inj h).symm⟩
  · exact .inr (record_holding (s := part) h)

theorem lists_twoReels : twoReels.ListsRight where
  table := by
    refine right_of ⟨by decide, List.Pairwise.nil, fun _ h => nomatch h⟩ (fun i r h => ?_) rfl (by decide +kernel)
      (by decide +kernel)
    rcases record_twoReels h with h | h <;> omega
  once := by decide +kernel
  ordered := by decide +kernel
  member z i h := by
    obtain ⟨rfl, rfl⟩ := watch_holding z i h
    exact ⟨reel, _, rfl, rfl, rfl, by decide +kernel⟩
  listed i r h hz _ _ := by
    rcases record_twoReels h with ⟨rfl, rfl⟩ | ⟨rfl, rfl⟩
    · cases hz
    · exact ⟨_, rfl, by decide +kernel⟩
  zoned i r h hz := by
    rcases record_twoReels h with ⟨rfl, rfl⟩ | ⟨rfl, rfl⟩
    · exact absurd rfl hz
    · rfl
  baking i r h hb := by rcases record_twoReels h with ⟨rfl, rfl⟩ | ⟨rfl, rfl⟩ <;> exact absurd rfl hb
  held i w r h := by cases (show none = some w from h)
  unlinked i z h := by cases (show EnginePhase.idle = .commitDelete from h.1)
  created i r h := by cases (show EnginePhase.idle = .commitRelist from h.1)
  creating w h := by cases (show EnginePhase.idle = .commitCreate from h)
  stopped _ := rfl

/-- A rekey at its turn, of the class of the listed record and of another class, with a record that has no zone. -/
theorem meets_ClassRowWritten_rekey :
    let s := rekeying [.agent] twoReels
    let o := { s with agent := { s.agent with phase := .rekeying (request [0x05, 0x05, 0, 6]) 6 class5 } }
    s.ListsRight ∧ o.ListsRight ∧ 15 ∈ (s.zone 4).watch ∧ (s.tables.zone 4).kind ≠ .unset ∧ s.record? 15 = some reel ∧
      reel.cls = 5 ∧ ((after .classWrite s).zone 4).wear < s.keyOf 15 ∧
      ((after .classWrite o).zone 4).wear < o.keyOf 15 ∧ (s.record? 14).map Record.zonePart = some none :=
  let h := lists_twoReels
  ⟨⟨h.table, h.once, h.ordered, h.member, h.listed, h.zoned, h.baking, h.held, h.unlinked, h.created, h.creating, h.stopped⟩,
    ⟨h.table, h.once, h.ordered, h.member, h.listed, h.zoned, h.baking, h.held, h.unlinked, h.created, h.creating, h.stopped⟩,
    by decide +kernel, by decide +kernel, rfl, rfl, by decide +kernel, by decide +kernel, by decide +kernel⟩

/-- R102, R106: under a shorter floor life the reel, settled, crosses warn point and budget in the rekey; the notices stand in
that order, with its zone, no station and the percent under the new row. -/
theorem test_rekey_posts :
    let s := rekeying [.agent] (holding { reel with consumed := 400000 } part)
    let s := { s with agent := { s.agent with phase := .rekeying (request [0x05, 0x05, 0, 5]) 5 { class5 with floorLife := 100 } } }
    let u := after .classWrite s
    (u.notices.entries.map fun n => (n.kind, n.zone, n.station, n.percent)) =
        [(.warn, some 4, none, some 104), (.limit, some 4, none, some 104)] ∧
      u.notices.entries = s.rekeyNotices u 5 ∧ (u.record? 15).map Record.state = some .expired ∧
      (match runAll [.timerRequest 1, .timerRequest 4, .timerRequest 9]
          { s with zoneWait := [.timer 1, .timer 4, .timer 9] } with
        | .next v => decide (v.notices.entries = [] ∧ v.rekeyNotices u 5 = u.notices.entries)
        | _ => false) = true := by decide +kernel

theorem meets_ZoneReadsAdvance :
    (agentAt [0x09, 31, 1] part).Serving (request [0x09, 31, 1]) (.readZone 31 true) ∧
      (agentAt [0x0A, 4, 0, 0] part).Serving (request [0x0A, 4, 0, 0]) (.listZone 4 0) ∧ part.AgentTurn ∧
      (part.tables.zone 4).kind ≠ .unset ∧ (part.tables.zone 31).kind = .unset :=
  ⟨serving _ _ _ (by decide +kernel) (by decide +kernel), serving _ _ _ (by decide +kernel) (by decide +kernel),
    .inl (by decide +kernel), by decide +kernel⟩

/-- A listed carrier that LIST-ZONE reports. -/
theorem meets_ZoneReadsAdvance_list :
    let s := holding reel part
    (s.zone 4).watch[0]? = some 15 ∧ (∀ i ∈ (s.zone 4).watch, s.record? i ≠ none) ∧ s.record? 15 = some reel ∧
      reel.zonePart ≠ none ∧ min 2 ((s.zone 4).watch.length - 0) = 1 := by decide +kernel

/-- WRITE-RECORD of the reel with every field selected. -/
def recordBody (cls : Byte) : List Byte := [0x07, 0, 0, 0, 0, 0, 0, 4, 5, 0x0F, cls, 0, 0, 0, 200, 15]

def recordWrite (cls : Fin 16) : RecordWrite := { cls := some cls, minutes := some 200, bakeCount := some 15, retire := true }

theorem meets_RecordWritten :
    let s := holding reel part
    (agentAt (recordBody 5) s).Serving (request (recordBody 5)) (.writeRecord 0x405 (recordWrite 5)) ∧
      (agentAt (recordBody 6) s).Serving (request (recordBody 6)) (.writeRecord 0x405 (recordWrite 6)) ∧
      (recordWrite 5).cls ≠ none ∧ (recordWrite 5).minutes ≠ none ∧ (recordWrite 5).bakeCount ≠ none ∧
      (recordWrite 5).retire = true ∧ part.table.find? 0x405 = none ∧ s.table.find? 0x405 = some (15, reel) ∧
      reel.held = false ∧ { reel with held := true }.held = true ∧ (s.tables.cls 5).floorLife ≠ 0 ∧
      (s.tables.cls 6).floorLife = 0 ∧ s.RecordTurn 0x405 ∧ reel.zonePart ≠ none ∧ ¬(asking s).AgentTurn ∧
      (asking part).RecordTurn 0x405 :=
  ⟨serving _ _ _ (by decide +kernel) (by decide +kernel), serving _ _ _ (by decide +kernel) (by decide +kernel),
    by decide, by decide, by decide, by decide, by decide +kernel, by decide +kernel, by decide, by decide,
    by decide +kernel, by decide +kernel, .inl (.inl (by decide +kernel)), by decide,
    fun h => by rcases h with h | h <;> revert h <;> decide +kernel,
    .inr ⟨by decide +kernel, fun i r h => nomatch (show (none : Option (Nat × Record)) = some (i, r) from h)⟩⟩

/-- A write that keeps the zone part, a retirement out of a zone, one out of an oven, alone and with another, and a record
without either part; and an ID that one record holds. -/
theorem meets_RecordWritten_parts :
    let s := holding reel part
    let free := { reel with state := .expired, zonePart := none }
    let oven (members : List Nat) := holding { inOven with held := false }
      { part with batches := part.batches.set 1 (some { batch with members := members }) }
    { recordWrite 5 with retire := false }.retire = false ∧ (∃ zp, reel.zonePart = some zp) ∧
      (s.tables.zone 4).kind ≠ .unset ∧ (s.zone 4).watch.Nodup ∧
      (oven [7, 15]).record? 15 = some { inOven with held := false } ∧ inOven.bakePart = some baked ∧
      (oven [7, 15]).batches[1] = some batch ∧ (oven [15]).batches[1] = some { batch with members := [15] } ∧
      batch.oven = baked.oven ∧ (∀ j : Fin 16, j < 1 → (oven [15]).batches[j.val] = none) ∧
      batch.members = [7] ++ 15 :: [] ∧ 15 ∉ [7] ∧ free.zonePart = none ∧ free.bakePart = none ∧
      { recordWrite 5 with minutes := none }.minutes = none ∧
      (∀ j r, s.record? j = some r → r.id = reel.id → j = 15) :=
  ⟨rfl, ⟨_, rfl⟩, by decide +kernel, by decide +kernel, rfl, rfl, rfl, rfl, rfl,
    by decide +kernel, rfl, by decide, rfl, rfl, rfl, fun j r h _ => by
      by_contra hj
      have : (holding reel part).record? j = none := by
        simp [State.record?, holding, lookupKey, Ne.symm hj]
      simp [this] at h⟩

theorem meets_RecordDeleted :
    let s := holding reel part
    (agentAt [0x08, 0, 0, 0, 0, 0, 0, 4, 5] s).Serving (request [0x08, 0, 0, 0, 0, 0, 0, 4, 5]) (.deleteRecord 0x405) ∧
      part.table.find? 0x405 = none ∧ s.table.find? 0x405 = some (15, reel) ∧ reel.held = false ∧
      { reel with held := true }.held = true ∧ s.table.Canonical ∧ s.RecordTurn 0x405 ∧ reel.zonePart ≠ none :=
  ⟨serving _ _ _ (by decide +kernel) (by decide +kernel), by decide +kernel, by decide +kernel, by decide, by decide,
    canonical_holding reel, .inl (.inl (by decide +kernel)), by decide⟩

/-! The Image Store -/

def saving (s : State) : State := { s with store := { s.store with run := some (.save s.tables 1 7) } }

/-- The agent executes a SAVE-IMAGE with the copy its request took. -/
def copied (s : State) : State :=
  { s with agent := { phase := .executing (request [0x0D]), completion := none, copy := some s.tables } }

theorem meets_ImageSavedAndCompared :
    part.mode = .setup ∧ part.store.run = none ∧ part.agent.completion = none ∧
      (copied part).Serving (request [0x0D]) .saveImage ∧ (copied part).agent.copy = some part.tables ∧
      (agentAt [0x0F] part).Serving (request [0x0F]) .compareImage ∧ (agentAt [0x0F] part).engine.phase ≠ .deciding ∧
      deciding.engine.phase = .deciding ∧ part.live = true ∧ (saving part).store.run = some (.save part.tables 1 7) ∧
      (comparing part).store.run = some (.compare 1 7) ∧ part.agent.phase = .idle ∧
      (agentAt [0x01, 0] part).agent.phase ≠ .idle :=
  ⟨by decide +kernel, by decide +kernel, by decide +kernel, ⟨rfl, by decide +kernel, by decide +kernel⟩, rfl,
    serving _ _ _ (by decide +kernel) (by decide +kernel), by decide +kernel, by decide +kernel, by decide +kernel, rfl, rfl,
    by decide +kernel, by decide +kernel⟩

/-- A SAVE-IMAGE in hand while the reply of a finished COMPARE-IMAGE waits. -/
theorem meets_ImageSavedAndCompared_behind :
    let s := { copied part with
      agent := { phase := .executing (request [0x0D]), completion := some ⟨1, 6, 0x0F, .done⟩, copy := some part.tables } }
    s.agent.phase = .executing (request [0x0D]) ∧ s.store.run = none ∧ s.agent.copy = some part.tables ∧
      s.agent.completion = some ⟨1, 6, 0x0F, .done⟩ ∧ goes .saveImage s = true := by decide +kernel

/-- An image with a check word that matches, and one whose check word does not. -/
theorem meets_ImageSavedAndCompared_good (t : Tables) :
    t.toImage.check = crc16 t.toImage.contents.imageBytes ∧
      { t.toImage with check := ~~~t.toImage.check }.check ≠ crc16 t.toImage.contents.imageBytes := by
  refine ⟨rfl, fun h => ?_⟩
  have h : ~~~crc16 t.imageBytes = crc16 t.imageBytes := h
  have := congrArg (fun x => x.getLsbD 0) h
  simp at this

/-- The replacement of a LOAD-IMAGE of tables waits. -/
def loading (new : Tables) (s : State) : State :=
  { s with
    store := { s.store with image := some new.toImage }, agent := { phase := .loading (request [0x0E]), completion := none }
    zoneWait := [.agent] }

theorem meets_ImageLoaded :
    let s := holding reel part
    (agentAt [0x0E] part).Serving (request [0x0E]) .loadImage ∧ part.mode = .setup ∧ part.store.run = none ∧
      part.store.good? = none ∧ (loading tables part).store.good? = some tables ∧
      (loading tables s).agent.phase = .loading (request [0x0E]) ∧ (loading tables s).live = true ∧
      (loading tables s).AgentTurn ∧ ¬{ loading tables s with zoneWait := [.engine] }.AgentTurn ∧
      s.table.classCounts[5] ≠ 0 ∧ (Tables.default.cls 5).floorLife = 0 ∧
      (∀ c : Fin 16, s.table.classCounts[c.val] ≠ 0 → (tables.cls c).floorLife ≠ 0) ∧
      (∀ z, (s.zone z).watch ≠ [] → (s.tables.zone z).kind = (tables.zone z).kind) ∧ (s.zone 4).watch ≠ [] ∧
      (s.tables.zone 4).kind ≠ (Tables.default.zone 4).kind :=
  ⟨serving _ _ _ (by decide +kernel) (by decide +kernel), by decide +kernel, by decide +kernel, by decide +kernel,
    ImageStore.good?_toImage _ _ rfl, rfl, by decide +kernel, .inr (by decide +kernel),
    fun h => by rcases h with h | h <;> revert h <;> decide +kernel, by decide +kernel, by decide +kernel,
    by decide +kernel, by decide +kernel, by decide +kernel, by decide +kernel⟩

/-- A zone that becomes configured, one that ceases to be, and one that is NONE before and after. -/
theorem meets_ImageLoaded_zones :
    let new := { tables with zones := (tables.zones.set 9 (zoneRow .unset)).set 2 (zoneRow .line) }
    let s := loading new part
    s.store.good? = some new ∧ (s.tables.zone 2).kind = .unset ∧ (new.zone 2).kind ≠ .unset ∧
      (s.tables.zone 9).kind ≠ .unset ∧ (new.zone 9).kind = .unset ∧ (s.tables.zone 31).kind = .unset ∧
      (new.zone 31).kind = .unset ∧ (∀ z, (s.zone z).watch ≠ [] → (s.tables.zone z).kind = (new.zone z).kind) :=
  ⟨ImageStore.good?_toImage _ _ rfl, by decide +kernel, by decide +kernel, by decide +kernel, by decide +kernel,
    by decide +kernel, by decide +kernel, by decide +kernel⟩

/-- A listed record under a LOAD-IMAGE of the same tables. -/
theorem meets_ImageLoaded_rekey :
    let s := loading tables (holding reel part)
    s.ListsRight ∧ 15 ∈ (s.zone 4).watch ∧ (s.tables.zone 4).kind ≠ .unset ∧ s.record? 15 = some reel ∧
      (s.zone 4).wearAt s.now < s.keyOf 15 :=
  let h := meets_ListsStayRight
  ⟨⟨h.table, h.once, h.ordered, h.member, h.listed, h.zoned, h.baking, h.held, h.unlinked, h.created, h.creating, h.stopped⟩,
    by decide +kernel, by decide +kernel, rfl, by decide +kernel⟩

def replying (reset : Bool) (s : State) : State :=
  { s with agent := { phase := .placing (tel 0x51 [0x11, 0]) reset, completion := none } }

theorem meets_RepliesPlaced :
    let full := { part with replies := List.replicate 4 (tel 0x51 []) }
    let idle := onPlant (fun p => { p with tx := .idle }) part
    part.running = true ∧ (replying false part).agent.phase = .placing (tel 0x51 [0x11, 0]) false ∧
      (replying false part).agent.completion = none ∧ part.replies.length < 4 ∧ part.plant.tx ≠ .idle ∧
      idle.plant.tx = .idle ∧ idle.replies = [] ∧ idle.upRelay = [] ∧ idle.notices.entries = [] ∧
      4 ≤ full.replies.length ∧ (agentAt [0x11] part).Serving (request [0x11]) .resetPart ∧ part.store.run = none ∧
      part.stopping = false ∧ (agentAt [0x11] part).agent.completion = none ∧ part.engine.phase = .idle :=
  ⟨by decide +kernel, rfl, rfl, by decide +kernel, by decide +kernel, rfl, by decide +kernel, by decide +kernel,
    by decide +kernel, by decide +kernel, serving _ _ _ (by decide +kernel) (by decide +kernel), by decide +kernel,
    by decide +kernel, rfl, by decide +kernel⟩

/-- The reply of a RESET-PART that waits in a part that is not stopping, with a transaction in flight, OFFERING or PLACING, and
with a completion reply behind it. -/
theorem meets_RepliesPlaced_reset :
    let flight := engineAt .deciding (moveTel 9) id part
    let out := engineAt .placing (moveTel 9) (fun w => { w with output := some ⟨.upRelay, moveTel 9⟩ }) part
    let behind := { replying true part with
      agent := { phase := .placing (tel 0x51 [0x11, 0]) true, completion := some ⟨1, 7, 0x0D, .done⟩ } }
    (replying true flight).agent.phase = .placing (tel 0x51 [0x11, 0]) true ∧ (replying true flight).stopping = false ∧
      (replying true flight).running = true ∧ (replying true flight).engine.phase ≠ .offering ∧
      (replying true flight).engine.phase ≠ .placing ∧ (replying true flight).engine.phase ≠ .idle ∧
      (replying true (offering 4 2 30)).engine.phase = .offering ∧ (replying true (offering 4 2 30)).stopping = false ∧
      (replying true out).engine.phase = .placing ∧ goes .outputPlace (replying true out) = true ∧
      (agentAt [0x11] flight).agent.phase = .executing (request [0x11]) ∧
      behind.agent.phase = .placing (tel 0x51 [0x11, 0]) true ∧ behind.agent.completion ≠ none := by decide +kernel

/-- The part as it stops for a LINE-BREAK. -/
def lineBroken : State :=
  { part with
    retention := { part.retention with
      quiesce := some { cause := .lineBreak, behind := 0, timed := false, stopped := false } } }

/-- A RESET-PART that the agent still executes, or whose reply it still places, when a LINE-BREAK quiesce has begun. -/
theorem meets_RepliesPlaced_stopping :
    (agentAt [0x11] lineBroken).Serving (request [0x11]) .resetPart ∧ lineBroken.store.run = none ∧
      lineBroken.running = true ∧ lineBroken.stopping = true ∧ lineBroken.replies.length < 4 ∧ lineBroken.plant.tx ≠ .idle ∧
      (agentAt [0x11] lineBroken).agent.completion = none ∧
      (replying true lineBroken).agent.phase = .placing (tel 0x51 [0x11, 0]) true ∧
      (replying true lineBroken).agent.completion = none ∧
      4 ≤ { lineBroken with replies := List.replicate 4 (tel 0x51 []) }.replies.length :=
  ⟨serving _ _ _ (by decide +kernel) (by decide +kernel), by decide +kernel, by decide +kernel, by decide +kernel,
    by decide +kernel, by decide +kernel, rfl, rfl, rfl, by decide +kernel⟩

/-! Supply, stops and starts -/

theorem meets_SupplyMonitorMoves :
    part.retention.monitor = .normal ∧ (monitorAt .failPending part).retention.monitor = .failPending ∧
      (monitorAt .freezing part).retention.monitor = .freezing ∧ (monitorAt .frozen part).retention.monitor = .frozen ∧
      (monitorAt .restorePending part).retention.monitor = .restorePending ∧
      (monitorAt .frozen part).retention.backupValid = true := by decide +kernel

theorem meets_FreezeRecords :
    let s := monitorAt .failPending part
    let f := monitorAt .freezing part
    s.retention.monitor = .failPending ∧ s.retention.quiesce = none ∧ s.engine.phase ≠ .offering ∧
      s.engine.phase ≠ .placing ∧ s.agent.phase = .idle ∧ s.agent.completion = none ∧
      (offering 4 2 30).engine.phase = .offering ∧
      (agentAt [0x06, 0, 0, 0, 0, 0, 0, 4, 5] s).agent.phase = .executing (request [0x06, 0, 0, 0, 0, 0, 0, 4, 5]) ∧
      decodeRequest (request [0x06, 0, 0, 0, 0, 0, 0, 4, 5]).body = .ok (.readRecord 0x405) ∧
      s.refusal? (.readRecord 0x405) = none ∧ decodeRequest (request []).body = .error .badValue ∧
      f.retention.monitor = .freezing ∧ f.engine.phase = .idle ∧ f.agent.phase = .idle ∧ f.agent.completion = none := by decide +kernel

/-- What the engine and the agent are at when a freeze begins: OFFERING, PLACING, a request of another block, one of the agent
alone, the read of a LOAD-IMAGE, a rekey that waits, and a reply in PLACING with room and without; and a completion that waits. -/
theorem meets_FreezeRecords_work :
    let s := monitorAt .failPending part
    let out := engineAt .placing (moveTel 9) (fun w => { w with output := some ⟨.upRelay, moveTel 9⟩ }) s
    let full := { s with replies := List.replicate 4 (tel 0x51 []) }
    (monitorAt .failPending (offering 4 2 30)).engine.phase = .offering ∧ out.engine.phase = .placing ∧
      goes .outputPlace out = true ∧ s.requestAlone (request [0x06, 0, 0, 0, 0, 0, 0, 4, 5]) = false ∧
      s.requestAlone (request [0x01, 0]) = true ∧ (agentAt [0x01, 0] s).agent.phase = .executing (request [0x01, 0]) ∧
      (loading tables s).agent.phase = .loading (request [0x0E]) ∧ (replying true s).agent.phase ≠ .idle ∧
      (replying false s).replies.length < 4 ∧ (replying false s).engine.phase ≠ .placing ∧
      goes .replyPlace (replying false s) = true ∧ 4 ≤ (replying false full).replies.length ∧
      { s with agent := { s.agent with completion := some ⟨1, 7, 0x0D, .done⟩ } }.agent.phase = .idle := by decide +kernel

def quiescing (q : Quiesce) (s : State) : State := retained (fun r => { r with quiesce := some q }) s

def commandQuiesce (behind : Nat) : Quiesce := { cause := .command, behind := behind, timed := false, stopped := false }

/-- A quiesce in progress, and one whose start is due, when a freeze begins. -/
theorem meets_FreezeRecords_quiesce :
    let s (q : Quiesce) := quiescing q (monitorAt .failPending part)
    (s (commandQuiesce 0)).retention.monitor = .failPending ∧
      (s (commandQuiesce 0)).retention.quiesce = some (commandQuiesce 0) ∧ (commandQuiesce 0).stopped = false ∧
      { commandQuiesce 0 with timed := true, stopped := true }.stopped = true := by decide +kernel

/-- A break of 50 ms that finds the engine OFFERING or PLACING, or the agent at work. -/
theorem meets_QuiesceRuns_work :
    let s := onPlant (fun p => { p with rx := .brk })
    (s (offering 4 2 30)).live = true ∧ (s (offering 4 2 30)).engine.phase = .offering ∧
      (s (engineAt .placing (moveTel 9) id part)).engine.phase = .placing ∧ (s (replying true part)).live = true ∧
      (s (agentAt [0x01, 0] part)).requestAlone (request [0x01, 0]) = true := by decide +kernel

theorem meets_QuiesceRuns :
    let s := onPlant (fun p => { p with rx := .brk }) part
    let w := quiescing (commandQuiesce 0) { part with replies := [tel 0x51 []] }
    let o := quiescing (commandQuiesce 0) (onPlant (fun p => { p with tx := .sending .reply [] }) part)
    s.plant.rx = .brk ∧ s.lineReset = true ∧ s.live = true ∧ s.engine.phase = .idle ∧ s.agent.phase = .idle ∧
      s.agent.completion = none ∧ w.retention.quiesce = some (commandQuiesce 0) ∧ w.engine.phase = .idle ∧
      w.agent.phase = .idle ∧ w.agent.completion = none ∧ (commandQuiesce 0).behind < w.replies.length ∧
      o.replies.length = (commandQuiesce 0).behind ∧ o.plant.tx = .sending .reply [] ∧
      { commandQuiesce 0 with cause := .lineBreak }.cause = .lineBreak := by decide +kernel

/-- A COMMAND quiesce that ends after its reply has gone: something else is being sent, or fewer replies wait than stood behind
it; and one whose freeze time is already recorded. -/
theorem meets_QuiesceRuns_gone :
    let o := quiescing (commandQuiesce 0) part
    (commandQuiesce 0).cause = .command ∧ o.replies.length = (commandQuiesce 0).behind ∧
      o.plant.tx = .sending .upRelay [] ∧ part.replies.length < (commandQuiesce 1).behind ∧
      { commandQuiesce 0 with timed := true }.stopped = false ∧
      { part with lineReset := false }.lineReset = false := by decide +kernel

theorem meets_PowerOnStartResets :
    cold.retention.monitor = .restorePending ∧ cold.retention.backupValid = false ∧ cold.store.good? = none ∧
      (retained (fun r => { r with backupValid := true }) cold).retention.checkValid = false := by decide +kernel

/-- A start with a good image, whose tables validate, and one of the tables of an erased part, which do not. -/
theorem meets_PowerOnStartResets_image :
    let s (new : Tables) := { cold with store := { cold.store with image := some new.toImage } }
    (s tables).store.good? = some tables ∧ (s Tables.default).store.good? = some Tables.default ∧
      (s tables).retention.monitor = .restorePending ∧ (s tables).retention.backupValid = false ∧
      tables.rhThresholds.toList.Pairwise (· < ·) ∧ tables.tempThresholds.toList.Pairwise (· < ·) ∧
      (∃ z : Fin 32, (tables.zone z).kind ≠ .unset) ∧ ¬Tables.default.rhThresholds.toList.Pairwise (· < ·) :=
  ⟨ImageStore.good?_toImage _ _ rfl, ImageStore.good?_toImage _ _ rfl, rfl, rfl, by decide +kernel, by decide +kernel,
    by decide +kernel, by decide +kernel⟩

/-- A part that waits in RESTORE-PENDING with its retained domain kept. -/
def warm : State :=
  retained (fun r => { r with monitor := .restorePending, checkValid := true, freezeTime := 100, monotonic := 500 })
    (holding reel part)

theorem meets_RestartKeepsAccounts :
    let q := quiescing { commandQuiesce 0 with timed := true, stopped := true } part
    warm.retention.monitor = .restorePending ∧ warm.retention.backupValid = true ∧ warm.retention.checkValid = true ∧
      (warm.tables.zone 4).kind ≠ .unset ∧ (warm.tables.zone 31).kind = .unset ∧
      q.retention.monitor ≠ .restorePending ∧
      q.retention.quiesce = some { commandQuiesce 0 with timed := true, stopped := true } := by decide +kernel

/-- R165: of two overdue batches the one not yet reported makes its request at the start; a batch at its deadline is overdue. -/
theorem meets_RestartKeepsAccounts_overdue :
    let w := { warm with
      batches := ((warm.batches.set 0 (some { batch with deadline := 500 })).set 7
        (some { batch with deadline := 501 })).set 15 (some { batch with deadline := 100, stalePosted := true }) }
    (w.batches[0].map fun x => (decide (x.deadline ≤ w.now), x.stalePosted)) = some (true, batch.stalePosted) ∧
      (after .startSequence w).batchWait = [0] := by decide +kernel

/-- A start of each cause that keeps the retained domain. -/
theorem meets_RestartKeepsAccounts_causes :
    let q (cause : QuiesceCause) := quiescing { commandQuiesce 0 with cause := cause, timed := true, stopped := true } part
    goes .startSequence warm = true ∧ goes .startSequence (q .command) = true ∧ goes .startSequence (q .lineBreak) = true ∧
      (q .command).retention.monitor = .normal ∧ (q .lineBreak).retention.monitor = .normal := by decide +kernel

/-! Invariants -/

/-- A part with a command waiting that takes place. -/
def stepping : State := { part with pending := [.telegramSent .plant] }

theorem meets_steps : step stepping = .next (onPlant (fun p => { p with tx := .idle }) part) := rfl

theorem meets_QueuesStayBounded : stepping.QueuesBounded := by constructor <;> decide +kernel

theorem meets_CountsStayBounded : stepping.CountsBounded := by
  constructor
  · constructor <;> decide
  · constructor <;> decide
  case classes =>
    refine ⟨?_, ?_, ?_, ?_, fun _ _ _ h => nomatch (show AgentPhase.idle = .rekeying _ _ _ from h)⟩
    · unfold Tables.ClassesBounded
      decide +kernel
    · exact fun x h => by cases (show none = some x from h)
    · exact fun c _ _ h => by cases (show none = some (ImageRun.save c _ _) from h)
    · exact fun c h => by cases (show none = some c from h)
  case consumed => exact fun _ r h => by cases (show none = some r from h)
  case bakeCount => exact fun _ r h => by cases (show none = some r from h)
  all_goals decide +kernel

theorem meets_TableStaysCanonical : listed.table.Canonical ∧ listed.table.Right :=
  ⟨canonical_holding reel, meets_ListsStayRight.table⟩

theorem meets_TableStaysCanonical_places : listed.PlacesRight where
  table := meets_ListsStayRight.table
  placed i r h := by obtain ⟨rfl, rfl⟩ := record_holding (s := part) h; exact .inl (by decide +kernel)
  chained set i h := nomatch (show i ∈ ([] : List Nat) from h)
  once _ := List.nodup_nil
  single i j r q h k _ := by rw [(record_holding (s := part) h).1, (record_holding (s := part) k).1]
  opening w i r h := nomatch (show (none : Option Work) = some w from h)
  splitting w i r h := nomatch (show (none : Option Work) = some w from h)
  creating w h := nomatch (show EnginePhase.idle = .commitCreate from h)

theorem meets_ListsStayRight_step : step listed = .next (onPlant (fun p => { p with tx := .idle }) (holding reel part)) := rfl

/-- A part whose one record bakes in the oven of batch 0, with a command waiting. -/
def bakes : State :=
  { holding { inOven with held := false } part with
    zones := part.zones, batches := part.batches.set 0 (some { batch with members := [15] })
    pending := [.telegramSent .plant] }

theorem batch_bakes : ∀ (b : Fin 16) (x : Batch), bakes.batches[b.val] = some x → b = 0 ∧ x = { batch with members := [15] } := by
  intro b x h
  revert x
  fin_cases b
  · exact fun x h => ⟨rfl, (Option.some.inj h).symm⟩
  all_goals exact fun x h => nomatch (show none = some x from h)

theorem meets_BatchesStayRight_lists : bakes.ListsRight where
  table := right_of (canonical_holding _) (fun _ _ => ways_holding) rfl (by decide +kernel) (by decide +kernel)
  once := by decide +kernel
  ordered := by decide +kernel
  member z i h := absurd h (by revert z i; decide +kernel)
  listed i r h hz _ _ := by obtain ⟨rfl, rfl⟩ := record_holding (s := part) h; cases hz
  zoned i r h hz := by obtain ⟨rfl, rfl⟩ := record_holding (s := part) h; exact absurd rfl hz
  baking i r h _ := by obtain ⟨rfl, rfl⟩ := record_holding (s := part) h; rfl
  held i w r h := by cases (show none = some w from h)
  unlinked i z h := by cases (show EnginePhase.idle = .commitDelete from h.1)
  created i r h := by cases (show EnginePhase.idle = .commitRelist from h.1)
  creating w h := by cases (show EnginePhase.idle = .commitCreate from h)
  stopped _ := rfl

theorem meets_BatchesStayRight : bakes.BatchesRight where
  ovens a b x y hx hy _ := by rw [(batch_bakes a x hx).1, (batch_bakes b y hy).1]
  size b x h := by obtain ⟨rfl, rfl⟩ := batch_bakes b x h; decide
  member b x i h hi := by
    obtain ⟨rfl, rfl⟩ := batch_bakes b x h
    cases List.mem_singleton.1 hi
    exact ⟨_, rfl, .inl ⟨_, rfl, rfl⟩⟩
  baking i r bp h hb := by
    obtain ⟨rfl, rfl⟩ := record_holding (s := part) h
    cases hb
    exact .inl ⟨0, _, rfl, rfl, List.mem_singleton.2 rfl⟩
  single a b x y i hx hy _ _ := by rw [(batch_bakes a x hx).1, (batch_bakes b y hy).1]
  joining w i r h := by cases (show EnginePhase.idle = .commitJoin from h)
  leaving w i h := by cases (show EnginePhase.idle = .commitLeave from h)
  bakeIn w i r h := by cases (show none = some w from h.1)
  bakeOut w i r h := by cases (show none = some w from h.1)
  close w i r h := by cases (show none = some w from h.1)
  deleting w _ h := by cases (show none = some w from h)
  relisted w o _ h := by cases (show none = some w from h)

theorem meets_IdleStaysEmpty : stepping.IdleMeansEmpty := by constructor <;> intro h <;> cases h

theorem meets_RowImagesRoundTrip :
    [3, 31].length = rowSize 0x01 254 ∧ tableRows? 0x01 = some 255 ∧ 254 < 255 ∧
      parseRow 0x01 254 [3, 31] = some (.station 254 { cls := .line, home := some 31 }) ∧
      rowInRange 0x01 254 [3, 32] = false ∧
      decodeRequest (recordBody 5) = .ok (.writeRecord 0x405 (recordWrite 5)) := by decide +kernel

end Sys2Proof.Machine.Tests
end

section
namespace Sys2Proof.Machine

/-! ### O54: two records listed at one index

`CarrierTable.Canonical` is not a hypothesis of the statement, and `State.CountsBounded` looks at the first record listed
at each index alone. A delete brings up a second one. -/

namespace TwinRecords

/-- A record within its widths, held by the transaction in hand. -/
def within : Record :=
  { id := 0, cls := 0, state := .expired, consumed := 0, bakeCount := 0, warnIssued := false, eligible := false,
    lastBakeShort := false, memory := none, zonePart := none, dryPart := none, bakePart := none, held := true }

/-- A record whose consumed is one above its width. -/
def beyond : Record := { within with consumed := 4294967296 }

/-- A CLOSE that holds record 0. -/
def closing : Work :=
  { State.reset.newWork { dest := 0, source := 0, kind := 0, seq := 0, body := [] } with held := some 0 }

/-- A CLOSE is about to delete record 0, at whose index a second record is listed. -/
def state : State :=
  { State.reset with
    table := { CarrierTable.empty with records := [(0, within), (0, beyond)] }
    engine := { phase := .commitDelete, work := some closing, pause := false }
    pending := [.delete] }

/-- The next state: the delete has removed the first of the two. -/
def deleted : State :=
  ({ state with pending := [] }.removeRecord 0).engineTo .commitClose { closing with held := none }

theorem record?_state {i : Nat} {r : Record} (h : state.record? i = some r) : r = within := by
  simp only [State.record?, state, lookupKey] at h
  split at h
  · exact (Option.some.inj h).symm
  · cases h

theorem countsBounded_state : state.CountsBounded where
  floor := by constructor <;> decide
  plant := by constructor <;> decide
  ambient := by decide
  agent := by decide
  rules i := by simp [state, State.reset]
  faults i := by simp [state, State.reset]
  wear z := by simp [state, State.reset, Zone.cleared]
  dry z := by simp [state, State.reset, Zone.cleared]
  monotonic := by decide
  offset := by decide
  loss := by decide
  classes :=
    { tables := fun c => by simp [state, State.reset, Tables.default, ClassRow.default]
      image := fun _ h => by cases h
      run := fun _ _ _ h => by cases h
      copy := fun _ h => by cases h
      rekeying := fun _ _ _ h => by cases h }
  consumed i r h := by rw [record?_state h]; decide
  bakeCount i r h := by rw [record?_state h]; decide

theorem step_state : step state = .next deleted := rfl

theorem record?_deleted : deleted.record? 0 = some beyond := rfl

end TwinRecords

/-- Refutes O54: in a state whose record list names one index twice, which no run reaches, the DELETE of a CLOSE removes the
first of the two records and leaves the second, whose consumed is beyond its width. -/
theorem not_countsStayBounded : ¬ Obligations.CountsStayBounded := by
  unfold Obligations.CountsStayBounded
  intro h
  have hb := (h _ _ TwinRecords.countsBounded_state TwinRecords.step_state).consumed 0 _ TwinRecords.record?_deleted
  exact absurd hb (by decide)

end Sys2Proof.Machine
end

section
namespace Sys2Proof.Machine

/-! ### O53, O58: what an operation may do to the station link

One relation, `State.LinkKept`, is proved of each shared operation and then of each command; both invariants follow from it. -/

/-- What the two link invariants read of the state: the queues, the transmitters, the Notice Queue, the ring and the streak. -/
structure LinkView where
  floorQueue : List Telegram
  floorTx : TxState
  plantQueue : List Telegram
  plantTx : TxState
  upRelay : List Telegram
  downRelay : List Telegram
  answers : List Telegram
  replies : List Telegram
  notices : NoticeQueue
  ring : List RingEntry
  streak : Nat

def State.link (s : State) : LinkView :=
  { floorQueue := s.floor.queue, floorTx := s.floor.tx, plantQueue := s.plant.queue, plantTx := s.plant.tx
    upRelay := s.upRelay, downRelay := s.downRelay, answers := s.answers, replies := s.replies, notices := s.notices
    ring := s.table.ring, streak := s.plantStreak }

/-- From `s` to `t` both invariants of the link are kept. -/
structure State.LinkKept (s t : State) : Prop where
  bounded : s.QueuesBounded → t.QueuesBounded
  idle : s.IdleMeansEmpty → t.IdleMeansEmpty

/-- A command's outcome keeps the invariants of the link. -/
def State.LinkSafe (s : State) (o : Host.Outcome State Fault Refusal) : Prop := ∀ t, o = .next t → s.LinkKept t

namespace State.LinkKept

theorem refl (s : State) : s.LinkKept s := ⟨id, id⟩

theorem trans {s t u : State} (h : s.LinkKept t) (k : t.LinkKept u) : s.LinkKept u :=
  ⟨fun b => k.bounded (h.bounded b), fun e => k.idle (h.idle e)⟩

theorem of_link {s t : State} (h : t.link = s.link) : s.LinkKept t := by
  simp only [State.link, LinkView.mk.injEq] at h
  obtain ⟨fq, ft, pq, pt, up, down, ans, rep, notes, ring, streak⟩ := h
  constructor
  · rintro ⟨h1, h2, h3, h4, h5, h6, h7, h8, h9, h10⟩
    constructor <;> simpa only [fq, pq, up, down, ans, rep, notes, ring, streak]
  · rintro ⟨h1, h2⟩
    constructor <;> simpa only [ft, pt, up, down, ans, rep, notes]

/-- An operation that leaves the link alone may follow. -/
theorem silent {s t u : State} (h : s.LinkKept t) (e : u.link = t.link) : s.LinkKept u := h.trans (of_link e)

/-- An operation that leaves the link alone may come first. -/
theorem after {s t u : State} (e : t.link = s.link) (h : t.LinkKept u) : s.LinkKept u := (of_link e).trans h

theorem foldl {α : Type} {f : State → α → State} (hf : ∀ s a, State.LinkKept s (f s a)) (l : List α) (s : State) :
    s.LinkKept (l.foldl f s) := by
  induction l generalizing s with
  | nil => exact refl s
  | cons a rest ih => exact (hf s a).trans (ih _)

end State.LinkKept

theorem State.LinkSafe.next {s t : State} (h : s.LinkKept t) : s.LinkSafe (.next t) := by
  rintro _ ⟨⟩; exact h

theorem State.LinkSafe.fault (s : State) (f : Fault) : s.LinkSafe (.fault f) := by rintro _ ⟨⟩

/-- The step leaves the link alone. -/
theorem State.LinkSafe.same {s t : State} (h : t.link = s.link) : s.LinkSafe (.next t) := .next (.of_link h)

/-! ### Operations that leave the link alone -/

section
variable (s : State)

@[simp] theorem State.setRecord_link (i : Nat) (r : Record) : (s.setRecord i r).link = s.link := rfl
@[simp] theorem State.setZone_link (z : Fin 32) (x : Zone) : (s.setZone z x).link = s.link := rfl
@[simp] theorem State.unlist_link (z : Fin 32) (i : Nat) : (s.unlist z i).link = s.link := rfl
@[simp] theorem State.chargeZone_link (z : Fin 32) : (s.chargeZone z).link = s.link := rfl
@[simp] theorem State.setBatch_link (b : Fin 16) (x : Option Batch) : (s.setBatch b x).link = s.link := rfl
@[simp] theorem State.countFault_link (f : FaultCode) : (s.countFault f).link = s.link := rfl
@[simp] theorem State.takeZoneRequest_link : s.takeZoneRequest.link = s.link := rfl
@[simp] theorem State.withdrawAgent_link : s.withdrawAgent.link = s.link := rfl
@[simp] theorem State.engineTo_link (p : EnginePhase) (w : Work) : (s.engineTo p w).link = s.link := rfl
@[simp] theorem State.engineAsks_link (p : EnginePhase) (w : Work) : (s.engineAsks p w).link = s.link := rfl
@[simp] theorem State.placeOutput_link (w : Work) (q : OutputQueue) (t : Telegram) : (s.placeOutput w q t).link = s.link :=
  rfl
@[simp] theorem State.faulted_link (w : Work) (f : FaultCode) : (s.faulted w f).link = s.link := rfl
@[simp] theorem State.engineIdle_link : s.engineIdle.link = s.link := rfl
@[simp] theorem State.setPause_link (b : Bool) : (s.setPause b).link = s.link := rfl
@[simp] theorem State.reply_link (t : Telegram) (st : MgmtStatus) (data : List Byte) : (s.reply t st data).link = s.link :=
  rfl
@[simp] theorem State.writeTable_link (w : RowWrite) : (s.writeTable w).link = s.link := rfl
@[simp] theorem State.rejectAmbient_link : s.rejectAmbient.link = s.link := rfl
@[simp] theorem State.takeRequest_link (t : Telegram) : (s.takeRequest t).link = s.link := rfl
@[simp] theorem State.beginRekey_link (t : Telegram) (c : Fin 16) (r : ClassRow) : (s.beginRekey t c r).link = s.link := rfl
@[simp] theorem State.retain_link (f : Retention → Retention) : (s.retain f).link = s.link := rfl
@[simp] theorem State.setMonitor_link (m : Monitor) (ok : Bool) : (s.setMonitor m ok).link = s.link := rfl
@[simp] theorem State.setQuiesce_link (q : Option Quiesce) : (s.setQuiesce q).link = s.link := rfl
@[simp] theorem State.recordFreezeTime_link : s.recordFreezeTime.link = s.link := rfl
@[simp] theorem State.stopReceivers_link : s.stopReceivers.link = s.link := rfl
@[simp] theorem State.dropRequests_link : s.dropRequests.link = s.link := rfl

theorem State.withTables_link (t : Tables) : { s with tables := t }.link = s.link := rfl
theorem State.withBatchWait_link (l : List (Fin 16)) : { s with batchWait := l }.link = s.link := rfl
theorem State.withPending_link (l : List Instr) : { s with pending := l }.link = s.link := rfl
theorem State.withAgent_link (a : Agent) : { s with agent := a }.link = s.link := rfl

@[simp] theorem State.modRecord_link (i : Nat) (f : Record → Record) : (s.modRecord i f).link = s.link := by
  unfold State.modRecord; split <;> rfl

@[simp] theorem State.setHold_link (i : Nat) (b : Bool) : (s.setHold i b).link = s.link := s.modRecord_link ..

@[simp] theorem State.enlist_link (i : Nat) : (s.enlist i).link = s.link := by
  unfold State.enlist
  split
  · split <;> rfl
  · rfl

@[simp] theorem State.removeRecord_link (i : Nat) : (s.removeRecord i).link = s.link := by
  unfold State.removeRecord CarrierTable.remove
  split
  · simp only [State.link]
    split <;> rfl
  · rfl

theorem CarrierTable.create?_ring {t t' : CarrierTable} {i : Nat} {r : Record} (h : t.create? r = some (i, t')) :
    t'.ring = t.ring := by
  simp only [CarrierTable.create?] at h
  split at h
  · cases h; rfl
  · split at h
    · cases h; rfl
    · cases h

theorem State.created_link {t : CarrierTable} {i : Nat} {r : Record} (h : s.table.create? r = some (i, t)) :
    { s with table := t }.link = s.link := by simp [State.link, CarrierTable.create?_ring h]

@[simp] theorem State.joinBatch_link (i : Nat) (bp : BakePart) (n : Nat) : (s.joinBatch i bp n).link = s.link := by
  unfold State.joinBatch
  split
  · rfl
  · split <;> rfl

@[simp] theorem State.leaveBatch_link (oven : Byte) (i : Nat) : (s.leaveBatch oven i).link = s.link := by
  unfold State.leaveBatch
  split
  · split <;> rfl
  · rfl

@[simp] theorem State.staleExpiry_link (b : Fin 16) : (s.staleExpiry b).link = s.link := by
  unfold State.staleExpiry
  split
  · split <;> rfl
  · rfl

@[simp] theorem State.countRule_link (a : Action) : (s.countRule a).link = s.link := by
  unfold State.countRule; split <;> rfl

@[simp] theorem State.agentNext_link : s.agentNext.link = s.link := by
  unfold State.agentNext; split <;> rfl

@[simp] theorem State.compose_link (w : Work) (o : RepeatOutcome) (reason : Option Byte) (band : Option Nat) :
    (s.compose w o reason band).link = s.link := by
  unfold State.compose; split <;> rfl

@[simp] theorem State.reissue_link (w : Work) (o : RepeatOutcome) (reason : Option Byte) (band : Option Nat) :
    (s.reissue w o reason band).link = s.link := s.compose_link ..

@[simp] theorem State.rememberRelease_link (w : Work) (o : CommitOutcome) (i : Option Nat) :
    (s.rememberRelease w o i).link = s.link := by
  unfold State.rememberRelease; split <;> simp

@[simp] theorem State.countWorkFault_link (w : Work) : (s.countWorkFault w).link = s.link := by
  unfold State.countWorkFault; split <;> rfl

@[simp] theorem State.classify_link (t : Telegram) : (s.classify t).link = s.link := by
  unfold State.classify
  simp only []
  repeat' split
  all_goals rfl

@[simp] theorem State.lookupCarrier_link (w : Work) (k : TxKind) : (s.lookupCarrier w k).link = s.link := by
  unfold State.lookupCarrier State.lookupOpen State.lookupFound
  simp only []
  repeat' split
  all_goals simp

@[simp] theorem State.lookupQuery_link (w : Work) : (s.lookupQuery w).link = s.link := by
  unfold State.lookupQuery; split <;> simp

@[simp] theorem State.decisionReading_link (w : Work) (k : TxKind) : (s.decisionReading w k).link = s.link := by
  unfold State.decisionReading; split <;> rfl

@[simp] theorem State.afterSettle_link (w : Work) (k : TxKind) : (s.afterSettle w k).link = s.link := by
  unfold State.afterSettle
  split
  · rfl
  · split <;> simp

@[simp] theorem State.answerQuery_link (w : Work) : (s.answerQuery w).link = s.link := by
  unfold State.answerQuery; split <;> simp

@[simp] theorem State.createOpen_link (w : Work) : (s.createOpen w).link = s.link := by
  unfold State.createOpen
  split
  · split
    · next h => exact (State.engineAsks_link ..).trans (s.created_link h)
    · rfl
  · rfl

@[simp] theorem State.zoneChange_link (z : Fin 32) (a b : ZoneConfig) : (s.zoneChange z a b).link = s.link := by
  unfold State.zoneChange; split <;> rfl

@[simp] theorem State.writeClass_link (i : Nat) (c : Option (Fin 16)) : (s.writeClass i c).link = s.link := by
  unfold State.writeClass; split <;> rfl

@[simp] theorem State.writeFigures_link (i : Nat) (w : RecordWrite) : (s.writeFigures i w).link = s.link :=
  s.modRecord_link ..

@[simp] theorem State.writeRetire_link (i : Nat) : (s.writeRetire i).link = s.link := by
  unfold State.writeRetire
  split
  · simp only [State.setRecord_link]
    split <;> split <;> simp
  · rfl

@[simp] theorem State.changeMode_link (t : Telegram) (m : Mode) : (s.changeMode t m).link = s.link := by
  unfold State.changeMode; split <;> rfl

@[simp] theorem State.beginLoad_link (t : Telegram) : (s.beginLoad t).link = s.link := by
  unfold State.beginLoad; split <;> rfl

@[simp] theorem State.startRun_link (im : Option StoredImage) (run : ImageRun) : (s.startRun im run).link = s.link :=
  State.agentNext_link _

@[simp] theorem State.beginCompare_link (t : Telegram) : (s.beginCompare t).link = s.link := by
  unfold State.beginCompare; split <;> simp

@[simp] theorem State.complete_link (a b c : Byte) (st : MgmtStatus) : (s.complete a b c st).link = s.link := by
  unfold State.complete; simp only []; split <;> rfl

end

/-! ### The transmitters' choices -/

theorem NoticeQueue.oldest?_none {q : NoticeQueue} (h : q.oldest? true = none) (l : q.oldest? false = none) :
    q.entries = [] := by
  unfold NoticeQueue.oldest? at h l
  rw [List.find?_eq_none] at h l
  rw [List.eq_nil_iff_forall_not_mem]
  intro n hn
  have ht := h n hn
  have hf := l n hn
  cases e : n.high <;> simp [e] at ht hf

/-- With no choice to make, nothing waits on the Floor side (R16). -/
theorem State.floorChoice?_none {s : State} (h : s.floorChoice? = none) : s.answers = [] ∧ s.downRelay = [] := by
  unfold State.floorChoice? at h
  split at h
  · exact ⟨‹_›, ‹_›⟩
  · cases h
  · cases h
  · split at h <;> cases h

theorem State.plantOrder?_none {s : State} (h : s.plantOrder? = none) :
    s.replies = [] ∧ s.upRelay = [] ∧ s.notices.entries = [] := by
  unfold State.plantOrder? at h
  split at h
  · cases h
  · split at h
    · cases h
    · split at h <;> cases h
      exact ⟨‹_›, ‹_›, NoticeQueue.oldest?_none ‹_› ‹_›⟩

/-- With no choice to make, nothing waits on the Plant side (R17). -/
theorem State.plantChoice?_none {s : State} (h : s.plantChoice? = none) :
    s.replies = [] ∧ s.upRelay = [] ∧ s.notices.entries = [] := by
  unfold State.plantChoice? at h
  split at h
  · split at h
    · cases h
    · exact State.plantOrder?_none h
  · exact State.plantOrder?_none h

/-- A Floor transmitter that has chosen is sending, and the Plant side is as it was. -/
theorem State.floorChoice?_sends {s t : State} (h : s.floorChoice? = some t) :
    t.floor.tx ≠ .idle ∧ t.plant = s.plant ∧ t.replies = s.replies ∧ t.upRelay = s.upRelay ∧ t.notices = s.notices := by
  unfold State.floorChoice? at h
  split at h
  · cases h
  · cases h; exact ⟨nofun, rfl, rfl, rfl, rfl⟩
  · cases h; exact ⟨nofun, rfl, rfl, rfl, rfl⟩
  · split at h <;> cases h <;> exact ⟨nofun, rfl, rfl, rfl, rfl⟩

theorem State.plantOrder?_sends {s t : State} (h : s.plantOrder? = some t) : t.plant.tx ≠ .idle := by
  unfold State.plantOrder? at h
  split at h
  · cases h; exact nofun
  · split at h
    · cases h; exact nofun
    · split at h <;> cases h <;> exact nofun

/-- A Plant transmitter that has chosen is sending. -/
theorem State.plantChoice?_sends {s t : State} (h : s.plantChoice? = some t) : t.plant.tx ≠ .idle := by
  unfold State.plantChoice? at h
  split at h
  · split at h
    · cases h; exact nofun
    · exact State.plantOrder?_sends h
  · exact State.plantOrder?_sends h

/-- The Floor half of `State.IdleMeansEmpty`. -/
def State.FloorIdleEmpty (s : State) : Prop := s.floor.tx = .idle → s.answers = [] ∧ s.downRelay = []

/-- The Plant half of `State.IdleMeansEmpty`. -/
def State.PlantIdleEmpty (s : State) : Prop := s.plant.tx = .idle → s.replies = [] ∧ s.upRelay = [] ∧ s.notices.entries = []

theorem State.PlantFrame.floorIdleEmpty {s t : State} (h : s.PlantFrame t) (k : s.FloorIdleEmpty) : t.FloorIdleEmpty := by
  unfold State.FloorIdleEmpty
  rw [h]
  exact k

theorem State.kickPlant_plantIdleEmpty (s : State) : s.kickPlant.PlantIdleEmpty := by
  unfold State.kickPlant
  split
  · cases h : s.plantChoice? with
    | none => exact fun _ => State.plantChoice?_none h
    | some t => exact fun e => absurd e (State.plantChoice?_sends h)
  · exact fun e => absurd e ‹_›

theorem State.kickFloor_idle (s : State) (h : s.PlantIdleEmpty) : s.kickFloor.IdleMeansEmpty := by
  unfold State.kickFloor
  split
  · cases hc : s.floorChoice? with
    | none => exact ⟨fun _ => State.floorChoice?_none hc, h⟩
    | some t =>
      obtain ⟨sends, hp, hr, hu, hn⟩ := State.floorChoice?_sends hc
      refine ⟨fun e => absurd e sends, fun e => ?_⟩
      rw [Option.getD_some, hp] at e
      rw [Option.getD_some, hr, hu, hn]
      exact h e
  · exact ⟨fun e => absurd e ‹_›, h⟩

theorem State.kickPlant_idle (s : State) (h : s.FloorIdleEmpty) : s.kickPlant.IdleMeansEmpty :=
  ⟨s.kickPlant_frame.floorIdleEmpty h, s.kickPlant_plantIdleEmpty⟩

/-! ### Arrivals at the queues -/

theorem State.post_linkKept (s : State) (n : Notice) : s.LinkKept (s.post n) :=
  ⟨fun h => h.post n, fun h => State.kickPlant_idle _ h.floor⟩

theorem State.pushUpRelay_linkKept (s : State) (t : Telegram) (room : s.upRelay.length < 16) :
    s.LinkKept (s.pushUpRelay t) :=
  ⟨fun h => h.pushUpRelay t room, fun h => State.kickPlant_idle _ h.floor⟩

theorem State.pushReply_linkKept (s : State) (t : Telegram) (room : s.replies.length < 4) : s.LinkKept (s.pushReply t) :=
  ⟨fun h => h.pushReply t room, fun h => State.kickPlant_idle _ h.floor⟩

theorem State.pushAnswer_linkKept (s : State) (t : Telegram) (room : s.answers.length < 16) :
    s.LinkKept (s.pushAnswer t) :=
  ⟨fun h => h.pushAnswer t room, fun h => State.kickFloor_idle _ h.plant⟩

theorem State.pushDownRelay_linkKept (s : State) (t : Telegram) (room : s.downRelay.length < 16) :
    s.LinkKept (s.pushDownRelay t) :=
  ⟨fun h => h.pushDownRelay t room, fun h => State.kickFloor_idle _ h.plant⟩

theorem State.replyRoom_iff (s : State) : s.replyRoom = true ↔ s.replies.length < 4 :=
  decide_eq_true_iff

theorem State.pushOrDrop_linkKept (s : State) (t : Telegram) : s.LinkKept (s.pushOrDrop t) := by
  unfold State.pushOrDrop
  split
  · exact s.pushReply_linkKept t (s.replyRoom_iff.mp ‹_›)
  · exact .refl s

theorem State.tryPlace_linkKept {s t : State} {o : Output} (h : s.tryPlace o = some t) : s.LinkKept t := by
  unfold State.tryPlace at h
  split at h
  · split at h
    · cases h; exact s.pushUpRelay_linkKept _ ‹_›
    · cases h
  · split at h
    · cases h; exact s.pushAnswer_linkKept _ ‹_›
    · cases h

/-! ### The transmitters move -/

theorem State.floorFree_linkKept (s : State) : s.LinkKept s.floorFree := by
  unfold State.floorFree
  cases h : s.floorChoice? with
  | none =>
    refine ⟨fun ⟨h1, h2, h3, h4, h5, h6, h7, h8, h9, h10⟩ => ⟨h1, h2, h3, h4, h5, h6, h7, h8, h9, h10⟩, fun k => ?_⟩
    exact ⟨fun _ => State.floorChoice?_none (s := s) h, k.plant⟩
  | some t =>
    obtain ⟨sends, hp, hr, hu, hn⟩ := State.floorChoice?_sends h
    refine ⟨fun k => k.floorChoice h, fun k => ⟨fun e => absurd e sends, fun e => ?_⟩⟩
    rw [Option.getD_some, hp] at e
    rw [Option.getD_some, hr, hu, hn]
    exact k.plant e

theorem State.plantFree_linkKept (s : State) : s.LinkKept s.plantFree := by
  unfold State.plantFree
  cases h : s.plantChoice? with
  | none =>
    refine ⟨fun ⟨h1, h2, h3, h4, h5, h6, h7, h8, h9, h10⟩ => ⟨h1, h2, h3, h4, h5, h6, h7, h8, h9, h10⟩, fun k => ?_⟩
    exact ⟨k.floor, fun _ => State.plantChoice?_none (s := s) h⟩
  | some t =>
    exact ⟨fun k => k.plantChoice h,
      fun k => ⟨(State.plantChoice?_frame h).floorIdleEmpty k.floor, fun e => absurd e (State.plantChoice?_sends h)⟩⟩

theorem State.stopTransmitters_linkKept (s : State) : s.LinkKept s.stopTransmitters :=
  ⟨fun ⟨h1, h2, h3, h4, h5, h6, h7, h8, h9, h10⟩ => ⟨h1, h2, h3, h4, h5, h6, h7, h8, h9, h10⟩, fun _ => ⟨nofun, nofun⟩⟩

theorem State.recordStop_linkKept (s : State) : s.LinkKept s.recordStop := s.stopTransmitters_linkKept.silent rfl

theorem State.finishQuiesce_linkKept (s : State) (q : Quiesce) : s.LinkKept (s.finishQuiesce q) :=
  s.recordStop_linkKept.silent rfl

/-! ### The receivers -/

theorem receiveCap_floor : receiveCap .floor = 8 := rfl
theorem receiveCap_plant : receiveCap .plant = 4 := rfl

/-- A port's transmitter stays as it is and its receive queue within its size. -/
structure PortState.Kept (port : LinkPort) (p x : PortState) : Prop where
  tx : x.tx = p.tx
  queue : p.queue.length ≤ receiveCap port → x.queue.length ≤ receiveCap port

theorem State.setPort_linkKept {s : State} {port : LinkPort} {x : PortState} (h : (s.port port).Kept port x) :
    s.LinkKept (s.setPort port x) := by
  obtain ⟨tx, queue⟩ := h
  cases port with
  | floor =>
    exact ⟨fun ⟨h1, h2, h3, h4, h5, h6, h7, h8, h9, h10⟩ => ⟨queue h1, h2, h3, h4, h5, h6, h7, h8, h9, h10⟩,
      fun k => ⟨fun e => k.floor (tx.symm.trans e), k.plant⟩⟩
  | plant =>
    exact ⟨fun ⟨h1, h2, h3, h4, h5, h6, h7, h8, h9, h10⟩ => ⟨h1, queue h2, h3, h4, h5, h6, h7, h8, h9, h10⟩,
      fun k => ⟨k.floor, fun e => k.plant (tx.symm.trans e)⟩⟩

theorem PortState.offer_kept (p : PortState) (port : LinkPort) (t : Telegram) : p.Kept port (p.offer port t) := by
  unfold PortState.offer
  split
  · exact ⟨rfl, fun _ => by simp only [List.length_append, List.length_singleton]; omega⟩
  · exact ⟨rfl, id⟩

theorem PortState.checked_kept (p : PortState) (port : LinkPort) (t : Telegram) (c : CheckWord) (noisy : Bool) :
    p.Kept port (p.checked port t c noisy) := by
  unfold PortState.checked
  split
  · simp only []
    generalize (if p.asm.noisy || noisy then _ else _ : PortCounts) = counts
    obtain ⟨tx, queue⟩ := PortState.offer_kept { p with asm := .none false, counts := counts } port t
    exact ⟨tx, queue⟩
  · exact ⟨rfl, id⟩

theorem PortState.lengthChar_kept (p : PortState) (port : LinkPort) (t : Telegram) (n : Nat) (noisy : Bool) :
    p.Kept port (p.lengthChar t n noisy) := by
  unfold PortState.lengthChar
  split
  · exact ⟨rfl, id⟩
  · split <;> exact ⟨rfl, id⟩

theorem PortState.data_kept (p : PortState) (port : LinkPort) (b : Byte) (noisy : Bool) :
    p.Kept port (p.data port b noisy) := by
  unfold PortState.data
  split
  · split <;> exact ⟨rfl, id⟩
  · exact p.lengthChar_kept ..
  · exact ⟨rfl, id⟩
  · simp only []; split <;> exact ⟨rfl, id⟩
  · exact ⟨rfl, id⟩
  · exact p.checked_kept ..

theorem PortState.receive_kept (p : PortState) (port : LinkPort) (c : LineChar) : p.Kept port (p.receive port c) := by
  unfold PortState.receive PortState.deliver
  split
  · exact ⟨rfl, id⟩
  · split
    · split
      · exact ⟨rfl, id⟩
      · exact p.data_kept ..
    · exact ⟨rfl, id⟩

end Sys2Proof.Machine
end

section
namespace Sys2Proof.Machine

/-! ### The Zone Engine's work reaches the link by its notices alone -/

theorem State.crossOnce_linkKept (s : State) (i : Nat) (st : Option Byte) : s.LinkKept (s.crossOnce i st) := by
  unfold State.crossOnce
  split
  · split
    · exact .after (s.setRecord_link ..) (State.post_linkKept _ _)
    · exact .refl s
  · exact .refl s

theorem State.crossAll_linkKept (s : State) (i : Nat) (st : Option Byte) : s.LinkKept (s.crossAll i st) :=
  ((s.crossOnce_linkKept i st).trans (State.crossOnce_linkKept _ i st)).trans (State.crossOnce_linkKept _ i st)

theorem State.settleCross_linkKept (s : State) (i : Nat) (st : Option Byte) (b : Bool) :
    s.LinkKept (s.settleCross i st b) := by
  unfold State.settleCross
  split
  · split
    · have crossed := fun r => State.LinkKept.after (s.setRecord_link i r) (State.crossAll_linkKept _ i st)
      simp only []
      split
      · exact (crossed _).silent ((State.enlist_link ..).trans (State.unlist_link ..))
      · exact crossed _
    · exact .refl s
  · exact .refl s

theorem popWalk_linkKept (z : Fin 32) (l : List Nat) (s : State) : s.LinkKept (popWalk z l s) := by
  induction l generalizing s with
  | nil => exact .refl s
  | cons i rest ih =>
    unfold popWalk
    split
    · split
      · split
        · split
          · exact ih s
          · exact (s.settleCross_linkKept i none true).trans (ih _)
        · exact .refl s
      · exact ih s
    · exact ih s

theorem State.pop_linkKept (s : State) (z : Fin 32) : s.LinkKept (s.pop z) := popWalk_linkKept ..

theorem State.refreshZone_linkKept (s : State) (z : Fin 32) (st : Option Byte) : s.LinkKept (s.refreshZone z st) := by
  unfold State.refreshZone
  simp only []
  split
  · exact .of_link rfl
  · split <;> exact .after (s.setZone_link ..) (State.post_linkKept _ _)

theorem State.refreshPop_linkKept (s : State) (z : Fin 32) (st : Option Byte) : s.LinkKept (s.refreshPop z st) :=
  (s.refreshZone_linkKept z st).trans (State.pop_linkKept _ z)

theorem State.advance_linkKept (s : State) (z : Fin 32) : s.LinkKept (s.advance z) := by
  unfold State.advance
  split
  · exact .after (s.chargeZone_link z) (State.refreshPop_linkKept _ z none)
  · exact .refl s

theorem State.advanceAll_linkKept (s : State) (zs : List (Fin 32)) : s.LinkKept (s.advanceAll zs) :=
  .foldl State.advance_linkKept zs s

theorem State.attach_linkKept (s : State) (i : Nat) (z : Fin 32) (st : Option Byte) : s.LinkKept (s.attach i z st) := by
  unfold State.attach
  split
  · exact (State.LinkKept.after (s.setRecord_link ..) (State.crossAll_linkKept _ i st)).silent (State.enlist_link ..)
  · exact .refl s

theorem State.relistTo_linkKept (s : State) (i : Nat) (cs : CarrierState) (z : Option (Fin 32)) (st : Option Byte) :
    s.LinkKept (s.relistTo i cs z st) := by
  unfold State.relistTo
  split
  · next r _ =>
    have unlisted : (match r.zonePart with
        | some zp => s.unlist zp.zone i
        | none => s : State).link = s.link := by split <;> rfl
    simp only []
    split
    · exact .after unlisted (.after (State.setRecord_link ..) (State.attach_linkKept ..))
    · exact .of_link unlisted
  · exact .refl s

theorem State.relistHeld_linkKept (s : State) (w : Work) : s.LinkKept (s.relistHeld w) := by
  unfold State.relistHeld
  split
  · exact s.settleCross_linkKept ..
  · exact .refl s

theorem State.unlinkRecord_linkKept (s : State) (i : Nat) : s.LinkKept (s.unlinkRecord i) := by
  unfold State.unlinkRecord
  split
  · exact (State.LinkKept.after (s.setHold_link i true) (State.advance_linkKept _ _)).silent (State.unlist_link ..)
  · exact .refl s

theorem State.acceptSample_linkKept (s : State) (z : Fin 32) (slot : Fin 3) (t : Telegram) :
    s.LinkKept (s.acceptSample z slot t) :=
  .after (t := (s.chargeZone z).setZone z _) rfl (State.refreshPop_linkKept _ z (some t.source))

theorem State.rekeyZone_linkKept (s : State) (sel : Record → Bool) (z : Fin 32) : s.LinkKept (s.rekeyZone sel z) :=
  .after (s.setZone_link z _) (.foldl (fun a i => .after (a.modRecord_link i _) (State.attach_linkKept _ i z none)) _ _)

theorem State.classRekey_linkKept (s : State) (c : Fin 16) (row : ClassRow) : s.LinkKept (s.classRekey c row) :=
  ((s.advanceAll_linkKept s.tables.configuredZones).silent (State.withTables_link _ _)).trans
    (.foldl (f := fun a z => a.rekeyZone (fun r => r.cls == c) z) (fun a z => a.rekeyZone_linkKept _ z) _ _)

theorem State.zoneWrite_linkKept (s : State) (z : Fin 32) (row : ZoneConfig) : s.LinkKept (s.zoneWrite z row) := by
  unfold State.zoneWrite
  simp only []
  have charged : (if (s.tables.zone z).configured then s.chargeZone z else s).link = s.link := by split <;> rfl
  generalize (if (s.tables.zone z).configured then s.chargeZone z else s) = u at charged
  have changed := ((State.zoneChange_link _ z (s.tables.zone z) row).trans
    (u.withTables_link { u.tables with zones := u.tables.zones.set z.val row })).trans charged
  split
  · exact .after changed (State.refreshPop_linkKept _ z none)
  · exact .of_link changed

theorem foldl_chargeZone_link (zs : List (Fin 32)) (s : State) : (zs.foldl State.chargeZone s).link = s.link := by
  induction zs generalizing s with
  | nil => rfl
  | cons z zs ih => exact ih _

theorem State.regridPop_linkKept (s : State) (z : Fin 32) : s.LinkKept (s.regridPop z) :=
  .after (s.setZone_link z _) (State.pop_linkKept _ z)

theorem State.gridChange_linkKept (s : State) (f : Tables → Tables) : s.LinkKept (s.gridChange f) :=
  .after ((State.withTables_link _ _).trans (foldl_chargeZone_link s.tables.configuredZones s))
    (.foldl State.regridPop_linkKept _ _)

theorem State.loadReplace_linkKept (s : State) (new : Tables) : s.LinkKept (s.loadReplace new) := by
  have charge : s.LinkKept { s.tables.configuredZones.foldl State.chargeZone s with
      tables := { new with part := s.tables.part } } :=
    .of_link ((State.withTables_link _ _).trans (foldl_chargeZone_link _ s))
  have change := fun a => State.LinkKept.foldl (f := fun a z => a.zoneChange z (s.tables.zone z) (new.zone z))
    (fun a z => .of_link (a.zoneChange_link z _ _)) allZones a
  have refresh := fun a => State.LinkKept.foldl (f := fun a z => a.refreshPop z none)
    (fun a z => a.refreshPop_linkKept z none) new.configuredZones a
  have rekey := fun a => State.LinkKept.foldl (f := fun a z => a.rekeyZone (fun _ => true) z)
    (fun a z => a.rekeyZone_linkKept (fun _ => true) z) new.configuredZones a
  exact (((charge.trans (change _)).trans (refresh _)).trans (rekey _)).silent (State.withTables_link _ _)

/-! ### Policy effects -/

theorem State.policyNotice_linkKept (s : State) (q : LookupRequest) (a : Action) (v : Verdict) :
    s.LinkKept (s.policyNotice q a v) := by
  unfold State.policyNotice
  split
  · exact .refl s
  · exact s.post_linkKept _

theorem State.copyNotice_linkKept (s : State) (q : LookupRequest) (b : Bool) (h : PassHit) (a : Action) (v : Verdict) :
    s.LinkKept (s.copyNotice q b h a v) := by
  unfold State.copyNotice
  split
  · simp only []
    split
    · exact s.post_linkKept _
    · exact (s.post_linkKept _).silent rfl
  · exact .refl s

theorem State.applyPass_linkKept (s : State) (q : LookupRequest) (b : Bool) (h : PassHit) (v : Verdict) :
    s.LinkKept (s.applyPass q b h v) :=
  (State.LinkKept.after (s.countRule_link _) (State.policyNotice_linkKept _ q _ v)).trans (State.copyNotice_linkKept ..)

theorem State.lookupPolicy_linkKept (s : State) (q : LookupRequest) : s.LinkKept (s.lookupPolicy q).1 :=
  (s.applyPass_linkKept ..).trans (State.applyPass_linkKept ..)

/-! ### The engine's steps -/

theorem State.settleEngine_linkKept (s : State) (w : Work) : s.LinkKept (s.settleEngine w).1 := by
  unfold State.settleEngine
  simp only []
  split
  · exact (s.advanceAll_linkKept _).trans (State.settleCross_linkKept ..)
  · exact s.advanceAll_linkKept _

theorem State.advanceCommit_linkKept (s : State) (w : Work) (z : Option (Fin 32)) : s.LinkKept (s.advanceCommit w z) :=
  s.advanceAll_linkKept _

theorem State.commitFault_linkKept (s : State) (w : Work) (f : FaultCode) : s.LinkKept (s.commitFault w f) :=
  (s.relistHeld_linkKept w).silent rfl

theorem State.commitStay_linkKept (s : State) (w : Work) : s.LinkKept (s.commitStay w) :=
  ((s.advanceCommit_linkKept w none).trans (State.relistHeld_linkKept _ w)).silent rfl

theorem State.commitZoned_linkKept (s : State) (w : Work) (k : TxKind) (st : Option CarrierState) :
    s.LinkKept (s.commitZoned w k st) := by
  unfold State.commitZoned
  refine (s.advanceCommit_linkKept w (zone? w.zone)).trans ?_
  simp only []
  split
  · exact (State.relistTo_linkKept ..).silent rfl
  · exact State.commitFault_linkKept ..
  · exact State.commitFault_linkKept ..

theorem State.commitExpire_linkKept (s : State) (w : Work) : s.LinkKept (s.commitExpire w) := by
  unfold State.commitExpire
  refine (s.advanceCommit_linkKept w none).trans ?_
  split
  · exact (State.relistTo_linkKept ..).silent rfl
  · exact .of_link rfl

theorem State.commitOpened_linkKept (s : State) (w : Work) : s.LinkKept (s.commitOpened w) := by
  unfold State.commitOpened
  refine (s.advanceCommit_linkKept w (zone? w.zone)).trans ?_
  simp only []
  split
  · exact (State.LinkKept.after (State.modRecord_link ..) (State.attach_linkKept ..)).silent rfl
  · exact .of_link (State.removeRecord_link ..)
  · exact .of_link rfl

theorem State.commitSplit_linkKept (s : State) (w : Work) : s.LinkKept (s.commitSplit w) := by
  unfold State.commitSplit
  refine ((s.advanceCommit_linkKept w (zone? w.zone)).trans (State.relistHeld_linkKept _ w)).trans ?_
  generalize (s.advanceCommit w (zone? w.zone)).relistHeld w = u
  simp only []
  split
  · exact .of_link rfl
  · split
    · exact .of_link rfl
    · split
      · exact .of_link rfl
      · split
        · exact .of_link rfl
        · next h =>
          refine .after (u.created_link h) ?_
          split
          · exact .of_link rfl
          · exact (State.attach_linkKept ..).silent rfl
          · exact .of_link rfl

theorem State.commitBakeIn_linkKept (s : State) (w : Work) : s.LinkKept (s.commitBakeIn w) := by
  unfold State.commitBakeIn
  refine (s.advanceCommit_linkKept w none).trans ?_
  simp only []
  split
  · exact (State.relistTo_linkKept ..).silent (State.modRecord_link ..)
  · exact .of_link rfl

theorem State.bakeNotice_linkKept (s : State) (w : Work) (r : Record) (o : BakeOutcome) (z : Option (Fin 32)) (n : Nat) :
    s.LinkKept (s.bakeNotice w r o z n) := by
  unfold State.bakeNotice
  split
  · exact .refl s
  · exact s.post_linkKept _
  all_goals exact s.post_linkKept _

theorem State.commitBakeOut_linkKept (s : State) (w : Work) : s.LinkKept (s.commitBakeOut w) := by
  unfold State.commitBakeOut
  split
  · exact .of_link rfl
  · next i r bp _ =>
    have noticed := fun (u : State) x w' (y : Record) o z n =>
      State.LinkKept.after (u.setRecord_link i x) (State.bakeNotice_linkKept _ w' y o z n)
    simp only []
    split
    · exact (noticed ..).silent rfl
    · exact (noticed ..).silent rfl
    all_goals
      refine (s.advanceCommit_linkKept w (zone? w.zone)).trans ?_
      split
      · exact ((noticed ..).trans (State.attach_linkKept ..)).silent rfl
      · exact State.commitFault_linkKept ..

theorem State.commitRelistStep_linkKept (s : State) (w : Work) : s.LinkKept (s.commitRelistStep w) := by
  unfold State.commitRelistStep
  split
  · split
    · exact s.commitOpened_linkKept w
    · split
      · exact s.commitZoned_linkKept ..
      · exact s.commitZoned_linkKept ..
      · exact s.commitExpire_linkKept w
      · exact s.commitBakeIn_linkKept w
      · exact s.commitBakeOut_linkKept w
      · exact s.commitSplit_linkKept w
      · exact s.commitStay_linkKept w
    · exact s.commitStay_linkKept w
  · exact s.commitStay_linkKept w

/-- The ring drops its oldest entry at 16 (R51). -/
theorem CarrierTable.appendRing_length {t : CarrierTable} (e : RingEntry) (h : t.ring.length ≤ 16) :
    (t.appendRing e).ring.length ≤ 16 := by
  unfold CarrierTable.appendRing
  by_cases room : t.ring.length < Config.ringCap
  · have : t.ring.length < 16 := room
    simp only [room, if_true, List.length_append, List.length_singleton]
    omega
  · simp only [room, if_false, List.length_append, List.length_singleton, List.length_tail]
    omega

theorem State.ringAppend_linkKept (s : State) (w : Work) (o : CommitOutcome) : s.LinkKept (s.ringAppend w o) := by
  unfold State.ringAppend
  split
  · exact ⟨fun ⟨h1, h2, h3, h4, h5, h6, h7, ring, h9, h10⟩ =>
      ⟨h1, h2, h3, h4, h5, h6, h7, CarrierTable.appendRing_length _ ring, h9, h10⟩, fun k => ⟨k.floor, k.plant⟩⟩
  · exact .refl s

theorem State.closeCommit_linkKept (s : State) (w : Work) : s.LinkKept (s.closeCommit w) := by
  unfold State.closeCommit
  split
  · exact (State.LinkKept.after ((State.rememberRelease_link ..).trans (State.rememberRelease_link ..))
      (State.ringAppend_linkKept ..)).silent ((State.compose_link ..).trans (State.countWorkFault_link ..))
  · exact .refl s

theorem State.openCommit_linkKept (s : State) (w : Work) : s.LinkKept (s.openCommit w) := by
  unfold State.openCommit
  simp only []
  split
  · exact s.closeCommit_linkKept _
  all_goals exact .of_link rfl

/-! ### The stop -/

theorem State.stopEngine_linkKept (s : State) : s.LinkKept s.stopEngine := by
  unfold State.stopEngine
  split
  · exact .of_link rfl
  · next w _ _ =>
    refine State.LinkKept.silent ?_ (State.engineIdle_link _)
    cases h : w.output.bind s.tryPlace with
    | none => exact .refl s
    | some t =>
      obtain ⟨o, _, ho⟩ := Option.bind_eq_some_iff.mp h
      exact State.tryPlace_linkKept ho
  · exact .of_link rfl
  · exact .refl s

theorem State.agentDrain_linkKept (s : State) : s.LinkKept s.agentDrain := by
  unfold State.agentDrain
  split
  · exact .after (t := { s with agent := .atStart }) rfl (State.pushOrDrop_linkKept _ _)
  · exact .of_link rfl

theorem State.dropRequest_linkKept (s : State) : s.LinkKept s.dropRequest :=
  .after (s.setPause_link false) (State.agentDrain_linkKept _)

theorem State.stopAgent_linkKept (s : State) : s.LinkKept s.stopAgent := by
  unfold State.stopAgent
  split
  · exact s.agentDrain_linkKept
  · split
    · exact .refl s
    · exact s.dropRequest_linkKept
  · exact s.dropRequest_linkKept
  · exact s.dropRequest_linkKept
  · exact (s.pushOrDrop_linkKept _).trans (State.agentDrain_linkKept _)

theorem State.beginStop_linkKept (s : State) : s.LinkKept s.beginStop :=
  .after (t := s.stopReceivers.dropRequests) rfl ((State.stopEngine_linkKept _).trans (State.stopAgent_linkKept _))

theorem State.beginQuiesce_linkKept (s : State) (c : QuiesceCause) (n : Nat) : s.LinkKept (s.beginQuiesce c n) :=
  .after (s.setQuiesce_link _) (State.beginStop_linkKept _)

theorem State.placeReset_linkKept (s : State) (r : Telegram) (room : s.replies.length < 4) :
    s.LinkKept (s.placeReset r) := by
  unfold State.placeReset
  simp only []
  split
  · exact (s.pushReply_linkKept r room).silent ((State.agentNext_link _).trans (State.withAgent_link _ _))
  · exact ((s.pushReply_linkKept r room).silent (State.withAgent_link _ _)).trans (State.beginQuiesce_linkKept ..)

/-! ### The agent's requests -/

theorem State.serve_linkKept (s : State) (t : Telegram) (op : MgmtOp) {f : State → State} (hf : s.LinkKept (f s)) :
    s.LinkKept (s.serve t op f) := by
  unfold State.serve
  split
  · exact .of_link rfl
  · exact hf

theorem State.asZoneRequest_linkKept (s : State) {f : State → State} (hf : ∀ a, State.LinkKept a (f a)) :
    s.LinkKept (s.asZoneRequest f) := by
  unfold State.asZoneRequest
  split
  · exact .after s.withdrawAgent_link (hf _)
  · split <;> exact .of_link rfl

theorem State.asRecordRequest_linkKept (s : State) (id : CarrierId) {f : State → State} (hf : ∀ a, State.LinkKept a (f a)) :
    s.LinkKept (s.asRecordRequest id f) := by
  unfold State.asRecordRequest
  split
  · exact s.asZoneRequest_linkKept hf
  · exact hf s

theorem State.zoneWriteRequest_linkKept (s : State) (t : Telegram) (z : Fin 32) (r : ZoneConfig) :
    s.LinkKept (s.zoneWriteRequest t z r) := by
  unfold State.zoneWriteRequest
  split
  · exact .of_link rfl
  · exact (s.zoneWrite_linkKept z r).silent rfl

theorem State.rekeyRequest_linkKept (s : State) (t : Telegram) (c : Fin 16) (r : ClassRow) :
    s.LinkKept (s.rekeyRequest t c r) :=
  s.asZoneRequest_linkKept fun a => (a.classRekey_linkKept c r).silent rfl

theorem State.classWrite_linkKept (s : State) (t : Telegram) (c : Fin 16) (r : ClassRow) :
    s.LinkKept (s.classWrite t c r) := by
  unfold State.classWrite
  split
  · exact .of_link rfl
  · split
    · exact .of_link rfl
    · split
      · exact s.dropRequest_linkKept
      · split
        · exact .refl s
        · exact .after (s.beginRekey_link t c r) (State.rekeyRequest_linkKept ..)

theorem State.writeSettle_linkKept (s : State) (i : Nat) : s.LinkKept (s.writeSettle i) := by
  unfold State.writeSettle
  split
  · exact (State.LinkKept.after (s.setHold_link i true) (State.advance_linkKept _ _)).silent
      ((State.modRecord_link ..).trans (State.setHold_link ..))
  · exact .refl s

theorem State.writeRelist_linkKept (s : State) (i : Nat) (w : RecordWrite) : s.LinkKept (s.writeRelist i w) := by
  unfold State.writeRelist
  split
  · split
    · exact .after (s.unlist_link ..) (State.attach_linkKept ..)
    · split <;> exact .of_link rfl
  · exact .refl s

theorem State.writeRecord_linkKept (s : State) (i : Nat) (w : RecordWrite) : s.LinkKept (s.writeRecord i w) := by
  unfold State.writeRecord
  simp only []
  refine State.LinkKept.trans ?_ (State.writeRelist_linkKept _ i w)
  have written : s.LinkKept (((s.writeSettle i).writeClass i w.cls).writeFigures i w) :=
    (s.writeSettle_linkKept i).silent (by simp)
  split
  · exact written.silent (State.writeRetire_link ..)
  · exact written

theorem State.writeRecordNow_linkKept (s : State) (t : Telegram) (id : CarrierId) (w : RecordWrite) :
    s.LinkKept (s.writeRecordNow t id w) := by
  unfold State.writeRecordNow
  split
  · exact .of_link rfl
  · split
    · exact .of_link rfl
    · split
      · exact .of_link rfl
      · exact (s.writeRecord_linkKept _ w).silent rfl

theorem State.writeRecordRequest_linkKept (s : State) (t : Telegram) (id : CarrierId) (w : RecordWrite) :
    s.LinkKept (s.writeRecordRequest t id w) :=
  s.asRecordRequest_linkKept id fun a => a.writeRecordNow_linkKept t id w

theorem State.deleteRecord_linkKept (s : State) (i : Nat) (r : Record) : s.LinkKept (s.deleteRecord i r) := by
  unfold State.deleteRecord
  refine (s.unlinkRecord_linkKept i).silent ?_
  simp only []
  split <;> simp

theorem State.deleteRecordNow_linkKept (s : State) (t : Telegram) (id : CarrierId) :
    s.LinkKept (s.deleteRecordNow t id) := by
  unfold State.deleteRecordNow
  split
  · exact .of_link rfl
  · split
    · exact .of_link rfl
    · exact (s.deleteRecord_linkKept ..).silent rfl

theorem State.loadRequest_linkKept (s : State) (t : Telegram) : s.LinkKept (s.loadRequest t) := by
  unfold State.loadRequest
  split
  · split
    · exact .of_link rfl
    · exact (s.loadReplace_linkKept _).silent rfl
  · exact .of_link rfl

theorem State.resetRequest_linkKept (s : State) (t : Telegram) : s.LinkKept (s.resetRequest t) := by
  unfold State.resetRequest
  simp only []
  split
  · exact s.placeReset_linkKept _ (s.replyRoom_iff.mp ‹_›)
  · exact .of_link rfl

/-! ### The start -/

/-- A start that keeps the retained domain keeps the ring, and a POWER-ON start empties it (R58). -/
theorem State.startTables_ring (s : State) (c : StartCause) :
    (s.startTables c).table.ring.length ≤ s.table.ring.length := by
  cases c with
  | powerOn =>
    unfold State.startTables State.loadAtStart
    simp only []
    split <;> exact Nat.zero_le _
  | _ => exact le_refl _

/-- Once RESTART stands in the Notice Queue the link is that of a start: transmitters STARTING, the other queues empty. -/
theorem State.startNotices_linkKept (s : State) (c d : StartCause) :
    s.LinkKept ((s.startTables c).startBlocks.startNotices d) :=
   ⟨fun h => ⟨Nat.zero_le _, Nat.zero_le _, Nat.zero_le _, Nat.zero_le _, Nat.zero_le _, Nat.zero_le _,
    Nat.succ_le_succ (Nat.zero_le _), (s.startTables_ring c).trans h.ring, Nat.zero_le _, Nat.zero_le _⟩,
    fun _ => ⟨nofun, nofun⟩⟩

theorem State.restartZone_linkKept (c : StartCause) (s : State) (z : Fin 32) : s.LinkKept (State.restartZone c s z) := by
  cases c with
  | powerOn => exact .refl s
  | _ => exact .after (s.setZone_link z _) (State.pop_linkKept _ z)

theorem foldl_staleExpiry_link (bs : List (Fin 16)) (s : State) : (bs.foldl State.staleExpiry s).link = s.link := by
  induction bs generalizing s with
  | nil => rfl
  | cons b bs ih => exact (ih _).trans (s.staleExpiry_link b)

theorem State.startEnable_link (s : State) : s.startEnable.link = s.link := by
  unfold State.startEnable
  rw [← foldl_staleExpiry_link (List.finRange 16) s]
  generalize (List.finRange 16).foldl State.staleExpiry s = u
  rfl

theorem State.start_linkKept (s : State) (c : StartCause) : s.LinkKept (s.start c) :=
  (((s.startNotices_linkKept c c).trans (.foldl (State.restartZone_linkKept c) _ _)).trans
    (.foldl (fun a z => .of_link (a.setZone_link z _)) _ _)).silent (State.startEnable_link _)

end Sys2Proof.Machine
end

section
namespace Sys2Proof.Machine

/-! ### The commands of the link and of the engine -/

section
variable (s : State)

theorem execCharacterReceived_linkSafe (port : LinkPort) (line : LineChar) :
    s.LinkSafe (execCharacterReceived port line s) := by
  unfold execCharacterReceived
  split
  · exact .next (State.setPort_linkKept (PortState.receive_kept ..))
  · exact .same rfl

/-- A receiver's own commands move it between its states and count, and leave its queue and the transmitter alone. -/
theorem receiver_linkSafe (port : LinkPort) :
    s.LinkSafe (execBreakDetected port s) ∧ s.LinkSafe (execBreakEnd port s) ∧
      s.LinkSafe (execZeroCharacterLineHigh port s) ∧ s.LinkSafe (execInterCharacterTimeout port s) := by
  have guarded : ∀ (p : Prop) [Decidable p] (x : PortState), (s.port port).Kept port x →
      s.LinkSafe (if p then .next (s.setPort port x) else .next s) := by
    intro p _ x h
    split
    · exact .next (State.setPort_linkKept h)
    · exact .same rfl
  exact ⟨guarded _ _ ⟨rfl, id⟩, guarded _ _ ⟨rfl, id⟩, guarded _ _ ⟨rfl, id⟩, guarded _ _ ⟨rfl, id⟩⟩

theorem execTelegramSent_linkSafe (port : LinkPort) : s.LinkSafe (execTelegramSent port s) := by
  unfold execTelegramSent
  split
  · exact .next s.floorFree_linkKept
  · split
    · exact .next (s.finishQuiesce_linkKept _)
    · exact .next s.plantFree_linkKept
  · exact .same rfl

theorem execStartingEnd_linkSafe (port : LinkPort) : s.LinkSafe (execStartingEnd port s) := by
  unfold execStartingEnd
  split
  · exact .next (.after (t := { s with floorPref := .answer }) rfl (State.floorFree_linkKept _))
  · exact .next s.plantFree_linkKept
  · exact .same rfl

theorem State.dropPlantHead_linkKept : s.LinkKept s.dropPlantHead :=
  State.setPort_linkKept (port := .plant) ⟨rfl, fun h => (List.length_tail ▸ Nat.sub_le _ _ : _ ≤ _).trans h⟩

theorem execPlantRoutingTake_linkSafe : s.LinkSafe (execPlantRoutingTake s) := by
  unfold execPlantRoutingTake
  split
  · split
    · split
      · split
        · split
          · exact .next (s.dropPlantHead_linkKept.silent (State.takeRequest_link ..))
          · exact .same rfl
        · exact .next (s.dropPlantHead_linkKept.silent rfl)
      · split
        · exact .next (s.dropPlantHead_linkKept.trans (State.pushDownRelay_linkKept _ _ ‹_›))
        · exact .same rfl
    · exact .same rfl
  · exact .same rfl

theorem execTransactionTake_linkSafe : s.LinkSafe (execTransactionTake s) := by
  unfold execTransactionTake
  split
  · next t rest hq =>
    split
    · have taken : s.LinkKept { s with floor := { s.floor with queue := rest } } :=
        State.setPort_linkKept (port := .floor)
          ⟨rfl, fun h => by rw [State.port, hq] at h; exact (Nat.le_succ _).trans h⟩
      exact .next (taken.silent (State.classify_link ..))
    · exact .same rfl
  · exact .same rfl

theorem execSampleIntake_linkSafe : s.LinkSafe (execSampleIntake s) := by
  unfold execSampleIntake
  split
  · split
    · refine .next (State.LinkKept.silent (State.LinkKept.after s.takeZoneRequest_link ?_) (State.placeOutput_link ..))
      split
      · exact State.acceptSample_linkKept ..
      · exact .of_link rfl
    · exact .same rfl
  · exact .same rfl

theorem execCarrierLookup_linkSafe : s.LinkSafe (execCarrierLookup s) := by
  unfold execCarrierLookup
  split
  · split
    · split
      · exact .same (s.lookupCarrier_link ..)
      · exact .same (s.lookupQuery_link _)
    · exact .same rfl
  · exact .same rfl

theorem execRingSearch_linkSafe : s.LinkSafe (execRingSearch s) := by
  unfold execRingSearch
  split
  · split
    · split
      · exact .same (s.reissue_link ..)
      · exact .same rfl
    · exact .same rfl
  · exact .same rfl

theorem execFreeRecordProbe_linkSafe : s.LinkSafe (execFreeRecordProbe s) := by
  unfold execFreeRecordProbe
  split
  · split
    · split
      · split
        · exact .same (s.decisionReading_link ..)
        · exact .same rfl
      · exact .same rfl
    · exact .same rfl
  · exact .same rfl

theorem execSettleRequest_linkSafe : s.LinkSafe (execSettleRequest s) := by
  unfold execSettleRequest
  split
  · next w _ _ =>
    split
    · have settled := State.LinkKept.after s.takeZoneRequest_link (State.settleEngine_linkKept _ w)
      simp only []
      split
      · exact .next (settled.silent (State.afterSettle_link ..))
      · exact .next (settled.silent (State.answerQuery_link ..))
    · exact .same rfl
  · exact .same rfl

theorem execPolicyLookup_linkSafe : s.LinkSafe (execPolicyLookup s) := by
  unfold execPolicyLookup
  split
  · split
    · split
      · exact .next ((s.lookupPolicy_linkKept _).silent (State.engineTo_link ..))
      · exact .same rfl
    · exact .same rfl
  · exact .same rfl

theorem execCommit_linkSafe : s.LinkSafe (execCommit s) := by
  unfold execCommit
  split
  · split
    · exact .next (s.openCommit_linkKept _)
    · exact .same rfl
  · split
    · exact .next (s.closeCommit_linkKept _)
    · exact .same rfl
  · exact .same rfl

theorem execCommitRelist_linkSafe : s.LinkSafe (execCommitRelist s) := by
  unfold execCommitRelist
  split
  · split
    · exact .next (.after s.takeZoneRequest_link (State.commitRelistStep_linkKept ..))
    · exact .same rfl
  · exact .same rfl

theorem execCreate_linkSafe : s.LinkSafe (execCreate s) := by
  unfold execCreate
  split
  · split
    · exact .same (s.createOpen_link _)
    · exact .same rfl
  · exact .same rfl

theorem execDelete_linkSafe : s.LinkSafe (execDelete s) := by
  unfold execDelete
  split
  · split
    · split
      · exact .same ((State.engineTo_link ..).trans (s.removeRecord_link _))
      · exact .same rfl
    · exact .same rfl
  · exact .same rfl

theorem execUnlink_linkSafe : s.LinkSafe (execUnlink s) := by
  unfold execUnlink
  split
  · split
    · split
      · exact .next ((State.LinkKept.after s.takeZoneRequest_link (State.unlinkRecord_linkKept ..)).silent
          (State.engineTo_link ..))
      · exact .same rfl
    · exact .same rfl
  · exact .same rfl

theorem execBatchJoin_linkSafe : s.LinkSafe (execBatchJoin s) := by
  unfold execBatchJoin
  split
  · split
    · split
      · exact .same ((State.engineTo_link ..).trans (s.joinBatch_link ..))
      · exact .same rfl
    · exact .same rfl
  · exact .same rfl

theorem execBatchLeave_linkSafe : s.LinkSafe (execBatchLeave s) := by
  unfold execBatchLeave
  split
  · split
    · split
      · exact .same ((State.engineTo_link ..).trans (s.leaveBatch_link ..))
      · exact .same rfl
    · exact .same rfl
  · exact .same rfl

theorem execOutputPlace_linkSafe : s.LinkSafe (execOutputPlace s) := by
  unfold execOutputPlace
  split
  · split
    · split
      · split
        · exact .next ((State.tryPlace_linkKept ‹_›).silent (State.engineIdle_link _))
        · split <;> exact .same rfl
      · exact .same rfl
    · exact .same rfl
  · exact .same rfl

theorem execAdvanceTimerExpiry_linkSafe (z : Nat) : s.LinkSafe (execAdvanceTimerExpiry z s) := by
  unfold execAdvanceTimerExpiry
  split
  · split <;> exact .same rfl
  · exact .fault s _

theorem execTimerRequest_linkSafe (z : Nat) : s.LinkSafe (execTimerRequest z s) := by
  unfold execTimerRequest
  split
  · split
    · exact .next (.after s.takeZoneRequest_link (State.advance_linkKept ..))
    · exact .same rfl
  · exact .fault s _

theorem execStaleTimerExpiry_linkSafe (b : Nat) : s.LinkSafe (execStaleTimerExpiry b s) := by
  unfold execStaleTimerExpiry
  split
  · split
    · exact .same (s.staleExpiry_link _)
    · exact .same rfl
  · exact .fault s _

theorem State.postStale_linkKept (b : Fin 16) (x : Batch) : s.LinkKept (s.postStale b x) :=
  .after (t := { s with batches := s.batches.set b.val (some { x with stalePosted := true }) }) rfl
    (State.post_linkKept _ _)

theorem execBakeStale_linkSafe (b : Nat) : s.LinkSafe (execBakeStale b s) := by
  unfold execBakeStale
  split
  · split
    · simp only []
      split
      · exact .next (.after (s.withBatchWait_link _) (State.postStale_linkKept ..))
      · exact .same rfl
    · exact .same rfl
  · exact .fault s _

/-! ### The commands of the Management Agent -/

/-- Requests the agent answers without the other blocks. -/
theorem reads_linkSafe :
    s.LinkSafe (execUnknownOp s) ∧ s.LinkSafe (execReadStatus s) ∧ s.LinkSafe (execSetTime s) ∧
      s.LinkSafe (execClearStartCause s) ∧ s.LinkSafe (execReadRow s) ∧ s.LinkSafe (execReadRecord s) ∧
      s.LinkSafe (execReadBatch s) ∧ s.LinkSafe (execClearRuleCounters s) ∧ s.LinkSafe (execClearFaultCounters s) := by
  refine ⟨?_, ?_, ?_, ?_, ?_, ?_, ?_, ?_, ?_⟩
  · unfold execUnknownOp
    split
    · split <;> exact .same rfl
    · exact .same rfl
  · unfold execReadStatus; split <;> exact .same rfl
  · unfold execSetTime; split <;> exact .same rfl
  · unfold execClearStartCause; split <;> exact .same rfl
  · unfold execReadRow; split <;> exact .same rfl
  · unfold execReadRecord
    split
    · split <;> exact .same rfl
    · exact .same rfl
  · unfold execReadBatch; split <;> exact .same rfl
  · unfold execClearRuleCounters; split <;> exact .same rfl
  · unfold execClearFaultCounters; split <;> exact .same rfl

theorem execSetMode_linkSafe : s.LinkSafe (execSetMode s) := by
  unfold execSetMode
  split
  · exact .next (s.serve_linkKept _ _ (.of_link (s.changeMode_link ..)))
  · exact .same rfl

/-- WRITE-ROW of a station, the part configuration or a policy row replaces the row at once. -/
theorem rowWrites_linkSafe :
    s.LinkSafe (execStationWrite s) ∧ s.LinkSafe (execPartConfigurationWrite s) ∧ s.LinkSafe (execPolicyTableWrite s) := by
  refine ⟨?_, ?_, ?_⟩
  · unfold execStationWrite
    split
    · exact .next (s.serve_linkKept _ _ (.of_link rfl))
    · exact .same rfl
  · unfold execPartConfigurationWrite
    split
    · exact .next (s.serve_linkKept _ _ (.of_link rfl))
    · exact .same rfl
  · unfold execPolicyTableWrite
    split
    · split
      · exact .next (s.serve_linkKept _ _ (.of_link rfl))
      · exact .same rfl
    · exact .same rfl

theorem execZoneConfigurationWrite_linkSafe : s.LinkSafe (execZoneConfigurationWrite s) := by
  unfold execZoneConfigurationWrite
  split
  · exact .next (s.serve_linkKept _ _ (s.asZoneRequest_linkKept fun a => a.zoneWriteRequest_linkKept ..))
  · exact .same rfl

theorem execGridWrite_linkSafe : s.LinkSafe (execGridWrite s) := by
  unfold execGridWrite
  split
  · split
    · exact .next (s.serve_linkKept _ _
        (s.asZoneRequest_linkKept fun a => (a.gridChange_linkKept _).silent (State.reply_link ..)))
    · exact .same rfl
  · exact .same rfl

theorem execClassWrite_linkSafe : s.LinkSafe (execClassWrite s) := by
  unfold execClassWrite
  split
  · split
    · exact .next (s.rekeyRequest_linkKept ..)
    · exact .same rfl
  · split
    · exact .next (s.serve_linkKept _ _ (s.classWrite_linkKept ..))
    · exact .same rfl

/-- WRITE-RECORD, by whichever field its command stands for, and DELETE-RECORD. -/
theorem records_linkSafe :
    s.LinkSafe (execWriteRecordClass s) ∧ s.LinkSafe (execWriteRecordConsumed s) ∧
      s.LinkSafe (execWriteRecordBakeCount s) ∧ s.LinkSafe (execWriteRecordRetire s) ∧
      s.LinkSafe (execDeleteRecord s) := by
  have written : ∀ (b : Bool) (t : Telegram) (id : CarrierId) (w : RecordWrite),
      s.LinkKept (if b then s.writeRecordRequest t id w else s) := by
    intro b t id w
    cases b
    · exact .refl s
    · exact s.writeRecordRequest_linkKept t id w
  refine ⟨?_, ?_, ?_, ?_, ?_⟩
  · unfold execWriteRecordClass
    split
    · exact .next (written ..)
    · exact .same rfl
  · unfold execWriteRecordConsumed
    split
    · exact .next (written ..)
    · exact .same rfl
  · unfold execWriteRecordBakeCount
    split
    · exact .next (written ..)
    · exact .same rfl
  · unfold execWriteRecordRetire
    split
    · exact .next (written ..)
    · exact .same rfl
  · unfold execDeleteRecord
    split
    · exact .next (s.asRecordRequest_linkKept _ fun a => a.deleteRecordNow_linkKept ..)
    · exact .same rfl

theorem execReadZone_linkSafe : s.LinkSafe (execReadZone s) := by
  unfold execReadZone
  split
  · exact .next (s.asZoneRequest_linkKept fun a => (a.advance_linkKept _).silent (State.reply_link ..))
  · exact .same rfl

theorem execListZone_linkSafe : s.LinkSafe (execListZone s) := by
  unfold execListZone
  split
  · exact .next (s.asZoneRequest_linkKept fun a => (a.advance_linkKept _).silent (State.reply_link ..))
  · exact .same rfl

theorem execSaveImage_linkSafe : s.LinkSafe (execSaveImage s) := by
  unfold execSaveImage
  split
  · exact .next (s.serve_linkKept _ _ (.of_link (s.startRun_link ..)))
  · exact .same rfl

theorem execSaveImageComplete_linkSafe : s.LinkSafe (execSaveImageComplete s) := by
  unfold execSaveImageComplete
  split
  · split
    · exact .same (State.complete_link { s with store := _ } ..)
    · exact .same rfl
  · exact .same rfl

theorem execLoadImage_linkSafe : s.LinkSafe (execLoadImage s) := by
  unfold execLoadImage
  split
  · split
    · exact .same rfl
    · exact .same (s.beginLoad_link _)
  · exact .same rfl

theorem execLoadImageReplace_linkSafe : s.LinkSafe (execLoadImageReplace s) := by
  unfold execLoadImageReplace
  split
  · split
    · exact .next (s.asZoneRequest_linkKept fun a => a.loadRequest_linkKept _)
    · exact .same rfl
  · exact .same rfl

theorem execCompareImage_linkSafe : s.LinkSafe (execCompareImage s) := by
  unfold execCompareImage
  split
  · simp only []
    split
    · exact .next (s.serve_linkKept _ _ (.of_link (s.beginCompare_link _)))
    · exact .next (.after (t := { s with store := { s.store with compared := false } }) rfl
        (State.serve_linkKept _ _ _ (.of_link (State.beginCompare_link ..))))
  · exact .same rfl

theorem execCompareImageComplete_linkSafe : s.LinkSafe (execCompareImageComplete s) := by
  unfold execCompareImageComplete
  split
  · split
    · exact .same (State.complete_link { s with store := _ } ..)
    · exact .same rfl
  · exact .same rfl

theorem execResetPart_linkSafe : s.LinkSafe (execResetPart s) := by
  unfold execResetPart
  split
  · exact .next (s.serve_linkKept _ _ (s.resetRequest_linkKept _))
  · exact .same rfl

theorem execReplyPlace_linkSafe : s.LinkSafe (execReplyPlace s) := by
  unfold execReplyPlace
  split
  · split
    · split
      · next room =>
        have room := s.replyRoom_iff.mp room
        split
        · exact .next (s.placeReset_linkKept _ room)
        · exact .next ((s.pushReply_linkKept _ room).silent (State.agentNext_link _))
      · split
        · exact .same s.agentNext_link
        · exact .same rfl
    · exact .same rfl
  · exact .same rfl

/-! ### The commands of the Retention Unit -/

/-- The supply monitor and the counter leave the link alone. -/
theorem monitor_linkSafe :
    s.LinkSafe (execSupplyFail s) ∧ s.LinkSafe (execSupplyRecover s) ∧ s.LinkSafe (execSupplyReturn s) ∧
      s.LinkSafe (execSupplyDrop s) ∧ s.LinkSafe (execPowerApplied s) ∧ s.LinkSafe (execBackupLoss s) ∧
      s.LinkSafe (execMonotonicTick s) := by
  unfold execSupplyFail execSupplyRecover execSupplyReturn execSupplyDrop execPowerApplied execBackupLoss
    execMonotonicTick
  refine ⟨?_, ?_, ?_, ?_, ?_, ?_, ?_⟩ <;> split <;> exact .same rfl

theorem execLineBreak_linkSafe : s.LinkSafe (execLineBreak s) := by
  unfold execLineBreak
  split
  · exact .next (s.beginQuiesce_linkKept ..)
  · exact .same rfl

theorem execFreeze_linkSafe : s.LinkSafe (execFreeze s) := by
  unfold execFreeze
  split
  · exact .next (.after (s.retain_link _) (State.beginStop_linkKept _))
  · exact .same rfl

theorem execFreezeStop_linkSafe : s.LinkSafe (execFreezeStop s) := by
  unfold execFreezeStop
  split
  · exact .next ((State.LinkKept.after s.recordFreezeTime_link (State.recordStop_linkKept _)).silent (State.retain_link ..))
  · exact .same rfl

theorem execQuiesceStop_linkSafe : s.LinkSafe (execQuiesceStop s) := by
  unfold execQuiesceStop
  split
  · next q _ =>
    split
    · refine .next ?_
      unfold State.quiesceEnds
      have timed : (if q.timed then s else s.recordFreezeTime).link = s.link := by split <;> rfl
      simp only []
      split
      · exact .of_link timed
      · exact .after timed (State.finishQuiesce_linkKept ..)
    · exact .same rfl
  · exact .same rfl

theorem execMainSupplyLoss_linkSafe : s.LinkSafe (execMainSupplyLoss s) := by
  have stopped : s.LinkKept s.stopReceivers.stopTransmitters :=
    .after s.stopReceivers_link (State.stopTransmitters_linkKept _)
  unfold execMainSupplyLoss
  split
  iterate 3 exact .next (stopped.silent (State.retain_link ..))
  exact .same rfl

theorem execStartSequence_linkSafe : s.LinkSafe (execStartSequence s) := by
  unfold execStartSequence
  split
  · exact .next (s.start_linkKept _)
  · exact .same rfl

end

/-! ### The step -/

/-- What every command does to the link keeps both invariants. -/
theorem exec_linkSafe (c : Instr) (s : State) : s.LinkSafe (exec c s) := by
  obtain ⟨unknownOp, readStatus, setTime, clearStartCause, readRow, readRecord, readBatch, clearRules, clearFaults⟩ :=
    reads_linkSafe s
  obtain ⟨stationWrite, partWrite, policyWrite⟩ := rowWrites_linkSafe s
  obtain ⟨writeClass, writeConsumed, writeBakeCount, writeRetire, deleteRecord⟩ := records_linkSafe s
  obtain ⟨supplyFail, supplyRecover, supplyReturn, supplyDrop, powerApplied, backupLoss, tick⟩ := monitor_linkSafe s
  cases c with
  | characterReceived port line => exact execCharacterReceived_linkSafe s port line
  | breakDetected port => exact (receiver_linkSafe s port).1
  | breakEnd port => exact (receiver_linkSafe s port).2.1
  | lineBreak => exact execLineBreak_linkSafe s
  | interCharacterTimeout port => exact (receiver_linkSafe s port).2.2.2
  | telegramSent port => exact execTelegramSent_linkSafe s port
  | startingEnd port => exact execStartingEnd_linkSafe s port
  | plantRoutingTake => exact execPlantRoutingTake_linkSafe s
  | transactionTake => exact execTransactionTake_linkSafe s
  | sampleIntake => exact execSampleIntake_linkSafe s
  | carrierLookup => exact execCarrierLookup_linkSafe s
  | ringSearch => exact execRingSearch_linkSafe s
  | freeRecordProbe => exact execFreeRecordProbe_linkSafe s
  | settleRequest => exact execSettleRequest_linkSafe s
  | policyLookup => exact execPolicyLookup_linkSafe s
  | commit => exact execCommit_linkSafe s
  | commitRelist => exact execCommitRelist_linkSafe s
  | create => exact execCreate_linkSafe s
  | delete => exact execDelete_linkSafe s
  | unlink => exact execUnlink_linkSafe s
  | batchJoin => exact execBatchJoin_linkSafe s
  | batchLeave => exact execBatchLeave_linkSafe s
  | outputPlace => exact execOutputPlace_linkSafe s
  | advanceTimerExpiry zone => exact execAdvanceTimerExpiry_linkSafe s zone
  | timerRequest zone => exact execTimerRequest_linkSafe s zone
  | staleTimerExpiry batch => exact execStaleTimerExpiry_linkSafe s batch
  | bakeStale batch => exact execBakeStale_linkSafe s batch
  | unknownOp => exact unknownOp
  | readStatus => exact readStatus
  | setMode => exact execSetMode_linkSafe s
  | setTime => exact setTime
  | readRow => exact readRow
  | stationWrite => exact stationWrite
  | partConfigurationWrite => exact partWrite
  | zoneConfigurationWrite => exact execZoneConfigurationWrite_linkSafe s
  | gridWrite => exact execGridWrite_linkSafe s
  | classWrite => exact execClassWrite_linkSafe s
  | policyTableWrite => exact policyWrite
  | readRecord => exact readRecord
  | writeRecordClass => exact writeClass
  | writeRecordConsumed => exact writeConsumed
  | writeRecordBakeCount => exact writeBakeCount
  | writeRecordRetire => exact writeRetire
  | deleteRecord => exact deleteRecord
  | readZone => exact execReadZone_linkSafe s
  | listZone => exact execListZone_linkSafe s
  | readBatch => exact readBatch
  | clearRuleCounters => exact clearRules
  | clearFaultCounters => exact clearFaults
  | saveImage => exact execSaveImage_linkSafe s
  | saveImageComplete => exact execSaveImageComplete_linkSafe s
  | loadImage => exact execLoadImage_linkSafe s
  | loadImageReplace => exact execLoadImageReplace_linkSafe s
  | compareImage => exact execCompareImage_linkSafe s
  | compareImageComplete => exact execCompareImageComplete_linkSafe s
  | clearStartCause => exact clearStartCause
  | resetPart => exact execResetPart_linkSafe s
  | replyPlace => exact execReplyPlace_linkSafe s
  | supplyFail => exact supplyFail
  | supplyRecover => exact supplyRecover
  | freeze => exact execFreeze_linkSafe s
  | freezeStop => exact execFreezeStop_linkSafe s
  | quiesceStop => exact execQuiesceStop_linkSafe s
  | supplyReturn => exact supplyReturn
  | supplyDrop => exact supplyDrop
  | powerApplied => exact powerApplied
  | backupLoss => exact backupLoss
  | startSequence => exact execStartSequence_linkSafe s
  | monotonicTick => exact tick
  | zeroCharacterLineHigh port => exact (receiver_linkSafe s port).2.2.1
  | mainSupplyLoss => exact execMainSupplyLoss_linkSafe s

/-- A step runs one command on the state without it, or none. -/
theorem step_linkKept {s t : State} (h : step s = .next t) : s.LinkKept t := by
  unfold step at h
  split at h
  · cases h; exact .refl s
  · exact .after (s.withPending_link _) (exec_linkSafe _ _ t h)

/-- Settles O53. -/
theorem queuesStayBounded : Obligations.QueuesStayBounded := fun _ _ hs h => (step_linkKept h).bounded hs

/-- Settles O58. -/
theorem idleStaysEmpty : Obligations.IdleStaysEmpty := fun _ _ hs h => (step_linkKept h).idle hs

end Sys2Proof.Machine
end

section
namespace Sys2Proof.Machine

/-! ### O3, O4, O5: receiving characters -/

theorem bump16_eq (n : Nat) : bump16 n = min 65535 (n + 1) := rfl

@[simp] theorem State.setPort_port_self (s : State) (port : LinkPort) : s.setPort port (s.port port) = s := by
  cases port <;> rfl

@[simp] theorem State.port_setPort (s : State) (port : LinkPort) (x : PortState) : (s.setPort port x).port port = x := by
  cases port <;> rfl

@[simp] theorem State.setPort_setPort (s : State) (port : LinkPort) (x y : PortState) :
    (s.setPort port x).setPort port y = s.setPort port y := by
  cases port <;> rfl

/-- A receiver in SEEK takes the character (R5). -/
theorem exec_characterReceived {s : State} {port : LinkPort} (h : (s.port port).rx = .seek) (line : LineChar) :
    exec (.characterReceived port line) s = .next (s.setPort port ((s.port port).receive port line)) :=
  if_pos h

namespace PortState

variable (p : PortState) (port : LinkPort) {line : LineChar}

theorem receive_falseStart (h : line.start.majority = true) : p.receive port line = p := if_pos h

theorem receive_framing (h : line.start.majority = false) (k : line.stop.majority = false) :
    p.receive port line = p.framingError line.allZero := by simp [receive, h, k]

theorem receive_clean (h : line.start.majority = false) (k : line.stop.majority = true) :
    p.receive port line = p.deliver port line.char line.noisy := by simp [receive, h, k]

theorem receive_address (h : line.start.majority = false) (k : line.stop.majority = true)
    (m : line.mark.majority = true) : p.receive port line = p.address line.char.data line.noisy := by
  rw [p.receive_clean port h k]; exact if_pos m

theorem receive_data (h : line.start.majority = false) (k : line.stop.majority = true)
    (m : line.mark.majority = false) : p.receive port line = p.data port line.char.data line.noisy := by
  rw [p.receive_clean port h k]; exact if_neg (by simpa [LineChar.char] using m)

variable {p}

theorem data_idle (h : p.asm.stage = .idle) (b : Byte) (noisy : Bool) :
    p.data port b noisy =
      if p.asm.skipping then p else { p with counts := { p.counts with stray := bump16 p.counts.stray } } := by
  simp only [data, h]

theorem data_length {dest source kind seq : Byte} (h : p.asm.stage = .header dest [source, kind, seq]) (b : Byte)
    (noisy : Bool) :
    p.data port b noisy =
      p.lengthChar { dest := dest, source := source, kind := kind, seq := seq, body := [] } b.toNat noisy := by
  simp only [data, h]

theorem data_body {hdr : Telegram} {len : Nat} (h : p.asm.stage = .body hdr len) (b : Byte) (noisy : Bool) :
    p.data port b noisy =
      p.goOn (if hdr.body.length + 1 < len then .body { hdr with body := hdr.body ++ [b] } len
        else .check { hdr with body := hdr.body ++ [b] } none) noisy := by
  simp only [data, h, List.length_append, List.length_singleton]
  split <;> rfl

theorem data_checkHigh {t : Telegram} (h : p.asm.stage = .check t none) (b : Byte) (noisy : Bool) :
    p.data port b noisy = p.goOn (.check t (some b)) noisy := by simp only [data, h]

theorem data_checkLow {t : Telegram} {high : Byte} (h : p.asm.stage = .check t (some high)) (b : Byte) (noisy : Bool) :
    p.data port b noisy = p.checked port t (high ++ b) noisy := by simp only [data, h]

theorem lengthChar_long {hdr : Telegram} {n : Nat} {noisy : Bool} (h : 48 < n) :
    p.lengthChar hdr n noisy =
      { p with asm := .none true, counts := { p.counts with length := bump16 p.counts.length } } := if_pos h

theorem lengthChar_fits {hdr : Telegram} {n : Nat} {noisy : Bool} (h : n ≤ 48) :
    p.lengthChar hdr n noisy = p.goOn (if n = 0 then .check hdr none else .body hdr n) noisy := by
  have fits : ¬Config.maxReceivedBody < n := Nat.not_lt.mpr h
  unfold lengthChar
  rw [if_neg fits]
  split <;> rfl

/-- The second check character of a good telegram (R10, R14, R18). -/
theorem checked_good {t : Telegram} {c : CheckWord} {noisy : Bool} (h : c = t.checkWord) :
    p.checked port t c noisy =
      { p with
        asm := .none false
        queue := if p.queue.length < receiveCap port then p.queue ++ [t] else p.queue
        counts :=
          { p.counts with
            noise := if p.asm.noisy || noisy then bump16 p.counts.noise else p.counts.noise
            overrun :=
              if p.queue.length < receiveCap port then p.counts.overrun else bump16 p.counts.overrun } } := by
  rw [checked, if_pos h]
  unfold offer
  split <;> simp only [] <;> split <;> rfl

theorem checked_bad {t : Telegram} {c : CheckWord} {noisy : Bool} (h : c ≠ t.checkWord) :
    p.checked port t c noisy =
      { p with asm := .none false, counts := { p.counts with check := bump16 p.counts.check } } := if_neg h

end PortState

/-- Settles O3. -/
theorem charactersAndLineErrors : Obligations.CharactersAndLineErrors := by
  refine ⟨fun port line s hrx => ⟨fun hs => ?falseStart, fun hs hp hm => ?address, fun hs hp hm hi => ?stray⟩,
    fun port s => ⟨fun line hrx hs hp => ?framing, fun hrx => ?brk, fun hrx => ?lineHigh, fun hrx => ?breakEnd,
      fun hrx => ⟨fun ht => ?timeout, fun line dest source kind seq hs hp hm hh => ?length⟩⟩⟩
  case falseStart => rw [exec_characterReceived hrx, PortState.receive_falseStart _ _ hs, State.setPort_port_self]
  case address => rw [exec_characterReceived hrx, PortState.receive_address _ _ hs hp hm]; rfl
  case stray =>
    rw [exec_characterReceived hrx, PortState.receive_data _ _ hs hp hm, PortState.data_idle _ hi]
    split <;> rfl
  case framing => rw [exec_characterReceived hrx, PortState.receive_framing _ _ hs hp]; rfl
  case brk => exact if_pos hrx
  case lineHigh => exact if_pos hrx
  case breakEnd => exact if_pos hrx
  case timeout => exact if_pos ⟨ht, hrx⟩
  case length =>
    rw [exec_characterReceived hrx, PortState.receive_data _ _ hs hp hm, PortState.data_length _ hh]
    refine ⟨fun long => ?_, fun fits => ?_⟩
    · rw [PortState.lengthChar_long long]; rfl
    · rw [PortState.lengthChar_fits fits]; rfl

/-- Settles O4. -/
theorem checkWordDecides : Obligations.CheckWordDecides := by
  intro port line s tel high hrx hs hp hm hc
  rw [exec_characterReceived hrx, PortState.receive_data _ _ hs hp hm, PortState.data_checkLow _ hc]
  refine ⟨fun bad => ?_, fun good => ?_⟩
  · rw [PortState.checked_bad _ bad]; rfl
  · rw [PortState.checked_good _ good]; rfl

/-! ### A sent character read back (R1, R4) -/

theorem bitsValue_testBit (l : List Bool) (i : Nat) : (bitsValue l).testBit i = l.getD i false := by
  induction l generalizing i with
  | nil => simp [bitsValue]
  | cons b bs ih =>
    cases i with
    | zero => cases b <;> simp [bitsValue, Nat.testBit_zero, Nat.add_mod]
    | succ i =>
      have half : (b.toNat + 2 * bitsValue bs) / 2 = bitsValue bs := by
        have : b.toNat < 2 := Bool.toNat_lt b
        omega
      rw [bitsValue, Nat.testBit_succ, half, ih, List.getD_cons_succ]

@[simp] theorem Samples.majority_level (b : Bool) : (Samples.level b).majority = b := by cases b <;> rfl

@[simp] theorem Samples.noisy_level (b : Bool) : (Samples.level b).noisy = false := by cases b <;> rfl

/-- The bits of a byte, least significant first, spell it. -/
theorem ofNat_bitsValue (b : Byte) :
    BitVec.ofNat 8 (bitsValue [b.getLsbD 0, b.getLsbD 1, b.getLsbD 2, b.getLsbD 3, b.getLsbD 4, b.getLsbD 5, b.getLsbD 6,
      b.getLsbD 7]) = b := by
  refine BitVec.eq_of_getLsbD_eq fun i hi => ?_
  rw [BitVec.getLsbD_ofNat, bitsValue_testBit]
  interval_cases i <;> simp

theorem LinkChar.line_char (c : LinkChar) : c.line.char = c := by
  have data : c.line.char.data = c.data := by
    simpa only [LineChar.char, LinkChar.line, List.map, Samples.majority_level] using ofNat_bitsValue c.data
  have mark : c.line.char.mark = c.mark := Samples.majority_level _
  cases c
  exact congrArg₂ LinkChar.mk mark data

theorem LinkChar.line_noisy (c : LinkChar) : c.line.noisy = false := by
  simp [LineChar.noisy, LineChar.valueBits, LinkChar.line]

/-- A character sent on a clean line is delivered as it was sent (R5). -/
theorem PortState.receive_line (p : PortState) (port : LinkPort) (c : LinkChar) :
    p.receive port c.line = p.deliver port c false := by
  rw [p.receive_clean port (Samples.majority_level false) (Samples.majority_level true), LinkChar.line_char,
    LinkChar.line_noisy]

/-! ### A telegram received whole -/

theorem PortState.goOn_rx (p : PortState) (st : AsmState) (n : Bool) : (p.goOn st n).rx = p.rx := rfl

/-- A delivered character leaves the receiver in its state (R5). -/
theorem PortState.deliver_rx (p : PortState) (port : LinkPort) (c : LinkChar) (n : Bool) :
    (p.deliver port c n).rx = p.rx := by
  unfold PortState.deliver
  split
  · rfl
  · unfold PortState.data PortState.lengthChar PortState.checked PortState.offer
    simp only []
    repeat' split
    all_goals rfl

/-- Characters on a clean line are delivered one after another. -/
theorem runAll_chars (port : LinkPort) (cs : List LinkChar) (s : State) (h : (s.port port).rx = .seek) :
    runAll (cs.map fun c => .characterReceived port c.line) s =
      .next (s.setPort port (cs.foldl (fun p c => p.deliver port c false) (s.port port))) := by
  induction cs generalizing s with
  | nil => simp [runAll]
  | cons c cs ih =>
    rw [List.map_cons, runAll, exec_characterReceived h, PortState.receive_line]
    simp only []
    rw [ih _ (by rw [State.port_setPort, PortState.deliver_rx, h]), State.port_setPort, State.setPort_setPort,
      List.foldl_cons]

/-- A port in the middle of a clean telegram, at a stage of the assembler. -/
def PortState.midway (p : PortState) (st : AsmState) : PortState :=
  { p with
    asm := { stage := st, skipping := false, noisy := false, timer := true }
    counts := if p.asm.stage.isOpen then { p.counts with cut := bump16 p.counts.cut } else p.counts }

theorem PortState.midway_goOn (p : PortState) (st st' : AsmState) : (p.midway st).goOn st' false = p.midway st' := rfl

/-- The body characters of a telegram fill its body, and the check comes next (R9). -/
theorem PortState.midway_body (p : PortState) (port : LinkPort) (hdr : Telegram) (b : Byte) (bs : List Byte) :
    (b :: bs).foldl (fun p x => p.data port x false) (p.midway (.body hdr (hdr.body.length + bs.length + 1))) =
      p.midway (.check { hdr with body := hdr.body ++ b :: bs } none) := by
  induction bs generalizing hdr b with
  | nil =>
    rw [List.foldl_cons, PortState.data_body port rfl, List.length_nil, if_neg (by omega)]
    rfl
  | cons c cs ih =>
    rw [List.foldl_cons, PortState.data_body port rfl, List.length_cons, if_pos (by omega), PortState.midway_goOn]
    have next := ih { hdr with body := hdr.body ++ [b] } c
    simp only [List.length_append, List.length_singleton, List.append_assoc, List.singleton_append] at next
    rwa [show hdr.body.length + 1 + cs.length + 1 = hdr.body.length + (cs.length + 1) + 1 by omega] at next

/-- The header, length and body characters of a telegram bring the assembler to its check (R9). -/
theorem PortState.midway_bytes (p : PortState) (port : LinkPort) (t : Telegram) (h : t.body.length ≤ 48) :
    t.bytes.tail.foldl (fun p x => p.data port x false) (p.midway (.header t.dest [])) = p.midway (.check t none) := by
  obtain ⟨dest, source, kind, seq, body⟩ := t
  have len : (BitVec.ofNat 8 body.length).toNat = body.length := by
    rw [BitVec.toNat_ofNat]; exact Nat.mod_eq_of_lt (h.trans_lt (by decide))
  have header : ∀ l : List Byte,
      (source :: kind :: seq :: l).foldl (fun p x => p.data port x false) (p.midway (.header dest [])) =
        l.foldl (fun p x => p.data port x false) (p.midway (.header dest [source, kind, seq])) := fun _ => rfl
  rw [Telegram.bytes, List.tail_cons, header, List.foldl_cons, PortState.data_length port rfl, len,
    PortState.lengthChar_fits h, PortState.midway_goOn]
  cases body with
  | nil => rfl
  | cons b bs => simpa [Nat.add_assoc] using PortState.midway_body p port ⟨dest, source, kind, seq, []⟩ b bs

theorem checkWord_halves (w : CheckWord) : w.extractLsb' 8 8 ++ w.extractLsb' 0 8 = w := by
  refine BitVec.eq_of_getLsbD_eq fun i hi => ?_
  rw [BitVec.getLsbD_append]
  by_cases low : i < 8
  · simp [low]
  · simp [low, show 8 + (i - 8) = i by omega, show i - 8 < 8 by omega]

/-- The characters of a telegram leave it at its port's receive queue (R9 to R15). -/
theorem PortState.deliver_chars (p : PortState) (port : LinkPort) (t : Telegram) (h : t.body.length ≤ 48) :
    t.chars.foldl (fun p c => p.deliver port c false) p = (p.midway (.check t none)).checked port t t.checkWord false := by
  have data : ∀ (bs : List Byte) (q : PortState),
      (bs.map fun b => ({ mark := false, data := b } : LinkChar)).foldl (fun p c => p.deliver port c false) q =
        bs.foldl (fun p x => p.data port x false) q := by
    intro bs q
    rw [List.foldl_map]
    rfl
  rw [Telegram.chars, List.foldl_cons, data, List.foldl_append]
  rw [show p.deliver port { mark := true, data := t.dest } false = p.midway (.header t.dest []) from rfl,
    PortState.midway_bytes p port t h, List.foldl_cons, List.foldl_cons, List.foldl_nil,
    PortState.data_checkHigh port (p := p.midway (.check t none)) rfl, PortState.midway_goOn,
    PortState.data_checkLow port (p := p.midway (.check t (some _))) rfl, checkWord_halves]
  rfl

/-- Settles O5: the stages of the assembler over the characters of the telegram, and the second check character. -/
theorem telegramReceivedWhole : Obligations.TelegramReceivedWhole := by
  intro port s tel hrx hlen
  rw [runAll_chars port _ s hrx, PortState.deliver_chars _ port tel hlen, PortState.checked_good port rfl]
  congr 2
  unfold PortState.midway
  simp only [bump16_eq]
  split <;> rfl

end Sys2Proof.Machine
end

section
namespace Sys2Proof.Machine

/-! ### O6: the Floor transmitter -/

/-- The Floor transmitter is free with nothing waiting (R15, R16). -/
theorem State.floorFree_empty {s : State} (ha : s.answers = []) (hd : s.downRelay = []) :
    s.floorFree = { s with floor := { s.floor with tx := .idle }, floorPref := .answer } := by
  simp [State.floorFree, State.floorChoice?, ha, hd]

/-- An answer goes when it waits alone or is preferred (R16). -/
theorem State.floorFree_answer {s : State} {a : Telegram} {as : List Telegram} (ha : s.answers = a :: as)
    (h : s.downRelay = [] ∨ s.floorPref = .answer) : s.floorFree = s.sendAnswer a as := by
  unfold State.floorFree State.floorChoice?
  rcases h with hd | hp
  · simp [ha, hd]
  · cases hd : s.downRelay <;> simp [ha, hp]

/-- A downstream relay goes when it waits alone or is preferred (R16). -/
theorem State.floorFree_downRelay {s : State} {d : Telegram} {ds : List Telegram} (hd : s.downRelay = d :: ds)
    (h : s.answers = [] ∨ s.floorPref = .relay) : s.floorFree = s.sendDownRelay d ds := by
  unfold State.floorFree State.floorChoice?
  rcases h with ha | hp
  · simp [ha, hd]
  · cases ha : s.answers <;> simp [hd, hp]

/-- The two ends at which the Floor transmitter chooses; STARTING is left with preference ANSWER (R16, R19). -/
theorem exec_floorEnds {c : Instr} {s : State}
    (h : (c = .telegramSent .floor ∧ ∃ src chars, s.floor.tx = .sending src chars) ∨
      (c = .startingEnd .floor ∧ s.floor.tx = .starting)) :
    (c = .telegramSent .floor ∧ exec c s = .next s.floorFree) ∨
      (c = .startingEnd .floor ∧ exec c s = .next { s with floorPref := .answer }.floorFree) := by
  rcases h with ⟨rfl, src, chars, htx⟩ | ⟨rfl, htx⟩
  · exact .inl ⟨rfl, by simp [exec, execTelegramSent, State.port, htx]⟩
  · exact .inr ⟨rfl, by simp [exec, execStartingEnd, State.port, htx]⟩

/-- Settles O6. -/
theorem floorTransmitterChooses : Obligations.FloorTransmitterChooses := by
  intro c s hc
  rcases exec_floorEnds hc with ⟨rfl, he⟩ | ⟨rfl, he⟩
  · refine ⟨fun ha hd => ?_, fun a as ha h => ?_, fun d ds hd h => ?_⟩
    · exact he.trans (congrArg _ (State.floorFree_empty ha hd))
    · exact he.trans (congrArg _ (State.floorFree_answer ha (h.imp_right fun k => k.resolve_right nofun)))
    · exact he.trans (congrArg _ (State.floorFree_downRelay hd (h.imp_right And.left)))
  · refine ⟨fun ha hd => ?_, fun a as ha _ => ?_, fun d ds hd h => ?_⟩
    · exact he.trans (congrArg _ (State.floorFree_empty (s := { s with floorPref := .answer }) ha hd))
    · exact he.trans (congrArg _ (State.floorFree_answer (s := { s with floorPref := .answer }) ha (.inr rfl)))
    · exact he.trans (congrArg _ (State.floorFree_downRelay (s := { s with floorPref := .answer }) hd
        (.inl (h.resolve_right fun k => nomatch k.2))))

/-! ### O7: the Plant transmitter -/

theorem NoticeQueue.oldest?_high {q : NoticeQueue} {high : Bool} {n : Notice} (h : q.oldest? high = some n) :
    n.high = high := by
  simpa using List.find?_some h

/-- A low notice goes first at a streak of 8, and when nothing else waits (R17). -/
theorem State.plantFree_low {s : State} {n : Notice} (hn : s.notices.oldest? false = some n)
    (h : s.plantStreak = 8 ∨ (s.notices.oldest? true = none ∧ s.replies = [] ∧ s.upRelay = [])) :
    s.plantFree = s.sendNotice n := by
  unfold State.plantFree State.plantChoice?
  by_cases h8 : s.plantStreak = Config.streakLimit
  · simp [h8, hn]
  · obtain ⟨hh, hr, hu⟩ := h.resolve_left h8
    simp [h8, State.plantOrder?, hh, hr, hu, hn]

/-- No low notice has waited for eight relays: the order of R17 applies. -/
theorem State.plantFree_ordered {s t : State} (h : ¬(s.plantStreak = 8 ∧ (s.notices.oldest? false).isSome = true))
    (ht : s.plantOrder? = some t) : s.plantFree = t := by
  unfold State.plantFree State.plantChoice?
  by_cases h8 : s.plantStreak = Config.streakLimit
  · have none : s.notices.oldest? false = none := by simpa using fun e => h ⟨h8, e⟩
    simp [none, ht]
  · simp [h8, ht]

theorem State.plantOrder?_high {s : State} {n : Notice} (hn : s.notices.oldest? true = some n) :
    s.plantOrder? = some (s.sendNotice n) := by simp [State.plantOrder?, hn]

theorem State.plantOrder?_reply {s : State} {r : Telegram} {rest : List Telegram} (hn : s.notices.oldest? true = none)
    (hr : s.replies = r :: rest) : s.plantOrder? = some (s.sendReply r rest) := by simp [State.plantOrder?, hn, hr]

theorem State.plantOrder?_upRelay {s : State} {u : Telegram} {rest : List Telegram}
    (hn : s.notices.oldest? true = none) (hr : s.replies = []) (hu : s.upRelay = u :: rest) :
    s.plantOrder? =
      some (s.sendUpRelay u rest (if (s.notices.oldest? false).isSome = true then s.plantStreak + 1 else 0)) := by
  cases hl : s.notices.oldest? false <;> simp [State.plantOrder?, hn, hr, hu, hl]

/-- The Plant transmitter is free with nothing waiting (R15, R17). -/
theorem State.plantFree_empty {s : State} (hn : s.notices.oldest? true = none) (hl : s.notices.oldest? false = none)
    (hr : s.replies = []) (hu : s.upRelay = []) : s.plantFree = { s with plant := { s.plant with tx := .idle } } := by
  simp [State.plantFree, State.plantChoice?, State.plantOrder?, hn, hl, hr, hu]

theorem exec_telegramSent_plant {s : State} {src : TxSource} {chars : List LinkChar}
    (htx : s.plant.tx = .sending src chars) (hq : s.retention.quiesce = none) :
    exec (.telegramSent .plant) s = .next s.plantFree := by
  simp [exec, execTelegramSent, State.port, htx, State.resetReplySent, hq]

theorem exec_startingEnd_plant {s : State} (htx : s.plant.tx = .starting) :
    exec (.startingEnd .plant) s = .next s.plantFree := by
  simp [exec, execStartingEnd, State.port, htx]

/-- The two ends at which the Plant transmitter chooses. -/
theorem exec_plantEnds {c : Instr} {s : State}
    (h : (c = .telegramSent .plant ∧ s.retention.quiesce = none ∧ ∃ src chars, s.plant.tx = .sending src chars) ∨
      (c = .startingEnd .plant ∧ s.plant.tx = .starting)) : exec c s = .next s.plantFree := by
  rcases h with ⟨rfl, hq, src, chars, htx⟩ | ⟨rfl, htx⟩
  · exact exec_telegramSent_plant htx hq
  · exact exec_startingEnd_plant htx

theorem NoticeQueue.oldest?_eq_none (q : NoticeQueue) (high : Bool) :
    q.oldest? high = none ↔ ∀ e ∈ q.entries, e.high ≠ high := by
  simp [NoticeQueue.oldest?, List.find?_eq_none]

/-- The oldest notice of a priority is the entry of it nearest the head (R169). -/
theorem NoticeQueue.oldest?_eq_some (q : NoticeQueue) (high : Bool) (n : Notice) :
    q.oldest? high = some n ↔
      ∃ before after, q.entries = before ++ n :: after ∧ n.high = high ∧ ∀ e ∈ before, e.high ≠ high := by
  unfold NoticeQueue.oldest?
  rw [List.find?_eq_some_iff_append]
  constructor
  · rintro ⟨hn, before, after, he, hb⟩
    exact ⟨before, after, he, by simpa using hn, fun e hm => by simpa using hb e hm⟩
  · rintro ⟨before, after, he, hn, hb⟩
    exact ⟨by simpa using hn, before, after, he, fun e hm => by simpa using hb e hm⟩

/-- Taking the oldest notice of a priority leaves the others in their order (R169, R170). -/
theorem NoticeQueue.take_eq {q : NoticeQueue} {high : Bool} {n : Notice} {before after : List Notice}
    (he : q.entries = before ++ n :: after) (hn : n.high = high) (hb : ∀ e ∈ before, e.high ≠ high) :
    q.take high = { entries := before ++ after, lost := 0, nextSeq := q.nextSeq + 1 } := by
  unfold NoticeQueue.take
  rw [he, List.eraseP_append_right _ (fun e hm => by simpa using hb e hm), List.eraseP_cons_of_pos (by simpa using hn)]

/-- The lost field of a NOTICE stands at offset 6 (R170). -/
theorem NoticeQueue.telegram_lost (q : NoticeQueue) (part : PartConfig) (n : Notice) :
    FieldAt (q.telegram part n).body 6 1 (some (min 255 (n.startLost + q.lost))) := by
  have lost : min 255 (n.startLost + q.lost) = q.lostField n := rfl
  simp only [NoticeQueue.telegram, List.append_assoc, lost]
  refine fieldAt_behind (by simp) (fieldAt_behind (by simp) ?_)
  simpa using fieldAt_beBytes 1 (q.lostField n) _

/-- Settles O7. -/
theorem plantTransmitterChooses : Obligations.PlantTransmitterChooses := by
  refine ⟨fun c s hc => ?_, fun q part n high => ⟨rfl, rfl, rfl, rfl, q.telegram_laidOut part n, q.telegram_lost part n,
    q.oldest?_eq_none high, q.oldest?_eq_some high n, fun _ _ => NoticeQueue.take_eq⟩⟩
  rw [exec_plantEnds hc]
  refine ⟨fun n hn h => ?_, fun h8 => ⟨fun n hn => ?_, fun r rest hn hr => ?_, fun u rest hn hr hu => ?_⟩,
    fun hn hl hr hu => ?_⟩
  · rw [State.plantFree_low hn h, State.sendNotice, NoticeQueue.oldest?_high hn]; rfl
  · rw [State.plantFree_ordered h8 (State.plantOrder?_high hn), State.sendNotice, NoticeQueue.oldest?_high hn]; rfl
  · rw [State.plantFree_ordered h8 (State.plantOrder?_reply hn hr)]; rfl
  · rw [State.plantFree_ordered h8 (State.plantOrder?_upRelay hn hr hu)]; rfl
  · rw [State.plantFree_empty hn hl hr hu]

/-! ### O8: how long a low notice waits -/

/-- A relay that passes a waiting low notice raises the streak (R17). -/
theorem exec_telegramSent_relay {s : State} {n : Notice} {src : TxSource} {chars : List LinkChar} {u : Telegram}
    {rest : List Telegram} (htx : s.plant.tx = .sending src chars) (hq : s.retention.quiesce = none)
    (hh : s.notices.oldest? true = none) (hr : s.replies = []) (hl : s.notices.oldest? false = some n)
    (h8 : s.plantStreak ≠ 8) (hu : s.upRelay = u :: rest) :
    exec (.telegramSent .plant) s = .next (s.sendUpRelay u rest (s.plantStreak + 1)) := by
  rw [exec_telegramSent_plant htx hq,
    State.plantFree_ordered (fun e => h8 e.1) (State.plantOrder?_upRelay hh hr hu), if_pos (by simp [hl])]

/-- The state once the low notice is on the line, `k` relays having gone before it. -/
def State.lowNoticeSent (s : State) (n : Notice) (k : Nat) : State :=
  { s with
    plant := { s.plant with tx := .sending .notice (s.notices.telegram s.tables.part n).chars }
    notices := s.notices.take false, upRelay := s.upRelay.drop k, plantStreak := 0 }

theorem runAll_lowNotice (n : Notice) (k : Nat) (s : State) (src : TxSource) (chars : List LinkChar)
    (htx : s.plant.tx = .sending src chars) (hq : s.retention.quiesce = none) (hh : s.notices.oldest? true = none)
    (hr : s.replies = []) (hl : s.notices.oldest? false = some n) (hk : s.plantStreak + k = 8)
    (hu : k ≤ s.upRelay.length) :
    runAll (List.replicate (k + 1) (.telegramSent .plant)) s = .next (s.lowNoticeSent n k) := by
  induction k generalizing s src chars with
  | zero =>
    rw [List.replicate_succ, runAll, exec_telegramSent_plant htx hq, State.plantFree_low hl (.inl hk), State.sendNotice,
      NoticeQueue.oldest?_high hl]
    rfl
  | succ k ih =>
    obtain ⟨u, rest, hup⟩ := List.exists_cons_of_length_pos (Nat.lt_of_lt_of_le k.succ_pos hu)
    rw [List.replicate_succ, runAll, exec_telegramSent_relay htx hq hh hr hl (by omega) hup]
    simp only []
    rw [ih (s.sendUpRelay u rest (s.plantStreak + 1)) .upRelay u.chars rfl hq hh hr hl
      (by simp only [State.sendUpRelay]; omega) (by rw [hup] at hu; exact Nat.le_of_succ_le_succ hu)]
    simp only [State.lowNoticeSent, hup, List.drop_succ_cons]
    rfl

/-- Settles O8, by induction on the relays that may still pass. -/
theorem lowNoticeWaitsAtMostEight : Obligations.LowNoticeWaitsAtMostEight := by
  intro s n src chars htx hq hh hr hl h8 hu
  have run := runAll_lowNotice n (8 - s.plantStreak) s src chars htx hq hh hr hl (by omega) hu
  rwa [show 8 - s.plantStreak + 1 = 9 - s.plantStreak by omega] at run

end Sys2Proof.Machine
end

section
namespace Sys2Proof.Machine

/-! ### O10: the plant routing -/

section
variable {s : State} {tel : Telegram} {rest : List Telegram}

theorem State.dropPlantHead_eq (h : s.plant.queue = tel :: rest) :
    s.dropPlantHead = { s with plant := { s.plant with queue := rest } } := by simp [State.dropPlantHead, h]

/-- A request to the part goes to an agent that is free, and waits otherwise (R23, R175). -/
theorem exec_plantRoutingTake_request (h : s.plant.queue = tel :: rest) (hl : s.live = true)
    (hd : tel.dest = s.tables.part.own) (hk : tel.kind = 0x50) :
    exec .plantRoutingTake s = .next (if s.agentFree then s.dropPlantHead.takeRequest tel else s) := by
  have kind : tel.kind = kindMgmtRequest := hk
  simp only [exec, execPlantRoutingTake, h, hl, hd, kind, if_true]
  exact (apply_ite Host.Outcome.next ..).symm

theorem exec_plantRoutingTake_reject (h : s.plant.queue = tel :: rest) (hl : s.live = true)
    (hd : tel.dest = s.tables.part.own) (hk : tel.kind ≠ 0x50) :
    exec .plantRoutingTake s = .next { s.dropPlantHead with agentRejects := bump16 s.agentRejects } := by
  have kind : tel.kind ≠ kindMgmtRequest := hk
  simp only [exec, execPlantRoutingTake, h, hl, hd, kind, if_true, if_false]

theorem exec_plantRoutingTake_relay (h : s.plant.queue = tel :: rest) (hl : s.live = true)
    (hd : tel.dest ≠ s.tables.part.own) :
    exec .plantRoutingTake s = .next (if s.downRelay.length < 16 then s.dropPlantHead.pushDownRelay tel else s) := by
  simp only [exec, execPlantRoutingTake, h, hl, hd, if_true, if_false, Config.downRelayCap]
  exact (apply_ite Host.Outcome.next ..).symm

end

theorem State.agentFree_iff (s : State) : s.agentFree = true ↔ s.agent.phase = .idle ∧ s.agent.completion = none := by
  simp [State.agentFree]

theorem requestOp?_eq_some (t : Telegram) (op : MgmtOp) : requestOp? t = some op ↔ decodeRequest t.body = .ok op := by
  unfold requestOp?
  split
  · next h => simp [h]
  · next h => simp [h]

/-- A LOAD-IMAGE passes R176 in SETUP while no image operation runs. -/
theorem State.refusal?_loadImage (s : State) :
    s.refusal? .loadImage = none ↔ s.mode = .setup ∧ s.store.run = none := by
  unfold State.refusal?
  cases s.mode <;> cases s.store.run <;> simp [MgmtOp.setupOnly, MgmtOp.needsStore]

/-- What a taken request leaves: its copy of the tables if it saves them, and the pause if it loads (R181, R182). -/
theorem State.takeRequest_eq (s : State) (t : Telegram) {copy : Option Tables} {pause : Bool}
    (hc : copy = if decodeRequest t.body = .ok .saveImage then some s.tables else none)
    (hp : pause = true ↔ s.engine.pause = true ∨
      (decodeRequest t.body = .ok .loadImage ∧ s.mode = .setup ∧ s.store.run = none)) :
    s.takeRequest t =
      { s with
        agent := { phase := .executing t, completion := none, copy := copy }
        engine := { s.engine with pause := pause } } := by
  have hp' : pause = (s.engine.pause || (requestOp? t == some .loadImage && (s.refusal? .loadImage).isNone)) := by
    rw [Bool.eq_iff_iff, hp]
    simp only [Bool.or_eq_true, Bool.and_eq_true, beq_iff_eq, Option.isNone_iff_eq_none, requestOp?_eq_some,
      State.refusal?_loadImage]
  simp only [State.takeRequest, requestOp?_eq_some, hc, hp']

/-- A downstream relay that joins its queue behind a Floor transmitter at work (R23). -/
theorem State.pushDownRelay_busy {s : State} (h : s.floor.tx ≠ .idle) (t : Telegram) :
    s.pushDownRelay t = { s with downRelay := s.downRelay ++ [t] } := by
  simp [State.pushDownRelay, State.kickFloor, h]

/-- An idle Floor transmitter with nothing waiting sends a downstream relay at once (R15, R16; log entry 10). -/
theorem State.pushDownRelay_idle {s : State} (h : s.floor.tx = .idle) (ha : s.answers = []) (hd : s.downRelay = [])
    (t : Telegram) : s.pushDownRelay t = s.sendDownRelay t [] := by
  simp [State.pushDownRelay, State.kickFloor, State.floorChoice?, h, ha, hd, State.sendDownRelay]

/-- Settles O10. -/
theorem plantRoutingTakes : Obligations.PlantRoutingTakes := by
  intro s tel rest hq hl
  have head := State.dropPlantHead_eq hq
  refine ⟨fun hd hk hi hc => ?_, fun hd hk hb => ?_, fun hd hk => ?_, fun hd hr htx => ?_, fun hd htx ha hdn => ?_,
    fun hd hfull => ?_⟩
  · rw [exec_plantRoutingTake_request hq hl hd hk, if_pos ((State.agentFree_iff s).mpr ⟨hi, hc⟩), head]
    refine ⟨fun save => ?_, fun load hm hrun => ?_, fun save load => ?_⟩
    · rw [State.takeRequest_eq _ _ (if_pos save).symm (pause := s.engine.pause) (by simp [save])]
    · rw [State.takeRequest_eq _ _ (copy := none) (by simp [load]) (pause := true) (by simp [load, hm, hrun])]
    · have not_paused : ¬(decodeRequest tel.body = .ok .loadImage ∧ s.mode = .setup ∧ s.store.run = none) :=
        fun ⟨h1, h2, h3⟩ => load.elim (· h1) (·.elim (· h2) (· h3))
      rw [State.takeRequest_eq _ _ (if_neg save).symm (pause := s.engine.pause) (by simp only [not_paused, or_false])]
  · have busy : ¬s.agentFree = true := by rw [State.agentFree_iff]; tauto
    rw [exec_plantRoutingTake_request hq hl hd hk, if_neg busy]
  · rw [exec_plantRoutingTake_reject hq hl hd hk, head]; rfl
  · rw [exec_plantRoutingTake_relay hq hl hd, if_pos hr, State.pushDownRelay_busy (s := s.dropPlantHead) htx, head]
  · rw [exec_plantRoutingTake_relay hq hl hd, if_pos (by simp [hdn]),
      State.pushDownRelay_idle (s := s.dropPlantHead) htx ha hdn, head, State.sendDownRelay, ← hdn]
    rfl
  · rw [exec_plantRoutingTake_relay hq hl hd, if_neg (Nat.not_lt.mpr hfull)]

end Sys2Proof.Machine
end

section
namespace Sys2Proof.Machine

/-! ### O34: reading requests -/

/-! Fields laid down one behind the other. -/

/-- The bytes of fields written one after another, each of a size and a number or absent. -/
def layFields (l : List (Nat × Option Nat)) : List Byte := l.flatMap fun f => optBytes f.1 f.2

/-- Those fields with their offsets, the first at `off`. -/
def fieldsFrom : Nat → List (Nat × Option Nat) → List (Nat × Nat × Option Nat)
  | _, [] => []
  | off, (n, v) :: l => (off, n, v) :: fieldsFrom (off + n) l

theorem layFields_append (l m : List (Nat × Option Nat)) : layFields (l ++ m) = layFields l ++ layFields m :=
  List.flatMap_append

theorem length_layFields (l : List (Nat × Option Nat)) : (layFields l).length = (l.map Prod.fst).sum := by
  simp [layFields, List.length_flatMap]

theorem fieldsFrom_append (off : Nat) (l m : List (Nat × Option Nat)) :
    fieldsFrom off (l ++ m) = fieldsFrom off l ++ fieldsFrom (off + (l.map Prod.fst).sum) m := by
  induction l generalizing off with
  | nil => rfl
  | cons f l ih => simp [fieldsFrom, ih, Nat.add_assoc]

/-- Every field stands at its offset. -/
theorem fieldAt_layFields (pre : List Byte) (l : List (Nat × Option Nat)) :
    ∀ f ∈ fieldsFrom pre.length l, FieldAt (pre ++ layFields l) f.1 f.2.1 f.2.2 := by
  induction l generalizing pre with
  | nil => exact fun _ h => nomatch h
  | cons x l ih =>
    obtain ⟨n, v⟩ := x
    have next := ih (pre ++ optBytes n v)
    rw [List.length_append, length_optBytes, List.append_assoc] at next
    rintro f (_ | ⟨_, hf⟩)
    · exact (fieldAt_append_right pre _ 0 n v).mpr (fieldAt_optBytes n v _)
    · exact next f hf

/-- Bytes that lay down some fields carry them at the offsets counted from 0. -/
theorem laidOut_of_layFields {b : List Byte} {l : List (Nat × Option Nat)} {n : Nat} {fs : List (Nat × Nat × Option Nat)}
    (hb : b = layFields l) (hn : (l.map Prod.fst).sum = n) (hf : fieldsFrom 0 l = fs) : LaidOut b n fs := by
  subst hb hn hf
  exact ⟨length_layFields l, fieldAt_layFields [] l⟩

/-- A list of numbers of one size is a list of fields. -/
theorem flatMap_beBytes (n : Nat) (l : List Nat) : l.flatMap (beBytes n) = layFields (l.map fun m => (n, some m)) := by
  rw [layFields, List.flatMap_map]; rfl

/-- The k-th of a list of fields of one size. -/
theorem mem_fieldsFrom_map {n off k m : Nat} {l : List Nat} (h : l[k]? = some m) :
    (off + n * k, n, some m) ∈ fieldsFrom off (l.map fun m => (n, some m)) := by
  induction l generalizing off k with
  | nil => cases h
  | cons x l ih =>
    cases k with
    | zero => cases h; exact List.mem_cons_self
    | succ k =>
      have next := ih (off := off + n) (k := k) (by simpa using h)
      rw [show off + n + n * k = off + n * (k + 1) by ring] at next
      exact List.mem_cons_of_mem _ next

/-! Single bytes as fields of size 1. -/

theorem byte_eq_optBytes (b : Byte) : [b] = optBytes 1 (some b.toNat) := by simp [optBytes, beBytes]

theorem boolByte_eq_optBytes (b : Bool) : [boolByte b] = optBytes 1 (some b.toNat) := by cases b <;> rfl

theorem Mode.code_eq_idxOf (m : Mode) : m.code = [Mode.setup, .watch, .enforce].idxOf m := by cases m <;> rfl

theorem CarrierState.code_eq_stateNumber (st : CarrierState) : st.code = stateNumber st := by cases st <;> rfl

theorem RepeatOutcome.code_eq_idxOf (o : RepeatOutcome) :
    o.code = [RepeatOutcome.relayed, .relayedMarked, .refused].idxOf o := by cases o <;> rfl

theorem StartFlags.byte_eq_optBytes (f : StartFlags) :
    [f.byte] = optBytes 1 (some
      (f.powerOn.toNat + 2 * f.supplyRestore.toNat + 4 * f.command.toNat + 8 * f.lineBreak.toNat +
        16 * f.retainedLost.toNat + 32 * f.imageLost.toNat + 64 * f.timeUnset.toNat)) := by
  obtain ⟨a, b, c, d, e, g, h⟩ := f
  revert a b c d e g h
  decide

theorem Record.flagByte_eq_optBytes (r : Record) :
    [r.flagByte] = optBytes 1 (some (r.warnIssued.toNat + 2 * r.eligible.toNat + 4 * r.lastBakeShort.toNat)) := by
  unfold Record.flagByte
  generalize r.warnIssued = a
  generalize r.eligible = b
  generalize r.lastBakeShort = c
  revert a b c
  decide

/-! The data of the replies. -/

theorem State.statusPage0_laidOut (s : State) : LaidOut s.statusPage0 22 s.status0Fields := by
  refine laidOut_of_layFields (l := s.status0Fields.map fun f => f.2) ?bytes ?size ?offsets
  case size => simp only [State.status0Fields, List.map, List.sum_cons, List.sum_nil, Nat.reduceAdd]
  case offsets => simp only [State.status0Fields, List.map, fieldsFrom, Nat.reduceAdd]
  case bytes =>
    simp only [State.statusPage0, State.status0Fields, layFields, List.map, List.flatMap_cons, List.flatMap_nil]
    rw [← Mode.code_eq_idxOf, ← StartFlags.byte_eq_optBytes, ← boolByte_eq_optBytes, ImageStore.runCode]
    rcases s.store.run with _ | ⟨_ | _⟩ <;>
      simp [optBytes, beBytes, State.now, State.wallTime]

/-- The nine counts of a port as fields. -/
def PortCounts.sized (c : PortCounts) : List (Nat × Option Nat) :=
  [c.framing, c.noise, c.check, c.overrun, c.cut, c.stray, c.timeout, c.length, c.brk].map fun m => (2, some m)

theorem State.statusPage1_laidOut (s : State) :
    LaidOut s.statusPage1 36 (s.floor.counts.fields 0 ++ s.plant.counts.fields 18) := by
  refine laidOut_of_layFields (l := s.floor.counts.sized ++ s.plant.counts.sized) ?bytes ?size ?offsets
  case size => simp [PortCounts.sized]
  case offsets =>
    simp only [PortCounts.sized, PortCounts.fields, List.map, List.cons_append, List.nil_append, fieldsFrom, Nat.reduceAdd]
  case bytes => rw [layFields_append, PortCounts.sized, PortCounts.sized, ← flatMap_beBytes, ← flatMap_beBytes]; rfl

theorem memoryBytes_eq (m : Option RepeatMemory) :
    memoryBytes m = layFields
      [(1, m.map fun m => m.source.toNat), (1, m.map fun m => m.seq.toNat), (1, m.map fun m => m.kind.toNat),
        (1, m.map fun m => [RepeatOutcome.relayed, .relayedMarked, .refused].idxOf m.outcome),
        (1, (m.bind RepeatMemory.reason).map BitVec.toNat)] := by
  cases m with
  | none => rfl
  | some x =>
    simp [memoryBytes, layFields, ← RepeatOutcome.code_eq_idxOf, optByte_eq, optBytes, beBytes]

theorem zonePartBytes_eq (z : Option ZonePart) :
    zonePartBytes z = layFields
      [(1, z.map fun x => x.zone.val), (6, z.map ZonePart.stamp), (6, z.map ZonePart.key), (4, z.map ZonePart.entered)] := by
  cases z with
  | none => rfl
  | some x => simp [zonePartBytes, layFields, optBytes]

theorem bakePartBytes_eq (b : Option BakePart) :
    bakePartBytes b = layFields
      [(1, b.map fun x => x.oven.toNat), (1, b.map fun x => x.tier.val), (4, b.map BakePart.entered),
        (1, b.map fun x => stateNumber x.preState)] := by
  cases b with
  | none => rfl
  | some x => simp [bakePartBytes, layFields, optBytes, byte_eq_optBytes, CarrierState.code_eq_stateNumber]

theorem Record.image_laidOut (r : Record) (i : Nat) : LaidOut (r.image i) 43 (r.imageFields i) := by
  refine laidOut_of_layFields (l := (r.imageFields i).map fun f => f.2) ?bytes ?size ?offsets
  case size => simp only [Record.imageFields, List.map, List.sum_cons, List.sum_nil, Nat.reduceAdd]
  case offsets => simp only [Record.imageFields, List.map, fieldsFrom, Nat.reduceAdd]
  case bytes =>
    rw [Record.image, memoryBytes_eq, zonePartBytes_eq, bakePartBytes_eq, Record.flagByte_eq_optBytes,
      CarrierState.code_eq_stateNumber]
    simp only [Record.imageFields, layFields, List.map, List.flatMap_cons, List.flatMap_nil, List.append_assoc,
      List.append_nil]
    rfl

/-- The fields of an open batch in READ-BATCH data, with the indices of the members shown. -/
def Batch.readFields (x : Batch) (out : List Nat) : List (Nat × Option Nat) :=
  [(1, some x.oven.toNat), (1, some x.tier.val), (4, some x.openTime), (1, some x.members.length), (4, some x.longest),
    (4, some x.deadline), (1, some x.stalePosted.toNat), (1, some out.length)] ++ out.map fun m => (2, some m)

theorem batchImage_some (x : Batch) (pos : Nat) :
    batchImage (some x) pos = layFields (x.readFields ((x.members.drop pos).take 12)) := by
  rw [Batch.readFields, layFields_append, ← flatMap_beBytes]
  simp [batchImage, layFields, byte_eq_optBytes x.oven, boolByte_eq_optBytes, optBytes]

theorem Batch.readFields_size (x : Batch) (out : List Nat) :
    ((x.readFields out).map Prod.fst).sum = 17 + 2 * out.length := by
  simp only [Batch.readFields, List.map_append, List.map_map, List.sum_append, Function.comp_def, List.map_const',
    List.sum_replicate, List.map, List.sum_cons, List.sum_nil, smul_eq_mul]
  omega

/-- READ-BATCH shows the batch's fields and up to 12 of its members from a list position (R156). -/
theorem batchImage_data (b : Option Batch) (pos : Nat) : BatchData b pos (batchImage b pos) := by
  cases b with
  | none =>
    refine ⟨0, by simp, laidOut_of_layFields
      (l := [(1, none), (1, none), (4, none), (1, some 0), (4, none), (4, none), (1, none), (1, some 0)]) rfl rfl rfl,
      fun _ _ hk => absurd hk (Nat.not_lt_zero _)⟩
  | some x =>
    obtain ⟨out, hout⟩ : ∃ out, out = (x.members.drop pos).take 12 := ⟨_, rfl⟩
    have hn : out.length = min 12 (x.members.length - pos) := by simp [hout]
    obtain ⟨hlen, hfields⟩ := laidOut_of_layFields (hout ▸ batchImage_some x pos) (x.readFields_size out) rfl
    rw [Batch.readFields, fieldsFrom_append] at hfields
    refine ⟨out.length, hn, ⟨hlen, fun f hf => hfields f (List.mem_append_left _ hf)⟩, fun k m hk hm => ?_⟩
    have shown : out[k]? = some m := by
      rw [hout, List.getElem?_take_of_lt (by omega), List.getElem?_drop]
      exact hm
    exact hfields _ (List.mem_append_right _ (mem_fieldsFrom_map shown))

/-- The request in hand, with its operation. -/
theorem State.Serving.operation? {s : State} {t : Telegram} {op : MgmtOp} (h : s.Serving t op) :
    s.operation? = some (t, op) := by
  obtain ⟨hp, hr, hd⟩ := h
  simp [State.operation?, State.request?, hp, hr, hd]

/-- Settles O34. -/
theorem readsChangeNothing : Obligations.ReadsChangeNothing := by
  intro s t
  refine ⟨fun h => ⟨_, ?_, s.statusPage0_laidOut⟩, fun h => ⟨_, ?_, s.statusPage1_laidOut⟩, fun table row h => ?_,
    fun id i r h hf => ⟨_, ?_, r.image_laidOut i⟩, fun id h hf => ?_, fun b pos h => ⟨_, ?_, batchImage_data _ pos⟩⟩
  · simp only [exec, execReadStatus, h.operation?]; rfl
  · simp only [exec, execReadStatus, h.operation?]; rfl
  · simp only [exec, execReadRow, h.operation?]
  · simp only [exec, execReadRecord, h.operation?, hf]
  · simp only [exec, execReadRecord, h.operation?, hf]
  · simp only [exec, execReadBatch, h.operation?]

end Sys2Proof.Machine
end

section
namespace Sys2Proof.Machine

/-! ### O47, O49, O50: how a stop begins

What a stop does at once, apart from the outputs and replies it still places, is to write one part of the state, its
`StopView`; placing reads and writes the rest. So each beginning of a stop has one form, `State.beginStop_late`. -/

/-- The part of the state that the beginning of a stop writes. -/
structure StopView where
  floorRx : RxState
  floorAsm : Assembler
  plantRx : RxState
  plantAsm : Assembler
  retention : Retention
  zoneWait : List ZoneRequest
  batchWait : List (Fin 16)
  engine : Engine
  agent : Agent

def State.stopView (s : State) : StopView :=
  { floorRx := s.floor.rx, floorAsm := s.floor.asm, plantRx := s.plant.rx, plantAsm := s.plant.asm
    retention := s.retention, zoneWait := s.zoneWait, batchWait := s.batchWait, engine := s.engine, agent := s.agent }

def State.withView (s : State) (x : StopView) : State :=
  { s with
    floor := { s.floor with rx := x.floorRx, asm := x.floorAsm }
    plant := { s.plant with rx := x.plantRx, asm := x.plantAsm }
    retention := x.retention, zoneWait := x.zoneWait, batchWait := x.batchWait, engine := x.engine, agent := x.agent }

@[simp] theorem State.withView_stopView (s : State) : s.withView s.stopView = s := rfl

@[simp] theorem State.withView_withView (s : State) (x y : StopView) : (s.withView x).withView y = s.withView y := rfl

@[simp] theorem State.stopView_withView (s : State) (x : StopView) : (s.withView x).stopView = x := rfl

/-! Placing reads and writes the rest. -/

theorem State.kickPlant_withView (s : State) (x : StopView) : (s.withView x).kickPlant = s.kickPlant.withView x := by
  have floor : s.kickPlant.floor = s.floor := by rw [s.kickPlant_frame]
  refine (s.kickPlant_with ..).trans ?_
  rw [State.withView, floor]

theorem State.kickFloor_plant (s : State) : s.kickFloor.plant = s.plant := by
  unfold State.kickFloor
  split
  · cases h : s.floorChoice? with
    | none => rfl
    | some t => exact (State.floorChoice?_sends h).2.1
  · rfl

theorem State.kickFloor_withView (s : State) (x : StopView) : (s.withView x).kickFloor = s.kickFloor.withView x := by
  refine (s.kickFloor_with ..).trans ?_
  rw [State.withView, s.kickFloor_plant]

theorem State.pushReply_withView (s : State) (x : StopView) (t : Telegram) :
    (s.withView x).pushReply t = (s.pushReply t).withView x :=
  State.kickPlant_withView { s with replies := s.replies ++ [t] } x

theorem State.pushUpRelay_withView (s : State) (x : StopView) (t : Telegram) :
    (s.withView x).pushUpRelay t = (s.pushUpRelay t).withView x :=
  State.kickPlant_withView { s with upRelay := s.upRelay ++ [t] } x

theorem State.pushAnswer_withView (s : State) (x : StopView) (t : Telegram) :
    (s.withView x).pushAnswer t = (s.pushAnswer t).withView x :=
  State.kickFloor_withView { s with answers := s.answers ++ [t] } x

theorem State.tryPlace_withView (s : State) (x : StopView) (o : Output) :
    (s.withView x).tryPlace o = (s.tryPlace o).map (State.withView · x) := by
  have up : (s.withView x).upRelay = s.upRelay := rfl
  have ans : (s.withView x).answers = s.answers := rfl
  unfold State.tryPlace
  rw [s.pushUpRelay_withView, s.pushAnswer_withView, up, ans]
  split <;> split <;> rfl

theorem State.pushOrDrop_withView (s : State) (x : StopView) (t : Telegram) :
    (s.withView x).pushOrDrop t = (s.pushOrDrop t).withView x := by
  have room : (s.withView x).replyRoom = s.replyRoom := rfl
  unfold State.pushOrDrop
  rw [s.pushReply_withView, room]
  split <;> rfl

/-- Replies placed one after another, each discarded at a full queue (R186). -/
def State.pushReplies (s : State) (l : List Telegram) : State := l.foldl State.pushOrDrop s

theorem State.pushReplies_withView (x : StopView) (l : List Telegram) (s : State) :
    (s.withView x).pushReplies l = (s.pushReplies l).withView x := by
  induction l generalizing s with
  | nil => rfl
  | cons t l ih =>
    simp only [State.pushReplies, List.foldl_cons, State.pushOrDrop_withView]
    exact ih _

/-! ### The engine's part -/

/-- The output of an engine in PLACING has been placed, if it finds a place (R154). -/
def State.outputGone (s : State) : State :=
  match s.engine.phase, s.engine.work with
  | .placing, some w => (w.output.bind s.tryPlace).getD s
  | _, _ => s

/-- The engine in OFFERING or PLACING stops; a transaction in flight goes on (R154). -/
def Engine.stopped (e : Engine) : Engine :=
  match e.phase with
  | .offering | .placing => { e with phase := .idle, work := none }
  | _ => e

/-- What the beginning of a stop writes before the agent ends its work, with `r` in the Retention Unit (R20, R74, R165). -/
def State.stoppingView (s : State) (r : Retention) : StopView :=
  { floorRx := .disabled, floorAsm := .none s.floor.asm.skipping
    plantRx := .disabled, plantAsm := .none s.plant.asm.skipping
    retention := r
    zoneWait := if s.engine.phase = .offering then [] else s.zoneWait.filter fun q => q == .engine
    batchWait := [], engine := s.engine.stopped, agent := s.agent }

theorem State.outputGone_of_ne {s : State} (h : s.engine.phase ≠ .placing) : s.outputGone = s := by
  unfold State.outputGone
  split
  · exact absurd ‹_› h
  · rfl

theorem State.outputGone_withView {s : State} {x : StopView} (hp : x.engine.phase = s.engine.phase)
    (hw : x.engine.work = s.engine.work) : (s.withView x).outputGone = s.outputGone.withView x := by
  have phase : (s.withView x).engine.phase = s.engine.phase := hp
  have work : (s.withView x).engine.work = s.engine.work := hw
  unfold State.outputGone
  rw [phase, work]
  split
  · next w _ _ =>
    cases w.output with
    | none => rfl
    | some o =>
      simp only [Option.bind_some, State.tryPlace_withView]
      cases s.tryPlace o <;> rfl
  · rfl

/-- An output placed leaves the view alone. -/
theorem State.tryPlace_stopView {s t : State} {o : Output} (h : s.tryPlace o = some t) : t.stopView = s.stopView := by
  have k := s.tryPlace_withView s.stopView o
  rw [State.withView_stopView, h, Option.map_some, Option.some.injEq] at k
  rw [k, State.stopView_withView]

theorem State.outputGone_stopView (s : State) : s.outputGone.stopView = s.stopView := by
  unfold State.outputGone
  split
  · next w _ _ =>
    cases h : w.output.bind s.tryPlace with
    | none => rfl
    | some t =>
      obtain ⟨o, _, ho⟩ := Option.bind_eq_some_iff.mp h
      exact State.tryPlace_stopView ho
  · rfl

/-- The engine's part in the beginning of a stop (R154). -/
theorem State.stopEngine_eq (s : State) :
    s.stopEngine = s.outputGone.withView { s.stopView with engine := s.engine.stopped } := by
  have view := s.outputGone_stopView
  unfold State.stopEngine
  split
  · next h =>
    rw [State.outputGone_of_ne (by rw [h]; decide), Engine.stopped, h]
    rfl
  · next w hp hw =>
    have gone : s.outputGone = (w.output.bind s.tryPlace).getD s := by simp only [State.outputGone, hp, hw]
    rw [← gone, ← view, Engine.stopped, hp]
    have engine : s.engine = s.outputGone.engine := congrArg StopView.engine view.symm
    rw [engine]
    rfl
  · next hp hw =>
    have gone : s.outputGone = s := by simp only [State.outputGone, hp, hw]
    rw [gone, Engine.stopped, hp]
    rfl
  · next h1 h2 h3 =>
    have placing : s.engine.phase ≠ .placing := fun e => by
      cases hw : s.engine.work with
      | none => exact h3 e hw
      | some w => exact h2 w e hw
    have offering : s.engine.phase ≠ .offering := fun e => h1 e
    rw [State.outputGone_of_ne placing, Engine.stopped]
    split
    · exact absurd ‹_› offering
    · exact absurd ‹_› placing
    · rfl

/-- The beginning of a stop until the agent's part. -/
theorem State.stopEngine_stopping (s : State) (r : Retention) :
    { s with retention := r }.stopReceivers.dropRequests.stopEngine = s.outputGone.withView (s.stoppingView r) := by
  rw [State.stopEngine_eq]
  have gone := State.outputGone_withView (s := s)
    (x := { s.stoppingView r with engine := s.engine }) rfl rfl
  exact (congrArg (State.withView · (s.stoppingView r)) gone).trans (State.withView_withView ..)

/-! ### The agent's part -/

/-- The replies that an agent still has to place: the one it is placing, and the completion reply that waits. -/
def State.lateReplies (s : State) (a : Agent) : List Telegram :=
  (match a.phase with
    | .placing r _ => [r]
    | _ => []) ++ (a.completion.map s.completionReply).toList

/-- The agent drained: its completion reply placed, if one waits (log entry 55). -/
theorem State.agentDrain_withView (s : State) (x : StopView) :
    (s.withView x).agentDrain =
      (s.pushReplies (x.agent.completion.map s.completionReply).toList).withView { x with agent := .atStart } := by
  have reply : (s.withView x).completionReply = s.completionReply := rfl
  have agent : (s.withView x).agent = x.agent := rfl
  unfold State.agentDrain
  rw [agent]
  cases x.agent.completion with
  | none => rfl
  | some c => exact s.pushOrDrop_withView { x with agent := .atStart } (s.completionReply c)

theorem State.pushOrDrop_completionReply (s : State) (t : Telegram) : (s.pushOrDrop t).completionReply = s.completionReply := by
  have tables : (s.pushOrDrop t).tables = s.tables := by
    unfold State.pushOrDrop
    split
    · rw [s.pushReply_frame]
    · rfl
  funext c
  simp only [State.completionReply, State.mgmtReply, tables]

/-- An agent that is idle or placing ends its work: its late replies are placed (R186). -/
theorem State.stopAgent_late (s : State) (x : StopView)
    (h : x.agent.phase = .idle ∨ ∃ t b, x.agent.phase = .placing t b) :
    (s.withView x).stopAgent = (s.pushReplies (s.lateReplies x.agent)).withView { x with agent := .atStart } := by
  have agent : (s.withView x).agent = x.agent := rfl
  unfold State.stopAgent
  rw [agent]
  rcases h with hi | ⟨t, b, hp⟩
  · simp only [State.lateReplies, hi]
    exact s.agentDrain_withView x
  · simp only [State.lateReplies, hp, s.pushOrDrop_withView, State.agentDrain_withView, s.pushOrDrop_completionReply]
    rfl

/-- A request that the agent does not execute alone is discarded, with the pause lowered (R186; log entry 20). -/
theorem State.stopAgent_drops (s : State) (x : StopView)
    (h : (∃ t, x.agent.phase = .executing t ∧ ¬s.AgentAlone t) ∨ (∃ t, x.agent.phase = .loading t) ∨
      ∃ t k row, x.agent.phase = .rekeying t k row) :
    (s.withView x).stopAgent =
      (s.pushReplies (x.agent.completion.map s.completionReply).toList).withView
        { x with engine := { x.engine with pause := false }, agent := .atStart } := by
  have agent : (s.withView x).agent = x.agent := rfl
  have drops : (s.withView x).stopAgent = (s.withView x).dropRequest := by
    unfold State.stopAgent
    rw [agent]
    rcases h with ⟨t, hp, ha⟩ | ⟨t, hp⟩ | ⟨t, k, row, hp⟩
    · have alone : ¬(s.withView x).requestAlone t = true := fun e => ha ((requestAlone_iff (s.withView x) t).mp e)
      simp only [hp]
      exact if_neg alone
    · simp only [hp]
    · simp only [hp]
  rw [drops]
  exact s.agentDrain_withView { x with engine := { x.engine with pause := false } }

/-- A request that the agent executes alone is kept (R186; log entry 20). -/
theorem State.stopAgent_keeps (s : State) (x : StopView) {t : Telegram} (h : x.agent.phase = .executing t)
    (ha : s.AgentAlone t) : (s.withView x).stopAgent = s.withView x := by
  have agent : (s.withView x).agent = x.agent := rfl
  have alone : (s.withView x).requestAlone t = true := (requestAlone_iff (s.withView x) t).mpr ha
  unfold State.stopAgent
  rw [agent]
  simp only [h]
  exact if_pos alone

end Sys2Proof.Machine
end

section
namespace Sys2Proof.Machine

/-! ### What placing an output leaves alone -/

/-- Fields that a stop reads and no placing touches. -/
def State.SameBase (s t : State) : Prop :=
  t.tables = s.tables ∧ t.mode = s.mode ∧ t.store = s.store ∧ t.table = s.table ∧ t.lineReset = s.lineReset

theorem State.PlantFrame.sameBase {s t : State} (h : s.PlantFrame t) : s.SameBase t := by
  unfold State.SameBase
  rw [h]
  exact ⟨rfl, rfl, rfl, rfl, rfl⟩

theorem State.floorChoice?_sameBase {s t : State} (h : s.floorChoice? = some t) : s.SameBase t := by
  unfold State.floorChoice? at h
  split at h
  · cases h
  · cases h; exact ⟨rfl, rfl, rfl, rfl, rfl⟩
  · cases h; exact ⟨rfl, rfl, rfl, rfl, rfl⟩
  · split at h <;> cases h <;> exact ⟨rfl, rfl, rfl, rfl, rfl⟩

theorem State.pushAnswer_sameBase (s : State) (t : Telegram) : s.SameBase (s.pushAnswer t) := by
  unfold State.pushAnswer State.kickFloor
  split
  · cases h : State.floorChoice? { s with answers := s.answers ++ [t] } with
    | none => exact ⟨rfl, rfl, rfl, rfl, rfl⟩
    | some u => exact State.floorChoice?_sameBase (s := { s with answers := s.answers ++ [t] }) h
  · exact ⟨rfl, rfl, rfl, rfl, rfl⟩

theorem State.tryPlace_sameBase {s t : State} {o : Output} (h : s.tryPlace o = some t) : s.SameBase t := by
  unfold State.tryPlace at h
  split at h
  · split at h
    · cases h; exact (s.pushUpRelay_frame _).sameBase
    · cases h
  · split at h
    · cases h; exact s.pushAnswer_sameBase _
    · cases h

theorem State.outputGone_sameBase (s : State) : s.SameBase s.outputGone := by
  unfold State.outputGone
  split
  · next w _ _ =>
    cases h : w.output.bind s.tryPlace with
    | none => exact ⟨rfl, rfl, rfl, rfl, rfl⟩
    | some t =>
      obtain ⟨o, _, ho⟩ := Option.bind_eq_some_iff.mp h
      exact State.tryPlace_sameBase ho
  · exact ⟨rfl, rfl, rfl, rfl, rfl⟩

theorem State.SameBase.agentAlone {s t : State} (h : s.SameBase t) (tel : Telegram) : t.AgentAlone tel ↔ s.AgentAlone tel := by
  obtain ⟨-, mode, store, table, -⟩ := h
  unfold State.AgentAlone State.Refuses
  rw [mode, store, table]

theorem State.SameBase.completionReply {s t : State} (h : s.SameBase t) : t.completionReply = s.completionReply := by
  funext c
  simp only [State.completionReply, State.mgmtReply, h.1]

/-! ### The beginning of a stop -/

section
variable (s : State) (r : Retention)

/-- The agent is idle or placing: its late replies are placed behind the engine's output (R154, R186). -/
theorem State.beginStop_late (h : s.agent.phase = .idle ∨ ∃ t b, s.agent.phase = .placing t b) :
    { s with retention := r }.beginStop =
      (s.outputGone.pushReplies (s.lateReplies s.agent)).withView { s.stoppingView r with agent := .atStart } := by
  have late := s.outputGone.stopAgent_late (s.stoppingView r) h
  simp only [State.lateReplies, s.outputGone_sameBase.completionReply] at late
  unfold State.beginStop
  rw [State.stopEngine_stopping]
  exact late

/-- The agent's request is discarded (R186). -/
theorem State.beginStop_drops
    (h : (∃ t, s.agent.phase = .executing t ∧ ¬s.AgentAlone t) ∨ (∃ t, s.agent.phase = .loading t) ∨
      ∃ t k row, s.agent.phase = .rekeying t k row) :
    { s with retention := r }.beginStop =
      (s.outputGone.pushReplies (s.agent.completion.map s.completionReply).toList).withView
        { s.stoppingView r with engine := { s.engine.stopped with pause := false }, agent := .atStart } := by
  have drops := s.outputGone.stopAgent_drops (s.stoppingView r)
  simp only [s.outputGone_sameBase.agentAlone, s.outputGone_sameBase.completionReply] at drops
  unfold State.beginStop
  rw [State.stopEngine_stopping]
  exact drops h

/-- The agent keeps the request it executes alone (R186). -/
theorem State.beginStop_keeps {t : Telegram} (h : s.agent.phase = .executing t) (ha : s.AgentAlone t) :
    { s with retention := r }.beginStop = s.outputGone.withView (s.stoppingView r) := by
  unfold State.beginStop
  rw [State.stopEngine_stopping]
  exact s.outputGone.stopAgent_keeps (s.stoppingView r) h (s.outputGone_sameBase.agentAlone t |>.mpr ha)

/-- The cases of an agent when a stop begins (R186). -/
theorem State.agent_cases :
    (s.agent.phase = .idle ∨ ∃ t b, s.agent.phase = .placing t b) ∨
      ((∃ t, s.agent.phase = .executing t ∧ ¬s.AgentAlone t) ∨ (∃ t, s.agent.phase = .loading t) ∨
        ∃ t k row, s.agent.phase = .rekeying t k row) ∨
      ∃ t, s.agent.phase = .executing t ∧ s.AgentAlone t := by
  cases h : s.agent.phase with
  | idle => exact .inl (.inl rfl)
  | executing t =>
    by_cases ha : s.AgentAlone t
    · exact .inr (.inr ⟨t, rfl, ha⟩)
    · exact .inr (.inl (.inl ⟨t, rfl, ha⟩))
  | loading t => exact .inr (.inl (.inr (.inl ⟨t, rfl⟩)))
  | rekeying t k row => exact .inr (.inl (.inr (.inr ⟨t, k, row, rfl⟩)))
  | placing t b => exact .inl (.inr ⟨t, b, rfl⟩)

/-- The receivers are stopped, `r` stands in the Retention Unit, and no stale request waits (R20, R165). -/
theorem State.beginStop_stopped :
    ∃ (u : State) (x : StopView), { s with retention := r }.beginStop = u.withView x ∧ x.retention = r ∧
      x.floorRx = .disabled ∧ x.plantRx = .disabled ∧ x.batchWait = [] := by
  rcases s.agent_cases with h | h | ⟨t, h, ha⟩
  · exact ⟨_, _, s.beginStop_late r h, rfl, rfl, rfl, rfl⟩
  · exact ⟨_, _, s.beginStop_drops r h, rfl, rfl, rfl, rfl⟩
  · exact ⟨_, _, s.beginStop_keeps r h ha, rfl, rfl, rfl, rfl⟩

variable {s}

theorem Engine.stopped_of_ne {e : Engine} (ho : e.phase ≠ .offering) (hp : e.phase ≠ .placing) : e.stopped = e := by
  unfold Engine.stopped
  split
  · exact absurd ‹_› ho
  · exact absurd ‹_› hp
  · rfl

theorem Engine.stopped_pause (e : Engine) (b : Bool) :
    Engine.stopped { e with pause := b } = { e.stopped with pause := b } := by
  unfold Engine.stopped
  simp only []
  split <;> rfl

/-- With the engine neither OFFERING nor PLACING a stop writes what `State.atStop` says. -/
theorem State.withView_stopping (ho : s.engine.phase ≠ .offering) (hp : s.engine.phase ≠ .placing) (a : Agent) :
    s.withView { s.stoppingView r with agent := a } = { s.atStop r with agent := a } := by
  simp only [State.stoppingView, Engine.stopped_of_ne ho hp, if_neg ho]
  rfl

/-- An engine in OFFERING stops with its sample withdrawn (R154). -/
theorem State.beginStop_offering (h : s.engine.phase = .offering) :
    { s with retention := r }.beginStop = { { s.engineAtRest with zoneWait := [] } with retention := r }.beginStop := by
  have view : { s.engineAtRest with zoneWait := [] }.stoppingView r = s.stoppingView r := by
    simp only [State.stoppingView, Engine.stopped, h, if_true]
    rfl
  unfold State.beginStop
  rw [State.stopEngine_stopping, State.stopEngine_stopping, view, State.outputGone_of_ne (by rw [h]; decide),
    State.outputGone_of_ne (by exact nofun)]
  rfl

/-- OUTPUT_PLACE, and the engine's rest behind it, leave what a stop makes of an engine in PLACING (R152, R154). -/
theorem exec_outputPlace_atRest {u : State} (hp : s.engine.phase = .placing) (hr : s.running = true)
    (hu : exec .outputPlace s = .next u) : u.engineAtRest = s.outputGone.engineAtRest := by
  unfold State.outputGone
  simp only [exec, execOutputPlace, hp, hr, if_true] at hu
  cases hw : s.engine.work with
  | none =>
    simp only [hw] at hu
    cases hu
    simp only [hp]
  | some w =>
    simp only [hp, hw] at hu ⊢
    cases ho : w.output with
    | none => simp only [ho] at hu; cases hu; rfl
    | some o =>
      simp only [ho] at hu
      simp only [Option.bind_some]
      cases ht : s.tryPlace o with
      | some t => simp only [ht] at hu; cases hu; rfl
      | none =>
        simp only [ht] at hu
        split at hu <;> cases hu <;> rfl

/-- A stop finds an engine in PLACING as if OUTPUT_PLACE had come first (R154). -/
theorem State.beginStop_placing (h : s.engine.phase = .placing) :
    { s with retention := r }.beginStop = { s.outputGone.engineAtRest with retention := r }.beginStop := by
  have rest : s.outputGone.engineAtRest.outputGone = s.outputGone.engineAtRest := State.outputGone_of_ne nofun
  have seen := s.outputGone_stopView
  have view : s.outputGone.engineAtRest.stoppingView r = s.stoppingView r := by
    simp only [State.stopView, StopView.mk.injEq] at seen
    obtain ⟨-, floorAsm, -, plantAsm, -, zoneWait, -, engine, agent⟩ := seen
    simp only [State.stoppingView, State.engineAtRest, Engine.stopped, floorAsm, plantAsm, zoneWait, engine, agent, h]
    rfl
  unfold State.beginStop
  rw [State.stopEngine_stopping, State.stopEngine_stopping, view, rest]
  rfl

/-- A discarded request is as if the agent had been idle and the pause low (R186). -/
theorem State.beginStop_dropped
    (h : (∃ t, s.agent.phase = .executing t ∧ ¬s.AgentAlone t) ∨ (∃ t, s.agent.phase = .loading t) ∨
      ∃ t k row, s.agent.phase = .rekeying t k row) :
    { s with retention := r }.beginStop =
      { { s with
          engine := { s.engine with pause := false }
          agent := { phase := .idle, completion := s.agent.completion } } with retention := r }.beginStop := by
  rw [State.beginStop_drops s r h, State.beginStop_late _ r (.inl rfl)]
  have gone := State.outputGone_withView (s := s)
    (x := { s.stopView with
      engine := { s.engine with pause := false }, agent := { phase := .idle, completion := s.agent.completion } }) rfl rfl
  have engine := s.engine.stopped_pause false
  rw [State.withView] at gone
  simp only [State.stopView] at gone
  rw [gone, State.pushReplies_withView, State.withView_withView, ← engine]
  rfl

/-- Agents with the same late replies leave the same stop. -/
theorem State.beginStop_agent (a : Agent) (hs : s.agent.phase = .idle ∨ ∃ t b, s.agent.phase = .placing t b)
    (ha : a.phase = .idle ∨ ∃ t b, a.phase = .placing t b) (h : s.lateReplies a = s.lateReplies s.agent) :
    { s with retention := r }.beginStop = { { s with agent := a } with retention := r }.beginStop := by
  rw [State.beginStop_late s r hs, State.beginStop_late { s with agent := a } r ha]
  have gone := State.outputGone_withView (s := s) (x := { s.stopView with agent := a }) rfl rfl
  have late : { s with agent := a }.lateReplies a = s.lateReplies s.agent := h
  rw [State.withView] at gone
  simp only [State.stopView] at gone
  rw [gone, late, State.pushReplies_withView, State.withView_withView]
  rfl

/-! ### Replies that a stop places -/

/-- The agent once its reply is placed: idle, or placing the completion reply that has waited (R181). -/
def State.nextAgent (s : State) : Agent :=
  match s.agent.completion with
  | none => { phase := .idle, completion := none }
  | some x => { phase := .placing (s.completionReply x) false, completion := none }

theorem State.agentNext_eq (s : State) : s.agentNext = { s with agent := s.nextAgent } := by
  unfold State.agentNext State.nextAgent
  cases s.agent.completion <;> rfl

theorem State.nextAgent_late (s : State) :
    s.lateReplies s.nextAgent = (s.agent.completion.map s.completionReply).toList := by
  unfold State.nextAgent State.lateReplies
  cases s.agent.completion <;> rfl

theorem State.nextAgent_phase (s : State) : s.nextAgent.phase = .idle ∨ ∃ t b, s.nextAgent.phase = .placing t b := by
  unfold State.nextAgent
  cases s.agent.completion with
  | none => exact .inl rfl
  | some x => exact .inr ⟨_, _, rfl⟩

/-- REPLY_PLACE with room (R175). -/
theorem exec_replyPlace_room {t : Telegram} (h : s.agent.phase = .placing t false) (hr : s.running = true)
    (room : s.replies.length < 4) : exec .replyPlace s = .next (s.pushReply t).agentNext := by
  simp only [exec, execReplyPlace, h, hr, if_true, s.replyRoom_iff.mpr room]
  rfl

theorem State.pushReply_stopView (s : State) (t : Telegram) : (s.pushReply t).stopView = s.stopView := by
  have k := s.pushReply_withView s.stopView t
  rw [State.withView_stopView] at k
  rw [k, State.stopView_withView]

theorem State.pushOrDrop_room (s : State) (t : Telegram) (room : s.replies.length < 4) :
    s.pushOrDrop t = s.pushReply t := if_pos (s.replyRoom_iff.mpr room)

theorem State.pushOrDrop_full (s : State) (t : Telegram) (full : 4 ≤ s.replies.length) : s.pushOrDrop t = s :=
  if_neg (by rw [s.replyRoom_iff]; omega)

/-- A reply in PLACING that finds room is placed as REPLY_PLACE would (R186). -/
theorem State.beginStop_room {t : Telegram} (h : s.agent.phase = .placing t false) (hp : s.engine.phase ≠ .placing)
    (room : s.replies.length < 4) :
    { s with retention := r }.beginStop = { (s.pushReply t).agentNext with retention := r }.beginStop := by
  have seen := s.pushReply_stopView t
  have engine : (s.pushReply t).engine = s.engine := congrArg StopView.engine seen
  have base := (s.pushReply_frame t).sameBase
  have agent : (s.pushReply t).agent = s.agent := congrArg StopView.agent seen
  have view : ∀ a, ({ s.pushReply t with agent := a }.stoppingView r) = { s.stoppingView r with agent := a } := by
    intro a
    simp only [State.stopView, StopView.mk.injEq] at seen
    obtain ⟨-, floorAsm, -, plantAsm, -, zoneWait, -, engine, -⟩ := seen
    simp only [State.stoppingView, floorAsm, plantAsm, zoneWait, engine]
  have gone : { s.pushReply t with agent := (s.pushReply t).nextAgent }.outputGone =
      { s.pushReply t with agent := (s.pushReply t).nextAgent } := State.outputGone_of_ne (by simpa only [engine] using hp)
  have late : { s.pushReply t with agent := (s.pushReply t).nextAgent }.lateReplies (s.pushReply t).nextAgent =
      (s.agent.completion.map s.completionReply).toList := by
    rw [← base.completionReply, ← agent]
    exact (s.pushReply t).nextAgent_late
  rw [State.agentNext_eq, State.beginStop_late s r (.inr ⟨t, false, h⟩), State.outputGone_of_ne hp,
    State.beginStop_late { s.pushReply t with agent := (s.pushReply t).nextAgent } r (s.pushReply t).nextAgent_phase,
    view, gone, late]
  have pushed : s.pushReplies (s.lateReplies s.agent) =
      (s.pushReply t).pushReplies (s.agent.completion.map s.completionReply).toList := by
    simp only [State.lateReplies, h, State.pushReplies, List.singleton_append, List.foldl_cons, s.pushOrDrop_room t room]
  have aside : { s.pushReply t with agent := (s.pushReply t).nextAgent } =
      (s.pushReply t).withView { (s.pushReply t).stopView with agent := (s.pushReply t).nextAgent } := rfl
  rw [pushed, aside, State.pushReplies_withView, State.withView_withView]

/-- A reply in PLACING that finds its queue full is discarded (R186). -/
theorem State.beginStop_full {t : Telegram} (h : s.agent.phase = .placing t false) (hp : s.engine.phase ≠ .placing)
    (full : 4 ≤ s.replies.length) :
    { s with retention := r }.beginStop =
      { { s with agent := { s.agent with phase := .idle } } with retention := r }.beginStop := by
  have gone : { s with agent := { s.agent with phase := .idle } }.outputGone =
      { s with agent := { s.agent with phase := .idle } } := State.outputGone_of_ne hp
  rw [State.beginStop_late s r (.inr ⟨t, false, h⟩), State.outputGone_of_ne hp, State.beginStop_late _ r (.inl rfl), gone]
  have pushed : s.pushReplies (s.lateReplies s.agent) =
      s.pushReplies (s.agent.completion.map s.completionReply).toList := by
    simp only [State.lateReplies, h, State.pushReplies, List.singleton_append, List.foldl_cons, s.pushOrDrop_full t full]
  have aside : { s with agent := { s.agent with phase := .idle } } =
      s.withView { s.stopView with agent := { s.agent with phase := .idle } } := rfl
  rw [pushed, aside, State.pushReplies_withView, State.withView_withView]
  rfl

end

/-! ### StopBegins -/

/-- A command that writes `r` into the Retention Unit and begins a stop, in every state that agrees with this one on line reset,
the Plant receiver and the Retention Unit, begins it as `State.StopBegins` says. -/
theorem State.stopBegins {c : Instr} {s : State} {r : Retention} (hr : s.running = true)
    (hc : ∀ u : State, u.plant.rx = s.plant.rx → u.lineReset = s.lineReset → u.retention = s.retention →
      exec c u = .next { u with retention := r }.beginStop) : s.StopBegins c r := by
  have here := hc s rfl rfl rfl
  refine ⟨?stopped, fun ho hp => ⟨fun hi hn => ?idle, fun t ht ha => ?alone⟩, fun ho => ?offering,
    fun u hp hu => ?placing, fun h => ?dropped, fun t ht => ?reset, fun t u ht hp room hu => ?room,
    fun t ht hp full => ?full, fun x hi hx => ?completion⟩
  case stopped =>
    obtain ⟨u, x, hb, hret, hf, hpl, hw⟩ := s.beginStop_stopped r
    exact ⟨_, here, by rw [hb]; exact ⟨hret, hf, hpl, hw⟩⟩
  case idle =>
    rw [here, s.beginStop_late r (.inl hi), State.outputGone_of_ne hp]
    simp only [State.lateReplies, hi, hn]
    exact congrArg _ (State.withView_stopping r ho hp .atStart)
  case alone =>
    rw [here, s.beginStop_keeps r ht ha, State.outputGone_of_ne hp]
    exact congrArg _ (State.withView_stopping r ho hp s.agent)
  case offering =>
    exact here.trans ((congrArg _ (State.beginStop_offering r ho)).trans
      (hc { s.engineAtRest with zoneWait := [] } rfl rfl rfl).symm)
  case placing =>
    have seen := s.outputGone_stopView
    have rx : s.outputGone.plant.rx = s.plant.rx := congrArg StopView.plantRx seen
    have ret : s.outputGone.retention = s.retention := congrArg StopView.retention seen
    obtain ⟨-, -, -, -, lineReset⟩ := s.outputGone_sameBase
    have next := hc s.outputGone.engineAtRest rx lineReset ret
    rw [exec_outputPlace_atRest hp hr hu]
    exact here.trans ((congrArg _ (State.beginStop_placing r hp)).trans next.symm)
  case dropped =>
    exact here.trans ((congrArg _ (State.beginStop_dropped r h)).trans
      (hc { s with
        engine := { s.engine with pause := false }
        agent := { phase := .idle, completion := s.agent.completion } } rfl rfl rfl).symm)
  case reset =>
    refine here.trans (.trans (congrArg _ ?_) (hc { s with agent := { s.agent with phase := .placing t false } } rfl rfl rfl).symm)
    refine State.beginStop_agent r _ (.inr ⟨t, true, ht⟩) (.inr ⟨t, false, rfl⟩) ?_
    simp only [State.lateReplies, ht]
  case room =>
    rw [exec_replyPlace_room ht hr room] at hu
    cases hu
    have seen := s.pushReply_stopView t
    have rx : (s.pushReply t).plant.rx = s.plant.rx := congrArg StopView.plantRx seen
    have ret : (s.pushReply t).retention = s.retention := congrArg StopView.retention seen
    obtain ⟨-, -, -, -, lineReset⟩ := (s.pushReply_frame t).sameBase
    have next := hc (s.pushReply t).agentNext
    rw [State.agentNext_eq] at next ⊢
    rw [(next rx lineReset ret), here, State.beginStop_room r ht hp room, State.agentNext_eq]
  case full =>
    exact here.trans ((congrArg _ (State.beginStop_full r ht hp full)).trans
      (hc { s with agent := { s.agent with phase := .idle } } rfl rfl rfl).symm)
  case completion =>
    refine here.trans (.trans (congrArg _ ?_) 
      (hc { s with agent := { phase := .placing (s.completionReply x) false, completion := none } } rfl rfl rfl).symm)
    refine State.beginStop_agent r _ (.inl hi) (.inr ⟨_, false, rfl⟩) ?_
    simp only [State.lateReplies, hi, hx]
    rfl

end Sys2Proof.Machine
end

section
namespace Sys2Proof.Machine

/-! ### Freezes and quiesces -/

section
variable {s : State}

theorem State.running_of_live (h : s.live = true) : s.running = true := by
  simp only [State.live, Bool.and_eq_true] at h
  exact h.1

theorem State.workEnded_iff :
    s.workEnded = true ↔ s.engine.phase = .idle ∧ s.agent.phase = .idle ∧ s.agent.completion = none := by
  simp only [State.workEnded, Bool.and_eq_true, beq_iff_eq, Option.isNone_iff_eq_none, and_assoc]

/-- FREEZE in a part whose supply has been low, with no quiesce (R184, R185). -/
theorem exec_freeze_failPending (hm : s.retention.monitor = .failPending) (hq : s.retention.quiesce = none) :
    exec .freeze s = .next { s with retention := { s.retention with monitor := .freezing } }.beginStop := by
  have due : s.startDue = false := by simp only [State.startDue, hq]
  have ret : ({ s.retention with monitor := .freezing, quiesce := none } : Retention) =
      { s.retention with monitor := .freezing } := by rw [← hq]
  exact (if_pos ⟨hm, due⟩).trans (congrArg (fun r => Host.Outcome.next { s with retention := r }.beginStop) ret)

/-- FREEZE takes over a quiesce, but cuts no start that is due (R184, R189). -/
theorem exec_freeze_quiesce {q : Quiesce} (hm : s.retention.monitor = .failPending) (hq : s.retention.quiesce = some q) :
    exec .freeze s =
      if q.stopped then .next s else exec .freeze { s with retention := { s.retention with quiesce := none } } := by
  have due : s.startDue = q.stopped := by simp only [State.startDue, hq]
  cases hs : q.stopped with
  | true => exact if_neg fun h => by simp only [due, hs] at h; exact absurd h.2 (by decide)
  | false =>
    have taken := exec_freeze_failPending (s := { s with retention := { s.retention with quiesce := none } }) hm rfl
    exact (if_pos ⟨hm, due.trans hs⟩).trans taken.symm

/-- FREEZE_STOP, once the work has ended (R185). -/
theorem exec_freezeStop_ended (hm : s.retention.monitor = .freezing) (hw : s.workEnded = true) :
    exec .freezeStop s = .next
      { s.stopTransmitters with
        retention := { s.retention with
          monitor := if s.retention.supplyOk then .restorePending else .frozen
          freezeTime := s.retention.monotonic, noticeLoss := s.notices.loss, checkValid := true } } :=
  if_pos ⟨hm, hw⟩

/-- LINE_BREAK with line reset active (R8). -/
theorem exec_lineBreak (hb : s.plant.rx = .brk) (hl : s.lineReset = true) (hv : s.live = true) :
    exec .lineBreak s = .next (s.beginQuiesce .lineBreak 0) := if_pos ⟨hb, hl, hv⟩

/-- QUIESCE_STOP, once the work has ended (R189). -/
theorem exec_quiesceStop_ended {q : Quiesce} (hq : s.retention.quiesce = some q) (hs : q.stopped = false)
    (hw : s.workEnded = true) : exec .quiesceStop s = .next (s.quiesceEnds q) := by
  simp only [exec, execQuiesceStop, hq]
  exact if_pos ⟨by rw [hs]; decide, hw⟩

/-- The time that QUIESCE_STOP leaves in the freeze record: the present one, the first time. -/
def State.quiesceTime (s : State) (q : Quiesce) : Nat := if q.timed then s.retention.freezeTime else s.retention.monotonic

theorem State.quiesceEnds_out {q : Quiesce} (hc : q.cause = .command) (ho : s.resetReplyOut q = true) :
    s.quiesceEnds q =
      { s with retention := { s.retention with freezeTime := s.quiesceTime q, quiesce := some { q with timed := true } } } := by
  unfold State.quiesceEnds State.quiesceTime
  rw [if_pos ⟨hc, ho⟩]
  cases q.timed <;> rfl

theorem State.quiesceEnds_done {q : Quiesce} (h : ¬(q.cause = .command ∧ s.resetReplyOut q = true)) :
    s.quiesceEnds q =
      { s.stopTransmitters with
        retention := { s.retention with
          freezeTime := s.quiesceTime q, noticeLoss := s.notices.loss
          quiesce := some { q with timed := true, stopped := true } } } := by
  unfold State.quiesceEnds State.quiesceTime
  rw [if_neg h]
  cases q.timed <;> rfl

/-- The reply that a quiesce waits for is still out (R189). -/
theorem State.resetReplyOut_iff {q : Quiesce} :
    s.resetReplyOut q = true ↔
      q.behind < s.replies.length ∨ s.replies.length = q.behind ∧ ∃ chars, s.plant.tx = .sending .reply chars := by
  unfold State.resetReplyOut
  simp only [Bool.or_eq_true, Bool.and_eq_true, decide_eq_true_eq]
  refine or_congr .rfl (and_congr .rfl ?_)
  split
  · next chars h => exact ⟨fun _ => ⟨chars, h⟩, fun _ => rfl⟩
  · next h => exact ⟨nofun, fun ⟨chars, e⟩ => absurd e (h chars)⟩

/-- The last character of the reply ends the quiesce (R189). -/
theorem exec_telegramSent_resetReply {q : Quiesce} {chars : List LinkChar} (hq : s.retention.quiesce = some q)
    (hc : q.cause = .command) (ht : q.timed = true) (hs : q.stopped = false) (hl : s.replies.length = q.behind)
    (htx : s.plant.tx = .sending .reply chars) : exec (.telegramSent .plant) s = .next (s.finishQuiesce q) := by
  have sent : s.resetReplySent .reply = some q := by
    simp only [State.resetReplySent, hq]
    exact if_pos ⟨hc, ht, by rw [hs]; decide, trivial, hl⟩
  simp only [exec, execTelegramSent, State.port, htx, sent]

end

/-- Settles O49, by `State.stopBegins` for the beginning and by what each command writes for the end. -/
theorem freezeRecords : Obligations.FreezeRecords := by
  intro s
  refine ⟨fun hm hq => ?begins, fun q hm hq => exec_freeze_quiesce hm hq, fun hm he ha hn => ?ends, fun hm => ?loss⟩
  case begins =>
    have running : s.running = true := by simp only [State.running, State.halted, hm, hq]; rfl
    refine State.stopBegins running fun u _ _ hu => ?_
    rw [exec_freeze_failPending (by rw [hu]; exact hm) (by rw [hu]; exact hq), hu]
  case ends => exact exec_freezeStop_ended hm (State.workEnded_iff.mpr ⟨he, ha, hn⟩)
  case loss =>
    rcases hm with hm | hm | hm
    all_goals
      simp only [exec, execMainSupplyLoss, hm]
      rfl

/-- Settles O50, by `State.stopBegins` for the beginning and by the place of the RESET-PART's reply for the end. -/
theorem quiesceRuns : Obligations.QuiesceRuns := by
  intro s
  refine ⟨fun hb hl hv => ?begins, fun hl => if_neg fun h => ?inactive,
    fun q time hq hs he ha hn htime => ⟨fun out => ?done, fun hc hlen => ?waits, fun chars hc hlen htx => ?sent⟩⟩
  case begins =>
    refine State.stopBegins (State.running_of_live hv) fun u rx lineReset ret => ?_
    have live : u.live = s.live := by simp only [State.live, State.halted, State.stopping, ret]
    rw [exec_lineBreak (rx.trans hb) (lineReset.trans hl) (live.trans hv), ← ret]
    rfl
  case inactive => exact absurd (hl.symm.trans h.2.1) (by decide)
  case done =>
    have gone : ¬(q.cause = .command ∧ s.resetReplyOut q = true) := by
      rintro ⟨hc, ho⟩
      rw [State.resetReplyOut_iff] at ho
      rcases out with hcl | ⟨-, hlt | ⟨heq, hno⟩⟩
      · rw [hc] at hcl
        exact absurd hcl (by decide)
      · omega
      · rcases ho with ho | ⟨-, chars, htx⟩
        · omega
        · exact hno chars htx
    rw [exec_quiesceStop_ended hq hs (State.workEnded_iff.mpr ⟨he, ha, hn⟩), State.quiesceEnds_done gone, htime]
    rfl
  case waits =>
    rw [exec_quiesceStop_ended hq hs (State.workEnded_iff.mpr ⟨he, ha, hn⟩),
      State.quiesceEnds_out hc (State.resetReplyOut_iff.mpr (.inl hlen)), htime]
    rfl
  case sent =>
    refine ⟨_, (exec_quiesceStop_ended hq hs (State.workEnded_iff.mpr ⟨he, ha, hn⟩)).trans
      (congrArg _ (State.quiesceEnds_out hc (State.resetReplyOut_iff.mpr (.inr ⟨hlen, chars, htx⟩)))), rfl, ?_⟩
    rw [htime]
    exact exec_telegramSent_resetReply (q := { q with timed := true })
      (s := { s with retention := { s.retention with
        freezeTime := s.quiesceTime q, quiesce := some { q with timed := true } } }) rfl hc rfl hs hlen htx

end Sys2Proof.Machine
end

section
namespace Sys2Proof.Machine

/-! ### O47: replies placed, and the quiesce of a RESET-PART -/

section
variable {s : State}

/-! A reply joins its queue, and an idle Plant transmitter sends it. -/

theorem State.pushReply_busy (t : Telegram) (h : s.plant.tx ≠ .idle) :
    s.pushReply t = { s with replies := s.replies ++ [t] } := if_neg h

theorem State.pushReply_idle (t : Telegram) (h : s.plant.tx = .idle) (hr : s.replies = []) (hn : s.notices.entries = []) :
    s.pushReply t = { s with plant := { s.plant with tx := .sending .reply t.chars }, plantStreak := 0 } := by
  have none_waits : ∀ hi, s.notices.oldest? hi = none := fun hi => by simp only [NoticeQueue.oldest?, hn, List.find?_nil]
  have order : State.plantOrder? { s with replies := s.replies ++ [t] } = some (s.sendReply t []) := by
    simp only [State.plantOrder?, none_waits, hr, List.nil_append]
    rfl
  have choice : State.plantChoice? { s with replies := s.replies ++ [t] } = some (s.sendReply t []) := by
    simp only [State.plantChoice?, none_waits, order, ite_self]
  rw [State.pushReply, State.kickPlant, if_pos h, choice, ← hr]
  rfl

/-- Replies placed while the Plant transmitter is busy fill the queue. -/
theorem State.pushReplies_busy (l : List Telegram) (h : s.plant.tx ≠ .idle) :
    s.pushReplies l = { s with replies := s.replies ++ l.take (4 - s.replies.length) } := by
  induction l generalizing s with
  | nil => simp only [State.pushReplies, List.foldl_nil, List.take_nil, List.append_nil]
  | cons t l ih =>
    rw [State.pushReplies, List.foldl_cons]
    by_cases room : s.replies.length < 4
    · have size : 4 - s.replies.length = (4 - (s.replies ++ [t]).length) + 1 := by
        rw [List.length_append, List.length_singleton]; omega
      rw [s.pushOrDrop_room t room, s.pushReply_busy t h, size, List.take_succ_cons]
      exact (ih (s := { s with replies := s.replies ++ [t] }) h).trans (by simp only [List.append_assoc, List.singleton_append])
    · have size : 4 - s.replies.length = 0 := by omega
      rw [s.pushOrDrop_full t (by omega)]
      exact (ih h).trans (by simp only [size, List.take_zero])

theorem State.kickFloor_replies (l : List Telegram) :
    State.kickFloor { s with replies := l } = { s.kickFloor with replies := l } := by
  unfold State.kickFloor State.floorChoice?
  simp only []
  split
  · split
    · rfl
    · rfl
    · rfl
    · split <;> rfl
  · rfl

/-- Placing an output while the Plant transmitter is busy leaves the replies and that transmitter alone. -/
theorem State.tryPlace_busy (o : Output) (l : List Telegram) (h : s.plant.tx ≠ .idle) :
    State.tryPlace { s with replies := l } o = (s.tryPlace o).map ({ · with replies := l }) := by
  unfold State.tryPlace State.pushUpRelay State.kickPlant State.pushAnswer
  simp only [if_neg h]
  split <;> split
  · rfl
  · rfl
  · exact congrArg some (State.kickFloor_replies (s := { s with answers := s.answers ++ [_] }) l)
  · rfl

theorem State.outputGone_busy (l : List Telegram) (h : s.plant.tx ≠ .idle) :
    State.outputGone { s with replies := l } = { s.outputGone with replies := l } := by
  unfold State.outputGone
  simp only []
  split
  · next w _ _ =>
    cases w.output with
    | none => rfl
    | some o =>
      simp only [Option.bind_some, State.tryPlace_busy o l h]
      cases s.tryPlace o <;> rfl
  · rfl

theorem State.tryPlace_busy_plant {t : State} {o : Output} (h : s.plant.tx ≠ .idle) (ht : s.tryPlace o = some t) :
    t.plant = s.plant := by
  unfold State.tryPlace State.pushUpRelay State.kickPlant State.pushAnswer at ht
  simp only [if_neg h] at ht
  split at ht <;> split at ht <;> cases ht
  · rfl
  · exact State.kickFloor_plant _

/-- What becomes of the output keeps the replies and a busy Plant transmitter. -/
theorem State.outputGone_busy_keeps (h : s.plant.tx ≠ .idle) :
    s.outputGone.replies = s.replies ∧ s.outputGone.plant = s.plant := by
  have replies := congrArg State.replies (State.outputGone_busy s.replies h)
  refine ⟨replies, ?_⟩
  unfold State.outputGone
  split
  · next w _ _ =>
    cases ht : w.output.bind s.tryPlace with
    | none => rfl
    | some t =>
      obtain ⟨o, _, ho⟩ := Option.bind_eq_some_iff.mp ht
      exact State.tryPlace_busy_plant h ho
  · rfl

/-! The stop that follows. -/

theorem State.outputGone_agent (a : Agent) :
    State.outputGone { s with agent := a } = { s.outputGone with agent := a } := by
  have gone := State.outputGone_withView (s := s) (x := { s.stopView with agent := a }) rfl rfl
  exact gone.trans (congrArg (fun x : StopView => s.outputGone.withView { x with agent := a }) s.outputGone_stopView.symm)

/-- With the engine neither OFFERING nor PLACING and nothing left to the agent, the part is at its stop at once. -/
theorem State.beginStop_atStop (r : Retention) (ho : s.engine.phase ≠ .offering) (hp : s.engine.phase ≠ .placing) :
    { { s with agent := .atStart } with retention := r }.beginStop = s.atStop r := by
  have gone : State.outputGone { s with agent := .atStart } = { s with agent := .atStart } := State.outputGone_of_ne hp
  rw [State.beginStop_late { s with agent := .atStart } r (.inl rfl), gone]
  exact State.withView_stopping (s := { s with agent := .atStart }) r ho hp .atStart

/-- The completion reply that waits finds its place in a queue whose head is on its way, as if it had been placed before. -/
theorem State.beginStop_busy (r : Retention) (h : s.plant.tx ≠ .idle) (hi : s.agent.phase = .idle) {l : List Telegram}
    (hl : l = (s.agent.completion.map s.completionReply).toList.take (4 - s.replies.length)) :
    { s with retention := r }.beginStop =
      { { { s with replies := s.replies ++ l } with agent := .atStart } with retention := r }.beginStop := by
  obtain ⟨replies, plant⟩ := State.outputGone_busy_keeps h
  have late : s.lateReplies s.agent = (s.agent.completion.map s.completionReply).toList := by
    simp only [State.lateReplies, hi, List.nil_append]
  rw [s.beginStop_late r (.inl hi), State.beginStop_late _ r (.inl rfl), late,
    State.pushReplies_busy _ (by rw [plant]; exact h), replies, ← hl]
  have gone := State.outputGone_busy (s := { s with agent := .atStart }) (s.replies ++ l) h
  rw [gone, State.outputGone_agent .atStart]
  rfl

end

/-- Where a RESET-PART's quiesce finds the part, by what the engine was at. -/
theorem State.beginStop_engine {t : State} (r : Retention) :
    (t.engine.phase ≠ .offering → t.engine.phase ≠ .placing →
      { { t with agent := .atStart } with retention := r }.beginStop = t.atStop r) ∧
    (t.engine.phase = .offering →
      { { t with agent := .atStart } with retention := r }.beginStop = { t.engineAtRest with zoneWait := [] }.atStop r) ∧
    ∀ u, t.engine.phase = .placing → t.running = true → exec .outputPlace t = .next u →
      { { t with agent := .atStart } with retention := r }.beginStop = u.engineAtRest.atStop r := by
  refine ⟨State.beginStop_atStop r, fun ho => ?offering, fun u hp hr hu => ?placing⟩
  case offering =>
    rw [State.beginStop_offering (s := { t with agent := .atStart }) r ho]
    exact State.beginStop_atStop (s := { t.engineAtRest with zoneWait := [] }) r nofun nofun
  case placing =>
    rw [State.beginStop_placing (s := { t with agent := .atStart }) r hp, exec_outputPlace_atRest hp hr hu,
      State.outputGone_agent .atStart]
    exact State.beginStop_atStop (s := t.outputGone.engineAtRest) r nofun nofun

/-! A RESET-PART's reply. -/

section
variable {s : State}

/-- The reply placed, and the agent's next state. -/
theorem State.agentNext_pushReply (t : Telegram) (a : Agent) (ha : a.completion = s.agent.completion) :
    State.agentNext { s.pushReply t with agent := a } = { s.pushReply t with agent := s.nextAgent } := by
  have reply : State.completionReply { s.pushReply t with agent := a } = s.completionReply :=
    (s.pushReply_frame t).sameBase.completionReply
  have next : State.nextAgent { s.pushReply t with agent := a } = s.nextAgent := by
    simp only [State.nextAgent, ha, reply]
  rw [State.agentNext_eq, next]

/-- A RESET-PART's reply in a part that is stopping is placed as any other (log entry 53). -/
theorem State.placeReset_stopping (t : Telegram) (h : s.stopping = true) :
    s.placeReset t = { s.pushReply t with agent := s.nextAgent } :=
  (if_pos h).trans (State.agentNext_pushReply t { s.agent with phase := .idle } rfl)

/-- The completion reply that is placed behind a RESET-PART's (log entries 23 and 55). -/
def State.lateReply (s : State) : List Telegram :=
  (s.agent.completion.map s.completionReply).toList.take (3 - s.replies.length)

theorem take_toList_congr {α : Type} (o : Option α) {m n : Nat} (h : 0 < m ↔ 0 < n) : o.toList.take m = o.toList.take n := by
  cases o with
  | none => simp
  | some a => cases m <;> cases n <;> simp_all

/-- One reply is late just when it waits and its queue has room. -/
theorem State.length_lateReply (s : State) :
    s.lateReply.length = if s.agent.completion.isSome ∧ s.replies.length < 3 then 1 else 0 := by
  unfold State.lateReply
  cases s.agent.completion with
  | none => simp
  | some x =>
    simp only [Option.map_some, Option.toList_some, List.length_take, List.length_singleton, Option.isSome_some, true_and]
    split <;> omega

/-- The quiesce of a RESET-PART begins with its reply placed, and the completion reply behind it. -/
theorem State.placeReset_begins (t : Telegram) (h : s.stopping = false)
    (hn : s.replies.length < 3 ↔ (s.pushReply t).replies.length < 4) (htx : (s.pushReply t).plant.tx ≠ .idle) :
    s.placeReset t =
      { { { s.pushReply t with replies := (s.pushReply t).replies ++ s.lateReply } with agent := .atStart } with
        retention := { s.retention with
          quiesce := some { cause := .command, behind := s.lateReply.length, timed := false, stopped := false } } }.beginStop := by
  have ret : (s.pushReply t).retention = s.retention := congrArg StopView.retention (s.pushReply_stopView t)
  have reply : (s.pushReply t).completionReply = s.completionReply := (s.pushReply_frame t).sameBase.completionReply
  have room : (s.pushReply t).replyRoom = true ↔ s.replies.length < 3 := by rw [State.replyRoom_iff, hn]
  have placed : s.placeReset t =
      State.beginQuiesce { s.pushReply t with agent := { s.agent with phase := .idle } } .command s.lateReply.length := by
    have behind := s.length_lateReply.trans (if_congr (and_congr .rfl room.symm) rfl rfl)
    rw [behind]
    exact if_neg (by rw [h]; decide)
  have late : s.lateReply =
      (s.agent.completion.map (s.pushReply t).completionReply).toList.take (4 - (s.pushReply t).replies.length) := by
    rw [reply]
    exact take_toList_congr _ (by omega)
  rw [placed, State.beginQuiesce, State.setQuiesce, ret]
  exact State.beginStop_busy (s := { s.pushReply t with agent := { s.agent with phase := .idle } }) _ htx rfl late

/-- A RESET-PART that R176 lets through is served. -/
theorem exec_resetPart_serving {t : Telegram} (hs : s.Serving t .resetPart) (hrun : s.store.run = none) :
    exec .resetPart s = .next (s.resetRequest t) := by
  have lets : s.refusal? .resetPart = none := by simp [State.refusal?, MgmtOp.setupOnly, MgmtOp.needsStore, hrun]
  simp only [exec, execResetPart, hs.operation?, State.serve, lets]

/-- RESET_PART as it is served, and REPLY_PLACE of a RESET-PART's reply, with room for it (R189). -/
theorem exec_placeReset {t r : Telegram} {c : Instr} (hr : s.running = true)
    (h : (c = .resetPart ∧ s.Serving t .resetPart ∧ s.store.run = none ∧
          r = s.mgmtReply t.source t.seq (replyOp t.body) .done []) ∨
        (c = .replyPlace ∧ s.agent.phase = .placing r true)) (room : s.replies.length < 4) :
    exec c s = .next (s.placeReset r) := by
  have hroom := s.replyRoom_iff.mpr room
  rcases h with ⟨rfl, hs, hrun, rfl⟩ | ⟨rfl, hp⟩
  · exact (exec_resetPart_serving hs hrun).trans (congrArg _ (if_pos hroom))
  · simp only [exec, execReplyPlace, hp, hr, hroom, if_true]

/-- RESET_PART with a full reply queue: its reply waits (R175). -/
theorem exec_resetPart_full {t : Telegram} (hs : s.Serving t .resetPart) (hrun : s.store.run = none)
    (full : 4 ≤ s.replies.length) :
    exec .resetPart s = .next
      { s with agent := { s.agent with
        phase := .placing (s.mgmtReply t.source t.seq (replyOp t.body) .done []) true } } :=
  (exec_resetPart_serving hs hrun).trans (congrArg _ (if_neg (by rw [s.replyRoom_iff]; omega)))

/-- REPLY_PLACE of a reply that finds room (R175). -/
theorem exec_replyPlace_placed {r : Telegram} (hr : s.running = true) (hp : s.agent.phase = .placing r false)
    (room : s.replies.length < 4) : exec .replyPlace s = .next { s.pushReply r with agent := s.nextAgent } := by
  have agent : (s.pushReply r).agent = s.agent := congrArg StopView.agent (s.pushReply_stopView r)
  exact (exec_replyPlace_room hp hr room).trans
    (congrArg _ (State.agentNext_pushReply r (s.pushReply r).agent (congrArg Agent.completion agent)))

/-- REPLY_PLACE with a full reply queue: the reply waits, or is discarded in a part that is stopping (R175, R186). -/
theorem exec_replyPlace_full {r : Telegram} {b : Bool} (hr : s.running = true) (hp : s.agent.phase = .placing r b)
    (full : 4 ≤ s.replies.length) :
    exec .replyPlace s = .next (if s.stopping then { s with agent := s.nextAgent } else s) := by
  have hroom : s.replyRoom = false := by rw [← Bool.not_eq_true, s.replyRoom_iff]; omega
  rw [← State.agentNext_eq]
  simp only [exec, execReplyPlace, hp, hr, hroom, if_true, Bool.false_eq_true, if_false]

end

/-- Settles O47, with the quiesce from `State.beginStop_engine`. -/
theorem repliesPlaced : Obligations.RepliesPlaced := by
  intro s after hr hafter
  have next : after = s.nextAgent := by
    rw [hafter, State.nextAgent]
    cases s.agent.completion <;> rfl
  subst next
  clear hafter
  refine ⟨fun r hp => ⟨fun room htx => ?busy, fun htx hq _ hn => ?idle, fun full => exec_replyPlace_full hr hp full⟩,
    fun t r c late q hc hlate hq => ⟨fun full hcr => ?waits, fun full hcp => ?full, fun hs room htx => ?stopping,
      fun hs htx he _ hn => ?stoppingIdle, fun placed hs room hplaced => ?quiesce⟩⟩
  case busy => rw [exec_replyPlace_placed hr hp room, State.pushReply_busy r htx]
  case idle => rw [exec_replyPlace_placed hr hp (by rw [hq]; decide), State.pushReply_idle r htx hq hn]
  case waits =>
    obtain ⟨-, hs, hrun, rfl⟩ | ⟨rfl, -⟩ := hc
    · rw [hcr]
      exact exec_resetPart_full hs hrun full
    · exact absurd hcr (by decide)
  case full =>
    obtain ⟨rfl, -⟩ | ⟨-, hp⟩ := hc
    · exact absurd hcp (by decide)
    · rw [hcp]
      exact exec_replyPlace_full hr hp full
  case stopping => rw [exec_placeReset hr hc room, State.placeReset_stopping r hs, State.pushReply_busy r htx]
  case stoppingIdle =>
    rw [exec_placeReset hr hc (by rw [he]; decide), State.placeReset_stopping r hs, State.pushReply_idle r htx he hn]
  case quiesce =>
    have hl : late = s.lateReply := hlate
    have begins : exec c s = .next { { placed with agent := .atStart } with retention := q }.beginStop := by
      rw [exec_placeReset hr hc room, hq, hl]
      rcases hplaced with ⟨htx, rfl⟩ | ⟨htx, he, -, hn, rfl⟩
      · have pushed := State.pushReply_busy r htx
        rw [State.placeReset_begins r hs (by rw [pushed, List.length_append, List.length_singleton]; omega)
          (by rw [pushed]; exact htx), pushed, hl]
      · have pushed := State.pushReply_idle r htx he hn
        rw [State.placeReset_begins r hs (by rw [pushed, he]; decide) (by rw [pushed]; exact nofun), pushed, hl, he]
        rfl
    have same : placed.engine = s.engine ∧ placed.running = s.running := by
      rcases hplaced with ⟨-, rfl⟩ | ⟨-, -, -, -, rfl⟩ <;> exact ⟨rfl, rfl⟩
    obtain ⟨engine, running⟩ := same
    obtain ⟨plain, offering, placing⟩ := State.beginStop_engine (t := placed) q
    rw [← engine]
    exact ⟨fun ho hp => begins.trans (congrArg _ (plain ho hp)), fun ho => begins.trans (congrArg _ (offering ho)),
      fun u hp hu => begins.trans (congrArg _ (placing u hp (running.trans hr) hu))⟩

end Sys2Proof.Machine
end

section
namespace Sys2Proof.Machine

/-! ### O52: a start that keeps the retained domain -/

/-! What a pop leaves alone while the Plant transmitter is at work, as it is throughout a start. -/

/-- With a Plant transmitter at work, nothing changed but the records, the zones and the Notice Queue. -/
def State.PopFrame (s t : State) : Prop :=
  s.plant.tx ≠ .idle →
    t = { s with table := { s.table with records := t.table.records }, zones := t.zones, notices := t.notices }

theorem State.PopFrame.refl (s : State) : s.PopFrame s := fun _ => rfl

theorem State.PopFrame.trans {s t u : State} (h : s.PopFrame t) (k : t.PopFrame u) : s.PopFrame u := by
  intro hs
  have ht := h hs
  have plant : t.plant = s.plant := by rw [ht]
  have hu := k (by rw [plant]; exact hs)
  rw [ht] at hu
  exact hu

theorem State.PopFrame.foldl {α : Type} {f : State → α → State} (hf : ∀ s a, State.PopFrame s (f s a)) (l : List α)
    (s : State) : s.PopFrame (l.foldl f s) := by
  induction l generalizing s with
  | nil => exact .refl s
  | cons a rest ih => exact (hf s a).trans (ih _)

theorem State.setZone_popFrame (s : State) (z : Fin 32) (x : Zone) : s.PopFrame (s.setZone z x) := fun _ => rfl

theorem State.setRecord_popFrame (s : State) (i : Nat) (r : Record) : s.PopFrame (s.setRecord i r) := fun _ => rfl

theorem State.post_popFrame (s : State) (n : Notice) : s.PopFrame (s.post n) := by
  intro h
  have posted : s.post n = { s with notices := s.notices.arrive n } := if_neg h
  rw [posted]

theorem State.enlist_popFrame (s : State) (i : Nat) : s.PopFrame (s.enlist i) := by
  unfold State.enlist
  split
  · split
    · exact (s.setRecord_popFrame i _).trans (State.setZone_popFrame _ _ _)
    · exact .refl s
  · exact .refl s

theorem State.crossOnce_popFrame (s : State) (i : Nat) (st : Option Byte) : s.PopFrame (s.crossOnce i st) := by
  unfold State.crossOnce
  split
  · split
    · exact (s.setRecord_popFrame i _).trans (State.post_popFrame _ _)
    · exact .refl s
  · exact .refl s

theorem State.settleCross_popFrame (s : State) (i : Nat) (st : Option Byte) (b : Bool) :
    s.PopFrame (s.settleCross i st b) := by
  unfold State.settleCross
  split
  · split
    · have crossed := fun r => (((s.setRecord_popFrame i r).trans (State.crossOnce_popFrame _ i st)).trans
        (State.crossOnce_popFrame _ i st)).trans (State.crossOnce_popFrame _ i st)
      simp only []
      split
      · exact ((crossed _).trans (State.setZone_popFrame _ _ _)).trans (State.enlist_popFrame _ i)
      · exact crossed _
    · exact .refl s
  · exact .refl s

theorem popWalk_popFrame (z : Fin 32) (l : List Nat) (s : State) : s.PopFrame (popWalk z l s) := by
  induction l generalizing s with
  | nil => exact .refl s
  | cons i rest ih =>
    unfold popWalk
    split
    · split
      · split
        · split
          · exact ih s
          · exact (s.settleCross_popFrame i none true).trans (ih _)
        · exact .refl s
      · exact ih s
    · exact ih s

/-- A pop passes over a record without a zone part (R100). -/
theorem popWalk_unzoned (z : Fin 32) (l : List Nat) {s : State} {i : Nat} {r : Record} (h : s.record? i = some r)
    (hz : r.zonePart = none) : (popWalk z l s).record? i = some r := by
  induction l generalizing s with
  | nil => exact h
  | cons j rest ih =>
    unfold popWalk
    split
    · next q hq =>
      split
      · next zp hzp =>
        have other : i ≠ j := by
          rintro rfl
          rw [h, Option.some.injEq] at hq
          rw [← hq, hz] at hzp
          cases hzp
        split
        · split
          · exact ih h
          · exact ih (by rw [State.settleCross_record?_ne _ _ _ other]; exact h)
        · exact h
      · exact ih h
    · exact ih h

theorem State.pop_popFrame (s : State) (z : Fin 32) : s.PopFrame (s.pop z) := popWalk_popFrame _ _ _

theorem State.pop_unzoned (z : Fin 32) {s : State} {i : Nat} {r : Record} (h : s.record? i = some r)
    (hz : r.zonePart = none) : (s.pop z).record? i = some r := popWalk_unzoned z _ h hz

theorem State.pop_posts (s : State) (z : Fin 32) : ∃ l, (∀ n ∈ l, Notice.OfPop n) ∧ s.Posts (s.pop z) l := popWalk_posts _ _ _

/-! The restart advance (R75, R76). -/

theorem Zone.charge_air (x : Zone) (t : Nat) : (x.charge t).air = (x.air.charge t).air := by
  unfold Zone.charge Zone.addDry
  have dryOn : (x.air.addWear x.air.rate (t - x.air.lastAdvance)).dryOn = (x.addWear x.rate (t - x.lastAdvance)).dryOn := rfl
  rw [dryOn]
  split <;> rfl

theorem Zone.gapAdvance_air (x : Zone) (blackout freezeTime restart : Nat) :
    (x.gapAdvance blackout freezeTime restart).air = (x.air.gapAdvance blackout freezeTime restart).air := by
  unfold Zone.gapAdvance Zone.charge Zone.addDry
  have dryOn : (x.air.addWear x.air.rate (freezeTime - x.air.lastAdvance)).dryOn =
      (x.addWear x.rate (freezeTime - x.lastAdvance)).dryOn := rfl
  rw [dryOn]
  split <;> rfl

/-- A zone as the restart advance charges it, before its pop. -/
def State.restartCharge (s : State) (c : StartCause) (z : Fin 32) : Zone :=
  match c with
  | .powerOn => s.zone z
  | .supplyRestore => (s.zone z).gapAdvance (s.tables.zone z).blackout s.retention.freezeTime s.now
  | .command | .lineBreak => (s.zone z).charge s.now

section
variable {c : StartCause}

theorem State.restartZone_eq (hc : c ≠ .powerOn) (s : State) (z : Fin 32) :
    State.restartZone c s z = (s.setZone z (s.restartCharge c z)).pop z := by
  cases c with
  | powerOn => exact absurd rfl hc
  | _ => rfl

theorem State.restartZone_popFrame (hc : c ≠ .powerOn) (s : State) (z : Fin 32) : s.PopFrame (State.restartZone c s z) := by
  rw [State.restartZone_eq hc]
  exact (s.setZone_popFrame z _).trans (State.pop_popFrame _ z)

theorem State.restartZone_frame (hc : c ≠ .powerOn) (s : State) (z : Fin 32) : s.ZoneFrame (State.restartZone c s z) := by
  rw [State.restartZone_eq hc]
  exact (s.setZone_frame z _).trans (State.pop_frame _ z)

theorem State.restartZone_unzoned (hc : c ≠ .powerOn) {s : State} (z : Fin 32) {i : Nat} {r : Record}
    (h : s.record? i = some r) (hz : r.zonePart = none) : (State.restartZone c s z).record? i = some r := by
  rw [State.restartZone_eq hc]
  exact State.pop_unzoned z (s := s.setZone z (s.restartCharge c z)) h hz

theorem State.restartZone_posts (hc : c ≠ .powerOn) (s : State) (z : Fin 32) :
    ∃ l, (∀ n ∈ l, Notice.OfPop n) ∧ s.Posts (State.restartZone c s z) l := by
  rw [State.restartZone_eq hc]
  obtain ⟨l, hl, hp⟩ := State.pop_posts (s.setZone z (s.restartCharge c z)) z
  exact ⟨l, hl, (s.setZone_posts z _).trans hp⟩

theorem foldl_restartZone_posts (hc : c ≠ .powerOn) (zs : List (Fin 32)) (s : State) :
    ∃ l, (∀ n ∈ l, Notice.OfPop n) ∧ s.Posts (zs.foldl (State.restartZone c) s) l := by
  induction zs generalizing s with
  | nil => exact ⟨[], fun _ h => absurd h List.not_mem_nil, .nothing rfl rfl⟩
  | cons z zs ih =>
    obtain ⟨l, hl, hp⟩ := s.restartZone_posts hc z
    obtain ⟨m, hm, hq⟩ := ih (State.restartZone c s z)
    have both : ∀ n ∈ l ++ m, Notice.OfPop n := fun n hn => (List.mem_append.mp hn).elim (hl n) (hm n)
    rw [List.foldl_cons]
    exact ⟨l ++ m, both, State.Posts.trans hp hq⟩

theorem foldl_restartZone_unzoned (hc : c ≠ .powerOn) (zs : List (Fin 32)) {s : State} {i : Nat} {r : Record}
    (h : s.record? i = some r) (hz : r.zonePart = none) : (zs.foldl (State.restartZone c) s).record? i = some r := by
  induction zs generalizing s with
  | nil => exact h
  | cons z zs ih =>
    rw [List.foldl_cons]
    exact ih (State.restartZone_unzoned hc z h hz)

/-- The zone advanced is charged as it stood, and the others keep their clocks. -/
theorem State.restartZone_air (hc : c ≠ .powerOn) (s : State) (z y : Fin 32) :
    ((State.restartZone c s z).zone y).air = if y = z then (s.restartCharge c z).air else (s.zone y).air := by
  rw [State.restartZone_eq hc, State.pop_sameAir]
  split
  · next h => rw [h, State.setZone_zone_self]
  · next h => rw [State.setZone_zone_ne _ _ h]

/-- What the restart advance makes of a zone depends on no other zone. -/
theorem State.restartCharge_air {s t : State} (z : Fin 32) (hz : (t.zone z).air = (s.zone z).air)
    (ht : t.tables = s.tables) (hr : t.retention = s.retention) : (t.restartCharge c z).air = (s.restartCharge c z).air := by
  have now : t.now = s.now := by rw [State.now, hr]; rfl
  unfold State.restartCharge
  rw [ht, hr, now]
  cases c with
  | powerOn => exact hz
  | supplyRestore => rw [Zone.gapAdvance_air, hz, ← Zone.gapAdvance_air]
  | command => rw [Zone.charge_air, hz, ← Zone.charge_air]
  | lineBreak => rw [Zone.charge_air, hz, ← Zone.charge_air]

theorem foldl_restartZone_air (hc : c ≠ .powerOn) (zs : List (Fin 32)) (hn : zs.Nodup) (s : State) (z : Fin 32) :
    ((zs.foldl (State.restartZone c) s).zone z).air = if z ∈ zs then (s.restartCharge c z).air else (s.zone z).air := by
  induction zs generalizing s with
  | nil => simp
  | cons a rest ih =>
    have air := s.restartZone_air hc a z
    rw [List.foldl_cons, ih hn.of_cons]
    by_cases h : z = a
    · subst h
      rw [if_neg (List.nodup_cons.mp hn).1, air, if_pos rfl, if_pos List.mem_cons_self]
    · have frame := (State.restartZone_frame hc s a).1
      rw [if_neg h] at air
      rw [air, State.restartCharge_air z air (by rw [frame]) (by rw [frame])]
      simp only [List.mem_cons, h, false_or]

end

/-! The clocks that the restart advance leaves. -/

theorem Zone.charge_clocks (x : Zone) (t : Nat) :
    (x.charge t).lastAdvance = t ∧ (x.charge t).wear = x.wearAt t ∧ (x.charge t).dry = x.dryAt t :=
  ⟨rfl, x.charge_wear t, x.charge_dry t⟩

theorem Zone.gapAdvance_clocks (x : Zone) (blackout freezeTime restart : Nat) :
    (x.gapAdvance blackout freezeTime restart).lastAdvance = restart ∧
      (x.gapAdvance blackout freezeTime restart).wear =
        min 281474976710655 (x.wearAt freezeTime + blackout * (restart - freezeTime)) ∧
      (x.gapAdvance blackout freezeTime restart).dry = x.dryAt freezeTime := by
  obtain ⟨-, wear, dry⟩ := x.charge_clocks freezeTime
  refine ⟨rfl, ?_, dry⟩
  rw [← wear]
  rfl

/-! Every zone stale (R77). -/

/-- A zone goes stale at its fallback rate. -/
def State.staleZone (s : State) (z : Fin 32) : State := s.setZone z ((s.zone z).setStale (s.tables.zone z).fallback)

theorem foldl_staleZone_zones (zs : List (Fin 32)) (s : State) :
    zs.foldl State.staleZone s = { s with zones := (zs.foldl State.staleZone s).zones } := by
  induction zs generalizing s with
  | nil => rfl
  | cons a rest ih => exact (ih _).trans rfl

theorem foldl_staleZone_zone (zs : List (Fin 32)) (s : State) (z : Fin 32) :
    (zs.foldl State.staleZone s).zone z =
      if z ∈ zs then (s.zone z).setStale (s.tables.zone z).fallback else s.zone z := by
  induction zs generalizing s with
  | nil => simp
  | cons a rest ih =>
    have tables : (s.staleZone a).tables = s.tables := rfl
    rw [List.foldl_cons, ih, tables]
    by_cases h : z = a
    · subst h
      rw [State.staleZone, State.setZone_zone_self, if_pos List.mem_cons_self]
      split <;> rfl
    · rw [State.staleZone, State.setZone_zone_ne _ _ h]
      simp only [List.mem_cons, h, false_or]

theorem State.restartZones_zone (s : State) (z : Fin 32) :
    s.restartZones.zone z = (s.zone z).setStale (s.tables.zone z).fallback :=
  (foldl_staleZone_zone allZones s z).trans (if_pos (List.mem_finRange z))

/-! The stale requests of a start (R165; log entry 27). -/

/-- A batch is open, overdue and not reported. -/
def State.batchOverdue (s : State) (b : Fin 16) : Bool := s.batches[b.val].any fun x => x.overdue s.now

theorem State.batchOverdue_iff (s : State) (b : Fin 16) :
    s.batchOverdue b = true ↔ ∃ x, s.batches[b.val] = some x ∧ x.deadline ≤ s.now ∧ x.stalePosted = false := by
  simp only [State.batchOverdue, Batch.overdue, Option.any_eq_true, Bool.and_eq_true, decide_eq_true_eq, Bool.not_eq_true']

theorem State.staleExpiry_eq (s : State) (b : Fin 16) :
    s.staleExpiry b = if s.batchOverdue b = true ∧ b ∉ s.batchWait then { s with batchWait := s.batchWait ++ [b] } else s := by
  unfold State.staleExpiry State.batchOverdue
  split
  · next x hx => rw [hx]; rfl
  · next hx => rw [hx]; rfl

theorem foldl_staleExpiry_eq (bs : List (Fin 16)) (hn : bs.Nodup) (s : State) (hw : ∀ b ∈ bs, b ∉ s.batchWait) :
    bs.foldl State.staleExpiry s = { s with batchWait := s.batchWait ++ bs.filter s.batchOverdue } := by
  induction bs generalizing s with
  | nil => simp
  | cons b rest ih =>
    obtain ⟨hb, hrest⟩ := List.nodup_cons.mp hn
    have free := hw b List.mem_cons_self
    rw [List.foldl_cons, State.staleExpiry_eq]
    by_cases h : s.batchOverdue b = true
    · rw [if_pos ⟨h, free⟩, List.filter_cons_of_pos h]
      refine (ih hrest { s with batchWait := s.batchWait ++ [b] } fun x hx => ?_).trans ?_
      · simp only [List.mem_append, List.mem_singleton, not_or]
        exact ⟨hw x (List.mem_cons_of_mem b hx), fun e => hb (e ▸ hx)⟩
      · simp only [List.append_assoc, List.singleton_append]
        rfl
    · rw [if_neg fun k => h k.1, List.filter_cons_of_neg h]
      exact ih hrest s fun x hx => hw x (List.mem_cons_of_mem b hx)

/-- Step 7 of a start in which no request waits (R165, R187). -/
theorem State.startEnable_eq (s : State) (hw : s.batchWait = []) :
    s.startEnable =
      { s with
        batchWait := (List.finRange 16).filter s.batchOverdue
        floor := { s.floor with rx := .seek }, plant := { s.plant with rx := .seek }
        retention := { s.retention with
          monitor := if s.retention.monitor = .restorePending then .normal else s.retention.monitor
          backupValid := true, checkValid := false, quiesce := none } } := by
  unfold State.startEnable
  rw [foldl_staleExpiry_eq _ (List.nodup_finRange 16) s (by rw [hw]; exact nofun), hw]
  rfl

end Sys2Proof.Machine
end

section
namespace Sys2Proof.Machine

/-! ### O52: the start as a whole -/

/-- The part before the restart advance: steps 1 to 4 of a start (R188). -/
def State.startBase (s : State) (c : StartCause) : State := (s.startTables c).startBlocks.startNotices c

theorem lookupKey_map {α β : Type} (f : α → β) (l : List (Nat × α)) (k : Nat) :
    lookupKey (l.map fun p => (p.1, f p.2)) k = (lookupKey l k).map f := by
  induction l with
  | nil => rfl
  | cons p rest ih =>
    simp only [List.map_cons, lookupKey, ih]
    split <;> rfl

/-- A high notice at the head of the Notice Queue stays there, whatever arrives (R168). -/
theorem foldl_arrive_head {n : Notice} (hn : n.high = true) (l : List Notice) {q : NoticeQueue} {rest : List Notice}
    (h : q.entries = n :: rest) : ∃ rest', (l.foldl NoticeQueue.arrive q).entries = n :: rest' := by
  induction l generalizing q rest with
  | nil => exact ⟨rest, h⟩
  | cons m l ih =>
    have next : ∃ rest', (q.arrive m).entries = n :: rest' := by
      unfold NoticeQueue.arrive
      split
      · exact ⟨rest ++ [m], by rw [h, List.cons_append]⟩
      · simp only [h]
        split
        · have high : ¬(!n.high) = true := by rw [hn]; decide
          exact ⟨rest.eraseP (fun e => !e.high) ++ [m], by
            rw [List.eraseP_cons_of_neg (p := fun e : Notice => !e.high) high, List.cons_append]⟩
        · exact ⟨rest, rfl⟩
    obtain ⟨rest', h'⟩ := next
    exact ih h'

section
variable {c : StartCause}

theorem State.startBase_busy (s : State) : (s.startBase c).plant.tx ≠ .idle := by
  cases c <;> exact nofun

theorem State.restartAdvance_popFrame (hc : c ≠ .powerOn) (s : State) : s.PopFrame (s.restartAdvance c) :=
  .foldl (State.restartZone_popFrame hc) _ s

theorem State.restartAdvance_frame (hc : c ≠ .powerOn) (s : State) : s.ZoneFrame (s.restartAdvance c) :=
  foldl_zoneFrame _ (State.restartZone_frame hc) _ s

/-- The restart advance writes records, zones and notices; the rest of a start is this (R187, R188). -/
theorem State.start_eq (hc : c ≠ .powerOn) (s : State) {a b : State} (ha : a = s.startBase c) (hb : b = a.restartAdvance c) :
    s.start c =
      { a with
        table := { a.table with records := b.table.records }, zones := b.restartZones.zones, notices := b.notices
        batchWait := (List.finRange 16).filter a.batchOverdue
        floor := { a.floor with rx := .seek }, plant := { a.plant with rx := .seek }
        retention := { a.retention with
          monitor := if a.retention.monitor = .restorePending then .normal else a.retention.monitor
          backupValid := true, checkValid := false, quiesce := none } } := by
  have advanced : b = { a with table := { a.table with records := b.table.records }, zones := b.zones, notices := b.notices } := by
    have frame := a.restartAdvance_popFrame hc (by rw [ha]; exact s.startBase_busy)
    rw [← hb] at frame
    exact frame
  have stale : b.restartZones = { b with zones := b.restartZones.zones } := foldl_staleZone_zones allZones b
  have whole : s.start c = b.restartZones.startEnable := by rw [hb, ha]; rfl
  have quiet : a.batchWait = [] := by rw [ha]; cases c <;> rfl
  rw [whole]
  generalize b.restartZones.zones = zs at stale ⊢
  generalize b.table.records = records at advanced ⊢
  generalize b.zones = zs' at advanced
  generalize b.notices = notices at advanced ⊢
  rw [stale, advanced]
  exact State.startEnable_eq { a with table := { a.table with records := records }, zones := zs, notices := notices } quiet

/-- Zones that agree but for their lists, the second one gone stale. -/
theorem Zone.of_air_setStale {x y : Zone} {fallback : Nat} (h : x.air = (y.setStale fallback).air) :
    (x.stale = true ∧ x.rate = fallback ∧ x.fused = none ∧ x.dryOn = false ∧ x.slots = Vector.replicate 3 .invalid) ∧
      x.lastAdvance = y.lastAdvance ∧ x.wear = y.wear ∧ x.dry = y.dry := by
  simp only [Zone.air, Zone.setStale, Zone.mk.injEq] at h
  obtain ⟨slots, fused, stale, rate, dryOn, wear, dry, last, -⟩ := h
  exact ⟨⟨stale, rate, fused, dryOn, slots⟩, last, wear, dry⟩

theorem Zone.setStale_air (x : Zone) (fallback : Nat) : (x.setStale fallback).air = (x.air.setStale fallback).air := rfl

theorem State.startBase_tables (hc : c ≠ .powerOn) (s : State) : (s.startBase c).tables = s.tables := by
  cases c with
  | powerOn => exact absurd rfl hc
  | _ => rfl

/-- Each zone after a start: charged if it is configured, and stale (R75 to R77). -/
theorem State.start_zone (hc : c ≠ .powerOn) (s : State) (z : Fin 32) :
    ((s.start c).zone z).air =
      ((if (s.tables.zone z).kind ≠ .unset then s.restartCharge c z else s.zone z).setStale (s.tables.zone z).fallback).air := by
  have tables : (s.startBase c).tables = s.tables := s.startBase_tables hc
  have kept := ((s.startBase c).restartAdvance_frame hc).tables
  have charge : (s.startBase c).restartCharge c z = s.restartCharge c z := by
    cases c with
    | powerOn => exact absurd rfl hc
    | _ => rfl
  have same : (s.startBase c).zone z = s.zone z := by
    cases c with
    | powerOn => exact absurd rfl hc
    | _ => rfl
  have advanced := foldl_restartZone_air hc _ (configuredZones_nodup (s.startBase c).tables) (s.startBase c) z
  simp only [mem_configuredZones, tables, charge, same] at advanced
  have zone : (s.start c).zone z = ((s.startBase c).restartAdvance c).restartZones.zone z := by
    rw [State.start_eq hc s rfl rfl]
    rfl
  have air : ((s.startBase c).restartAdvance c |>.zone z).air = (if (s.tables.zone z).kind ≠ .unset then s.restartCharge c z
      else s.zone z).air := by
    rw [apply_ite Zone.air, ← advanced, ← tables]
    rfl
  rw [zone, State.restartZones_zone, kept, tables, Zone.setStale_air, air, ← Zone.setStale_air]

/-- The records after a start are those that the restart advance leaves. -/
theorem State.start_record? (hc : c ≠ .powerOn) (s : State) (i : Nat) :
    (s.start c).record? i = ((s.startBase c).restartAdvance c).record? i := by
  rw [State.start_eq hc s rfl rfl]
  rfl

/-- At the start no record is held any more. -/
theorem State.startBase_record? (hc : c ≠ .powerOn) (s : State) (i : Nat) :
    (s.startBase c).record? i = (s.record? i).map fun r => { r with held := false } := by
  have records : (s.startBase c).table.records = s.table.records.map fun p => (p.1, { p.2 with held := false }) := by
    cases c with
    | powerOn => exact absurd rfl hc
    | _ => rfl
  rw [State.record?, records]
  exact lookupKey_map (fun r : Record => { r with held := false }) ..

theorem State.start_cores (hc : c ≠ .powerOn) (s : State) (i : Nat) :
    ((s.start c).record? i).map Record.core = (s.record? i).map fun r => { r.core with held := false } := by
  obtain ⟨-, cores⟩ := (s.startBase c).restartAdvance_frame hc
  rw [s.start_record? hc, cores i, s.startBase_record? hc, Option.map_map]
  rfl

theorem State.start_unzoned (hc : c ≠ .powerOn) {s : State} {i : Nat} {r : Record} (h : s.record? i = some r)
    (hz : r.zonePart = none) : (s.start c).record? i = some { r with held := false } := by
  have base : (s.startBase c).record? i = some { r with held := false } := by rw [s.startBase_record? hc, h]; rfl
  rw [s.start_record? hc]
  exact foldl_restartZone_unzoned hc (s.startBase c).tables.configuredZones base hz

/-- RESTART stands first, and the crossing notices of the restart advance arrive behind it (R76, R172). -/
theorem State.start_notices (hc : c ≠ .powerOn) (s : State) :
    ∃ l : List Notice, (∀ m ∈ l, Notice.OfPop m) ∧ (s.start c).notices = l.foldl NoticeQueue.arrive (s.startBase c).notices := by
  obtain ⟨l, hl, posted⟩ := foldl_restartZone_posts hc (s.startBase c).tables.configuredZones (s.startBase c)
  obtain ⟨-, notices⟩ := posted s.startBase_busy
  refine ⟨l, hl, ?_⟩
  rw [State.start_eq hc s rfl rfl]
  exact notices

/-- The first notice of a start: RESTART with the gap and the loss (R172, R173). -/
def State.restartNotice (s : State) (c : StartCause) : Notice :=
  { kind := .restart, high := true, wallTime := s.wallTime, carrier := none, zone := none, station := none
    percent := none, reason := none, extra := .seconds (s.now - s.retention.freezeTime), startLost := s.startLost c }

theorem State.startBase_notices (hc : c ≠ .powerOn) (s : State) :
    (s.startBase c).notices = { entries := [s.restartNotice c], lost := 0, nextSeq := 0 } := by
  cases c with
  | powerOn => exact absurd rfl hc
  | _ => rfl

/-- The stale requests of a start are those of the overdue batches (R165). -/
theorem State.start_batchWait (hc : c ≠ .powerOn) (s : State) :
    (s.start c).batchWait = (List.finRange 16).filter s.batchOverdue := by
  have same : (s.startBase c).batchOverdue = s.batchOverdue := by
    cases c with
    | powerOn => exact absurd rfl hc
    | _ => rfl
  rw [State.start_eq hc s rfl rfl, ← same]

/-- The clocks of a zone after a start, as the restart advance leaves them (R75, R76). -/
theorem State.start_clocks (hc : c ≠ .powerOn) (s : State) (z : Fin 32) :
    ((s.tables.zone z).kind ≠ .unset →
      ((s.start c).zone z).lastAdvance = (s.restartCharge c z).lastAdvance ∧
        ((s.start c).zone z).wear = (s.restartCharge c z).wear ∧ ((s.start c).zone z).dry = (s.restartCharge c z).dry) ∧
    ((s.tables.zone z).kind = .unset →
      ((s.start c).zone z).wear = (s.zone z).wear ∧ ((s.start c).zone z).dry = (s.zone z).dry) := by
  obtain ⟨-, clocks⟩ := Zone.of_air_setStale (s.start_zone hc z)
  refine ⟨fun h => ?_, fun h => ?_⟩
  · rw [if_pos h] at clocks
    exact clocks
  · rw [if_neg (not_not_intro h)] at clocks
    exact clocks.2

end

/-- The cause of a start that keeps the retained domain (R187, R189). -/
def QuiesceCause.startCause : QuiesceCause → StartCause
  | .command => .command
  | .lineBreak => .lineBreak

theorem State.startCause?_supply {s : State} (hm : s.retention.monitor = .restorePending)
    (hb : s.retention.backupValid = true) (hv : s.retention.checkValid = true) : s.startCause? = some .supplyRestore :=
  (if_pos hm).trans (congrArg some (if_pos ⟨hb, hv⟩))

theorem State.startCause?_quiesce {s : State} {q : Quiesce} (hm : s.retention.monitor ≠ .restorePending)
    (hq : s.retention.quiesce = some q) (hs : q.stopped = true) : s.startCause? = some q.cause.startCause := by
  unfold State.startCause?
  simp only [if_neg hm, hq, if_pos hs]
  cases q.cause <;> rfl

theorem exec_startSequence {s : State} {c : StartCause} (h : s.startCause? = some c) :
    exec .startSequence s = .next (s.start c) := by
  simp only [exec, execStartSequence, h]

/-- Settles O52, from what a start leaves of zones, notices, batches and records. -/
theorem restartKeepsAccounts : Obligations.RestartKeepsAccounts := by
  intro s supply h
  have due : ∃ c, c ≠ .powerOn ∧ s.startCause? = some c ∧
      (supply = true ∧ c = .supplyRestore ∧ s.retention.monitor = .restorePending ∨
        supply = false ∧ s.retention.monitor ≠ .restorePending ∧
          ∃ q, s.retention.quiesce = some q ∧ c = q.cause.startCause) := by
    rcases h with ⟨rfl, hm, hb, hv⟩ | ⟨rfl, hm, q, hq, hs⟩
    · exact ⟨.supplyRestore, nofun, State.startCause?_supply hm hb hv, .inl ⟨rfl, rfl, hm⟩⟩
    · exact ⟨q.cause.startCause, by cases q.cause <;> exact nofun, State.startCause?_quiesce hm hq hs, .inr ⟨rfl, hm, q, hq, rfl⟩⟩
  clear h
  obtain ⟨c, hc, cause, which⟩ := due
  refine ⟨s.start c, exec_startSequence cause, fun z hz => ?charged, fun z => (s.start_clocks hc z).2, fun z => ?stale,
    ?notices, fun b => ?requests, ?once, s.start_cores hc, fun i r hr => State.start_unzoned hc hr, ?rest⟩
  case charged =>
    obtain ⟨last, wear, dry⟩ := (s.start_clocks hc z).1 hz
    rw [last, wear, dry]
    rcases which with ⟨rfl, rfl, -⟩ | ⟨rfl, -, q, -, rfl⟩
    · obtain ⟨glast, gwear, gdry⟩ :=
        (s.zone z).gapAdvance_clocks (s.tables.zone z).blackout s.retention.freezeTime s.now
      exact ⟨glast, fun _ => ⟨gwear, gdry⟩, nofun⟩
    · have charge : s.restartCharge q.cause.startCause z = (s.zone z).charge s.now := by cases q.cause <;> rfl
      obtain ⟨clast, cwear, cdry⟩ := (s.zone z).charge_clocks s.now
      rw [charge]
      exact ⟨clast, nofun, fun _ => ⟨cwear, cdry⟩⟩
  case stale =>
    obtain ⟨⟨stale, rate, fused, dryOn, slots⟩, -⟩ := Zone.of_air_setStale (s.start_zone hc z)
    refine ⟨stale, rate, fused, dryOn, fun j => ?_⟩
    simp only [slots, Vector.getElem_replicate, Slot.invalid]
  case notices =>
    obtain ⟨l, hl, notices⟩ := s.start_notices hc
    rw [s.startBase_notices hc] at notices
    obtain ⟨rest, head⟩ := foldl_arrive_head (n := s.restartNotice c) rfl l
      (q := { entries := [s.restartNotice c], lost := 0, nextSeq := 0 }) rfl
    refine ⟨s.restartNotice c, rest, l, by rw [notices]; exact head, ?_, hl, notices⟩
    have lost : s.startLost c =
        if supply then s.retention.noticeLoss else min 255 (s.notices.entries.length + s.notices.lost) := by
      rcases which with ⟨rfl, rfl, -⟩ | ⟨rfl, -, q, -, rfl⟩
      · rfl
      · cases q.cause <;> rfl
    rw [← lost]
    rfl
  case requests =>
    rw [s.start_batchWait hc, List.mem_filter, ← s.batchOverdue_iff]
    exact and_iff_right (List.mem_finRange b)
  case once =>
    rw [s.start_batchWait hc]
    exact (List.nodup_finRange 16).filter _
  case rest =>
    rw [State.start_eq hc s rfl rfl]
    generalize ((s.startBase c).restartAdvance c).restartZones.zones = zones
    generalize ((s.startBase c).restartAdvance c).table.records = records
    generalize ((s.startBase c).restartAdvance c).notices = notices
    rcases which with ⟨rfl, rfl, hm⟩ | ⟨rfl, hm, q, hq, rfl⟩
    · refine ⟨rfl, rfl, rfl, rfl, rfl, rfl, rfl, rfl, rfl, rfl, rfl, if_pos hm, rfl, rfl, rfl, rfl, rfl, fun _ => rfl, nofun,
        fun port => by cases port <;> rfl, rfl, rfl, rfl, rfl, rfl, rfl, rfl, rfl, rfl, rfl, rfl, rfl, rfl⟩
    · cases hcause : q.cause
      all_goals
        refine ⟨rfl, rfl, rfl, rfl, rfl, rfl, rfl, rfl, rfl, rfl, rfl, if_neg hm, rfl, rfl, rfl, rfl, rfl, nofun,
          fun q' _ hq' => ?_, fun port => by cases port <;> rfl, rfl, rfl, rfl, rfl, rfl, rfl, rfl, rfl, rfl, rfl,
          rfl, rfl, rfl⟩
        rw [hq, Option.some.injEq] at hq'
        rw [← hq', hcause]
        rfl

end Sys2Proof.Machine
end

section
namespace Sys2Proof.Machine

/-! ### What leads to the ring search

`State.RingShut` is the frame of the ring search: a change of the part that does not bring the engine there. Every operation that
keeps the engine's phase has it, and so has every one that ends in a named phase other than RING. -/

/-- From `s` to `t` the engine has not come to the ring search: where it stands there, it stood there before. -/
structure State.RingShut (s t : State) : Prop where
  shut : t.engine.phase = .ring → s.engine.phase = .ring

/-- An outcome whose next state, if there is one, has not come to the ring search. -/
def State.RingSafe (s : State) (o : Host.Outcome State Fault Refusal) : Prop := ∀ t, o = .next t → s.RingShut t

namespace State.RingShut

theorem refl (s : State) : s.RingShut s := ⟨id⟩

theorem trans {s t u : State} (h : s.RingShut t) (k : t.RingShut u) : s.RingShut u := ⟨fun hu => h.shut (k.shut hu)⟩

theorem of_phase {s t : State} (h : t.engine.phase = s.engine.phase) : s.RingShut t := ⟨fun k => h ▸ k⟩

theorem of_engine {s t : State} (h : t.engine = s.engine) : s.RingShut t := of_phase (congrArg Engine.phase h)

theorem of_ne {s t : State} (h : t.engine.phase ≠ .ring) : s.RingShut t := ⟨fun k => absurd k h⟩

/-- A change that leaves the engine's phase, behind one that does not lead to the ring search. -/
theorem silent {s t u : State} (h : s.RingShut t) (e : u.engine.phase = t.engine.phase) : s.RingShut u := h.trans (of_phase e)

/-- The same, before it. -/
theorem after {s t u : State} (h : t.RingShut u) (e : t.engine.phase = s.engine.phase) : s.RingShut u := (of_phase e).trans h

theorem of_plant {s t : State} (h : s.PlantFrame t) : s.RingShut t := of_engine (by rw [h])

theorem of_zone {s t : State} (h : s.ZoneFrame t) : s.RingShut t := of_engine (by rw [h.1])

theorem foldl {α : Type} {f : State → α → State} (hf : ∀ s a, State.RingShut s (f s a)) (l : List α) (s : State) :
    s.RingShut (l.foldl f s) := by
  induction l generalizing s with
  | nil => exact refl s
  | cons a l ih => exact (hf s a).trans (ih _)

end State.RingShut

theorem State.RingSafe.next {s t : State} (h : s.RingShut t) : s.RingSafe (.next t) := by
  rintro _ ⟨⟩
  exact h

theorem State.RingSafe.fault (s : State) (f : Fault) : s.RingSafe (.fault f) := by rintro _ ⟨⟩

theorem State.RingSafe.same {s t : State} (h : t.engine.phase = s.engine.phase) : s.RingSafe (.next t) := .next (.of_phase h)

/-- The end of a command of the Transaction Engine: a named phase. -/
theorem State.RingSafe.moved {s t : State} (h : t.engine.phase ≠ .ring) : s.RingSafe (.next t) := .next (.of_ne h)

/-! #### Where the engine's own steps lead -/

section
variable (s : State) (w : Work)

@[simp] theorem State.compose_phase (o : RepeatOutcome) (reason : Option Byte) (band : Option Nat) :
    (s.compose w o reason band).engine.phase = .placing := by cases o <;> rfl

@[simp] theorem State.reissue_phase (o : RepeatOutcome) (reason : Option Byte) (band : Option Nat) :
    (s.reissue w o reason band).engine.phase = .placing := s.compose_phase ..

theorem State.classify_phase (t : Telegram) : (s.classify t).engine.phase ≠ .ring := by
  unfold State.classify
  simp only []
  split
  · split
    · split <;> simp
    · simp
  · split
    · split
      · simp
      · split <;> simp
    · split
      · split <;> simp
      · simp

theorem State.decisionReading_phase (k : TxKind) : (s.decisionReading w k).engine.phase ≠ .ring := by
  unfold State.decisionReading
  split <;> simp

theorem State.afterSettle_phase (k : TxKind) : (s.afterSettle w k).engine.phase ≠ .ring := by
  unfold State.afterSettle
  split
  · simp
  · split
    · simp
    · exact s.decisionReading_phase w k

theorem State.answerQuery_phase : (s.answerQuery w).engine.phase = .placing := by
  unfold State.answerQuery
  split <;> rfl

theorem State.closeCommit_ringShut : s.RingShut (s.closeCommit w) := by
  unfold State.closeCommit
  split
  · exact .of_ne (by simp)
  · exact .refl s

/-- The first work of a commit is one of a commit. -/
theorem State.firstCommitPhase_ne (o : CommitOutcome) : s.firstCommitPhase w o ≠ .ring := by
  unfold State.firstCommitPhase
  split
  · split
    · simp
    · split <;> simp
    · simp
  · split <;> simp

theorem State.openCommit_ringShut : s.RingShut (s.openCommit w) := by
  unfold State.openCommit
  simp only []
  split
  · exact s.closeCommit_ringShut _
  · exact .of_ne (by simp)
  · exact .of_ne (by simp)
  · exact .of_ne (s.firstCommitPhase_ne w _)

theorem State.createOpen_phase : (s.createOpen w).engine.phase ≠ .ring := by
  unfold State.createOpen
  split
  · split <;> simp
  · simp

theorem State.commitStay_phase : (s.commitStay w).engine.phase = .commitClose := rfl

theorem State.commitZoned_phase (k : TxKind) (st : Option CarrierState) :
    (s.commitZoned w k st).engine.phase = .commitClose := by
  unfold State.commitZoned
  simp only []
  split <;> rfl

theorem State.commitExpire_phase : (s.commitExpire w).engine.phase = .commitClose := by
  unfold State.commitExpire
  simp only []
  split <;> rfl

theorem State.commitOpened_phase : (s.commitOpened w).engine.phase = .commitClose := by
  unfold State.commitOpened
  simp only []
  split <;> rfl

theorem State.commitSplit_phase : (s.commitSplit w).engine.phase = .commitClose := by
  unfold State.commitSplit
  simp only []
  split
  · rfl
  · split
    · rfl
    · split
      · rfl
      · split <;> rfl

theorem State.commitBakeIn_phase : (s.commitBakeIn w).engine.phase ≠ .ring := by
  unfold State.commitBakeIn
  simp only []
  split
  · exact nofun
  · exact nofun

theorem State.commitBakeOut_phase : (s.commitBakeOut w).engine.phase ≠ .ring := by
  unfold State.commitBakeOut
  split
  · exact nofun
  · simp only []
    split
    · exact nofun
    · exact nofun
    all_goals split <;> exact nofun

theorem State.commitRelistStep_phase : (s.commitRelistStep w).engine.phase ≠ .ring := by
  unfold State.commitRelistStep
  split
  · split
    · rw [s.commitOpened_phase]; decide
    · split
      · rw [s.commitZoned_phase]; decide
      · rw [s.commitZoned_phase]; decide
      · rw [s.commitExpire_phase]; decide
      · exact s.commitBakeIn_phase w
      · exact s.commitBakeOut_phase w
      · rw [s.commitSplit_phase]; decide
      · rw [s.commitStay_phase]; decide
    · rw [s.commitStay_phase]; decide
  · rw [s.commitStay_phase]; decide

/-- The carrier lookup leads to the ring search for a CLOSE alone, and then for one whose carrier is absent (R52). -/
theorem State.lookupCarrier_ring {k : TxKind} (h : (s.lookupCarrier w k).engine.phase = .ring) :
    k = .close ∧ s.table.find? (carrierIdOf w.tel) = none := by
  unfold State.lookupCarrier State.lookupOpen State.lookupFound at h
  split at h
  · split at h
    · cases h
    · simp only [] at h
      split at h <;> simp at h
  · split at h
    · simp only [] at h
      split at h
      · simp at h
      · split at h <;> cases h
    · next absent =>
      split at h
      · next close => exact ⟨close, absent⟩
      · cases h

theorem State.lookupQuery_phase : (s.lookupQuery w).engine.phase ≠ .ring := by
  unfold State.lookupQuery
  split <;> exact nofun

end

/-! #### The shared operations -/

section
variable (s : State)

theorem State.floorChoice?_engine {s t : State} (h : s.floorChoice? = some t) : t.engine = s.engine := by
  unfold State.floorChoice? at h
  split at h
  · cases h
  · cases h; rfl
  · cases h; rfl
  · split at h <;> cases h <;> rfl

theorem State.kickFloor_engine : s.kickFloor.engine = s.engine := by
  unfold State.kickFloor
  split
  · cases h : s.floorChoice? with
    | none => rfl
    | some t => exact State.floorChoice?_engine h
  · rfl

theorem State.floorFree_engine : s.floorFree.engine = s.engine := by
  unfold State.floorFree
  cases h : s.floorChoice? with
  | none => rfl
  | some t => exact State.floorChoice?_engine h

theorem State.plantFree_engine : s.plantFree.engine = s.engine := by
  unfold State.plantFree
  cases h : s.plantChoice? with
  | none => rfl
  | some t => rw [Option.getD_some, State.plantChoice?_frame h]

theorem State.setPort_engine (port : LinkPort) (x : PortState) : (s.setPort port x).engine = s.engine := by
  cases port <;> rfl

theorem State.agentNext_engine : s.agentNext.engine = s.engine := by
  unfold State.agentNext
  split <;> rfl

theorem State.beginStop_ringShut (r : Retention) : s.RingShut { s with retention := r }.beginStop := by
  have stopped : s.engine.stopped.phase = .ring → s.engine.phase = .ring := by
    unfold Engine.stopped
    split
    · exact nofun
    · exact nofun
    · exact id
  rcases s.agent_cases with h | h | ⟨t, h, ha⟩
  · rw [s.beginStop_late r h]; exact ⟨stopped⟩
  · rw [s.beginStop_drops r h]; exact ⟨stopped⟩
  · rw [s.beginStop_keeps r h ha]; exact ⟨stopped⟩

theorem State.placeReset_ringShut (r : Telegram) : s.RingShut (s.placeReset r) := by
  have pushed : s.RingShut { s.pushReply r with agent := { s.agent with phase := .idle } } :=
    (State.RingShut.of_plant (s.pushReply_frame r)).trans (.of_phase rfl)
  unfold State.placeReset
  simp only []
  split
  · exact pushed.trans (.of_engine (State.agentNext_engine _))
  · exact pushed.trans (State.beginStop_ringShut _ _)

theorem State.serve_ringShut (t : Telegram) (op : MgmtOp) {f : State → State} (hf : s.RingShut (f s)) :
    s.RingShut (s.serve t op f) := by
  unfold State.serve
  split
  · exact .of_phase rfl
  · exact hf

theorem State.asZoneRequest_ringShut {f : State → State} (hf : ∀ a, State.RingShut a (f a)) :
    s.RingShut (s.asZoneRequest f) := by
  unfold State.asZoneRequest
  split
  · exact (hf s.withdrawAgent).after rfl
  · split <;> exact .of_phase rfl

theorem State.asRecordRequest_ringShut (id : CarrierId) {f : State → State} (hf : ∀ a, State.RingShut a (f a)) :
    s.RingShut (s.asRecordRequest id f) := by
  unfold State.asRecordRequest
  split
  · exact s.asZoneRequest_ringShut hf
  · exact hf s

theorem State.modRecord_engine (i : Nat) (f : Record → Record) : (s.modRecord i f).engine = s.engine := by
  unfold State.modRecord
  split <;> rfl

theorem State.leaveBatch_engine (oven : Byte) (i : Nat) : (s.leaveBatch oven i).engine = s.engine := by
  unfold State.leaveBatch
  repeat' split
  all_goals rfl

theorem State.staleExpiry_engine (b : Fin 16) : (s.staleExpiry b).engine = s.engine := by
  unfold State.staleExpiry
  repeat' split
  all_goals rfl

theorem State.removeRecord_engine (i : Nat) : (s.removeRecord i).engine = s.engine := by
  unfold State.removeRecord
  split <;> rfl

theorem State.advance_ringShut (z : Fin 32) : s.RingShut (s.advance z) := .of_zone (s.advance_frame z)

/-- The advance of UNLINK and WRITE-RECORD, which passes over the record itself, leaves the engine alone. -/
theorem State.setHoldAdvance_ringShut (i : Nat) (z : Fin 32) : s.RingShut ((s.setHold i true).advance z) :=
  (State.RingShut.of_engine (s.modRecord_engine ..)).trans (State.advance_ringShut ..)

theorem State.unlinkRecord_ringShut (i : Nat) : s.RingShut (s.unlinkRecord i) := by
  unfold State.unlinkRecord
  split
  · exact (s.setHoldAdvance_ringShut ..).silent rfl
  · exact .refl s

theorem State.writeSettle_ringShut (i : Nat) : s.RingShut (s.writeSettle i) := by
  unfold State.writeSettle
  split
  · exact (s.setHoldAdvance_ringShut ..).trans
      (.of_engine ((State.modRecord_engine ..).trans (State.modRecord_engine ..)))
  · exact .refl s

theorem State.writeClass_engine (i : Nat) (c : Option (Fin 16)) : (s.writeClass i c).engine = s.engine := by
  unfold State.writeClass
  split <;> rfl

theorem State.writeRetire_engine (i : Nat) : (s.writeRetire i).engine = s.engine := by
  unfold State.writeRetire
  split
  · next r _ =>
    have unlisted : (match r.zonePart with | some zp => s.unlist zp.zone i | none => s).engine = s.engine := by
      split <;> rfl
    simp only [State.setRecord_engine]
    split
    · exact (State.leaveBatch_engine ..).trans unlisted
    · exact unlisted
  · rfl

theorem State.writeRelist_ringShut (i : Nat) (w : RecordWrite) : s.RingShut (s.writeRelist i w) := by
  unfold State.writeRelist
  split
  · split
    · exact .of_zone ((s.unlist_frame _ i).trans (State.attach_frame ..))
    · split <;> exact .of_phase rfl
  · exact .refl s

theorem State.writeRecord_ringShut (i : Nat) (w : RecordWrite) : s.RingShut (s.writeRecord i w) := by
  have figures : s.RingShut (((s.writeSettle i).writeClass i w.cls).writeFigures i w) :=
    (s.writeSettle_ringShut i).trans (.of_engine ((State.modRecord_engine ..).trans (State.writeClass_engine ..)))
  unfold State.writeRecord
  refine figures.trans (.trans ?_ (State.writeRelist_ringShut ..))
  split
  · exact .of_engine (State.writeRetire_engine ..)
  · exact .refl _

theorem State.writeRecordRequest_ringShut (t : Telegram) (id : CarrierId) (w : RecordWrite) :
    s.RingShut (s.writeRecordRequest t id w) := by
  refine s.asRecordRequest_ringShut id fun a => ?_
  unfold State.writeRecordNow
  split
  · exact .of_phase rfl
  · split
    · exact .of_phase rfl
    · split
      · exact .of_phase rfl
      · exact (a.writeRecord_ringShut ..).silent rfl

theorem State.deleteRecord_ringShut (i : Nat) (r : Record) : s.RingShut (s.deleteRecord i r) := by
  unfold State.deleteRecord
  refine (s.unlinkRecord_ringShut i).trans (.of_engine ?_)
  rw [State.removeRecord_engine]
  split
  · exact State.leaveBatch_engine ..
  · rfl

theorem State.deleteRecordNow_ringShut (t : Telegram) (id : CarrierId) : s.RingShut (s.deleteRecordNow t id) := by
  unfold State.deleteRecordNow
  split
  · exact .of_phase rfl
  · split
    · exact .of_phase rfl
    · exact (s.deleteRecord_ringShut ..).silent rfl

theorem foldl_chargeZone_ringShut (zs : List (Fin 32)) : s.RingShut (zs.foldl State.chargeZone s) :=
  .foldl (fun a z => .of_zone (a.chargeZone_frame z)) zs s

theorem State.zoneChange_engine (z : Fin 32) (old new : ZoneConfig) : (s.zoneChange z old new).engine = s.engine := by
  unfold State.zoneChange
  split <;> rfl

theorem State.rekeyZones_ringShut (sel : Record → Bool) (zs : List (Fin 32)) :
    s.RingShut (zs.foldl (fun a z => a.rekeyZone sel z) s) := .foldl (fun a z => .of_zone (a.rekeyZone_frame sel z)) zs s

/-- Replacing the tables leaves the engine alone. -/
theorem State.withTables_ringShut (t : Tables) : s.RingShut { s with tables := t } := .of_phase rfl

theorem State.classRekey_ringShut (c : Fin 16) (row : ClassRow) : s.RingShut (s.classRekey c row) :=
  ((State.RingShut.of_zone (s.advanceAll_frame s.tables.configuredZones)).trans (State.withTables_ringShut _ _)).trans
    (State.rekeyZones_ringShut _ (fun r => r.cls == c) _)

theorem State.zoneWrite_ringShut (z : Fin 32) (row : ZoneConfig) : s.RingShut (s.zoneWrite z row) := by
  unfold State.zoneWrite
  simp only []
  have charged : s.RingShut (if (s.tables.zone z).configured then s.chargeZone z else s) := by
    split
    · exact .of_zone (s.chargeZone_frame z)
    · exact .refl s
  generalize (if (s.tables.zone z).configured then s.chargeZone z else s) = u at charged
  have changed := (charged.trans (u.withTables_ringShut { u.tables with zones := u.tables.zones.set z.val row })).trans
    (.of_engine (State.zoneChange_engine _ z (s.tables.zone z) row))
  split
  · exact changed.trans (.of_zone (State.refreshPop_frame ..))
  · exact changed

theorem State.regridPop_ringShut (z : Fin 32) : s.RingShut (s.regridPop z) :=
  .of_zone ((s.setZone_frame z _).trans (State.pop_frame ..))

theorem State.gridChange_ringShut (f : Tables → Tables) : s.RingShut (s.gridChange f) :=
  ((foldl_chargeZone_ringShut s s.tables.configuredZones).trans (State.withTables_ringShut _ _)).trans
    (.foldl State.regridPop_ringShut _ _)

theorem State.loadReplace_ringShut (new : Tables) : s.RingShut (s.loadReplace new) := by
  have charge : s.RingShut { s.tables.configuredZones.foldl State.chargeZone s with
      tables := { new with part := s.tables.part } } :=
    (foldl_chargeZone_ringShut s _).trans (State.withTables_ringShut _ _)
  have change := fun a => State.RingShut.foldl (f := fun a z => a.zoneChange z (s.tables.zone z) (new.zone z))
    (fun a z => .of_engine (a.zoneChange_engine z _ _)) allZones a
  have refresh := fun a => State.RingShut.foldl (f := fun a z => a.refreshPop z none)
    (fun a z => .of_zone (a.refreshPop_frame z none)) new.configuredZones a
  have rekey := fun a => State.rekeyZones_ringShut a (fun _ => true) new.configuredZones
  exact (((charge.trans (change _)).trans (refresh _)).trans (rekey _)).trans (State.withTables_ringShut _ _)

theorem State.dropRequest_ringShut : s.RingShut s.dropRequest := by
  unfold State.dropRequest
  refine State.RingShut.after (t := s.setPause false) ?_ rfl
  unfold State.agentDrain
  split
  · unfold State.pushOrDrop
    split
    · exact (State.RingShut.of_plant (State.pushReply_frame { s.setPause false with agent := .atStart } _)).after rfl
    · exact .of_phase rfl
  · exact .of_phase rfl

theorem State.rekeyRequest_ringShut (t : Telegram) (c : Fin 16) (r : ClassRow) : s.RingShut (s.rekeyRequest t c r) :=
  s.asZoneRequest_ringShut fun a => (a.classRekey_ringShut c r).silent rfl

theorem State.classWrite_ringShut (t : Telegram) (c : Fin 16) (r : ClassRow) : s.RingShut (s.classWrite t c r) := by
  unfold State.classWrite
  split
  · exact .of_phase rfl
  · split
    · exact .of_phase rfl
    · split
      · exact s.dropRequest_ringShut
      · split
        · exact .refl s
        · exact (State.rekeyRequest_ringShut (s.beginRekey t c r) t c r).after rfl

theorem State.loadRequest_ringShut (t : Telegram) : s.RingShut (s.loadRequest t) := by
  unfold State.loadRequest
  split
  · split
    · exact .of_phase rfl
    · exact (s.loadReplace_ringShut _).silent rfl
  · exact .of_phase rfl

theorem State.restartZone_ringShut (c : StartCause) (s : State) (z : Fin 32) : s.RingShut (State.restartZone c s z) := by
  cases c with
  | powerOn => exact .refl s
  | _ => exact .of_zone ((s.setZone_frame z _).trans (State.pop_frame ..))

theorem foldl_staleExpiry_ringShut (bs : List (Fin 16)) (s : State) : s.RingShut (bs.foldl State.staleExpiry s) :=
  .foldl (fun a b => .of_engine (a.staleExpiry_engine b)) bs s

theorem State.startEnable_ringShut : s.RingShut s.startEnable := by
  have stale := foldl_staleExpiry_ringShut (List.finRange 16) s
  unfold State.startEnable
  generalize (List.finRange 16).foldl State.staleExpiry s = u at stale
  exact stale.silent rfl

/-- The engine is idle after the blocks have been set (R188 step 3), and no later step of a start moves it. -/
theorem State.start_ringShut (c : StartCause) : s.RingShut (s.start c) :=
  (((State.RingShut.of_ne (t := (s.startTables c).startBlocks.startNotices c) nofun).trans
    (.foldl (State.restartZone_ringShut c) _ _)).trans
      (.foldl (fun a z => .of_zone (a.setZone_frame z _)) _ _)).trans (State.startEnable_ringShut _)

end

/-! #### The commands -/

section
variable (s : State)

/-- A receiver's commands change its port alone. -/
theorem receivers_ringSafe (port : LinkPort) :
    (∀ line, s.RingSafe (execCharacterReceived port line s)) ∧ s.RingSafe (execBreakDetected port s) ∧
      s.RingSafe (execBreakEnd port s) ∧ s.RingSafe (execZeroCharacterLineHigh port s) ∧
      s.RingSafe (execInterCharacterTimeout port s) := by
  have guarded : ∀ (p : Prop) [Decidable p] (x : PortState),
      s.RingSafe (if p then .next (s.setPort port x) else .next s) := by
    intro p _ x
    split
    · exact .next (.of_engine (s.setPort_engine port x))
    · exact .same rfl
  exact ⟨fun _ => guarded _ _, guarded _ _, guarded _ _, guarded _ _, guarded _ _⟩

theorem execTelegramSent_ringSafe (port : LinkPort) : s.RingSafe (execTelegramSent port s) := by
  unfold execTelegramSent
  split
  · exact .next (.of_engine s.floorFree_engine)
  · split
    · exact .same rfl
    · exact .next (.of_engine s.plantFree_engine)
  · exact .same rfl

theorem execStartingEnd_ringSafe (port : LinkPort) : s.RingSafe (execStartingEnd port s) := by
  unfold execStartingEnd
  split
  · exact .next (.of_engine (State.floorFree_engine { s with floorPref := .answer }))
  · exact .next (.of_engine s.plantFree_engine)
  · exact .same rfl

theorem execPlantRoutingTake_ringSafe : s.RingSafe (execPlantRoutingTake s) := by
  unfold execPlantRoutingTake
  split
  · split
    · split
      · split
        · split <;> exact .same rfl
        · exact .same rfl
      · split
        · exact .next (.of_engine (State.kickFloor_engine _))
        · exact .same rfl
    · exact .same rfl
  · exact .same rfl

/-- The commands by which the engine takes a telegram and checks it, but for the carrier lookup and the ring search. -/
theorem checking_ringSafe :
    s.RingSafe (execTransactionTake s) ∧ s.RingSafe (execSampleIntake s) ∧ s.RingSafe (execFreeRecordProbe s) ∧
      s.RingSafe (execSettleRequest s) ∧ s.RingSafe (execPolicyLookup s) := by
  refine ⟨?take, ?sample, ?probe, ?settle, ?policy⟩
  case take =>
    unfold execTransactionTake
    split
    · split
      · exact .moved (State.classify_phase _ _)
      · exact .same rfl
    · exact .same rfl
  case sample =>
    unfold execSampleIntake
    split
    · split
      · exact .moved nofun
      · exact .same rfl
    · exact .same rfl
  case probe =>
    unfold execFreeRecordProbe
    split
    · split
      · split
        · split
          · exact .moved (s.decisionReading_phase _ _)
          · exact .moved nofun
        · exact .same rfl
      · exact .same rfl
    · exact .same rfl
  case settle =>
    unfold execSettleRequest
    split
    · split
      · simp only []
        split
        · exact .moved (State.afterSettle_phase _ _ _)
        · exact .moved (by rw [State.answerQuery_phase]; decide)
      · exact .same rfl
    · exact .same rfl
  case policy =>
    unfold execPolicyLookup
    split
    · split
      · split
        · exact .moved nofun
        · exact .same rfl
      · exact .same rfl
    · exact .same rfl

/-- A ring search ends it. -/
theorem execRingSearch_ringSafe : s.RingSafe (execRingSearch s) := by
  unfold execRingSearch
  split
  · split
    · split
      · exact .moved (by simp)
      · exact .moved nofun
    · exact .same rfl
  · exact .same rfl

/-- The commands of a commit and of the placing behind it. -/
theorem committing_ringSafe :
    s.RingSafe (execCommit s) ∧ s.RingSafe (execCommitRelist s) ∧ s.RingSafe (execCreate s) ∧ s.RingSafe (execDelete s) ∧
      s.RingSafe (execUnlink s) ∧ s.RingSafe (execBatchJoin s) ∧ s.RingSafe (execBatchLeave s) ∧
      s.RingSafe (execOutputPlace s) := by
  refine ⟨?commit, ?relist, ?create, ?delete, ?unlink, ?join, ?leave, ?place⟩
  case commit =>
    unfold execCommit
    split
    · split
      · exact .next (s.openCommit_ringShut _)
      · exact .same rfl
    · split
      · exact .next (s.closeCommit_ringShut _)
      · exact .same rfl
    · exact .same rfl
  case relist =>
    unfold execCommitRelist
    split
    · split
      · exact .moved (State.commitRelistStep_phase _ _)
      · exact .same rfl
    · exact .same rfl
  case create =>
    unfold execCreate
    split
    · split
      · exact .moved (s.createOpen_phase _)
      · exact .same rfl
    · exact .same rfl
  case delete =>
    unfold execDelete
    split
    · split
      · split <;> exact .moved nofun
      · exact .same rfl
    · exact .same rfl
  case unlink =>
    unfold execUnlink
    split
    · split
      · split <;> exact .moved nofun
      · exact .same rfl
    · exact .same rfl
  case join =>
    unfold execBatchJoin
    split
    · split
      · split <;> exact .moved nofun
      · exact .same rfl
    · exact .same rfl
  case leave =>
    unfold execBatchLeave
    split
    · split
      · split <;> exact .moved nofun
      · exact .same rfl
    · exact .same rfl
  case place =>
    unfold execOutputPlace
    split
    · split
      · split
        · split
          · exact .moved nofun
          · split
            · exact .moved nofun
            · exact .same rfl
        · exact .moved nofun
      · exact .same rfl
    · exact .same rfl

/-- The commands of the timers. -/
theorem timers_ringSafe (n : Nat) :
    s.RingSafe (execAdvanceTimerExpiry n s) ∧ s.RingSafe (execTimerRequest n s) ∧ s.RingSafe (execStaleTimerExpiry n s) ∧
      s.RingSafe (execBakeStale n s) := by
  refine ⟨?_, ?_, ?_, ?_⟩
  · unfold execAdvanceTimerExpiry
    split
    · split <;> exact .same rfl
    · exact .fault s _
  · unfold execTimerRequest
    split
    · split
      · exact .next ((State.advance_ringShut s.takeZoneRequest _).after rfl)
      · exact .same rfl
    · exact .fault s _
  · unfold execStaleTimerExpiry
    split
    · split
      · exact .next (.of_engine (s.staleExpiry_engine _))
      · exact .same rfl
    · exact .fault s _
  · unfold execBakeStale
    split
    · split
      · simp only []
        split
        · exact .next ((State.RingShut.of_plant (State.post_frame { s with batchWait := _, batches := _ } _)).after rfl)
        · exact .same rfl
      · exact .same rfl
    · exact .fault s _

/-- The requests the agent answers without the other blocks. -/
theorem reads_ringSafe :
    s.RingSafe (execUnknownOp s) ∧ s.RingSafe (execReadStatus s) ∧ s.RingSafe (execSetTime s) ∧
      s.RingSafe (execClearStartCause s) ∧ s.RingSafe (execReadRow s) ∧ s.RingSafe (execReadRecord s) ∧
      s.RingSafe (execReadBatch s) ∧ s.RingSafe (execClearRuleCounters s) ∧ s.RingSafe (execClearFaultCounters s) := by
  refine ⟨?_, ?_, ?_, ?_, ?_, ?_, ?_, ?_, ?_⟩
  · unfold execUnknownOp
    split
    · split <;> exact .same rfl
    · exact .same rfl
  · unfold execReadStatus; split <;> exact .same rfl
  · unfold execSetTime; split <;> exact .same rfl
  · unfold execClearStartCause; split <;> exact .same rfl
  · unfold execReadRow; split <;> exact .same rfl
  · unfold execReadRecord
    split
    · split <;> exact .same rfl
    · exact .same rfl
  · unfold execReadBatch; split <;> exact .same rfl
  · unfold execClearRuleCounters; split <;> exact .same rfl
  · unfold execClearFaultCounters; split <;> exact .same rfl

theorem execSetMode_ringSafe : s.RingSafe (execSetMode s) := by
  unfold execSetMode
  split
  · refine .next (s.serve_ringShut _ _ ?_)
    unfold State.changeMode
    split <;> exact .of_phase rfl
  · exact .same rfl

/-- WRITE-ROW, of each table. -/
theorem rowWrites_ringSafe :
    s.RingSafe (execStationWrite s) ∧ s.RingSafe (execPartConfigurationWrite s) ∧
      s.RingSafe (execZoneConfigurationWrite s) ∧ s.RingSafe (execGridWrite s) ∧ s.RingSafe (execClassWrite s) ∧
      s.RingSafe (execPolicyTableWrite s) := by
  refine ⟨?station, ?part, ?zone, ?grid, ?cls, ?policy⟩
  case station =>
    unfold execStationWrite
    split
    · exact .next (s.serve_ringShut _ _ (.of_phase rfl))
    · exact .same rfl
  case part =>
    unfold execPartConfigurationWrite
    split
    · exact .next (s.serve_ringShut _ _ (.of_phase rfl))
    · exact .same rfl
  case zone =>
    unfold execZoneConfigurationWrite
    split
    · refine .next (s.serve_ringShut _ _ (s.asZoneRequest_ringShut fun a => ?_))
      unfold State.zoneWriteRequest
      split
      · exact .of_phase rfl
      · exact (a.zoneWrite_ringShut ..).silent rfl
    · exact .same rfl
  case grid =>
    unfold execGridWrite
    split
    · split
      · exact .next (s.serve_ringShut _ _ (s.asZoneRequest_ringShut fun a => (a.gridChange_ringShut _).silent rfl))
      · exact .same rfl
    · exact .same rfl
  case cls =>
    unfold execClassWrite
    split
    · split
      · exact .next (s.rekeyRequest_ringShut ..)
      · exact .same rfl
    · split
      · exact .next (s.serve_ringShut _ _ (s.classWrite_ringShut ..))
      · exact .same rfl
  case policy =>
    unfold execPolicyTableWrite
    split
    · split
      · exact .next (s.serve_ringShut _ _ (.of_phase rfl))
      · exact .same rfl
    · exact .same rfl

/-- WRITE-RECORD, by whichever field its command stands for, and DELETE-RECORD. -/
theorem records_ringSafe :
    s.RingSafe (execWriteRecordClass s) ∧ s.RingSafe (execWriteRecordConsumed s) ∧
      s.RingSafe (execWriteRecordBakeCount s) ∧ s.RingSafe (execWriteRecordRetire s) ∧
      s.RingSafe (execDeleteRecord s) := by
  have written : ∀ (b : Bool) (t : Telegram) (id : CarrierId) (w : RecordWrite),
      s.RingShut (if b then s.writeRecordRequest t id w else s) := by
    intro b t id w
    cases b
    · exact .refl s
    · exact s.writeRecordRequest_ringShut t id w
  refine ⟨?_, ?_, ?_, ?_, ?_⟩
  · unfold execWriteRecordClass
    split
    · exact .next (written ..)
    · exact .same rfl
  · unfold execWriteRecordConsumed
    split
    · exact .next (written ..)
    · exact .same rfl
  · unfold execWriteRecordBakeCount
    split
    · exact .next (written ..)
    · exact .same rfl
  · unfold execWriteRecordRetire
    split
    · exact .next (written ..)
    · exact .same rfl
  · unfold execDeleteRecord
    split
    · exact .next (s.asRecordRequest_ringShut _ fun a => a.deleteRecordNow_ringShut ..)
    · exact .same rfl

theorem zoneReads_ringSafe : s.RingSafe (execReadZone s) ∧ s.RingSafe (execListZone s) := by
  refine ⟨?_, ?_⟩
  · unfold execReadZone
    split
    · exact .next (s.asZoneRequest_ringShut fun a => (a.advance_ringShut _).silent rfl)
    · exact .same rfl
  · unfold execListZone
    split
    · exact .next (s.asZoneRequest_ringShut fun a => (a.advance_ringShut _).silent rfl)
    · exact .same rfl

theorem State.startRun_ringShut (im : Option StoredImage) (run : ImageRun) : s.RingShut (s.startRun im run) :=
  .of_engine (State.agentNext_engine { s with store := { s.store with image := im, run := some run } })

theorem State.complete_engine (a b c : Byte) (st : MgmtStatus) : (s.complete a b c st).engine = s.engine := by
  unfold State.complete
  simp only []
  split <;> rfl

/-- The commands of the Image Store. -/
theorem images_ringSafe :
    s.RingSafe (execSaveImage s) ∧ s.RingSafe (execSaveImageComplete s) ∧ s.RingSafe (execLoadImage s) ∧
      s.RingSafe (execLoadImageReplace s) ∧ s.RingSafe (execCompareImage s) ∧ s.RingSafe (execCompareImageComplete s) := by
  refine ⟨?save, ?saved, ?load, ?replace, ?compare, ?compared⟩
  case save =>
    unfold execSaveImage
    split
    · exact .next (s.serve_ringShut _ _ (s.startRun_ringShut ..))
    · exact .same rfl
  case saved =>
    unfold execSaveImageComplete
    split
    · split
      · exact .next (.of_engine (State.complete_engine { s with store := _ } ..))
      · exact .same rfl
    · exact .same rfl
  case load =>
    unfold execLoadImage
    split
    · split
      · exact .same rfl
      · refine .next ?_
        unfold State.beginLoad
        split <;> exact .of_phase rfl
    · exact .same rfl
  case replace =>
    unfold execLoadImageReplace
    split
    · split
      · exact .next (s.asZoneRequest_ringShut fun a => a.loadRequest_ringShut _)
      · exact .same rfl
    · exact .same rfl
  case compare =>
    have begun : ∀ (u : State) t, u.RingShut (u.beginCompare t) := by
      intro u t
      unfold State.beginCompare
      split
      · exact .refl u
      · exact u.startRun_ringShut ..
    unfold execCompareImage
    split
    · simp only []
      split
      · exact .next (s.serve_ringShut _ _ (begun ..))
      · exact .next ((State.serve_ringShut { s with store := { s.store with compared := false } } _ _ (begun ..)).after rfl)
    · exact .same rfl
  case compared =>
    unfold execCompareImageComplete
    split
    · split
      · exact .next (.of_engine (State.complete_engine { s with store := _ } ..))
      · exact .same rfl
    · exact .same rfl

/-- RESET-PART and the placing of replies. -/
theorem replies_ringSafe : s.RingSafe (execResetPart s) ∧ s.RingSafe (execReplyPlace s) := by
  refine ⟨?_, ?_⟩
  · unfold execResetPart
    split
    · refine .next (s.serve_ringShut _ _ ?_)
      unfold State.resetRequest
      simp only []
      split
      · exact s.placeReset_ringShut _
      · exact .of_phase rfl
    · exact .same rfl
  · unfold execReplyPlace
    split
    · split
      · split
        · split
          · exact .next (s.placeReset_ringShut _)
          · exact .next ((State.RingShut.of_plant (s.pushReply_frame _)).trans (.of_engine (State.agentNext_engine _)))
        · split
          · exact .next (.of_engine s.agentNext_engine)
          · exact .same rfl
      · exact .same rfl
    · exact .same rfl

/-- The supply monitor and the counter. -/
theorem monitor_ringSafe :
    s.RingSafe (execSupplyFail s) ∧ s.RingSafe (execSupplyRecover s) ∧ s.RingSafe (execSupplyReturn s) ∧
      s.RingSafe (execSupplyDrop s) ∧ s.RingSafe (execPowerApplied s) ∧ s.RingSafe (execBackupLoss s) ∧
      s.RingSafe (execMonotonicTick s) := by
  unfold execSupplyFail execSupplyRecover execSupplyReturn execSupplyDrop execPowerApplied execBackupLoss
    execMonotonicTick
  refine ⟨?_, ?_, ?_, ?_, ?_, ?_, ?_⟩ <;> split <;> exact .same rfl

/-- Freezes, quiesces and starts. -/
theorem stops_ringSafe :
    s.RingSafe (execLineBreak s) ∧ s.RingSafe (execFreeze s) ∧ s.RingSafe (execFreezeStop s) ∧
      s.RingSafe (execQuiesceStop s) ∧ s.RingSafe (execMainSupplyLoss s) ∧ s.RingSafe (execStartSequence s) := by
  refine ⟨?lineBreak, ?freeze, ?freezeStop, ?quiesceStop, ?supplyLoss, ?start⟩
  case lineBreak =>
    unfold execLineBreak
    split
    · exact .next (s.beginStop_ringShut _)
    · exact .same rfl
  case freeze =>
    unfold execFreeze
    split
    · exact .next (s.beginStop_ringShut _)
    · exact .same rfl
  case freezeStop =>
    unfold execFreezeStop
    split <;> exact .same rfl
  case quiesceStop =>
    unfold execQuiesceStop
    split
    · next q _ =>
      split
      · refine .next (.of_engine ?_)
        have timed : (if q.timed then s else s.recordFreezeTime).engine = s.engine := by split <;> rfl
        unfold State.quiesceEnds
        simp only []
        split <;> exact timed
      · exact .same rfl
    · exact .same rfl
  case supplyLoss =>
    unfold execMainSupplyLoss
    split <;> exact .same rfl
  case start =>
    unfold execStartSequence
    split
    · exact .next (s.start_ringShut _)
    · exact .same rfl

end

/-- No command but CARRIER_LOOKUP leads to the ring search (R52). -/
theorem exec_ringSafe {c : Instr} (hc : c ≠ .carrierLookup) (s : State) : s.RingSafe (exec c s) := by
  obtain ⟨transactionTake, sampleIntake, probe, settleRequest, policyLookup⟩ := checking_ringSafe s
  obtain ⟨commit, commitRelist, create, delete, unlink, join, leave, outputPlace⟩ := committing_ringSafe s
  obtain ⟨unknownOp, readStatus, setTime, clearStartCause, readRow, readRecord, readBatch, clearRules, clearFaults⟩ :=
    reads_ringSafe s
  obtain ⟨stationWrite, partWrite, zoneWrite, gridWrite, classWrite, policyWrite⟩ := rowWrites_ringSafe s
  obtain ⟨writeClass, writeConsumed, writeBakeCount, writeRetire, deleteRecord⟩ := records_ringSafe s
  obtain ⟨save, saved, load, replace, compare, compared⟩ := images_ringSafe s
  obtain ⟨supplyFail, supplyRecover, supplyReturn, supplyDrop, powerApplied, backupLoss, tick⟩ := monitor_ringSafe s
  obtain ⟨lineBreak, freeze, freezeStop, quiesceStop, supplyLoss, start⟩ := stops_ringSafe s
  have receivers := receivers_ringSafe s
  have timers := timers_ringSafe s
  cases c with
  | characterReceived port line => exact (receivers port).1 line
  | breakDetected port => exact (receivers port).2.1
  | breakEnd port => exact (receivers port).2.2.1
  | lineBreak => exact lineBreak
  | interCharacterTimeout port => exact (receivers port).2.2.2.2
  | telegramSent port => exact execTelegramSent_ringSafe s port
  | startingEnd port => exact execStartingEnd_ringSafe s port
  | plantRoutingTake => exact execPlantRoutingTake_ringSafe s
  | transactionTake => exact transactionTake
  | sampleIntake => exact sampleIntake
  | carrierLookup => exact absurd rfl hc
  | ringSearch => exact execRingSearch_ringSafe s
  | freeRecordProbe => exact probe
  | settleRequest => exact settleRequest
  | policyLookup => exact policyLookup
  | commit => exact commit
  | commitRelist => exact commitRelist
  | create => exact create
  | delete => exact delete
  | unlink => exact unlink
  | batchJoin => exact join
  | batchLeave => exact leave
  | outputPlace => exact outputPlace
  | advanceTimerExpiry zone => exact (timers zone).1
  | timerRequest zone => exact (timers zone).2.1
  | staleTimerExpiry batch => exact (timers batch).2.2.1
  | bakeStale batch => exact (timers batch).2.2.2
  | unknownOp => exact unknownOp
  | readStatus => exact readStatus
  | setMode => exact execSetMode_ringSafe s
  | setTime => exact setTime
  | readRow => exact readRow
  | stationWrite => exact stationWrite
  | partConfigurationWrite => exact partWrite
  | zoneConfigurationWrite => exact zoneWrite
  | gridWrite => exact gridWrite
  | classWrite => exact classWrite
  | policyTableWrite => exact policyWrite
  | readRecord => exact readRecord
  | writeRecordClass => exact writeClass
  | writeRecordConsumed => exact writeConsumed
  | writeRecordBakeCount => exact writeBakeCount
  | writeRecordRetire => exact writeRetire
  | deleteRecord => exact deleteRecord
  | readZone => exact (zoneReads_ringSafe s).1
  | listZone => exact (zoneReads_ringSafe s).2
  | readBatch => exact readBatch
  | clearRuleCounters => exact clearRules
  | clearFaultCounters => exact clearFaults
  | saveImage => exact save
  | saveImageComplete => exact saved
  | loadImage => exact load
  | loadImageReplace => exact replace
  | compareImage => exact compare
  | compareImageComplete => exact compared
  | clearStartCause => exact clearStartCause
  | resetPart => exact (replies_ringSafe s).1
  | replyPlace => exact (replies_ringSafe s).2
  | supplyFail => exact supplyFail
  | supplyRecover => exact supplyRecover
  | freeze => exact freeze
  | freezeStop => exact freezeStop
  | quiesceStop => exact quiesceStop
  | supplyReturn => exact supplyReturn
  | supplyDrop => exact supplyDrop
  | powerApplied => exact powerApplied
  | backupLoss => exact backupLoss
  | startSequence => exact start
  | monotonicTick => exact tick
  | zeroCharacterLineHigh port => exact (receivers port).2.2.2.1
  | mainSupplyLoss => exact supplyLoss

/-- CARRIER_LOOKUP leads to the ring search for a CLOSE whose carrier is absent, and for nothing else (R52). -/
theorem execCarrierLookup_ring {s t : State} (h : execCarrierLookup s = .next t) (out : s.engine.phase ≠ .ring)
    (ring : t.engine.phase = .ring) :
    s.engine.phase = .lookup ∧ ∃ w, s.engine.work = some w ∧ TxKind.ofByte? w.tel.kind = some .close ∧
      s.table.find? (carrierIdOf w.tel) = none := by
  unfold execCarrierLookup at h
  split at h
  · next w hp hw =>
    split at h
    · split at h
      · next k hk =>
        cases h
        obtain ⟨rfl, absent⟩ := s.lookupCarrier_ring w ring
        exact ⟨hp, w, hw, hk, absent⟩
      · cases h
        exact absurd ring (s.lookupQuery_phase w)
    · cases h
      exact absurd ring out
  · cases h
    exact absurd ring out

/-! #### The search -/

/-- The first entry that a search from the newest finds stands behind no other that matches (R52). -/
theorem CarrierTable.ringFind?_newest {t : CarrierTable} {older newer : List RingEntry} {e : RingEntry} {id : CarrierId}
    {source seq : Byte} (h : t.ring = older ++ e :: newer) (hid : e.id = id) (hsource : e.source = source) (hseq : e.seq = seq)
    (first : ∀ x ∈ newer, ¬(x.id = id ∧ x.source = source ∧ x.seq = seq)) : t.ringFind? id source seq = some e := by
  have passed : newer.reverse.find? (fun x => x.id == id && x.source == source && x.seq == seq) = none := by
    simpa [List.find?_eq_none, and_assoc] using first
  simp [CarrierTable.ringFind?, h, List.find?_append, passed, hid, hsource, hseq]

theorem CarrierTable.ringFind?_none {t : CarrierTable} {id : CarrierId} {source seq : Byte}
    (h : ∀ x ∈ t.ring, ¬(x.id = id ∧ x.source = source ∧ x.seq = seq)) : t.ringFind? id source seq = none := by
  simpa [CarrierTable.ringFind?, List.find?_eq_none, and_assoc] using h

/-- The output of an outcome with its reason and percent (R142, R150). -/
def State.outputOf (s : State) (t : Telegram) (o : RepeatOutcome) (reason : Option Byte) (band : Option Nat) : Output :=
  if o = .relayed then { queue := .upRelay, tel := t }
  else if o = .refused then { queue := .answer, tel := s.refusalBytes t (reason.getD 0xFF) }
  else { queue := .upRelay, tel := t.marked (reason.getD 0xFF) band }

theorem State.compose_eq (s : State) (w : Work) (o : RepeatOutcome) (reason : Option Byte) (band : Option Nat) :
    s.compose w o reason band =
      s.engineTo .placing { w with output := some (s.outputOf w.tel o reason band) } := by
  cases o
  · rfl
  · simp only [State.compose, Telegram.annotated_eq]; rfl
  · simp only [State.compose, State.refusal_eq]; rfl

/-- What is re-issued of a repeat, by the table of R135. -/
theorem State.reissue_eq (s : State) (w : Work) (o : RepeatOutcome) (reason : Option Byte) (band : Option Nat) :
    s.reissue w o reason band =
      s.engineTo .placing
        { w with
          commitMode := some s.mode, outcome := some { outcome := o, reason := reason, transition := false }
          output := some (
            if o = .relayed then { queue := .upRelay, tel := w.tel }
            else if o = .refused ∧ s.mode = .enforce then
              { queue := .answer, tel := s.refusalBytes w.tel (reason.getD 0xFF) }
            else { queue := .upRelay, tel := w.tel.marked (reason.getD 0xFF) band }) } := by
  rw [State.reissue, State.compose_eq]
  cases o <;> cases s.mode <;> rfl

/-- Settles O14: `exec_ringSafe` and `execCarrierLookup_ring` say that nothing else leads to the search. -/
theorem ringSearchNewestFirst : Obligations.RingSearchNewestFirst := by
  refine ⟨fun s w hp hw hr hk absent => ?_, fun s w hp hw hr => ⟨fun older e newer hring hid hsource hseq first => ?_,
    fun none => ?_⟩, fun c s t h out ring => ?_⟩
  · simp only [exec, execCarrierLookup, hp, hw, hr, if_true, hk, State.lookupCarrier, absent]
    rfl
  · simp only [exec, execRingSearch, hp, hw, hr, if_true, CarrierTable.ringFind?_newest hring hid hsource hseq first,
      State.reissue_eq]
    rfl
  · simp only [exec, execRingSearch, hp, hw, hr, if_true, CarrierTable.ringFind?_none none]
    rfl
  · by_cases hc : c = .carrierLookup
    · subst hc
      exact ⟨rfl, execCarrierLookup_ring h out ring⟩
    · exact absurd ((exec_ringSafe hc s t h).shut ring) out

end Sys2Proof.Machine
end

section
namespace Sys2Proof.Machine

/-! ### The settle request of a carrier that is held -/

/-- Advances pass over a held record (R100). -/
theorem State.advanceAll_held {s : State} {i : Nat} {r : Record} (h : s.record? i = some r) (hh : r.held = true)
    (zs : List (Fin 32)) : (s.advanceAll zs).record? i = some r := by
  induction zs generalizing s with
  | nil => exact h
  | cons z zs ih => exact ih (s.advance_held h hh)

theorem State.setHold_eq {s : State} {i : Nat} {r : Record} (h : s.record? i = some r) (b : Bool) :
    s.setHold i b = s.setRecord i { r with held := b } := by
  simp only [State.setHold, State.modRecord, h]

/-- The zone of a record in use. -/
theorem State.zoneOf?_eq {s : State} {i : Nat} {r : Record} (h : s.record? i = some r) :
    s.zoneOf? i = r.zonePart.map ZonePart.zone := by
  simp only [State.zoneOf?, h]

/-- What the settlement of a held carrier depends on besides its wear clock does not change along a settle request. -/
theorem State.ZoneFrame.settleNotices {s t u : State} {r : Record} (h : s.ZoneFrame t) (k : t.SameAir u) (st : Option Byte) :
    t.settleNotices t r st = s.settleNotices u r st := by
  unfold State.settleNotices
  split
  · rw [← k.settledConsumed]
    simp only [State.crossingNotices, h.tables]
    rw [h.1]
    rfl
  · rfl

/-- The settle request of a held carrier that names no zone of its own (R70): `u` is the part it leaves, and `r` the settled
record. -/
theorem State.settleEngine_held {s u : State} {w : Work} {i : Nat} {r0 : Record} (hi : w.held = some i)
    (hr : s.record? i = some r0) (hh : r0.held = true) (hu : u = (s.settleEngine w).1) :
    s.ZoneFrame u ∧ (∀ q ∈ u.zoneWait, q ∈ s.zoneWait) ∧
      (∃ r, u.record? i = some r ∧ r.held = true ∧ u.Settles r0 r ∧ (s.settleEngine w).2.settled = some r ∧
        (s.settleEngine w).2.figures = u.figuresOf { w with settled := some r }) ∧
      (∀ z, r0.zonePart.map ZonePart.zone = some z → (s.tables.zone z).kind ≠ .unset → s.Charged u z) ∧
      ∃ l, (∀ n ∈ l, n.OfAdvance) ∧ s.Posts u (l ++ s.settleNotices u r0 (some w.tel.source)) := by
  obtain ⟨zs, hzs⟩ : ∃ zs, zs = zonesNamed (s.zoneOf? i) w.bodyZone? := ⟨_, rfl⟩
  have hu' : u = (s.advanceAll zs).settleCross i (some w.tel.source) false := by
    rw [hu, hzs]; simp only [State.settleEngine, hi, Option.bind_some]
  have advanced := s.advanceAll_frame zs
  have air := (s.advanceAll zs).settleCross_sameAir i (some w.tel.source) false
  have record := State.advanceAll_held hr hh zs
  obtain ⟨r, hrec, hheld, hsettles⟩ := State.settleCross_settles record (some w.tel.source)
  rw [← hu'] at air hrec hsettles
  refine ⟨?frame, ?wait, ⟨r, hrec, hheld.trans hh, hsettles, ?settled, ?figures⟩, ?charged, ?posts⟩
  case frame => rw [hu']; exact advanced.trans (State.settleCross_frame ..)
  case wait =>
    intro q hq
    rw [hu', State.settleCross_zoneWait] at hq
    exact s.advanceAll_zoneWait zs hq
  case settled =>
    rw [hu, State.settleEngine, hi] at hrec
    simp only [State.settleEngine, hi, Option.bind_some]
    exact hrec
  case figures =>
    have settled : (w.held.bind u.record?) = some r := by rw [hi]; exact hrec
    have second : (s.settleEngine w).2.figures = u.figuresOf { w with settled := w.held.bind u.record? } := by
      rw [hu]; rfl
    rw [second, settled]
  case charged =>
    intro z hz hk
    have named : z ∈ zs := by rw [hzs, mem_zonesNamed, State.zoneOf?_eq hr]; exact .inl hz
    have charged := s.advanceAll_air zs (by rw [hzs]; exact zonesNamed_nodup ..) z
    rw [if_pos ⟨named, hk⟩] at charged
    exact charged.sameAir air (by rw [hu', State.settleCross_zoneWait])
  case posts =>
    obtain ⟨l, hl, posted⟩ := State.advanceAll_posts zs s
    refine ⟨l, hl, posted.trans ?_⟩
    have crossed := State.settleCross_posts record (some w.tel.source) false
    rw [advanced.settleNotices air, ← hu'] at crossed
    exact crossed

/-- The figures of a settled record are those of R90 and R91, written out. -/
theorem ClassRow.figures_eq (c : ClassRow) (st : CarrierState) (consumed rate : Nat) :
    c.figures st consumed rate =
      { pct := min 255 (consumed * 100 / (c.floorLife * 3840))
        remaining := if st = .expired ∨ st = .retired then 0 else min 65535 ((c.floorLife * 3840 - consumed) / 3840)
        remainingAtRate :=
          if st = .expired ∨ st = .retired then 0
          else if st = .baking ∨ rate = 0 then 65535
          else min 65535 ((c.floorLife * 3840 - consumed) / (rate * 60)) } := by
  cases st <;> simp [ClassRow.figures, ClassRow.pct, ClassRow.remainingNominal, ClassRow.remainingAtRate, ClassRow.budget,
    Config.unitsPerMinute, Config.max16]

/-- Settles O19. -/
theorem queryAnswered : Obligations.QueryAnswered := by
  intro s w i r0 hp hw hr hz hk hi hrec hh
  obtain ⟨u, hu⟩ : ∃ u, u = (s.takeZoneRequest.settleEngine w).1 := ⟨_, rfl⟩
  obtain ⟨w2, hw2⟩ : ∃ w2, w2 = (s.takeZoneRequest.settleEngine w).2 := ⟨_, rfl⟩
  obtain ⟨frame, -, ⟨r, urec, uheld, settles, settled, figures⟩, charged, l, hl, posts⟩ :=
    State.settleEngine_held (s := s.takeZoneRequest) hi hrec hh hu
  have turn : s.engineTurn = true := by simp [State.engineTurn, hr, hz]
  obtain ⟨rate, hrate⟩ : ∃ rate, rate = (r.zonePart.map fun zp => (u.zone zp.zone).rate).getD 0 := ⟨_, rfl⟩
  have runs : exec .settleRequest s = .next ((u.setRecord i { r with held := false }).placeOutput { w2 with held := none }
      .answer (u.recordAnswer w.tel r ((s.tables.cls r.cls).figures r.state r.consumed rate))) := by
    have fig : w2.figures = some ((s.tables.cls r.cls).figures r.state r.consumed rate) := by
      rw [hw2, figures, hrate]
      simp only [State.figuresOf, State.classOf, frame.tables]
      rfl
    have held2 : w2.held = some i := by rw [hw2]; exact hi
    have tel2 : w2.tel = w.tel := by rw [hw2]; rfl
    have step : exec .settleRequest s = .next (u.answerQuery w2) := by
      simp only [exec, execSettleRequest, hp, hw, turn, if_true, hk, hu, hw2]
    rw [step]
    simp only [State.answerQuery, held2, hw2 ▸ settled, fig, State.setHold_eq urec, tel2]
  have engine : u.engine = s.engine := by rw [frame.1]; rfl
  refine ⟨_, { r with held := false },
    { w2 with
      held := none
      output := some { queue := .answer, tel := u.recordAnswer w.tel r ((s.tables.cls r.cls).figures r.state r.consumed rate) } },
    _, rate, runs, State.setRecord_record?_self .., rfl, ?settles, charged, ⟨l, hl, ?posts⟩, ?engine, ?tel, rfl, rfl, ?rate,
    ?none, ?answer⟩
  case settles =>
    unfold State.Settles at settles ⊢
    split at settles
    · rw [settles]
    · obtain ⟨c, x, hc, hx, hr'⟩ := settles
      refine ⟨c, x, hc, hx, ?_⟩
      rw [hr']
      split <;> rfl
  case posts => exact posts.posted
  case engine => simp only [State.placeOutput_engine, State.setRecord_engine, engine]
  case tel => rw [hw2]; rfl
  case rate =>
    intro zp hzp
    have hzp : r.zonePart = some zp := hzp
    rw [hrate, hzp]
    rfl
  case none =>
    intro hn
    have hn : r.zonePart = none := hn
    rw [hrate, hn]
    rfl
  case answer =>
    simp only [State.recordAnswer, ClassRow.figures_eq, frame.tables]
    cases r.zonePart <;> simp [beBytes, optBytes, absentBytes, AnswerStatus.code] <;> rfl

end Sys2Proof.Machine
end

section
namespace Sys2Proof.Machine

/-! ### The carrier lookup -/

section
variable {s : State} {w : Work}

/-- CARRIER_LOOKUP of a transaction (R42, R133). -/
theorem exec_carrierLookup (hp : s.engine.phase = .lookup) (hw : s.engine.work = some w) (hr : s.running = true) {k : TxKind}
    (hk : TxKind.ofByte? w.tel.kind = some k) : exec .carrierLookup s = .next (s.lookupCarrier w k) := by
  simp only [exec, execCarrierLookup, hp, hw, hr, if_true, hk]

/-- CARRIER_LOOKUP of a QUERY (R130). -/
theorem exec_carrierLookup_query (hp : s.engine.phase = .lookup) (hw : s.engine.work = some w) (hr : s.running = true)
    (hk : TxKind.ofByte? w.tel.kind = none) : exec .carrierLookup s = .next (s.lookupQuery w) := by
  simp only [exec, execCarrierLookup, hp, hw, hr, if_true, hk]

end

/-- A hold mark is in the table, and nothing else changes with it (R47). -/
theorem State.setHold_table (s : State) (i : Nat) (b : Bool) : s.setHold i b = { s with table := (s.setHold i b).table } := by
  unfold State.setHold State.modRecord
  split <;> rfl

/-- A request of the engine once it has set a hold mark. -/
theorem State.setHold_engineAsks (s : State) (i : Nat) (b : Bool) (p : EnginePhase) (w : Work) :
    (s.setHold i b).engineAsks p w =
      { s with
        table := (s.setHold i b).table, zoneWait := s.zoneWait ++ [.engine]
        engine := { s.engine with phase := p, work := some w } } := by
  rw [s.setHold_table i b]
  rfl

/-- The telegram repeats nothing in the memory (R50). -/
theorem repeatOf?_none {t : Telegram} {o : Option RepeatMemory} (h : ∀ m, o = some m → ¬t.Repeats m) : repeatOf? o t = none := by
  rw [Option.eq_none_iff_forall_ne_some]
  intro m hm
  obtain ⟨ho, hrep⟩ := (repeatOf?_some t o m).mp hm
  exact h m ho hrep

section
variable (s : State) (w : Work) {i : Nat} {r : Record}

theorem State.lookupOpen_absent (h : s.table.find? (carrierIdOf w.tel) = none) : s.lookupOpen w = s.engineAsks .settling w := by
  simp only [State.lookupOpen, h]

/-- A found OPEN that repeats nothing is a duplicate, with the copy of its lookup (R47, R133). -/
theorem State.lookupOpen_duplicate (h : s.table.find? (carrierIdOf w.tel) = some (i, r))
    (new : ∀ m, r.memory = some m → ¬w.tel.Repeats m) :
    s.lookupOpen w =
      s.faulted { w with copy := some { cls := r.cls, consumed := r.consumed, memory := r.memory } } .duplicateId := by
  simp only [State.lookupOpen, h, repeatOf?_none new]

/-- A repeated OPEN is re-issued from the copy of its lookup (R47, R135). -/
theorem State.lookupOpen_repeat (h : s.table.find? (carrierIdOf w.tel) = some (i, r)) {m : RepeatMemory}
    (hm : r.memory = some m) (old : w.tel.Repeats m) :
    s.lookupOpen w =
      s.reissue { w with copy := some { cls := r.cls, consumed := r.consumed, memory := r.memory } } m.outcome m.reason
        (some ((s.tables.cls r.cls).pct r.consumed)) := by
  simp only [State.lookupOpen, h, (repeatOf?_some w.tel r.memory m).mpr ⟨hm, old⟩]
  rfl

/-- A carrier found that repeats nothing is held and settled, or a SPLIT whose child exists is faulted (R47, R134). -/
theorem State.lookupFound_new (k : TxKind) (new : ∀ m, r.memory = some m → ¬w.tel.Repeats m) {child : Bool}
    (hc : child = (k == .split && (s.table.find? (childIdOf w.tel)).isSome)) :
    s.lookupFound w k i r =
      if child then (s.setHold i true).faulted { w with held := some i, childFound := child } .duplicateId
      else (s.setHold i true).engineAsks .settling { w with held := some i, childFound := child } := by
  simp only [State.lookupFound, repeatOf?_none new, hc]

/-- A repeat is re-issued from the memory of its record, which it does not hold (R135). -/
theorem State.lookupFound_repeat (k : TxKind) {m : RepeatMemory} (hm : r.memory = some m) (old : w.tel.Repeats m) :
    ∃ child, s.lookupFound w k i r =
      s.reissue { w with held := none, childFound := child } m.outcome m.reason
        (some ((s.tables.cls r.cls).pct r.consumed)) := by
  refine ⟨k == .split && (s.table.find? (childIdOf w.tel)).isSome, ?_⟩
  simp only [State.lookupFound, (repeatOf?_some w.tel r.memory m).mpr ⟨hm, old⟩]
  rfl

end

/-- Settles O13. -/
theorem carrierLookupDecides : Obligations.CarrierLookupDecides := by
  intro s w hp hw hr
  refine ⟨fun i r hk hf => ?queryFound, fun hk hf => ?queryAbsent, fun hk hf => ?openAbsent, fun i r hk hf new => ?openFound,
    fun i r m hk hf hm old => ?openRepeat, fun k hk hopen => ⟨fun hf => ?absent, fun i r hf =>
      ⟨fun new child => ?settled, fun new hsplit hchild => ?childExists, fun m hm old => ?repeated⟩⟩⟩
  case queryFound =>
    simp only [exec_carrierLookup_query hp hw hr hk, State.lookupQuery, hf, State.setHold_engineAsks]
  case queryAbsent =>
    simp only [exec_carrierLookup_query hp hw hr hk, State.lookupQuery, hf]
    rfl
  case openAbsent =>
    rw [exec_carrierLookup hp hw hr hk, State.lookupCarrier, if_pos rfl, s.lookupOpen_absent w hf]
    rfl
  case openFound =>
    rw [exec_carrierLookup hp hw hr hk, State.lookupCarrier, if_pos rfl, s.lookupOpen_duplicate w hf new]
    rfl
  case openRepeat =>
    rw [exec_carrierLookup hp hw hr hk, State.lookupCarrier, if_pos rfl, s.lookupOpen_repeat w hf hm old, State.reissue_eq]
    exact ⟨_, _, rfl, rfl, rfl, rfl, rfl, rfl, rfl⟩
  case absent =>
    rw [exec_carrierLookup hp hw hr hk, State.lookupCarrier, if_neg hopen]
    simp only [hf]
    split <;> rfl
  all_goals
    rw [exec_carrierLookup hp hw hr hk, State.lookupCarrier, if_neg hopen]
    simp only [hf]
  case settled =>
    have none : (k == .split && (s.table.find? (childIdOf w.tel)).isSome) = false := by
      rcases child with h | h <;> simp [h]
    rw [s.lookupFound_new w k new none.symm]
    simp only [Bool.false_eq_true, if_false, State.setHold_engineAsks]
  case childExists =>
    have found : (k == .split && (s.table.find? (childIdOf w.tel)).isSome) = true := by
      simp [hsplit, Option.isSome_iff_ne_none, hchild]
    rw [s.lookupFound_new w k new found.symm, if_pos rfl, s.setHold_table i true]
    rfl
  case repeated =>
    obtain ⟨child, found⟩ := s.lookupFound_repeat w (i := i) k hm old
    rw [found, State.reissue_eq]
    exact ⟨_, _, rfl, rfl, rfl, rfl, rfl, rfl⟩

end Sys2Proof.Machine
end

section
namespace Sys2Proof.Machine

/-! ### Placing and freeing a record -/

section
variable {tb tb' : CarrierTable} {r : Record} {i : Nat}

theorem CarrierTable.chainOf_setChain_self (tb : CarrierTable) (set : Nat) {l : List Nat} (h : l ≠ []) :
    (tb.setChain set l).chainOf set = l := by
  simp [CarrierTable.chainOf, CarrierTable.setChain, h]

theorem CarrierTable.chainOf_setChain_ne (tb : CarrierTable) {set other : Nat} (l : List Nat) (h : other ≠ set) :
    (tb.setChain set l).chainOf other = tb.chainOf other := by
  unfold CarrierTable.chainOf CarrierTable.setChain
  split
  · rw [lookupKey_eraseKey_ne _ h]
  · rw [lookupKey_insertKey_ne _ _ h]

/-- A free way of a set is one of its ways, and holds no record (R41). -/
theorem CarrierTable.freeWay?_spec {set : Nat} (h : tb.freeWay? set = some i) : i ∈ waysOf set ∧ lookupKey tb.records i = none :=
  ⟨List.mem_of_find?_eq_some h, by simpa using List.find?_some h⟩

/-- What a create does (R44): the record stands at an index of its set, a free way, which leaves the chains and the pool as they
are, or the head of the pool, which goes behind the chain; it is counted into its class, and the ring stays. -/
structure CarrierTable.Created (tb tb' : CarrierTable) (r : Record) (i : Nat) : Prop where
  records : tb'.records = insertKey tb.records i r
  ring : tb'.ring = tb.ring
  counts : tb'.classCounts = tb.classCounts.set r.cls.val (tb.classCounts[r.cls.val] + 1)
  place : (i ∈ waysOf (setIndex r.id) ∧ lookupKey tb.records i = none ∧ tb'.chains = tb.chains) ∨
    (i ∈ tb.poolFree ∧ ∀ set, tb'.chainOf set = if set = setIndex r.id then tb.chainOf set ++ [i] else tb.chainOf set)

theorem CarrierTable.create?_created (h : tb.create? r = some (i, tb')) : tb.Created tb' r i := by
  unfold CarrierTable.create? at h
  simp only [] at h
  split at h
  · next way =>
    obtain ⟨hway, free⟩ := CarrierTable.freeWay?_spec way
    cases h
    exact ⟨rfl, rfl, rfl, .inl ⟨hway, free, rfl⟩⟩
  · split at h
    · next j rest pool =>
      cases h
      refine ⟨rfl, rfl, rfl, .inr ⟨by rw [pool]; exact List.mem_cons_self, fun set => ?_⟩⟩
      show (CarrierTable.setChain _ (setIndex r.id) _).chainOf set = _
      split
      · next same => rw [same, CarrierTable.chainOf_setChain_self _ _ (by simp)]
      · next other => exact CarrierTable.chainOf_setChain_ne _ _ other
    · cases h

/-- A create answers no place exactly when the probe finds no room (R43, R44). -/
theorem CarrierTable.create?_isSome (tb : CarrierTable) (r : Record) : (tb.create? r).isSome = tb.room r.id := by
  unfold CarrierTable.create? CarrierTable.room
  cases way : tb.freeWay? (setIndex r.id) with
  | some i => simp [way]
  | none => cases tb.poolFree <;> simp [way]

theorem CarrierTable.holds?_eq_some {id : CarrierId} {j k : Nat} {q : Record} :
    tb.holds? id j = some (k, q) ↔ lookupKey tb.records j = some q ∧ q.id = id ∧ k = j := by
  unfold CarrierTable.holds?
  cases lookupKey tb.records j with
  | none => simp
  | some p =>
    by_cases hid : p.id = id
    · simp only [if_pos hid, Option.some.injEq, Prod.mk.injEq]
      exact ⟨fun ⟨hj, hq⟩ => ⟨hq, hq ▸ hid, hj.symm⟩, fun ⟨hq, _, hk⟩ => ⟨hk.symm, hq⟩⟩
    · simp only [if_neg hid, Option.some.injEq]
      exact ⟨nofun, fun ⟨hq, hid', _⟩ => absurd (hq ▸ hid') hid⟩

variable (h : tb.Created tb' r i)
include h

theorem CarrierTable.Created.lookupKey_self : lookupKey tb'.records i = some r := by rw [h.records, lookupKey_insertKey_self]

theorem CarrierTable.Created.lookupKey_ne {j : Nat} (hj : j ≠ i) : lookupKey tb'.records j = lookupKey tb.records j := by
  rw [h.records, lookupKey_insertKey_ne _ _ hj]

theorem CarrierTable.Created.chainOf_other {set : Nat} (hset : set ≠ setIndex r.id) : tb'.chainOf set = tb.chainOf set := by
  rcases h.place with ⟨-, -, chains⟩ | ⟨-, chains⟩
  · simp only [CarrierTable.chainOf, chains]
  · rw [chains, if_neg hset]

/-- At the new place only the new record's ID is found, and everywhere else what was found before. -/
theorem CarrierTable.Created.holds?_ne {id : CarrierId} {j : Nat} (hj : j ≠ i) : tb'.holds? id j = tb.holds? id j := by
  simp only [CarrierTable.holds?, h.lookupKey_ne hj]

theorem CarrierTable.Created.holds?_self : tb'.holds? r.id i = some (i, r) :=
  CarrierTable.holds?_eq_some.mpr ⟨h.lookupKey_self, rfl, rfl⟩

theorem CarrierTable.Created.holds?_other {id : CarrierId} (hid : id ≠ r.id) (free : lookupKey tb.records i = none) (j : Nat) :
    tb'.holds? id j = tb.holds? id j := by
  by_cases hj : j = i
  · subst hj
    simp only [CarrierTable.holds?, h.lookupKey_self, free, if_neg hid.symm]
  · exact h.holds?_ne hj

/-- The new record is found by its ID, where no record held that ID (R42, R44). -/
theorem CarrierTable.Created.find?_self (absent : tb.find? r.id = none) : tb'.find? r.id = some (i, r) := by
  have among : i ∈ waysOf (setIndex r.id) ++ tb'.chainOf (setIndex r.id) := by
    rcases h.place with ⟨way, -, -⟩ | ⟨-, chains⟩
    · exact List.mem_append_left _ way
    · rw [chains, if_pos rfl]; simp
  have only : ∀ j ∈ waysOf (setIndex r.id) ++ tb'.chainOf (setIndex r.id), j ≠ i → tb'.holds? r.id j = none := by
    intro j hj hne
    rw [h.holds?_ne hne]
    refine List.findSome?_eq_none_iff.mp absent j ?_
    rcases h.place with ⟨-, -, chains⟩ | ⟨-, chains⟩
    · simpa only [CarrierTable.chainOf, chains] using hj
    · rw [chains, if_pos rfl, ← List.append_assoc, List.mem_append] at hj
      exact hj.resolve_right fun hj => hne (List.mem_singleton.mp hj)
  unfold CarrierTable.find?
  generalize waysOf (setIndex r.id) ++ tb'.chainOf (setIndex r.id) = l at among only
  induction l with
  | nil => cases among
  | cons j l ih =>
    by_cases hj : j = i
    · rw [hj, List.findSome?_cons, h.holds?_self]
    · rw [List.findSome?_cons, only j List.mem_cons_self hj]
      exact ih ((List.mem_cons.mp among).resolve_left (Ne.symm hj)) fun k hk => only k (List.mem_cons_of_mem _ hk)

/-- Every other ID is looked up as before (R42). -/
theorem CarrierTable.Created.find?_other (free : lookupKey tb.records i = none) {id : CarrierId} (hid : id ≠ r.id) :
    tb'.find? id = tb.find? id := by
  have same : tb'.holds? id = tb.holds? id := funext (h.holds?_other hid free)
  have new : tb.holds? id i = none := by simp only [CarrierTable.holds?, free]
  unfold CarrierTable.find?
  rw [same]
  by_cases hset : setIndex id = setIndex r.id
  · rcases h.place with ⟨-, -, chains⟩ | ⟨-, chains⟩
    · simp only [CarrierTable.chainOf, chains]
    · rw [chains, if_pos hset, ← List.append_assoc, List.findSome?_append, List.findSome?_singleton, new, Option.or_none]
  · rw [h.chainOf_other hset]

end

/-! #### CREATE -/

/-- The configured class a number names (R138). -/
theorem Tables.openClass?_some {t : Tables} {n : Nat} {c : Fin 16} (hn : n = c.val) (hc : (t.cls c).floorLife ≠ 0) :
    t.openClass? n = some c := by
  subst hn
  have configured : (t.cls c).configured = true := by simpa [ClassRow.configured] using hc
  simp [Tables.openClass?, configured]

theorem Tables.openClass?_none {t : Tables} {n : Nat} (h : ∀ c : Fin 16, n = c.val → (t.cls c).floorLife = 0) :
    t.openClass? n = none := by
  unfold Tables.openClass?
  split
  · next hn =>
    have unset := h ⟨n, hn⟩ rfl
    rw [if_neg (by simp [ClassRow.configured, unset])]
  · rfl

/-- CREATE, where no class write is past its count check (R178). -/
theorem exec_create {s : State} {w : Work} (hp : s.engine.phase = .commitCreate) (hw : s.engine.work = some w)
    (hr : s.running = true) (free : ∀ t k row, s.agent.phase ≠ .rekeying t k row) : exec .create s = .next (s.createOpen w) := by
  have notBegun : s.rekeyBegun = false := by
    rw [Bool.eq_false_iff, ne_eq, s.rekeyBegun_iff]
    rintro ⟨t, k, row, h⟩
    exact free t k row h
  simp only [exec, execCreate, hp, hw, hr, notBegun]
  rfl

/-- The record that an OPEN creates (R27, R89, R145; log entry 52). -/
theorem State.openRecord_eq (s : State) {w : Work} (hk : TxKind.ofByte? w.tel.kind = some .open_) (c : Fin 16) :
    s.openRecord w c =
      { id := carrierIdOf w.tel, cls := c
        state := (if (zone? w.zone).map (fun z => (s.tables.zone z).kind) = some .dry then .dry else .exposed)
        consumed := min (openMinutesOf w.tel) (s.tables.cls c).floorLife * 3840
        bakeCount := 0, warnIssued := false, eligible := false, lastBakeShort := false, memory := none
        zonePart := none, dryPart := none, bakePart := none, held := true } := by
  have zone : w.bodyZone? = zone? w.zone := by simp only [Work.bodyZone?, hk]; rfl
  unfold State.openRecord
  rw [zone]
  cases zone? w.zone <;> simp [stateInZone, ClassRow.initialConsumed, Config.unitsPerMinute]

/-! #### DELETE -/

/-- Freeing a record leaves every other (R45). -/
theorem CarrierTable.remove_records (tb : CarrierTable) (i : Nat) (r : Record) : (tb.remove i r).records = eraseKey tb.records i := by
  unfold CarrierTable.remove
  simp only []
  split <;> rfl

theorem CarrierTable.remove_classCounts (tb : CarrierTable) (i : Nat) (r : Record) :
    (tb.remove i r).classCounts = tb.classCounts.set r.cls.val (tb.classCounts[r.cls.val] - 1) := by
  unfold CarrierTable.remove
  simp only []
  split <;> rfl

theorem CarrierTable.remove_ring (tb : CarrierTable) (i : Nat) (r : Record) : (tb.remove i r).ring = tb.ring := by
  unfold CarrierTable.remove
  simp only []
  split <;> rfl

/-- A way is freed where it stands; a record of the pool returns to the head of the free list (R45). -/
theorem CarrierTable.remove_poolFree (tb : CarrierTable) (i : Nat) (r : Record) :
    (tb.remove i r).poolFree = if i < 3072 then tb.poolFree else i :: tb.poolFree := by
  by_cases way : i < 3072
  · simp only [CarrierTable.remove, Config.poolBase, way, if_true]
    rfl
  · simp only [CarrierTable.remove, Config.poolBase, way, if_false]

/-- Settles O16. -/
theorem createAndDelete : Obligations.CreateAndDelete := by
  refine ⟨fun tb tb' r i pool absent hc => ?found, fun s w hw hr => ⟨fun c r hp hcls hlife room hk free hrec => ?created,
    fun t k row hp begun => ?waits, fun hp free => ⟨fun unset => ?unset, fun c hcls hlife full => ?full⟩,
    fun i r hp hi hrec canonical => ?deleted⟩⟩
  case found =>
    have created := CarrierTable.create?_created hc
    have free : lookupKey tb.records i = none := by
      rcases created.place with ⟨-, free, -⟩ | ⟨inPool, -⟩
      · exact free
      · exact pool i inPool
    exact ⟨created.find?_self absent, fun id hid => created.find?_other free hid⟩
  case created =>
    have record : s.openRecord w c = r := by rw [s.openRecord_eq hk, hrec]
    have isRoom : (s.table.create? r).isSome = true := by
      rw [CarrierTable.create?_isSome, hrec]
      exact room
    obtain ⟨⟨i, tb⟩, hc⟩ := Option.isSome_iff_exists.mp isRoom
    have placed := CarrierTable.create?_created hc
    have counted : r.cls = c := by rw [hrec]
    refine ⟨i, tb, hc, placed.lookupKey_self, fun pool => ?_, fun j hj => placed.lookupKey_ne hj, ?_, placed.ring, ?_⟩
    · rcases placed.place with ⟨-, free, -⟩ | ⟨inPool, -⟩
      · exact free
      · exact pool i inPool
    · simp only [placed.counts, counted]
    · rw [exec_create hp hw hr free]
      simp only [State.createOpen, Tables.openClass?_some hcls hlife, record, hc]
      rfl
  case waits =>
    have begun : s.rekeyBegun = true := s.rekeyBegun_iff.mpr ⟨t, k, row, begun⟩
    simp only [exec, execCreate, hp, hw, begun]
    simp
  case unset =>
    rw [exec_create hp hw hr free]
    simp only [State.createOpen, Tables.openClass?_none unset, Work.refault_eq]
    rfl
  case full =>
    have noRoom : s.table.create? (s.openRecord w c) = none := by
      rw [← Option.isNone_iff_eq_none, ← Option.not_isSome, CarrierTable.create?_isSome]
      rw [show (s.openRecord w c).id = carrierIdOf w.tel from rfl, full]
      rfl
    rw [exec_create hp hw hr free]
    simp only [State.createOpen, Tables.openClass?_some hcls hlife, noRoom, Work.refault_eq]
    rfl
  case deleted =>
    have freed : s.removeRecord i = { s with table := s.table.remove i r } := by simp only [State.removeRecord, hrec]
    refine ⟨(s.removeRecord i).engineTo .commitClose { w with held := none }, ?_, ?_, ?_, ?_, fun j hj => ?_, ?_, ?_, ?_⟩
    · simp only [exec, execDelete, hp, hw, hr, if_true, hi]
    · rw [freed]; rfl
    · rw [freed]; rfl
    all_goals rw [freed]
    · show lookupKey (s.table.remove i r).records i = none
      rw [CarrierTable.remove_records, lookupKey_eraseKey_self i canonical.records]
    · show lookupKey (s.table.remove i r).records j = lookupKey s.table.records j
      rw [CarrierTable.remove_records, lookupKey_eraseKey_ne _ hj]
    · exact CarrierTable.remove_classCounts ..
    · exact CarrierTable.remove_ring ..
    · exact CarrierTable.remove_poolFree ..

end Sys2Proof.Machine
end

section
namespace Sys2Proof.Machine

/-! ### The two steps of a commit -/

section
variable {s : State} {w : Work}

/-- COMMIT opens the commit (R143 step 1). -/
theorem exec_commit_open (hp : s.engine.phase = .commitOpen) (hw : s.engine.work = some w) (hr : s.running = true) :
    exec .commit s = .next (s.openCommit w) := by
  simp only [exec, execCommit, hp, hw, hr, if_true]

/-- COMMIT closes the commit (R143 steps 4 to 7). -/
theorem exec_commit_close (hp : s.engine.phase = .commitClose) (hw : s.engine.work = some w) (hr : s.running = true) :
    exec .commit s = .next (s.closeCommit w) := by
  simp only [exec, execCommit, hp, hw, hr, if_true]

end

/-- The repeat memory of a transaction with its outcome (R49). -/
def Work.memory (w : Work) (o : CommitOutcome) : RepeatMemory :=
  { source := w.tel.source, seq := w.tel.seq, kind := w.tel.kind, outcome := o.outcome, reason := o.reason }

/-- The fault counters once a fault, if there is one, has been counted (R151). -/
def State.faultsWith (s : State) (f : Option FaultCode) : Vector Nat 16 :=
  (f.map fun f => s.faultCounters.set f.index.val (min 4294967295 (s.faultCounters[f.index.val] + 1))).getD s.faultCounters

theorem State.countWorkFault_eq (s : State) (w : Work) :
    s.countWorkFault w = { s with faultCounters := s.faultsWith w.fault } := by
  unfold State.countWorkFault State.faultsWith
  cases w.fault <;> rfl

section
variable (s : State) (w : Work) (o : CommitOutcome)

theorem State.rememberRelease_none : s.rememberRelease w o none = s := rfl

/-- The record takes the repeat memory and is released (R48, R49). -/
theorem State.rememberRelease_some {i : Nat} {r : Record} (h : s.record? i = some r) :
    s.rememberRelease w o (some i) = s.setRecord i { r with memory := some (w.memory o), held := false } := by
  simp only [State.rememberRelease, State.modRecord, h, Work.memory]

/-- No ring entry is made but by a CLOSE that deletes its record (R51). -/
theorem State.ringAppend_skips (h : TxKind.ofByte? w.tel.kind ≠ some .close ∨ o.transition = false) :
    s.ringAppend w o = s := by
  unfold State.ringAppend
  rw [if_neg]
  rintro ⟨close, transition⟩
  rcases h with h | h
  · exact h close
  · rw [h] at transition; cases transition

/-- What a closing commit leaves, where `u` is the part with its memories and its ring entry written (R143, R151). -/
theorem State.closeCommit_eq {u : State} (ho : w.outcome = some o)
    (hu : u = ((s.rememberRelease w o w.held).rememberRelease w o w.created).ringAppend w o) :
    s.closeCommit w =
      { u with
        faultCounters := u.faultsWith w.fault
        engine := { u.engine with
          phase := .placing
          work := some { w with
            held := none, created := none
            output := some (u.outputOf w.tel o.outcome o.reason (w.figures.map Figures.pct)) } } } := by
  simp only [State.closeCommit, ho, ← hu, State.compose_eq, State.countWorkFault_eq]
  rfl

end

/-- An outcome without a transition is REFUSED or RELAYED-MARKED (R142). -/
theorem fixOutcome_ne_relayed {f : Option FaultCode} {v : Option (Verdict × Byte)} {m : Mode}
    (h : (fixOutcome f v m).transition = false) : (fixOutcome f v m).outcome ≠ .relayed := by
  revert h
  unfold fixOutcome
  split
  · split <;> exact fun _ => nofun
  · split
    · exact nofun
    · split
      · exact fun _ => nofun
      · exact nofun
    · exact nofun

/-- What a commit makes of its outcome when it opens (R143, R147): the first request of the kind, or its close at once. -/
theorem State.openCommit_eq (s : State) (w : Work) {o : CommitOutcome} {w' : Work} (ho : o = fixOutcome w.fault w.verdict s.mode)
    (hw' : w' = { w with commitMode := some s.mode, outcome := some o }) {p : EnginePhase} (hp : s.firstCommitPhase w o = p) :
    s.openCommit w =
      if p = .commitClose then s.closeCommit w'
      else if p = .commitRelist ∨ p = .commitUnlink then s.engineAsks p w'
      else s.engineTo p w' := by
  subst ho hw' hp
  unfold State.openCommit
  simp only []
  split
  · next h => rw [if_pos h]
  · next h => rw [if_neg (by rw [h]; decide), if_pos (.inl h), h]
  · next h => rw [if_neg (by rw [h]; decide), if_pos (.inr h), h]
  · next hclose hrelist hunlink =>
    rw [if_neg (fun h => hclose h), if_neg (fun h => h.elim (fun h => hrelist h) fun h => hunlink h)]

/-- Settles O25. -/
theorem commitOpensAndCloses : Obligations.CommitOpensAndCloses := by
  refine ⟨fun v reason m => ⟨rfl, rfl, rfl, fun hm => ?_, fun f => ⟨rfl, fun hm => ?_⟩⟩,
    fun s w w' o hp hw hr ho hw' => ⟨fun htr hk => ?opens, fun htr hk hz => ?unlinks, fun htr hk hz => ?deletes,
      fun k htr hk hopen hclose => ?relists, fun i htr hi => ?stays, fun out htr hi hc hout => ?closes⟩,
    fun s w o out memory faults done hp hw hr ho hout hm hf hd => ⟨fun i r hir hrec hskip => ?one,
      fun i r j p hi hj hij hrec hrecj hskip => ?both, fun hi hj hskip => ?neither, fun hi hj hk htr hf => ?deleted⟩⟩
  case refine_1 => simp [fixOutcome, hm]
  case refine_2 => simp [fixOutcome, hm]
  case opens =>
    have first : s.firstCommitPhase w o = .commitCreate := by simp [State.firstCommitPhase, htr, hk]
    rw [exec_commit_open hp hw hr, s.openCommit_eq w ho hw' first]
    rfl
  case unlinks =>
    have first : s.firstCommitPhase w o = .commitUnlink := by
      simp [State.firstCommitPhase, htr, hk, Option.isSome_iff_ne_none, hz]
    rw [exec_commit_open hp hw hr, s.openCommit_eq w ho hw' first]
    rfl
  case deletes =>
    have first : s.firstCommitPhase w o = .commitDelete := by simp [State.firstCommitPhase, htr, hk, hz]
    rw [exec_commit_open hp hw hr, s.openCommit_eq w ho hw' first]
    rfl
  case relists =>
    have first : s.firstCommitPhase w o = .commitRelist := by
      simp only [State.firstCommitPhase, htr, if_true, hk]
      split
      · next h => exact absurd (Option.some.inj h) hopen
      · next h => exact absurd (Option.some.inj h) hclose
      · rfl
    rw [exec_commit_open hp hw hr, s.openCommit_eq w ho hw' first]
    rfl
  case stays =>
    have first : s.firstCommitPhase w o = .commitRelist := by simp [State.firstCommitPhase, htr, hi]
    rw [exec_commit_open hp hw hr, s.openCommit_eq w ho hw' first]
    rfl
  case closes =>
    have first : s.firstCommitPhase w o = .commitClose := by simp [State.firstCommitPhase, htr, hi]
    have notRelayed : o.outcome ≠ .relayed := by rw [ho] at htr ⊢; exact fixOutcome_ne_relayed htr
    have unremembered : s = ((s.rememberRelease w' o w'.held).rememberRelease w' o w'.created).ringAppend w' o := by
      rw [State.ringAppend_skips _ _ _ (.inr htr), hw', hi, hc]
      rfl
    have output : s.outputOf w'.tel o.outcome o.reason (w'.figures.map Figures.pct) = out := by
      rw [hout, State.outputOf, if_neg notRelayed, hw']
    rw [exec_commit_open hp hw hr, s.openCommit_eq w ho hw' first, if_pos rfl,
      s.closeCommit_eq w' o (by rw [hw']) unremembered, output, hw']
    simp only [hi, hc]
    rfl
  all_goals
    have written : w.memory o = memory := hm.symm
    rw [exec_commit_close hp hw hr, hd, hf]
  case one =>
    have part : s.setRecord i { r with memory := some memory, held := false } =
        ((s.rememberRelease w o w.held).rememberRelease w o w.created).ringAppend w o := by
      rw [State.ringAppend_skips _ _ _ hskip, ← written]
      rcases hir with ⟨hi, hj⟩ | ⟨hi, hj⟩
      · rw [hi, hj, State.rememberRelease_none, s.rememberRelease_some w o hrec]
      · rw [hi, hj, State.rememberRelease_none, s.rememberRelease_some w o hrec]
    rw [s.closeCommit_eq w o ho part, hout]
    rfl
  case both =>
    have other : (s.setRecord i { r with memory := some memory, held := false }).record? j = some p := by
      rw [State.setRecord_record?_ne _ _ hij.symm, hrecj]
    have part : (s.setRecord i { r with memory := some memory, held := false }).setRecord j
          { p with memory := some memory, held := false } =
        ((s.rememberRelease w o w.held).rememberRelease w o w.created).ringAppend w o := by
      rw [State.ringAppend_skips _ _ _ hskip, hi, hj, s.rememberRelease_some w o hrec, written,
        State.rememberRelease_some _ w o other, written]
    rw [s.closeCommit_eq w o ho part, hout]
    rfl
  case neither =>
    have part : s = ((s.rememberRelease w o w.held).rememberRelease w o w.created).ringAppend w o := by
      rw [State.ringAppend_skips _ _ _ hskip, hi, hj]
      rfl
    rw [s.closeCommit_eq w o ho part, hout]
    rfl
  case deleted =>
    have part : s.ringAppend w o =
        ((s.rememberRelease w o w.held).rememberRelease w o w.created).ringAppend w o := by
      rw [hi, hj]
      rfl
    rw [s.closeCommit_eq w o ho part, hout]
    simp only [State.ringAppend, hk, htr, hf]
    rfl

end Sys2Proof.Machine
end

section
namespace Sys2Proof.Machine

/-! ### Rows written at once (R178) -/

section
variable {s : State} {t : Telegram} {rw : RowWrite} {c : Instr}

/-- A command that writes a row at once serves its request, once R176 lets it through, by the write and a reply DONE. -/
theorem exec_writeAtOnce (hs : s.Serving t (.writeRow rw)) (hc : MgmtOp.command? (.writeRow rw) = some c)
    (hcmd : c = .stationWrite ∨ c = .partConfigurationWrite ∨ c = .policyTableWrite)
    (pass : s.refusal? (.writeRow rw) = none) : exec c s = .next ((s.writeTable rw).reply t .done []) := by
  have op := hs.operation?
  cases rw <;> cases hc
  case station => simp only [exec, execStationWrite, op, State.serve, pass]
  case part => simp only [exec, execPartConfigurationWrite, op, State.serve, pass]
  case rule => simp only [exec, execPolicyTableWrite, op, RowWrite.isPolicy, State.serve, pass, if_true]
  case checker => simp only [exec, execPolicyTableWrite, op, RowWrite.isPolicy, State.serve, pass, if_true]
  case dflt => simp only [exec, execPolicyTableWrite, op, RowWrite.isPolicy, State.serve, pass, if_true]
  all_goals simp at hcmd

/-- The command of a row that any mode may write is that of a station row or of the part configuration row. -/
theorem setupOnly_writeRow (hc : MgmtOp.command? (.writeRow rw) = some c) (hcmd : c = .stationWrite ∨ c = .partConfigurationWrite) :
    MgmtOp.setupOnly (.writeRow rw) = false := by
  cases rw <;> cases hc
  case station => rfl
  case part => rfl
  all_goals simp at hcmd

/-- R176 lets a row write through while the store is free, in SETUP, or in any mode where no mode is asked for. -/
theorem refusal?_writeRow (mode : MgmtOp.setupOnly (.writeRow rw) = false ∨ s.mode = .setup) (hrun : s.store.run = none) :
    s.refusal? (.writeRow rw) = none := by
  rcases mode with h | h <;> simp [State.refusal?, h, hrun]

/-- The image of a row that has just been set is that of the row it was set to. -/
theorem rowOf_set {α : Type} {n : Nat} (v : Vector α n) (f : α → List Byte) {i : Nat} (hi : i < n) (x : α) :
    rowOf (v.set i x hi) f i = f x := by
  simp [rowOf, hi]

theorem rowImage_write (s : State) (rw : RowWrite) :
    State.rowImage { s with tables := s.tables.write rw } rw.place.1 rw.place.2 = rw.image := by
  cases rw with
  | station i r => exact rowOf_set s.tables.stations _ i.isLt r
  | zone z r => exact rowOf_set s.tables.zones _ z.isLt r
  | grid i r => exact rowOf_set s.tables.grid _ i.isLt r
  | rh r => rfl
  | temp r => rfl
  | cls k r => exact rowOf_set s.tables.classes _ k.isLt r
  | rule i r => exact rowOf_set s.tables.rules _ i.isLt r
  | checker i r => exact rowOf_set s.tables.checkers _ i.isLt r
  | dflt passB r =>
    cases passB with
    | true => exact rowOf_set s.tables.defaults Action.image (i := 1) (by decide) r
    | false => exact rowOf_set s.tables.defaults Action.image (i := 0) (by decide) r
  | part r => rfl

end

/-- Settles O38. -/
theorem rowsWritten : Obligations.RowsWritten := by
  unfold Obligations.RowsWritten
  refine ⟨fun s t rw c hs hc hcmd hrun => ?_, rowImage_write⟩
  have mode : MgmtOp.setupOnly (.writeRow rw) = false ∨ s.mode = .setup := by
    rcases hcmd with h | h | ⟨-, h⟩
    · exact .inl (setupOnly_writeRow hc (.inl h))
    · exact .inl (setupOnly_writeRow hc (.inr h))
    · exact .inr h
  exact exec_writeAtOnce hs hc (hcmd.imp_right (Or.imp_right And.left)) (refusal?_writeRow mode hrun)

end Sys2Proof.Machine
end

section
namespace Sys2Proof.Machine

/-! ### The fields of a body (00, section 4.4)

A field is `natAt`, its bytes are `bytesAt`: the bytes of a field are those that spell it, fields that follow one another join,
and the whole body is one of its fields. -/

section
variable (b : List Byte)

theorem natAt_lt (off n : Nat) : natAt b off n < 256 ^ n := by
  have spelled := foldl_bytes_lt (bytesAt b off n)
  have short : (bytesAt b off n).length ≤ n := by simp [bytesAt]
  exact spelled.trans_le (Nat.pow_le_pow_right (by decide) short)

theorem natAt_drop (k off n : Nat) : natAt (b.drop k) off n = natAt b (k + off) n := by
  simp only [natAt, bytesAt, List.drop_drop]

variable {b}

/-- The bytes of a field are those that spell it. -/
theorem beBytes_natAt {off n : Nat} (h : off + n ≤ b.length) : beBytes n (natAt b off n) = bytesAt b off n := by
  have length : (bytesAt b off n).length = n := by simp [bytesAt]; omega
  have spelled := beBytes_foldl (bytesAt b off n)
  rwa [length] at spelled

/-- Two fields that follow one another are one. -/
theorem bytesAt_join (b : List Byte) {off n off' m : Nat} (h : off' = off + n) :
    bytesAt b off n ++ bytesAt b off' m = bytesAt b off (n + m) := by
  subst h
  simp only [bytesAt, ← List.drop_drop, List.take_add]

theorem bytesAt_all {n : Nat} (h : b.length = n) : bytesAt b 0 n = b := by
  subst h
  simp [bytesAt]

theorem byteAt_toNat {off : Nat} (h : off < b.length) : (byteAt b off).toNat = natAt b off 1 := by
  have one : bytesAt b off 1 = [b[off]] := by
    rw [bytesAt, List.drop_eq_getElem_cons h]
    rfl
  rw [natAt, one, byteAt, List.getD_eq_getElem _ _ h]
  exact (Nat.zero_add _).symm

theorem byteAt_bytes {off : Nat} (h : off < b.length) : [byteAt b off] = bytesAt b off 1 := by
  rw [← beBytes_natAt h, ← byteAt_toNat h]
  simp [beBytes]

/-- A field kept as a word of its own width. -/
theorem toNat_natAt (off n : Nat) {w : Nat} (hw : 2 ^ w = 256 ^ n) : (BitVec.ofNat w (natAt b off n)).toNat = natAt b off n := by
  rw [BitVec.toNat_ofNat, Nat.mod_eq_of_lt (hw ▸ natAt_lt b off n)]

theorem idBytes_idAt {off : Nat} (h : off + 8 ≤ b.length) : idBytes (idAt b off) = bytesAt b off 8 := by
  rw [idBytes, idAt, toNat_natAt off 8 rfl, beBytes_natAt h]

theorem tempBytes_tempAt {off : Nat} (h : off + 2 ≤ b.length) : tempBytes (tempAt b off) = bytesAt b off 2 := by
  rw [tempBytes, tempAt, BitVec.ofInt_toInt, toNat_natAt off 2 rfl, beBytes_natAt h]

/-- A single byte as the byte of a number. -/
theorem singleton_ofNat (n : Nat) : [BitVec.ofNat 8 n] = beBytes 1 n := by simp [beBytes]

theorem boolByte_eq (x : Bool) : [boolByte x] = beBytes 1 x.toNat := by cases x <;> rfl

/-- A field stands at its offset in the body it is read from. -/
theorem fieldAt_natAt {off n : Nat} (h : off + n ≤ b.length) {v : Nat} (hv : v = natAt b off n) : FieldAt b off n (some v) := by
  subst hv
  exact ⟨h, (Nat.mod_eq_of_lt (natAt_lt b off n)).symm⟩

end

/-! ### Coded values (02, section 2.5) -/

/-- A reading of codes agrees with the code of each value: the codes are the numbers up to `top`, and a code is read as the value
that has it. -/
structure CodedBy {α : Type} (read : Nat → Option α) (code : α → Nat) (top : Nat) : Prop where
  reads : ∀ n c, read n = some c → code c = n
  writes : ∀ c, read (code c) = some c
  codes : ∀ n ≤ top, (read n).isSome = true
  bounded : ∀ c, code c ≤ top

section
variable {α : Type} {read : Nat → Option α} {code : α → Nat} {top : Nat}

/-- The value read is the one that has the code. -/
theorem CodedBy.eq_some (h : CodedBy read code top) {n : Nat} {c : α} : read n = some c ↔ code c = n :=
  ⟨h.reads n c, fun e => e ▸ h.writes c⟩

/-- A code is accepted exactly when it is in the table. -/
theorem CodedBy.accepts (h : CodedBy read code top) {n : Nat} : (∃ c, read n = some c) ↔ n ≤ top :=
  ⟨fun ⟨c, e⟩ => h.reads n c e ▸ h.bounded c, fun le => Option.isSome_iff_exists.mp (h.codes n le)⟩

theorem StationClass.coded : CodedBy StationClass.ofCode? StationClass.code 7 where
  reads n c := by unfold StationClass.ofCode?; split <;> rintro ⟨⟩ <;> rfl
  writes c := by cases c <;> rfl
  codes := by decide
  bounded c := by cases c <;> decide

theorem ZoneKind.coded : CodedBy ZoneKind.ofCode? ZoneKind.code 3 where
  reads n c := by unfold ZoneKind.ofCode?; split <;> rintro ⟨⟩ <;> rfl
  writes c := by cases c <;> rfl
  codes := by decide
  bounded c := by cases c <;> decide

theorem Mode.coded : CodedBy Mode.ofCode? Mode.code 2 where
  reads n c := by unfold Mode.ofCode?; split <;> rintro ⟨⟩ <;> rfl
  writes c := by cases c <;> rfl
  codes := by decide
  bounded c := by cases c <;> decide

theorem Verdict.coded : CodedBy Verdict.ofCode? Verdict.code 2 where
  reads n c := by unfold Verdict.ofCode?; split <;> rintro ⟨⟩ <;> rfl
  writes c := by cases c <;> rfl
  codes := by decide
  bounded c := by cases c <;> decide

theorem RangeSource.coded : CodedBy RangeSource.ofCode? RangeSource.code 7 where
  reads n c := by unfold RangeSource.ofCode?; split <;> rintro ⟨⟩ <;> rfl
  writes c := by cases c <;> rfl
  codes := by decide
  bounded c := by cases c <;> decide

theorem NoticeOption.coded : CodedBy NoticeOption.ofCode? NoticeOption.code 2 where
  reads n c := by unfold NoticeOption.ofCode?; split <;> rintro ⟨⟩ <;> rfl
  writes c := by cases c <;> rfl
  codes := by decide
  bounded c := by cases c <;> decide

theorem boolOf?_coded : CodedBy boolOf? Bool.toNat 1 where
  reads n c := by unfold boolOf?; split <;> rintro ⟨⟩ <;> rfl
  writes c := by cases c <;> rfl
  codes := by decide
  bounded c := by cases c <;> decide

end

section
variable {n : Nat}

theorem stopsOf?_eq_some {x : Bool} : stopsOf? n = some x ↔ x.toNat + 1 = n := by
  constructor
  · unfold stopsOf?
    split <;> rintro ⟨⟩ <;> rfl
  · rintro rfl
    cases x <;> rfl

theorem within?_eq_some {lo hi v : Nat} : within? lo hi n = some v ↔ v = n ∧ lo ≤ n ∧ n ≤ hi := by
  unfold within?
  split
  · next h => simp only [Option.some.injEq, h, and_self, and_true]; exact eq_comm
  · next h => simp [h]

theorem fin?_eq_some {m : Nat} {i : Fin m} : fin? m n = some i ↔ i.val = n := by
  unfold fin?
  split
  · next h => simp only [Option.some.injEq, Fin.ext_iff]; exact eq_comm
  · next h => simp only [reduceCtorEq, false_iff]; exact fun e => h (e ▸ i.isLt)

/-- A zone, or 0xFF for none. -/
theorem homeOf?_eq_some {o : Option (Fin 32)} : homeOf? n = some o ↔ (o.map Fin.val).getD 0xFF = n := by
  unfold homeOf?
  cases o with
  | none =>
    split
    · next h => simp [h]
    · next h => simp [eq_comm, h]
  | some z =>
    have ne : z.val ≠ 0xFF := by omega
    split
    · next h => simp [h, ne]
    · simp [fin?_eq_some]

/-- A counter, or 0xFF for every counter. -/
theorem clearIndex?_eq_some {m : Nat} (hm : m ≤ 0xFF) {o : Option (Fin m)} :
    clearIndex? m n = some o ↔ (o.map Fin.val).getD 0xFF = n := by
  unfold clearIndex?
  cases o with
  | none =>
    split
    · next h => simp [h]
    · next h => simp [eq_comm, h]
  | some i =>
    have ne : i.val ≠ 0xFF := by omega
    split
    · next h => simp [h, ne]
    · simp [fin?_eq_some]

theorem exists_stopsOf? : (∃ x, stopsOf? n = some x) ↔ n = 1 ∨ n = 2 := by
  constructor
  · rintro ⟨x, h⟩
    rw [← stopsOf?_eq_some.mp h]
    cases x <;> decide
  · rintro (rfl | rfl) <;> exact ⟨_, rfl⟩

theorem exists_within? {lo hi : Nat} : (∃ v, within? lo hi n = some v) ↔ lo ≤ n ∧ n ≤ hi := by
  simp only [within?_eq_some, exists_eq_left]

theorem exists_fin? {m : Nat} : (∃ i, fin? m n = some i) ↔ n < m := by
  simp only [fin?_eq_some]
  exact ⟨fun ⟨i, h⟩ => h ▸ i.isLt, fun h => ⟨⟨n, h⟩, rfl⟩⟩

theorem exists_homeOf? : (∃ o, homeOf? n = some o) ↔ n ≤ 31 ∨ n = 0xFF := by
  simp only [homeOf?_eq_some]
  constructor
  · rintro ⟨_ | z, rfl⟩
    · exact .inr rfl
    · exact .inl (Nat.le_of_lt_succ z.isLt)
  · rintro (h | rfl)
    · exact ⟨some ⟨n, by omega⟩, rfl⟩
    · exact ⟨none, rfl⟩

theorem exists_clearIndex? {m : Nat} (hm : m ≤ 0xFF) : (∃ o, clearIndex? m n = some o) ↔ n < m ∨ n = 0xFF := by
  simp only [clearIndex?_eq_some hm]
  constructor
  · rintro ⟨_ | i, rfl⟩
    · exact .inr rfl
    · exact .inl i.isLt
  · rintro (h | rfl)
    · exact ⟨some ⟨n, h⟩, rfl⟩
    · exact ⟨none, rfl⟩

end

end Sys2Proof.Machine
end

section
namespace Sys2Proof.Machine

/-! ### Row images (02, section 2.8)

For each kind of row: when its parser accepts a body (R34), and that the image of the row it reads is the bytes it was read from. -/

/-- A chain of readings accepts when its first reading does, and the rest does for the value read. -/
theorem exists_bind_eq_some {α β : Type} {o : Option α} {f : α → Option β} :
    (∃ r, o.bind f = some r) ↔ ∃ a, o = some a ∧ ∃ r, f a = some r := by
  simp only [Option.bind_eq_some_iff]
  exact exists_comm.trans (exists_congr fun a => exists_and_left)

/-- What follows a choice of readings follows the reading chosen. -/
theorem ite_bind {α β : Type} {p : Prop} [Decidable p] (x y : Option α) (f : α → Option β) :
    (if p then x.bind f else y.bind f) = (if p then x else y).bind f :=
  (apply_ite (fun o : Option α => o.bind f) p x y).symm

/-- A number that stands for absent is written as its all-ones byte. -/
theorem optBytes_getD (o : Option Nat) : optBytes 1 o = beBytes 1 (o.getD 0xFF) := by cases o <;> rfl

section
variable {b : List Byte}

theorem StationRow.parse_accepts :
    (∃ r, StationRow.parse b = some r) ↔ natAt b 0 1 ≤ 7 ∧ (natAt b 1 1 ≤ 31 ∨ natAt b 1 1 = 0xFF) := by
  simp only [StationRow.parse, Option.bind_eq_bind, Option.pure_def, exists_bind_eq_some, Option.some.injEq, exists_eq', exists_and_right, and_true,
    StationClass.coded.accepts, exists_homeOf?]

theorem StationRow.image_parse {r : StationRow} (hl : b.length = 2) (h : StationRow.parse b = some r) : r.image = b := by
  simp only [StationRow.parse, Option.bind_eq_bind, Option.pure_def, Option.bind_eq_some_iff, Option.some.injEq,
    StationClass.coded.eq_some, homeOf?_eq_some] at h
  obtain ⟨cls, hcls, home, hhome, rfl⟩ := h
  rw [StationRow.image, hcls, optBytes_getD, hhome]
  simp (disch := omega) only [beBytes_natAt, bytesAt_join, bytesAt_all]

theorem ZoneConfig.parse_accepts :
    (∃ r, ZoneConfig.parse b = some r) ↔
      natAt b 0 1 ≤ 3 ∧ 10 ≤ natAt b 1 2 ∧ natAt b 1 2 ≤ 3600 ∧ 10 ≤ natAt b 3 2 ∧ natAt b 3 2 ≤ 600 ∧
        natAt b 5 2 ≤ 1023 ∧ natAt b 7 2 ≤ 1023 := by
  simp only [ZoneConfig.parse, Option.bind_eq_bind, Option.pure_def, exists_bind_eq_some, Option.some.injEq, exists_eq', exists_and_right, and_true,
    ZoneKind.coded.accepts, exists_within?, Nat.zero_le, true_and, and_assoc]

theorem ZoneConfig.image_parse {r : ZoneConfig} (hl : b.length = 9) (h : ZoneConfig.parse b = some r) : r.image = b := by
  simp only [ZoneConfig.parse, Option.bind_eq_bind, Option.pure_def, Option.bind_eq_some_iff, Option.some.injEq,
    ZoneKind.coded.eq_some, within?_eq_some] at h
  obtain ⟨kind, hkind, _, ⟨rfl, -⟩, _, ⟨rfl, -⟩, _, ⟨rfl, -⟩, _, ⟨rfl, -⟩, rfl⟩ := h
  rw [ZoneConfig.image, hkind]
  simp (disch := omega) only [beBytes_natAt, bytesAt_join, bytesAt_all]

theorem GridCell.parse_accepts : (∃ r, GridCell.parse b = some r) ↔ natAt b 0 2 ≤ 1023 ∧ natAt b 2 1 ≤ 1 := by
  simp only [GridCell.parse, Option.bind_eq_bind, Option.pure_def, exists_bind_eq_some, Option.some.injEq, exists_eq', exists_and_right, and_true,
    boolOf?_coded.accepts, exists_within?, Nat.zero_le, true_and]

theorem GridCell.image_parse {r : GridCell} (hl : b.length = 3) (h : GridCell.parse b = some r) : r.image = b := by
  simp only [GridCell.parse, Option.bind_eq_bind, Option.pure_def, Option.bind_eq_some_iff, Option.some.injEq,
    boolOf?_coded.eq_some, within?_eq_some] at h
  obtain ⟨_, ⟨rfl, -⟩, dry, hdry, rfl⟩ := h
  rw [GridCell.image, hdry]
  simp (disch := omega) only [beBytes_natAt, bytesAt_join, bytesAt_all]

/-! #### Rows of equal fields -/

/-- Equal fields side by side. -/
theorem flatMap_fields (n off k : Nat) : (List.range k).flatMap (fun i => bytesAt b (off + n * i) n) = bytesAt b off (n * k) := by
  induction k with
  | zero => simp [bytesAt]
  | succ k ih => rw [List.range_succ, List.flatMap_append, ih, List.flatMap_singleton, bytesAt_join b rfl, Nat.mul_succ]

/-- Numbers written one behind another are the bytes of the fields they were read from. -/
theorem flatMap_ofFn {α : Type} {k off n : Nat} (f : Fin k → α) (write : α → List Byte)
    (h : ∀ i : Fin k, write (f i) = bytesAt b (off + n * i.val) n) :
    (Vector.ofFn f).toList.flatMap write = bytesAt b off (n * k) := by
  rw [Vector.toList_ofFn, ← flatMap_fields, ← List.map_coe_finRange_eq_range, List.flatMap_map, List.ofFn_eq_map, List.flatMap_map]
  exact List.flatMap_congr fun i _ => h i

theorem all_ofFn {k limit : Nat} (f : Fin k → Nat) :
    ((Vector.ofFn f).toList.all fun x => decide (x ≤ limit)) = true ↔ ∀ i, f i ≤ limit := by
  simp [Vector.toList_ofFn, List.mem_ofFn]

theorem rhParse_accepts : (∃ r, rhParse b = some r) ↔ ∀ i : Fin 7, natAt b (2 * i.val) 2 ≤ 1000 := by
  rw [← all_ofFn]
  unfold rhParse
  simp only []
  split <;> simp_all

theorem rhImage_parse {r : Vector Nat 7} (hl : b.length = 14) (h : rhParse b = some r) : rhImage r = b := by
  simp only [rhParse, Option.ite_none_right_eq_some, Option.some.injEq] at h
  obtain ⟨-, rfl⟩ := h
  rw [rhImage, flatMap_ofFn (off := 0) (n := 2) _ _ fun i => ?_, bytesAt_all hl]
  rw [Nat.zero_add, beBytes_natAt (by omega)]

theorem tempImage_parse (hl : b.length = 10) : tempImage (tempParse b) = b := by
  rw [tempImage, tempParse, flatMap_ofFn (off := 0) (n := 2) _ _ fun i => ?_, bytesAt_all hl]
  rw [Nat.zero_add, tempBytes_tempAt (by omega)]

theorem bakeParse_accepts : (∃ r, bakeParse b = some r) ↔ ∀ i : Fin 4, natAt b (10 + 2 * i.val) 2 ≤ 9999 := by
  rw [← all_ofFn]
  unfold bakeParse
  simp only []
  split <;> simp_all

theorem bakeParse_bytes {r : Vector Nat 4} (hl : b.length = 19) (h : bakeParse b = some r) :
    r.toList.flatMap (beBytes 2) = bytesAt b 10 8 := by
  simp only [bakeParse, Option.ite_none_right_eq_some, Option.some.injEq] at h
  obtain ⟨-, rfl⟩ := h
  rw [flatMap_ofFn (off := 10) (n := 2) _ _ fun i => ?_]
  rw [beBytes_natAt (by omega)]

/-! #### Class rows -/

/-- The warn percent is checked where the class is configured (R34). -/
theorem warnPercent_accepts {life : Nat} :
    (∃ v, (if life = 0 then some (natAt b 4 1) else within? 50 99 (natAt b 4 1)) = some v) ↔
      life = 0 ∨ (50 ≤ natAt b 4 1 ∧ natAt b 4 1 ≤ 99) := by
  split
  · next h => simp [h]
  · next h => simp [h, exists_within?]

theorem warnPercent_eq {life v : Nat} (h : (if life = 0 then some (natAt b 4 1) else within? 50 99 (natAt b 4 1)) = some v) :
    v = natAt b 4 1 := by
  split at h
  · exact (Option.some.inj h).symm
  · exact (within?_eq_some.mp h).1

theorem ClassRow.parse_accepts :
    (∃ r, ClassRow.parse b = some r) ↔
      natAt b 0 4 ≤ 600000 ∧ (natAt b 0 4 = 0 ∨ (50 ≤ natAt b 4 1 ∧ natAt b 4 1 ≤ 99)) ∧ natAt b 5 2 ≤ 1440 ∧
        natAt b 7 1 ≤ 32 ∧ natAt b 8 2 ≤ 10080 ∧ (∀ i : Fin 4, natAt b (10 + 2 * i.val) 2 ≤ 9999) ∧ natAt b 18 1 ≤ 15 := by
  simp only [ClassRow.parse, Option.bind_eq_bind, Option.pure_def, ite_bind, exists_bind_eq_some, Option.some.injEq, exists_eq', exists_and_right, and_true,
    exists_within?, warnPercent_accepts, bakeParse_accepts, Nat.zero_le, true_and]
  simp only [within?_eq_some, Nat.zero_le, true_and, and_assoc, exists_eq_left]

theorem ClassRow.image_parse {r : ClassRow} (hl : b.length = 19) (h : ClassRow.parse b = some r) : r.image = b := by
  simp only [ClassRow.parse, Option.bind_eq_bind, Option.pure_def, ite_bind, Option.bind_eq_some_iff, Option.some.injEq,
    within?_eq_some] at h
  obtain ⟨_, ⟨rfl, -⟩, warn, hwarn, _, ⟨rfl, -⟩, _, ⟨rfl, -⟩, _, ⟨rfl, -⟩, bake, hbake, _, ⟨rfl, -⟩, rfl⟩ := h
  rw [ClassRow.image, warnPercent_eq hwarn, bakeParse_bytes hl hbake]
  simp (disch := omega) only [beBytes_natAt, bytesAt_join, bytesAt_all]

/-! #### Policy rows -/

/-- The three low bits of a byte are clear (R34). -/
theorem Byte.low_clear (o : Byte) : o &&& 0x07 = 0 ↔ o.toNat % 8 = 0 := by
  rw [← BitVec.toNat_inj, BitVec.toNat_and]
  exact iff_of_eq (congrArg (· = 0) (Nat.and_two_pow_sub_one_eq_mod o.toNat 3))

/-- The five high bits of an options byte make it up. -/
theorem Action.optionsByte_bits {a : Action} {o : Byte} (low : o &&& 0x07 = 0) (h7 : a.final = o.getLsbD 7)
    (h6 : a.worst = o.getLsbD 6) (h5 : a.copy = o.getLsbD 5) (h4 : a.copyOnce = o.getLsbD 4) (h3 : a.count = o.getLsbD 3) :
    a.optionsByte = o := by
  rw [Action.optionsByte, h7, h6, h5, h4, h3]
  revert low
  obtain ⟨⟨n, hn⟩⟩ := o
  have all : ∀ n : Fin 256, (BitVec.ofFin n : Byte) &&& 0x07 = 0 →
      (if (BitVec.ofFin n : Byte).getLsbD 7 then (0x80 : Byte) else 0) |||
        (if (BitVec.ofFin n : Byte).getLsbD 6 then 0x40 else 0) ||| (if (BitVec.ofFin n : Byte).getLsbD 5 then 0x20 else 0) |||
          (if (BitVec.ofFin n : Byte).getLsbD 4 then 0x10 else 0) ||| (if (BitVec.ofFin n : Byte).getLsbD 3 then 0x08 else 0) =
        BitVec.ofFin n := by decide +kernel
  exact all ⟨n, hn⟩

theorem exists_unit_ite {p : Prop} [Decidable p] : (∃ u, (if p then some () else none) = some u) ↔ p := by
  split <;> simp_all

theorem Action.parse_accepts (hl : 4 ≤ b.length) : (∃ r, Action.parse b = some r) ↔ actionInRange b = true := by
  have low : byteAt b 3 &&& 0x07 = 0 ↔ natAt b 3 1 % 8 = 0 := by rw [Byte.low_clear, byteAt_toNat (by omega)]
  simp only [Action.parse, Option.bind_eq_bind, Option.pure_def, ite_bind, exists_bind_eq_some, Option.some.injEq, exists_eq', exists_and_right, and_true,
    Verdict.coded.accepts, NoticeOption.coded.accepts, exists_within?, exists_fin?, exists_unit_ite, low, actionInRange,
    decide_eq_true_eq, and_assoc]
  simp only [Nat.lt_succ_iff (n := 63)]

theorem Action.image_parse {r : Action} (hl : 5 ≤ b.length) (h : Action.parse b = some r) : r.image = bytesAt b 0 5 := by
  simp only [Action.parse, Option.bind_eq_bind, Option.pure_def, ite_bind, Option.bind_eq_some_iff, Option.some.injEq,
    Verdict.coded.eq_some, NoticeOption.coded.eq_some, within?_eq_some, fin?_eq_some, Option.ite_none_right_eq_some] at h
  obtain ⟨verdict, hverdict, _, ⟨rfl, -⟩, notice, hnotice, _, ⟨low, -⟩, counter, hcounter, rfl⟩ := h
  rw [Action.image, Action.optionsByte_bits low rfl rfl rfl rfl rfl, hverdict, hnotice, hcounter, singleton_ofNat,
    byteAt_bytes (by omega)]
  simp (disch := omega) only [beBytes_natAt, bytesAt_join]

theorem RuleRow.parse_accepts (hl : b.length = 20) :
    (∃ r, RuleRow.parse b = some r) ↔ natAt b 0 1 ≤ 1 ∧ actionInRange (b.drop 15) = true := by
  have tail : 4 ≤ (b.drop 15).length := by simp [hl]
  simp only [RuleRow.parse, Option.bind_eq_bind, Option.pure_def, exists_bind_eq_some, Option.some.injEq, exists_eq', exists_and_right, and_true,
    boolOf?_coded.accepts, Action.parse_accepts tail]

theorem RuleRow.image_parse {r : RuleRow} (hl : b.length = 20) (h : RuleRow.parse b = some r) : r.image = b := by
  simp only [RuleRow.parse, Option.bind_eq_bind, Option.pure_def, Option.bind_eq_some_iff, Option.some.injEq,
    boolOf?_coded.eq_some] at h
  obtain ⟨valid, hvalid, action, haction, rfl⟩ := h
  have tail : action.image = bytesAt b 15 5 := Action.image_parse (by simp [hl]) haction
  rw [RuleRow.image, hvalid, tail, toNat_natAt 1 7 rfl, toNat_natAt 8 7 rfl]
  simp (disch := omega) only [beBytes_natAt, bytesAt_join, bytesAt_all]

theorem CheckerRow.parse_accepts : (∃ r, CheckerRow.parse b = some r) ↔ natAt b 0 1 ≤ 7 := by
  simp only [CheckerRow.parse, Option.bind_eq_bind, Option.pure_def, exists_bind_eq_some, Option.some.injEq, exists_eq', and_true,
    RangeSource.coded.accepts]

theorem CheckerRow.image_parse {r : CheckerRow} (hl : b.length = 5) (h : CheckerRow.parse b = some r) : r.image = b := by
  simp only [CheckerRow.parse, Option.bind_eq_bind, Option.pure_def, Option.bind_eq_some_iff, Option.some.injEq,
    RangeSource.coded.eq_some] at h
  obtain ⟨source, hsource, rfl⟩ := h
  rw [CheckerRow.image, hsource, toNat_natAt 1 2 rfl, toNat_natAt 3 2 rfl]
  simp (disch := omega) only [beBytes_natAt, bytesAt_join, bytesAt_all]

/-! #### The part configuration row -/

theorem LinkSettings.parse_accepts :
    (∃ l, LinkSettings.parse b = some l) ↔ natAt b 1 1 ≤ 1 ∧ (natAt b 2 1 = 1 ∨ natAt b 2 1 = 2) := by
  simp only [LinkSettings.parse, Option.bind_eq_bind, Option.pure_def, exists_bind_eq_some, Option.some.injEq, exists_eq', exists_and_right, and_true,
    boolOf?_coded.accepts, exists_stopsOf?]

theorem LinkSettings.image_parse {l : LinkSettings} (hl : 3 ≤ b.length) (h : LinkSettings.parse b = some l) :
    l.image = bytesAt b 0 3 := by
  simp only [LinkSettings.parse, Option.bind_eq_bind, Option.pure_def, Option.bind_eq_some_iff, Option.some.injEq,
    boolOf?_coded.eq_some, stopsOf?_eq_some] at h
  obtain ⟨x64, hx64, twoStops, hstops, rfl⟩ := h
  have stops : [if twoStops then 2 else 1] = beBytes 1 (twoStops.toNat + 1) := by cases twoStops <;> rfl
  show [byteAt b 0] ++ ([boolByte x64] ++ [if twoStops then 2 else 1]) = _
  rw [stops, hstops, boolByte_eq, hx64, byteAt_bytes (by omega)]
  simp (disch := omega) only [beBytes_natAt, bytesAt_join]

theorem PartConfig.parse_accepts :
    (∃ r, PartConfig.parse b = some r) ↔
      natAt b 0 1 ≤ 254 ∧ natAt b 1 1 ≤ 254 ∧ natAt b 2 1 ≤ 2 ∧ natAt b 4 1 ≤ 1 ∧
        (natAt b 5 1 = 1 ∨ natAt b 5 1 = 2) ∧ natAt b 7 1 ≤ 1 ∧ (natAt b 8 1 = 1 ∨ natAt b 8 1 = 2) ∧ natAt b 9 1 ≤ 1 := by
  simp only [PartConfig.parse, Option.bind_eq_bind, Option.pure_def, exists_bind_eq_some, Option.some.injEq, exists_eq', exists_and_right, and_true,
    Mode.coded.accepts, boolOf?_coded.accepts, exists_within?, LinkSettings.parse_accepts, natAt_drop, Nat.zero_le, true_and,
    and_assoc, Nat.reduceAdd]

theorem PartConfig.image_parse {r : PartConfig} (hl : b.length = 10) (h : PartConfig.parse b = some r) : r.image = b := by
  simp only [PartConfig.parse, Option.bind_eq_bind, Option.pure_def, Option.bind_eq_some_iff, Option.some.injEq,
    within?_eq_some, Mode.coded.eq_some, boolOf?_coded.eq_some] at h
  obtain ⟨_, ⟨rfl, -⟩, _, ⟨rfl, -⟩, mode, hmode, floor, hfloor, plant, hplant, reset, hreset, rfl⟩ := h
  have floorBytes : floor.image = bytesAt b 3 3 := LinkSettings.image_parse (by simp [hl]) hfloor
  have plantBytes : plant.image = bytesAt b 6 3 := LinkSettings.image_parse (by simp [hl]) hplant
  show ([BitVec.ofNat 8 (natAt b 0 1)] ++ [BitVec.ofNat 8 (natAt b 1 1)]) ++ beBytes 1 mode.code ++ floor.image ++ plant.image ++
    beBytes 1 reset.toNat = b
  rw [floorBytes, plantBytes, hmode, hreset, singleton_ofNat, singleton_ofNat]
  simp (disch := omega) only [beBytes_natAt, bytesAt_join, bytesAt_all]

end

end Sys2Proof.Machine
end

section
namespace Sys2Proof.Machine

/-! ### Row images by table (R34)

Each existing row of a table is of the kind its table holds, so its image is judged and read by the parser of that kind. -/

section
variable {b : List Byte} {row : Nat} {rw : RowWrite}

/-- A row number and a row image that are read one after the other. -/
theorem exists_numbered {m : Nat} {α : Type} {o : Option α} {write : Fin m → α → RowWrite} (h : row < m) :
    (∃ rw, (do return write (← fin? m row) (← o)) = some rw) ↔ ∃ r, o = some r := by
  simp only [Option.bind_eq_bind, Option.pure_def, exists_bind_eq_some, Option.some.injEq, exists_eq', and_true, exists_and_right,
    exists_fin?, h, true_and]

theorem exists_map_eq_some {α β : Type} {o : Option α} {f : α → β} : (∃ r, o.map f = some r) ↔ ∃ a, o = some a := by
  simp only [Option.map_eq_some_iff]
  exact ⟨fun ⟨_, a, h, _⟩ => ⟨a, h⟩, fun ⟨a, h⟩ => ⟨_, a, h, rfl⟩⟩

/-- The row write read stands at its row number, and says what its row says. -/
theorem numbered_place {m table : Nat} {α : Type} {o : Option α} {write : Fin m → α → RowWrite}
    (reads : ∀ i r, o = some r → (write i r).image = b ∧ (write i r).place = (table, i.val))
    (h : (do return write (← fin? m row) (← o)) = some rw) : rw.image = b ∧ rw.place = (table, row) := by
  simp only [Option.bind_eq_bind, Option.pure_def, Option.bind_eq_some_iff, Option.some.injEq, fin?_eq_some] at h
  obtain ⟨i, rfl, r, hread, rfl⟩ := h
  exact reads i r hread

/-- A threshold row: row 0 holds the humidities, each at most 1000, and row 1 the temperatures. -/
theorem parseRow_threshold_accepts :
    (∃ rw, parseRow 0x04 row b = some rw) ↔ (row = 0 → ∀ i : Fin 7, natAt b (2 * i.val) 2 ≤ 1000) := by
  unfold parseRow
  simp only []
  split
  · next h => simp only [h, forall_const, exists_map_eq_some, rhParse_accepts]
  · next h => simp only [h, false_imp_iff, Option.some.injEq, exists_eq']

/-- A row image of the right size, for a row that exists, is accepted exactly when every field is within its range (R34). -/
theorem parseRow_accepts {table n : Nat} (hl : b.length = rowSize table row) (ht : tableRows? table = some n) (hr : row < n) :
    (∃ rw, parseRow table row b = some rw) ↔ rowInRange table row b = true := by
  unfold tableRows? at ht
  split at ht <;> cases ht
  case h_1 => exact (exists_numbered hr).trans (StationRow.parse_accepts.trans (decide_eq_true_iff).symm)
  case h_2 => exact (exists_numbered hr).trans (ZoneConfig.parse_accepts.trans (decide_eq_true_iff).symm)
  case h_3 => exact (exists_numbered hr).trans (GridCell.parse_accepts.trans (decide_eq_true_iff).symm)
  case h_4 => exact parseRow_threshold_accepts.trans (decide_eq_true_iff).symm
  case h_5 => exact (exists_numbered hr).trans (ClassRow.parse_accepts.trans (decide_eq_true_iff).symm)
  case h_6 =>
    refine (exists_numbered hr).trans ((RuleRow.parse_accepts hl).trans ?_)
    simp only [rowInRange, Bool.and_eq_true, decide_eq_true_eq]
  case h_7 => exact (exists_numbered hr).trans (CheckerRow.parse_accepts.trans (decide_eq_true_iff).symm)
  case h_8 =>
    have size : b.length = 5 := hl
    exact exists_map_eq_some.trans (Action.parse_accepts (by omega))
  case h_9 => exact exists_map_eq_some.trans (PartConfig.parse_accepts.trans (decide_eq_true_iff).symm)
  case h_10 => simp [parseRow, rowInRange]
  case h_11 => simp [parseRow, rowInRange]

/-- A threshold row that is accepted. -/
theorem parseRow_threshold_eq (hl : b.length = rowSize 0x04 row) (hr : row < 2) (h : parseRow 0x04 row b = some rw) :
    rw.image = b ∧ rw.place = (0x04, row) := by
  obtain rfl | rfl : row = 0 ∨ row = 1 := by omega
  · obtain ⟨r, hread, rfl⟩ := Option.map_eq_some_iff.mp h
    exact ⟨rhImage_parse hl hread, rfl⟩
  · cases h
    exact ⟨tempImage_parse hl, rfl⟩

/-- A default action that is accepted. -/
theorem parseRow_default_eq (hl : b.length = 5) (hr : row < 2) (h : parseRow 0x08 row b = some rw) :
    rw.image = b ∧ rw.place = (0x08, row) := by
  obtain ⟨r, hread, rfl⟩ := Option.map_eq_some_iff.mp h
  have bit : (row == 1).toNat = row := by
    obtain rfl | rfl : row = 0 ∨ row = 1 := by omega
    · rfl
    · rfl
  exact ⟨(Action.image_parse (by omega) hread).trans (bytesAt_all hl), congrArg (Prod.mk 0x08) bit⟩

/-- A row that is accepted says every byte of its image, and stands at the place named. -/
theorem parseRow_eq {table n : Nat} (hl : b.length = rowSize table row) (ht : tableRows? table = some n) (hr : row < n)
    (h : parseRow table row b = some rw) : rw.image = b ∧ rw.place = (table, row) := by
  unfold tableRows? at ht
  split at ht <;> cases ht
  case h_1 => exact numbered_place (fun _ r hread => ⟨r.image_parse hl hread, rfl⟩) h
  case h_2 => exact numbered_place (fun _ r hread => ⟨r.image_parse hl hread, rfl⟩) h
  case h_3 => exact numbered_place (fun _ r hread => ⟨r.image_parse hl hread, rfl⟩) h
  case h_4 => exact parseRow_threshold_eq hl hr h
  case h_5 => exact numbered_place (fun _ r hread => ⟨r.image_parse hl hread, rfl⟩) h
  case h_6 => exact numbered_place (fun _ r hread => ⟨r.image_parse hl hread, rfl⟩) h
  case h_7 => exact numbered_place (fun _ r hread => ⟨r.image_parse hl hread, rfl⟩) h
  case h_8 => exact parseRow_default_eq hl hr h
  case h_9 =>
    obtain ⟨r, hread, rfl⟩ := Option.map_eq_some_iff.mp h
    obtain rfl : row = 0 := by omega
    exact ⟨r.image_parse hl hread, rfl⟩
  case h_10 => cases h
  case h_11 => cases h

end

end Sys2Proof.Machine
end

section
namespace Sys2Proof.Machine

/-! ### Requests at decoding (R32)

The decoder and the cases of R32 read the same tables of section 2.7 and 2.8; an operation's arguments are refused exactly when
one of its fields is out of its range. -/

/-- The status with which a request is refused at decoding. -/
def refusalOf (d : Decoded) : Option MgmtStatus :=
  match d with
  | .ok _ => none
  | .error st => some st

theorem refusalOf_eq_some {d : Decoded} {st : MgmtStatus} : refusalOf d = some st ↔ d = .error st := by
  cases d <;> simp [refusalOf]

theorem refusalOf_eq_none {d : Decoded} : refusalOf d = none ↔ ∃ op, d = .ok op := by
  cases d <;> simp [refusalOf]

/-- Arguments judged together are refused BAD-VALUE exactly when they are out of their ranges. -/
theorem refusalOf_orBadValue {o : Option MgmtOp} {out : Bool} (h : (∃ op, o = some op) ↔ out = false) :
    refusalOf (orBadValue o) = if out = true then some .badValue else none := by
  cases o with
  | none => simp_all [orBadValue, refusalOf]
  | some op => simp_all [orBadValue, refusalOf]

/-! #### The tables of operations, tables and rows -/

theorem requestArgs_lookup (op : Nat) : requestArgs.lookup op = fixedArgs? op := by
  unfold fixedArgs?
  split
  case h_18 => simp_all [List.lookup_eq_none_iff, requestArgs]
  all_goals rfl

theorem rowCounts_lookup (table : Nat) : rowCounts.lookup table = tableRows? table := by
  unfold tableRows?
  split
  case h_12 => simp_all [List.lookup_eq_none_iff, rowCounts]
  all_goals rfl

/-- The tables that can be written, with the size of their rows, are those that exist and are not read-only. -/
theorem imageSizes_lookup (table : Nat) :
    imageSizes.lookup table =
      (tableRows? table).bind fun _ => if readOnlyTable table then none else some (rowSize table 0, rowSize table 1) := by
  unfold tableRows?
  split
  case h_12 => simp_all [List.lookup_eq_none_iff, imageSizes]
  all_goals rfl

theorem rowSize_eq (table row : Nat) : rowSize table row = if row = 0 then rowSize table 0 else rowSize table 1 := by
  unfold rowSize
  split <;> split <;> simp_all

/-! #### Arguments -/

section
variable (a : List Byte)

theorem refusalOf_readStatus : refusalOf (decodeArgs 0x01 a) = argRefusal? 0x01 a := by
  refine refusalOf_orBadValue ?_
  rw [exists_map_eq_some, boolOf?_coded.accepts]
  simp

theorem refusalOf_setMode : refusalOf (decodeArgs 0x02 a) = argRefusal? 0x02 a := by
  refine refusalOf_orBadValue ?_
  rw [exists_map_eq_some, Mode.coded.accepts]
  simp

theorem refusalOf_readRow : refusalOf (decodeArgs 0x04 a) = argRefusal? 0x04 a := by
  simp only [decodeArgs, decodeReadRow, argRefusal?, rowCounts_lookup]
  cases tableRows? (natAt a 0 1) with
  | none => rfl
  | some n =>
    by_cases h : natAt a 1 2 < n
    · simp [refusalOf, h]
    · simp [refusalOf, h, Nat.le_of_not_lt h]

/-- A row image of the right size, for a row that can be written, is refused when a field is out of its range. -/
theorem refusalOf_image {table row n : Nat} {image : List Byte} (hl : image.length = rowSize table row)
    (ht : tableRows? table = some n) (hr : row < n) :
    refusalOf (orBadValue ((parseRow table row image).map .writeRow)) =
      if (!rowInRange table row image) = true then some .badValue else none := by
  refine refusalOf_orBadValue ?_
  rw [exists_map_eq_some, parseRow_accepts hl ht hr, Bool.not_eq_false']

theorem refusalOf_writeRow : refusalOf (decodeArgs 0x05 a) = argRefusal? 0x05 a := by
  simp only [decodeArgs, decodeWriteRow, argRefusal?, rowCounts_lookup, imageSizes_lookup]
  generalize natAt a 0 1 = table, natAt a 1 2 = row, a.drop 3 = image
  cases known : tableRows? table with
  | none => rfl
  | some n =>
    by_cases readOnly : readOnlyTable table = true
    · simp [refusalOf, readOnly]
    · by_cases past : n ≤ row
      · simp [refusalOf, readOnly, past]
      · by_cases size : image.length = rowSize table row
        · have judged := refusalOf_image size known (Nat.lt_of_not_le past)
          simpa [readOnly, past, size, ← rowSize_eq table row] using judged
        · simp [refusalOf, readOnly, past, size, ← rowSize_eq table row]

theorem exists_selected {α : Type} {sel : Byte} {bit : Nat} {o : Option α} :
    (∃ v, selected? sel bit o = some v) ↔ (sel.getLsbD bit = true → ∃ x, o = some x) := by
  unfold selected?
  split
  · next h => simp only [h, forall_const, exists_map_eq_some]
  · next h => simp [h]

/-- A check that lets everything else through. -/
theorem exists_unless {p : Prop} [Decidable p] : (∃ u, (if p then none else some ()) = some u) ↔ ¬p := by
  split <;> simp_all

theorem getLsbD_iff {x : Byte} {n : Nat} (h : x.toNat = n) (i : Nat) : x.getLsbD i = true ↔ n / 2 ^ i % 2 = 1 := by
  rw [BitVec.getLsbD, h, Nat.testBit_eq_decide_div_mod_eq, decide_eq_true_iff]

variable {a}

theorem refusalOf_writeRecord (hl : a.length = 15) : refusalOf (decodeArgs 0x07 a) = argRefusal? 0x07 a := by
  refine refusalOf_orBadValue ?_
  have sel : (byteAt a 8).toNat = natAt a 8 1 := byteAt_toNat (by omega)
  have zero : byteAt a 8 = 0 ↔ natAt a 8 1 = 0 := by rw [← BitVec.toNat_inj, sel]; rfl
  simp only [decodeWriteRecord, Option.bind_eq_bind, Option.pure_def, ite_bind, exists_bind_eq_some, exists_selected,
    Option.some.injEq, exists_eq', exists_and_right, and_true, exists_fin?, exists_within?, exists_unless, zero, sel,
    getLsbD_iff sel, Bool.or_eq_false_iff, Bool.and_eq_false_iff, decide_eq_false_iff_not,
    implies_true, true_and, Nat.pow_zero, Nat.div_one]
  omega

theorem refusalOf_readZone : refusalOf (decodeArgs 0x09 a) = argRefusal? 0x09 a := by
  refine refusalOf_orBadValue ?_
  simp only [Option.bind_eq_bind, Option.pure_def, exists_bind_eq_some, Option.some.injEq, exists_eq', exists_and_right, and_true,
    exists_fin?, boolOf?_coded.accepts, Bool.or_eq_false_iff, decide_eq_false_iff_not]
  omega

theorem refusalOf_listZone : refusalOf (decodeArgs 0x0A a) = argRefusal? 0x0A a := by
  refine refusalOf_orBadValue ?_
  rw [exists_map_eq_some, exists_fin?, decide_eq_false_iff_not]
  omega

theorem refusalOf_readBatch : refusalOf (decodeArgs 0x0B a) = argRefusal? 0x0B a := by
  refine refusalOf_orBadValue ?_
  simp only [Option.bind_eq_bind, Option.pure_def, exists_bind_eq_some, Option.some.injEq, exists_eq', exists_and_right, and_true,
    exists_fin?, exists_within?, Bool.or_eq_false_iff, decide_eq_false_iff_not]
  omega

/-- CLEAR-COUNTERS of a set reads one of its counters, or all of them. -/
theorem decodeClear_accepts {set index : Nat} :
    (∃ op, decodeClear set index = some op) ↔
      (set = 0 ∧ (index < 64 ∨ index = 0xFF)) ∨ (set = 1 ∧ (index < 16 ∨ index = 0xFF)) := by
  unfold decodeClear
  split
  · simp [exists_clearIndex?]
  · simp [exists_clearIndex?]
  · next h0 h1 => simp_all

theorem refusalOf_clearCounters : refusalOf (decodeArgs 0x0C a) = argRefusal? 0x0C a := by
  refine refusalOf_orBadValue ?_
  rw [decodeClear_accepts]
  simp only [Bool.or_eq_false_iff, Bool.and_eq_false_iff, decide_eq_false_iff_not]
  omega

/-- Cases 4 to 7 of R32 refuse the arguments of an operation exactly as the decoder does, where they are not too few, and for an
operation other than WRITE-ROW not too many. -/
theorem refusalOf_decodeArgs {op n : Nat} (hop : fixedArgs? op = some n) (hl : op ≠ 0x05 → a.length = n) :
    refusalOf (decodeArgs op a) = argRefusal? op a := by
  unfold fixedArgs? at hop
  split at hop <;> cases hop
  case h_1 => exact refusalOf_readStatus a
  case h_2 => exact refusalOf_setMode a
  case h_4 => exact refusalOf_readRow a
  case h_5 => exact refusalOf_writeRow a
  case h_7 => exact refusalOf_writeRecord (hl (by decide))
  case h_9 => exact refusalOf_readZone
  case h_10 => exact refusalOf_listZone
  case h_11 => exact refusalOf_readBatch
  case h_12 => exact refusalOf_clearCounters
  all_goals rfl

/-- The status with which the decoder refuses a request body is that of R32. -/
theorem refusalOf_decodeRequest (body : List Byte) : refusalOf (decodeRequest body) = requestRefusal? body := by
  cases body with
  | nil => rfl
  | cons op a =>
    simp only [decodeRequest, requestRefusal?, requestArgs_lookup]
    cases known : fixedArgs? op.toNat with
    | none => rfl
    | some n =>
      simp only []
      by_cases few : a.length < n
      · simp only [few, if_true, true_or, refusalOf]
      · by_cases many : n < a.length ∧ op ≠ 0x05
        · rw [if_pos (Or.inr many), if_neg few, if_pos many]
          rfl
        · have right : op.toNat ≠ 0x05 → a.length = n := fun other => by
            have ne : op ≠ 0x05 := fun e => other (e ▸ rfl)
            have le : ¬n < a.length := fun lt => many ⟨lt, ne⟩
            omega
          rw [if_neg (not_or.mpr ⟨few, many⟩), if_neg few, if_neg many]
          exact refusalOf_decodeArgs known right

end

end Sys2Proof.Machine
end

section
namespace Sys2Proof.Machine

/-! ### Requests refused by mode or by the image store (R176) -/

section
variable {s : State} {t : Telegram} {op : MgmtOp} {c : Instr} {st : MgmtStatus}

/-- What a refusal under R176 leaves behind: a COMPARE-IMAGE refused for the mode sets its result to MISMATCH, and a refused
LOAD-IMAGE has ended and lowers the pause (R182, R183). -/
def State.whenRefused (s : State) : MgmtOp → State
  | .compareImage => if s.mode = .setup then s else { s with store := { s.store with compared := false } }
  | .loadImage => s.setPause false
  | _ => s

theorem State.whenRefused_of_mode (hmode : s.mode ≠ .setup) :
    s.whenRefused op =
      if op = .compareImage then { s with store := { s.store with compared := false } }
      else if op = .loadImage then { s with engine := { s.engine with pause := false } }
      else s := by
  cases op <;> simp [State.whenRefused, State.setPause, hmode]

theorem State.whenRefused_of_store (hmode : op.NeedsSetup → s.mode = .setup) :
    s.whenRefused op = if op = .loadImage then { s with engine := { s.engine with pause := false } } else s := by
  cases op
  case compareImage => simp [State.whenRefused, hmode (.inr (.inr (.inr rfl)))]
  all_goals simp [State.whenRefused, State.setPause]

/-- Row writes of every table are refused in the same way. -/
theorem exec_writeRow_refused {w : RowWrite} (hs : s.Serving t (.writeRow w)) (hc : MgmtOp.command? (.writeRow w) = some c)
    (href : s.refusal? (.writeRow w) = some st) : exec c s = .next (s.reply t st []) := by
  have hop := hs.operation?
  cases w with
  | station i r => cases hc; simp only [exec, execStationWrite, hop, State.serve, href]
  | part r => cases hc; simp only [exec, execPartConfigurationWrite, hop, State.serve, href]
  | zone z r => cases hc; simp only [exec, execZoneConfigurationWrite, hop, State.serve, href]
  | grid i r => cases hc; simp only [exec, execGridWrite, RowWrite.isGrid, hop, State.serve, href, if_true]
  | rh r => cases hc; simp only [exec, execGridWrite, RowWrite.isGrid, hop, State.serve, href, if_true]
  | temp r => cases hc; simp only [exec, execGridWrite, RowWrite.isGrid, hop, State.serve, href, if_true]
  | cls k r => cases hc; simp only [exec, execClassWrite, hs.1, hop, State.serve, href]
  | rule i r => cases hc; simp only [exec, execPolicyTableWrite, RowWrite.isPolicy, hop, State.serve, href, if_true]
  | checker i r => cases hc; simp only [exec, execPolicyTableWrite, RowWrite.isPolicy, hop, State.serve, href, if_true]
  | dflt b r => cases hc; simp only [exec, execPolicyTableWrite, RowWrite.isPolicy, hop, State.serve, href, if_true]

/-- The command of an operation that R176 refuses answers its request with the status of the refusal. -/
theorem exec_refused (hs : s.Serving t op) (hc : op.command? = some c) (href : s.refusal? op = some st) :
    exec c s = .next ((s.whenRefused op).reply t st []) := by
  have hop := hs.operation?
  cases op with
  | setMode m => cases hc; simp only [exec, execSetMode, hop, State.serve, href, State.whenRefused]
  | writeRow w => exact exec_writeRow_refused hs hc href
  | saveImage => cases hc; simp only [exec, execSaveImage, hop, State.serve, href, State.whenRefused]
  | loadImage => cases hc; simp only [exec, execLoadImage, hop, href, State.whenRefused]
  | compareImage =>
    cases hc
    have same : (s.whenRefused .compareImage).refusal? .compareImage = some st := by
      rw [← href, State.whenRefused]
      split <;> rfl
    unfold State.whenRefused at same ⊢
    simp only [exec, execCompareImage, hop, State.serve, same]
  | resetPart => cases hc; simp only [exec, execResetPart, hop, State.serve, href, State.whenRefused]
  | _ => cases hc

/-- Outside SETUP the operations that need it are refused WRONG-MODE, before the store is looked at. -/
theorem refusal?_wrongMode (h : op.NeedsSetup) (hmode : s.mode ≠ .setup) : s.refusal? op = some .wrongMode := by
  rw [State.refusal?, (MgmtOp.setupOnly_iff op).mpr h, if_pos (by simpa using hmode)]

/-- While the store runs the operations that need it are refused STORE-BUSY, where the mode lets them through. -/
theorem refusal?_storeBusy (hmode : op.NeedsSetup → s.mode = .setup) (h : op.NeedsStore s.mode) (hrun : s.store.run ≠ none) :
    s.refusal? op = some .storeBusy := by
  have mode : ¬(op.setupOnly && s.mode != .setup) = true := by
    rw [Bool.and_eq_true, MgmtOp.setupOnly_iff]
    exact fun ⟨need, other⟩ => bne_iff_ne.mp other (hmode need)
  have store : (op.needsStore s.mode && s.store.run.isSome) = true := by
    rw [Bool.and_eq_true, MgmtOp.needsStore_iff]
    exact ⟨h, Option.isSome_iff_ne_none.mpr hrun⟩
  rw [State.refusal?, if_neg mode, if_pos store]

/-- A request that does not pass decoding is answered with the status that R32 gives it. -/
theorem exec_unknownOp (hp : s.agent.phase = .executing t) (hr : s.running = true) (h : decodeRequest t.body = .error st) :
    exec .unknownOp s = .next (s.reply t st []) := by
  simp only [exec, execUnknownOp, State.request?, hp, hr, if_true, h]

end

/-- Settles O35. -/
theorem requestsRefused : Obligations.RequestsRefused := by
  unfold Obligations.RequestsRefused
  intro s t
  have decoded : refusalOf (decodeRequest t.body) = requestRefusal? t.body := refusalOf_decodeRequest t.body
  refine ⟨?_, fun st hp hr href => exec_unknownOp hp hr (refusalOf_eq_some.mp (decoded.trans href)), ?_, ?_⟩
  · cases href : requestRefusal? t.body with
    | none => exact refusalOf_eq_none.mp (decoded.trans href)
    | some st => exact refusalOf_eq_some.mp (decoded.trans href)
  · intro op c u hs hc need hmode hu
    have refused := exec_refused hs hc (refusal?_wrongMode need hmode)
    rwa [State.whenRefused_of_mode hmode, ← hu] at refused
  · intro op c u hs hc hmode need hrun hu
    have refused := exec_refused hs hc (refusal?_storeBusy hmode need hrun)
    rwa [State.whenRefused_of_store hmode, ← hu] at refused

end Sys2Proof.Machine
end

section
namespace Sys2Proof.Machine

/-! ### Request bodies said back (R32; 02, section 2.7) -/

section
variable {a : List Byte} {op : MgmtOp}

theorem orBadValue_eq_ok {o : Option MgmtOp} : orBadValue o = .ok op ↔ o = some op := by
  cases o <;> simp [orBadValue]

/-! #### The fields that WRITE-RECORD selects -/

section
variable {α : Type} {sel : Byte} {bit : Nat} {o : Option α} {v : Option α}

/-- A field is there exactly when its bit is set. -/
theorem selected_isSome (h : selected? sel bit o = some v) : v.isSome = sel.getLsbD bit := by
  unfold selected? at h
  split at h
  · next set =>
    obtain ⟨x, -, rfl⟩ := Option.map_eq_some_iff.mp h
    exact set.symm
  · next clear =>
    cases h
    exact (Bool.eq_false_of_not_eq_true clear).symm

/-- A field that is there is the one read, so that a number it is read from stands for it either way. -/
theorem selected_getD {write : α → Nat} {n : Nat} (h : selected? sel bit o = some v) (reads : ∀ x, o = some x → write x = n) :
    (v.map write).getD n = n := by
  unfold selected? at h
  split at h
  · obtain ⟨x, hx, rfl⟩ := Option.map_eq_some_iff.mp h
    exact reads x hx
  · cases h
    rfl

end

/-- A select byte in its range is made up of its four bits. -/
theorem selectByte_bits {sel : Byte} (h : sel.toNat ≤ 0x0F) :
    (sel.getLsbD 0).toNat + 2 * (sel.getLsbD 1).toNat + 4 * (sel.getLsbD 2).toNat + 8 * (sel.getLsbD 3).toNat = sel.toNat := by
  simp only [BitVec.getLsbD, Nat.toNat_testBit]
  omega

theorem body_writeRecord (hl : a.length = 15) (h : decodeWriteRecord a = some op) : op.body (a.drop 9) = 0x07 :: a := by
  simp only [decodeWriteRecord, Option.bind_eq_bind, Option.pure_def, ite_bind, Option.bind_eq_some_iff, Option.some.injEq,
    Option.ite_none_left_eq_some] at h
  obtain ⟨_, ⟨range, -⟩, cls, hcls, minutes, hminutes, bake, hbake, rfl⟩ := h
  have sel : (byteAt a 8).toNat = natAt a 8 1 := byteAt_toNat (by omega)
  have bits := selectByte_bits (sel := byteAt a 8) (by omega)
  have clsField : (cls.map Fin.val).getD (natAt a 9 1) = natAt a 9 1 := selected_getD hcls fun _ => fin?_eq_some.mp
  have minutesField : minutes.getD (natAt a 10 4) = natAt a 10 4 := by
    simpa using selected_getD (write := id) hminutes fun _ e => (Option.some.inj e).symm
  have bakeField : bake.getD (natAt a 14 1) = natAt a 14 1 := by
    simpa using selected_getD (write := id) hbake fun _ e => (within?_eq_some.mp e).1
  simp only [MgmtOp.body, selected_isSome hcls, selected_isSome hminutes, selected_isSome hbake, bits, sel, natAt_drop, clsField,
    minutesField, bakeField, Nat.reduceAdd, List.cons_append, List.nil_append]
  simp (disch := omega) only [idBytes_idAt, beBytes_natAt, bytesAt_join, bytesAt_all]

/-! #### The operations -/

theorem decodeReadRow_ok {table row : Nat} (h : decodeReadRow table row = .ok op) : op = .readRow table row := by
  unfold decodeReadRow at h
  split at h
  · cases h
  · split at h
    · exact (Except.ok.inj h).symm
    · cases h

/-- A WRITE-ROW that passes decoding writes the row it has read, of a row number that exists and an image of its size. -/
theorem decodeWriteRow_ok {table row : Nat} {image : List Byte} (h : decodeWriteRow table row image = .ok op) :
    ∃ n rw, tableRows? table = some n ∧ row < n ∧ image.length = rowSize table row ∧ parseRow table row image = some rw ∧
      op = .writeRow rw := by
  unfold decodeWriteRow at h
  split at h
  · cases h
  · next n known =>
    split_ifs at h with readOnly past size
    obtain ⟨rw, hread, rfl⟩ := Option.map_eq_some_iff.mp (orBadValue_eq_ok.mp h)
    exact ⟨n, rw, known, Nat.lt_of_not_le past, not_not.mp size, hread, rfl⟩

theorem body_writeRow (hl : 3 ≤ a.length) (h : decodeWriteRow (natAt a 0 1) (natAt a 1 2) (a.drop 3) = .ok op) :
    op.body (a.drop 9) = 0x05 :: a := by
  obtain ⟨n, rw, known, exist, size, hread, rfl⟩ := decodeWriteRow_ok h
  obtain ⟨image, place⟩ := parseRow_eq size known exist hread
  simp only [MgmtOp.body, image, place, List.cons_append, List.nil_append]
  simp (disch := omega) only [beBytes_natAt, bytesAt_join]
  exact congrArg (List.cons 0x05) (List.take_append_drop 3 a)

theorem body_clearCounters (hl : a.length = 2) (h : decodeClear (natAt a 0 1) (natAt a 1 1) = some op) :
    op.body (a.drop 9) = 0x0C :: a := by
  have whole : beBytes 1 (natAt a 0 1) ++ beBytes 1 (natAt a 1 1) = a := by
    simp (disch := omega) only [beBytes_natAt, bytesAt_join, bytesAt_all]
  unfold decodeClear at h
  split at h
  · next set =>
    obtain ⟨i, hi, rfl⟩ := Option.map_eq_some_iff.mp h
    rw [← whole, set, ← (clearIndex?_eq_some (by decide)).mp hi]
    rfl
  · next set =>
    obtain ⟨i, hi, rfl⟩ := Option.map_eq_some_iff.mp h
    rw [← whole, set, ← (clearIndex?_eq_some (by decide)).mp hi]
    rfl
  · cases h

/-- The arguments of an operation that passes decoding, behind its code, are its body. -/
theorem body_decodeArgs {code n : Nat} (hop : fixedArgs? code = some n) (least : n ≤ a.length)
    (hl : code ≠ 0x05 → a.length = n) (h : decodeArgs code a = .ok op) : op.body (a.drop 9) = BitVec.ofNat 8 code :: a := by
  unfold fixedArgs? at hop
  split at hop <;> cases hop
  case h_1 =>
    obtain ⟨page, hpage, rfl⟩ := Option.map_eq_some_iff.mp (orBadValue_eq_ok.mp h)
    rw [MgmtOp.body, boolOf?_coded.eq_some.mp hpage, beBytes_natAt least, bytesAt_all (hl (by decide))]
    rfl
  case h_2 =>
    obtain ⟨mode, hmode, rfl⟩ := Option.map_eq_some_iff.mp (orBadValue_eq_ok.mp h)
    rw [MgmtOp.body, Mode.coded.eq_some.mp hmode, beBytes_natAt least, bytesAt_all (hl (by decide))]
    rfl
  case h_3 =>
    cases h
    rw [MgmtOp.body, beBytes_natAt least, bytesAt_all (hl (by decide))]
    rfl
  case h_4 =>
    have size : a.length = 3 := hl (by decide)
    rw [decodeReadRow_ok h, MgmtOp.body, List.append_assoc]
    simp (disch := omega) only [beBytes_natAt, bytesAt_join, bytesAt_all]
    rfl
  case h_5 => exact body_writeRow least h
  case h_6 =>
    cases h
    rw [MgmtOp.body, idBytes_idAt least, bytesAt_all (hl (by decide))]
    rfl
  case h_7 => exact body_writeRecord (hl (by decide)) (orBadValue_eq_ok.mp h)
  case h_8 =>
    cases h
    rw [MgmtOp.body, idBytes_idAt least, bytesAt_all (hl (by decide))]
    rfl
  case h_9 =>
    have size : a.length = 2 := hl (by decide)
    have read := orBadValue_eq_ok.mp h
    simp only [Option.bind_eq_bind, Option.pure_def, Option.bind_eq_some_iff, Option.some.injEq, fin?_eq_some,
      boolOf?_coded.eq_some] at read
    obtain ⟨z, hz, page, hpage, rfl⟩ := read
    rw [MgmtOp.body, hz, hpage, List.append_assoc]
    simp (disch := omega) only [beBytes_natAt, bytesAt_join, bytesAt_all]
    rfl
  case h_10 =>
    have size : a.length = 3 := hl (by decide)
    obtain ⟨z, hz, rfl⟩ := Option.map_eq_some_iff.mp (orBadValue_eq_ok.mp h)
    rw [MgmtOp.body, fin?_eq_some.mp hz, List.append_assoc]
    simp (disch := omega) only [beBytes_natAt, bytesAt_join, bytesAt_all]
    rfl
  case h_11 =>
    have size : a.length = 2 := hl (by decide)
    have read := orBadValue_eq_ok.mp h
    simp only [Option.bind_eq_bind, Option.pure_def, Option.bind_eq_some_iff, Option.some.injEq, fin?_eq_some,
      within?_eq_some] at read
    obtain ⟨b, hb, _, ⟨rfl, -⟩, rfl⟩ := read
    rw [MgmtOp.body, hb, List.append_assoc]
    simp (disch := omega) only [beBytes_natAt, bytesAt_join, bytesAt_all]
    rfl
  case h_12 => exact body_clearCounters (hl (by decide)) (orBadValue_eq_ok.mp h)
  all_goals
    cases h
    rw [List.length_eq_zero_iff.mp (hl (by decide))]
    rfl

/-- A request that passes decoding has the arguments of its operation: exactly so many, or for WRITE-ROW at least so many. -/
theorem decodeRequest_ok {code : Byte} (h : decodeRequest (code :: a) = .ok op) :
    ∃ n, fixedArgs? code.toNat = some n ∧ n ≤ a.length ∧ (code.toNat ≠ 0x05 → a.length = n) ∧
      decodeArgs code.toNat a = .ok op := by
  unfold decodeRequest at h
  cases known : fixedArgs? code.toNat with
  | none => simp only [known, reduceCtorEq] at h
  | some n =>
    simp only [known] at h
    split_ifs at h with few many
    refine ⟨n, rfl, Nat.le_of_not_lt few, fun other => ?_, h⟩
    have ne : code ≠ 0x05 := fun e => other (e ▸ rfl)
    have le : ¬n < a.length := fun lt => many ⟨lt, ne⟩
    omega

theorem body_decodeRequest {body : List Byte} (h : decodeRequest body = .ok op) : op.body (body.drop 10) = body := by
  cases body with
  | nil => cases h
  | cons code a =>
    obtain ⟨n, hop, least, hl, hargs⟩ := decodeRequest_ok h
    simpa using body_decodeArgs hop least hl hargs

end

/-- Settles O60. -/
theorem rowImagesRoundTrip : Obligations.RowImagesRoundTrip := by
  unfold Obligations.RowImagesRoundTrip
  refine ⟨fun table row b hl ⟨n, ht, hr⟩ => ?_, fun body op => body_decodeRequest⟩
  exact ⟨parseRow_accepts hl ht hr, fun rw => parseRow_eq hl ht hr⟩

end Sys2Proof.Machine
end

section
namespace Sys2Proof.Machine

/-! ### The take and its classification (R22, R132) -/

section
variable {s : State} {tel : Telegram}

/-- In IDLE, with no pause and no freeze begun, the head of the Floor receive queue is taken and classified. -/
theorem exec_transactionTake {rest : List Telegram} (hq : s.floor.queue = tel :: rest) (hl : s.live = true)
    (hp : s.engine.phase = .idle) (hpause : s.engine.pause = false) :
    exec .transactionTake s = .next ({ s with floor := { s.floor with queue := rest } }.classify tel) := by
  simp only [exec, execTransactionTake, hq, hl, hp, hpause, and_self, if_true]

section
variable (own : tel.dest = s.tables.part.own)
include own

theorem classify_query (hk : tel.kind = kindQuery) (pass : PassesR24 8 [0] tel.body) :
    s.classify tel = s.engineTo .lookup (s.newWork tel) := by
  have good : ¬queryMalformed tel.body = true := by simp [(queryMalformed_iff tel.body).mpr pass]
  rw [State.classify, if_pos own, if_pos hk, if_neg good]

theorem classify_query_malformed (hk : tel.kind = kindQuery) (fails : ¬PassesR24 8 [0] tel.body) :
    s.classify tel =
      (s.countFault .malformed).placeOutput (s.newWork tel) .answer (s.bareAnswer tel .malformed none) := by
  have bad : queryMalformed tel.body = true := Bool.not_eq_false _ ▸ (queryMalformed_iff tel.body).not.mpr fails
  rw [State.classify, if_pos own, if_pos hk, if_pos bad]

theorem classify_notPermitted (hk : tel.kind ≠ kindQuery) :
    s.classify tel =
      (s.countFault .notPermitted).placeOutput (s.newWork tel) .answer (s.bareAnswer tel .notPermitted none) := by
  rw [State.classify, if_pos own, if_neg hk]

end

section
variable (away : tel.dest ≠ s.tables.part.own)
include away

/-- A transaction: its station first (R132 step 1), then its body (step 2). -/
theorem classify_transaction {k : TxKind} (hk : TxKind.ofByte? tel.kind = some k) :
    s.classify tel =
      if (s.tables.station tel.source).cls = .unassigned then s.faulted (s.newWork tel) .stationUnknown
      else if k.malformed tel.body then s.faulted (s.newWork tel) .malformed
      else s.engineTo .lookup (s.newWork tel) := by
  rw [State.classify, if_neg away, hk]
  rfl

theorem classify_other (hk : TxKind.ofByte? tel.kind = none) :
    s.classify tel =
      if tel.kind = 0x20 then
        if tel.body.length = 6 then s.engineAsks .offering (s.newWork tel)
        else s.rejectAmbient.placeOutput (s.newWork tel) .upRelay tel
      else s.placeOutput (s.newWork tel) .upRelay tel := by
  rw [State.classify, if_neg away, hk]
  rfl

end

end

/-! ### Stations, zones, kinds and fields (R22, R25; 02, section 2.3) -/

theorem Tables.station_row (t : Tables) (i : Fin 255) : t.station (BitVec.ofNat 8 i.val) = t.stations[i.val] := by
  have number : (BitVec.ofNat 8 i.val).toNat = i.val := by simp only [BitVec.toNat_ofNat]; omega
  simp only [Tables.station, number, i.isLt, dif_pos]

theorem zone?_eq_some (n : Nat) (z : Fin 32) : zone? n = some z ↔ n = z.val := by
  unfold zone?
  split
  · simp [Fin.ext_iff]
  · simp only [reduceCtorEq, false_iff]
    omega

/-- The kinds of a transaction, in the order of their codes. -/
theorem TxKind.ofByte?_eq_some (kind : Byte) (k : TxKind) :
    TxKind.ofByte? kind = some k ↔
      kind.toNat = 0x10 + [TxKind.open_, .store, .issue, .move, .mount, .demount, .bakeIn, .bakeOut, .split, .close].idxOf k := by
  constructor
  · unfold TxKind.ofByte?
    split <;> rintro ⟨⟩
    all_goals assumption
  · intro h
    unfold TxKind.ofByte?
    rw [h]
    cases k <;> rfl

section
variable {t : Telegram}

theorem carrierIdOf_field (h : 8 ≤ t.body.length) : FieldAt t.body 0 8 (some (carrierIdOf t).toNat) :=
  fieldAt_natAt h (toNat_natAt 0 8 rfl)

theorem childIdOf_field (h : 16 ≤ t.body.length) : FieldAt t.body 8 8 (some (childIdOf t).toNat) :=
  fieldAt_natAt h (toNat_natAt 8 8 rfl)

theorem openClassOf_field (h : 9 ≤ t.body.length) : FieldAt t.body 8 1 (some (openClassOf t)) :=
  fieldAt_natAt h (byteAt_toNat h)

theorem openMinutesOf_field (h : 12 ≤ t.body.length) : FieldAt t.body 10 2 (some (openMinutesOf t)) := fieldAt_natAt h rfl

end

/-- Settles O11. -/
theorem transactionTakeRoutes : Obligations.TransactionTakeRoutes := by
  unfold Obligations.TransactionTakeRoutes
  refine ⟨fun s u tel rest hq hl hp hpause hu => ?_, Tables.station_row, zone?_eq_some, TxKind.ofByte?_eq_some, fun t =>
    ⟨carrierIdOf_field, childIdOf_field, fun h => ⟨openClassOf_field h, openClassOf_field h⟩, openMinutesOf_field⟩⟩
  have taken : exec .transactionTake s = .next (u.classify tel) := hu ▸ exec_transactionTake hq hl hp hpause
  have tables : s.tables = u.tables := hu ▸ rfl
  have kinds := bodyForms_lookup tel.kind
  refine ⟨s.newWork tel, s.newWork_taken tel, ?_⟩
  rw [tables]
  refine ⟨?_, ?_, ?_, ?_, ?_, ?_, ?_⟩
  · intro own hk pass
    rw [taken, classify_query own hk pass, hu]
    rfl
  · intro own hk fails
    rw [taken, classify_query_malformed own hk fails, hu]
    rfl
  · intro own hk
    rw [taken, classify_notPermitted own hk, hu]
    rfl
  · intro size ids away form
    rw [kinds, Option.map_eq_some_iff] at form
    obtain ⟨k, hk, form⟩ := form
    cases form
    rw [taken, classify_transaction away hk]
    refine ⟨fun unassigned => ?_, fun assigned fails => ?_, fun assigned pass => ?_⟩
    · rw [if_pos unassigned, hu]
      rfl
    · have bad : k.malformed tel.body = true := Bool.not_eq_false _ ▸ (TxKind.malformed_iff k tel.body).not.mpr fails
      rw [if_neg assigned, if_pos bad, hu]
      rfl
    · have good : ¬k.malformed tel.body = true := by simp [(TxKind.malformed_iff k tel.body).mpr pass]
      rw [if_neg assigned, if_neg good, hu]
      rfl
  · intro away hk size
    have none : TxKind.ofByte? tel.kind = none := hk ▸ rfl
    rw [taken, classify_other away none, if_pos hk, if_pos size, hu]
    rfl
  · intro away hk size
    have none : TxKind.ofByte? tel.kind = none := hk ▸ rfl
    rw [taken, classify_other away none, if_pos hk, if_neg size, hu]
    rfl
  · intro away form hk
    rw [kinds, Option.map_eq_none_iff] at form
    rw [taken, classify_other away form, if_neg hk, hu]
    rfl

end Sys2Proof.Machine
end

section
namespace Sys2Proof.Machine

/-! ### O59: the state after reset -/

theorem State.reset_record? (i : Nat) : State.reset.record? i = none := rfl

theorem State.reset_zone (z : Fin 32) : State.reset.zone z = .cleared 128 := by
  simp [State.zone, State.reset]

theorem State.reset_queuesBounded : State.reset.QueuesBounded := by constructor <;> decide

theorem State.reset_work {w : Work} : State.reset.engine.work ≠ some w := fun h => nomatch (show none = some w from h)

theorem State.reset_phase : State.reset.engine.phase = .idle := rfl

theorem State.reset_no_record {i : Nat} {r : Record} : State.reset.record? i ≠ some r :=
  fun h => nomatch (show none = some r from h)

theorem State.reset_classesBounded : State.reset.ClassesBounded where
  tables c := by simp [State.reset, Tables.default, ClassRow.default]
  image x h := nomatch (show none = some x from h)
  run c source seq h := nomatch (show none = some (ImageRun.save c source seq) from h)
  copy c h := nomatch (show none = some c from h)
  rekeying t c row h := nomatch (show AgentPhase.idle = .rekeying t c row from h)

theorem State.reset_countsBounded : State.reset.CountsBounded where
  floor := by constructor <;> decide
  plant := by constructor <;> decide
  ambient := by decide
  agent := by decide
  rules i := by simp [State.reset]
  faults i := by simp [State.reset]
  wear z := by simp [State.reset, Zone.cleared]
  dry z := by simp [State.reset, Zone.cleared]
  monotonic := by decide
  offset := by decide
  loss := by decide
  classes := State.reset_classesBounded
  consumed _ _ h := absurd h State.reset_no_record
  bakeCount _ _ h := absurd h State.reset_no_record

theorem CarrierTable.empty_canonical : CarrierTable.empty.Canonical where
  records := .nil
  chains := .nil
  nonempty _ h := nomatch (show _ ∈ [] from h)

/-- The Carrier Table of a POWER-ON start: no record is in use, every way is free, and the free list holds the pool (R58). -/
theorem CarrierTable.empty_right : CarrierTable.empty.Right where
  canonical := CarrierTable.empty_canonical
  indices _ r h := nomatch (show none = some r from h)
  once := List.nodup_range'
  pool i := by
    rw [CarrierTable.empty, List.mem_range'_1]
    exact ⟨fun ⟨low, high⟩ => ⟨low, high, rfl⟩, fun ⟨low, high, _⟩ => ⟨low, high⟩⟩
  total := by simp [CarrierTable.freeWays, CarrierTable.empty, lookupKey]
  classes c := by simp [CarrierTable.countOf, CarrierTable.empty]

theorem State.reset_placesRight : State.reset.PlacesRight where
  table := CarrierTable.empty_right
  placed _ _ h := absurd h State.reset_no_record
  chained _ i h := nomatch (show i ∈ [] from h)
  once _ := .nil
  single _ _ _ _ h := absurd h State.reset_no_record
  opening _ _ _ h := absurd h State.reset_work
  splitting _ _ _ h := absurd h State.reset_work
  creating _ _ h := absurd h State.reset_work

theorem State.reset_listsRight : State.reset.ListsRight where
  table := CarrierTable.empty_right
  once z := by rw [State.reset_zone]; exact .nil
  ordered z := by rw [State.reset_zone]; exact .nil
  member z i h := by rw [State.reset_zone] at h; cases h
  listed _ _ h := absurd h State.reset_no_record
  zoned _ _ h := absurd h State.reset_no_record
  baking _ _ h := absurd h State.reset_no_record
  held _ _ _ h := absurd h State.reset_work
  unlinked _ _ h := nomatch (show EnginePhase.idle = .commitDelete from h.1)
  created _ _ h := nomatch (show EnginePhase.idle = .commitRelist from h.1)
  creating _ _ h := absurd h State.reset_work
  stopped _ := State.reset_phase

theorem State.reset_batches {b : Fin 16} {x : Batch} : State.reset.batches[b.val] ≠ some x := by simp [State.reset]

theorem State.reset_batchesRight : State.reset.BatchesRight where
  ovens _ _ _ _ h := absurd h State.reset_batches
  size _ _ h := absurd h State.reset_batches
  member _ _ _ h := absurd h State.reset_batches
  baking _ _ _ h := absurd h State.reset_no_record
  single _ _ _ _ _ h := absurd h State.reset_batches
  joining _ _ _ _ h := absurd h State.reset_work
  leaving _ _ _ h := absurd h State.reset_work
  bakeIn _ _ _ h := absurd h.1 State.reset_work
  bakeOut _ _ _ h := absurd h.1 State.reset_work
  close _ _ _ h := absurd h.1 State.reset_work
  deleting _ _ h := absurd h State.reset_work
  relisted _ _ _ h := absurd h State.reset_work

/-- Both transmitters are in STARTING (R19). -/
theorem State.reset_idleMeansEmpty : State.reset.IdleMeansEmpty where
  floor h := nomatch (show TxState.starting = .idle from h)
  plant h := nomatch (show TxState.starting = .idle from h)

/-- Settles O59. -/
theorem resetMeetsInvariants : Obligations.ResetMeetsInvariants :=
  ⟨State.reset_queuesBounded, State.reset_countsBounded, CarrierTable.empty_right.canonical, CarrierTable.empty_right,
    State.reset_placesRight, State.reset_listsRight, State.reset_batchesRight, State.reset_idleMeansEmpty,
    State.reset_record?⟩

/-! ### O15: the free-record probe -/

/-- The zone that a key names is the zone of the body, or that of the settled carrier for a kind that names none (R111). -/
theorem Work.target?_eq {w : Work} {k : TxKind} (hk : TxKind.ofByte? w.tel.kind = some k) :
    w.target? =
      if k = .bakeIn ∨ k = .close then (w.settled.bind Record.zonePart).map ZonePart.zone else zone? w.zone := by
  unfold Work.target?
  rw [hk]
  cases k <;> rfl

/-- The decision reading moves the engine alone (R128). -/
theorem State.decisionReading_eq (s : State) (w : Work) (k : TxKind) :
    s.decisionReading w k = { s with engine := (s.decisionReading w k).engine } := by
  unfold State.decisionReading
  split <;> rfl

/-- The decision reading, with its key and source values, is the one that R110 to R114 ask for. -/
theorem State.decisionReading_decides (s : State) {w : Work} {k : TxKind} (hk : TxKind.ofByte? w.tel.kind = some k) :
    s.Decides (s.decisionReading w k) w k := by
  refine ⟨_, _, _, _, _, rfl, rfl, rfl, rfl, rfl, ?_⟩
  rw [← Work.target?_eq hk]
  unfold State.decisionReading
  split
  · rfl
  · rfl

/-- The probe answers "room" for a free way of the set or a free pool record (R43). -/
theorem CarrierTable.room_iff (t : CarrierTable) (id : CarrierId) :
    t.room id = true ↔ (∃ i ∈ waysOf (setIndex id), lookupKey t.records i = none) ∨ t.poolFree ≠ [] := by
  simp [CarrierTable.room, CarrierTable.freeWay?]

/-- FREE_RECORD_PROBE of a transaction (R43, R140). -/
theorem exec_freeRecordProbe {s : State} {w : Work} {k : TxKind} (hp : s.engine.phase = .probe) (hw : s.engine.work = some w)
    (hr : s.running = true) (hk : TxKind.ofByte? w.tel.kind = some k) :
    exec .freeRecordProbe s =
      .next (if s.table.room (newIdOf w.tel k) then s.decisionReading w k else s.faulted w .tableFull) := by
  simp only [exec, execFreeRecordProbe, hp, hw, hr, if_true, hk]

/-- Settles O15. -/
theorem freeRecordProbeAnswers : Obligations.FreeRecordProbeAnswers := by
  intro s w k hp hw hr hk
  rw [exec_freeRecordProbe hp hw hr hk]
  refine ⟨fun free => ?room, fun ways pool => ?full⟩
  case room =>
    rw [if_pos ((s.table.room_iff _).mpr free)]
    exact ⟨_, rfl, s.decisionReading_eq w k, s.decisionReading_decides hk⟩
  case full =>
    rw [if_neg fun room => ?_]
    · rfl
    · rcases (s.table.room_iff _).mp room with ⟨i, hi, free⟩ | hasFree
      · exact ways i hi free
      · exact hasFree pool

end Sys2Proof.Machine
end

section
namespace Sys2Proof.Machine

/-! ### O55: what an operation may do to the Carrier Table

`CarrierTable.Kept` is the relation between a table before and after an operation that brings no new record: it keeps the
canonical form, the counts and the places, and adds no ID. It is transitive, so a command is followed operation by operation. A
create, which adds an ID, is treated by itself. -/

section
variable {α : Type}

theorem mem_of_lookupKey {l : List (Nat × α)} {k : Nat} {v : α} (h : lookupKey l k = some v) : (k, v) ∈ l := by
  induction l with
  | nil => cases h
  | cons p rest ih =>
    obtain ⟨k', v'⟩ := p
    simp only [lookupKey] at h
    split at h
    · next hk => cases h; exact hk ▸ List.mem_cons_self
    · exact List.mem_cons_of_mem _ (ih h)

/-- Taking out the entry at a key leaves the others. -/
theorem perm_eraseKey {l : List (Nat × α)} {k : Nat} {v : α} (h : lookupKey l k = some v) : l.Perm ((k, v) :: eraseKey l k) := by
  induction l with
  | nil => cases h
  | cons p rest ih =>
    obtain ⟨k', v'⟩ := p
    simp only [lookupKey] at h
    simp only [eraseKey]
    split at h
    · next hk => cases h; rw [if_pos hk, hk]
    · next hk => rw [if_neg hk]; exact ((ih h).cons _).trans (.swap _ _ _)

/-- Writing at a free key adds one entry. -/
theorem perm_insertKey_new {l : List (Nat × α)} {k : Nat} (v : α) (h : lookupKey l k = none) :
    (insertKey l k v).Perm ((k, v) :: l) := by
  induction l with
  | nil => exact .refl _
  | cons p rest ih =>
    obtain ⟨k', v'⟩ := p
    simp only [lookupKey] at h
    simp only [insertKey]
    split at h
    · cases h
    · next hk =>
      rw [if_neg hk]
      split
      · exact .refl _
      · exact ((ih h).cons _).trans (.swap _ _ _)

/-- Writing at a key in use replaces its entry. -/
theorem perm_insertKey_old {l : List (Nat × α)} (h : KeysRising l) {k : Nat} {old : α} (hk : lookupKey l k = some old) (v : α) :
    (insertKey l k v).Perm ((k, v) :: eraseKey l k) := by
  induction l with
  | nil => cases hk
  | cons p rest ih =>
    obtain ⟨k', v'⟩ := p
    simp only [KeysRising, List.pairwise_cons] at h
    simp only [lookupKey] at hk
    simp only [insertKey, eraseKey]
    split at hk
    · next same => subst same; simp
    · next other =>
      have above : ¬k < k' := Nat.not_lt.mpr (Nat.le_of_lt (h.1 _ (mem_of_lookupKey hk)))
      rw [if_neg above, if_neg other, if_neg other]
      exact ((ih h.2 hk).cons _).trans (.swap _ _ _)

end

/-! #### Free ways and counts -/

/-- A number of `range n` that a filter passes, and nothing else, is one more than none of it. -/
theorem filter_range_succ {n k : Nat} {p q : Nat → Bool} (hk : k < n) (hp : p k = true) (hq : q k = false)
    (others : ∀ j, j ≠ k → q j = p j) : ((List.range n).filter p).length = ((List.range n).filter q).length + 1 := by
  have erased : (List.range n).filter q = ((List.range n).filter p).erase k := by
    rw [(List.nodup_range.filter p).erase_eq_filter, List.filter_filter]
    refine List.filter_congr fun j _ => ?_
    by_cases hj : j = k
    · simp [hj, hq]
    · simp [hj, others j hj]
  have among : k ∈ (List.range n).filter p := List.mem_filter.mpr ⟨List.mem_range.mpr hk, hp⟩
  rw [erased, List.length_erase_of_mem among]
  have := List.length_pos_of_mem among
  omega

section
variable {a b : CarrierTable} {i : Nat}

/-- A way that is filled is one free way less. -/
theorem CarrierTable.freeWays_filled (free : lookupKey a.records i = none) (full : lookupKey b.records i ≠ none)
    (others : ∀ j, j ≠ i → lookupKey b.records j = lookupKey a.records j) :
    a.freeWays = b.freeWays + if i < 3072 then 1 else 0 := by
  unfold CarrierTable.freeWays
  split
  · next way =>
    exact filter_range_succ way (by simp [free]) (by simpa [Option.isSome_iff_ne_none] using full) fun j hj => by rw [others j hj]
  · next way =>
    have same : ∀ j ∈ List.range 3072, (lookupKey a.records j).isNone = (lookupKey b.records j).isNone := fun j hj => by
      rw [others j fun h => way (h ▸ List.mem_range.mp hj)]
    rw [Nat.add_zero, List.filter_congr same]

theorem CarrierTable.freeWays_congr (h : ∀ j, (lookupKey b.records j).isNone = (lookupKey a.records j).isNone) :
    b.freeWays = a.freeWays := by
  unfold CarrierTable.freeWays
  simp only [h]

/-- The number of records of a class, one of them set apart. -/
theorem CarrierTable.countOf_perm {j : Nat} {q : Record} {rest : List (Nat × Record)} (h : a.records.Perm ((j, q) :: rest))
    (c : Fin 16) : a.countOf c = (rest.filter fun p => p.2.cls == c).length + if q.cls = c then 1 else 0 := by
  unfold CarrierTable.countOf
  rw [(h.filter _).length_eq, List.filter_cons]
  by_cases hc : q.cls = c <;> simp [hc]

theorem Vector.set_fin {n : Nat} {β : Type} (v : Vector β n) (k c : Fin n) (x : β) :
    (v.set k.val x)[c.val] = if k = c then x else v[c.val] := by
  simp [Vector.getElem_set, Fin.ext_iff]

/-! #### The counts of the table (R41, R53) -/

/-- A record is placed at a free index, a way or the head of the pool, and counted into its class. -/
theorem CarrierTable.Right.inserted (h : a.Right) {r : Record} (free : lookupKey a.records i = none) (hb : b.Canonical)
    (records : b.records = insertKey a.records i r)
    (counts : b.classCounts = a.classCounts.set r.cls.val (a.classCounts[r.cls.val] + 1))
    (pool : (i < 3072 ∧ b.poolFree = a.poolFree) ∨ a.poolFree = i :: b.poolFree) : b.Right := by
  have here : lookupKey b.records i = some r := by rw [records, lookupKey_insertKey_self]
  have others : ∀ j, j ≠ i → lookupKey b.records j = lookupKey a.records j :=
    fun j hj => by rw [records, lookupKey_insertKey_ne _ _ hj]
  have perm : b.records.Perm ((i, r) :: a.records) := records ▸ perm_insertKey_new r free
  have inPool : ¬i < 3072 → a.poolFree = i :: b.poolFree := fun way => pool.resolve_left fun h => way h.1
  have low : i < 3072 → b.poolFree = a.poolFree := fun way =>
    (pool.resolve_right fun head => by
      have := (h.pool i).mp (head ▸ List.mem_cons_self)
      omega).2
  refine ⟨hb, fun j q hj => ?indices, ?once, fun j => ?pool, ?total, fun c => ?classes⟩
  case indices =>
    by_cases hji : j = i
    · subst hji
      by_cases way : j < 3072
      · omega
      · exact ((h.pool j).mp (inPool way ▸ List.mem_cons_self)).2.1
    · exact h.indices j q (others j hji ▸ hj)
  case once =>
    by_cases way : i < 3072
    · rw [low way]; exact h.once
    · have := h.once
      rw [inPool way] at this
      exact (List.nodup_cons.mp this).2
  case pool =>
    by_cases way : i < 3072
    · rw [low way, h.pool]
      refine and_congr_right fun high => and_congr_right fun _ => ?_
      rw [others j (by omega)]
    · have once := h.once
      rw [inPool way, List.nodup_cons] at once
      by_cases hji : j = i
      · subst hji
        simp [once.1, here]
      · rw [others j hji, ← h.pool, inPool way]
        simp [hji]
  case total =>
    have total := h.total
    have ways := CarrierTable.freeWays_filled free (here ▸ Option.some_ne_none r) others
    have length := perm.length_eq
    rw [List.length_cons] at length
    by_cases way : i < 3072
    · rw [if_pos way] at ways
      rw [low way]
      omega
    · rw [if_neg way] at ways
      rw [inPool way, List.length_cons] at total
      omega
  case classes =>
    rw [counts, Vector.set_fin, h.classes, h.classes, CarrierTable.countOf_perm perm]
    by_cases hc : r.cls = c
    · simp [hc, CarrierTable.countOf]
    · simp [hc, CarrierTable.countOf]

/-- A record is freed and counted out of its class; one of the pool goes to the head of the free list. -/
theorem CarrierTable.Right.erased (h : a.Right) {r : Record} (used : lookupKey a.records i = some r) (hb : b.Canonical)
    (records : b.records = eraseKey a.records i)
    (counts : b.classCounts = a.classCounts.set r.cls.val (a.classCounts[r.cls.val] - 1))
    (pool : b.poolFree = if i < 3072 then a.poolFree else i :: a.poolFree) : b.Right := by
  have here : lookupKey b.records i = none := by rw [records, lookupKey_eraseKey_self i h.canonical.records]
  have others : ∀ j, j ≠ i → lookupKey b.records j = lookupKey a.records j :=
    fun j hj => by rw [records, lookupKey_eraseKey_ne _ hj]
  have perm : a.records.Perm ((i, r) :: b.records) := records ▸ perm_eraseKey used
  have notFree : i ∉ a.poolFree := fun hi => by
    have := ((h.pool i).mp hi).2.2
    rw [used] at this
    cases this
  have bound := h.indices i r used
  refine ⟨hb, fun j q hj => ?indices, ?once, fun j => ?pool, ?total, fun c => ?classes⟩
  case indices =>
    by_cases hji : j = i
    · rw [hji, here] at hj; cases hj
    · exact h.indices j q (others j hji ▸ hj)
  case once =>
    rw [pool]
    split
    · exact h.once
    · exact List.nodup_cons.mpr ⟨notFree, h.once⟩
  case pool =>
    rw [pool]
    by_cases hji : j = i
    · subst hji
      split
      · next way => simp only [notFree, here, false_iff]; omega
      · next way => simp [here, bound]; omega
    · rw [others j hji, ← h.pool]
      split
      · rfl
      · simp [hji]
  case total =>
    have total := h.total
    have ways := CarrierTable.freeWays_filled (a := b) (b := a) here (used ▸ Option.some_ne_none r)
      fun j hj => (others j hj).symm
    have length := perm.length_eq
    rw [List.length_cons] at length
    rw [pool]
    split at ways
    · next way => rw [if_pos way]; omega
    · next way => rw [if_neg way, List.length_cons]; omega
  case classes =>
    have count := CarrierTable.countOf_perm perm
    rw [counts, Vector.set_fin, h.classes, h.classes, count, count]
    by_cases hc : r.cls = c
    · simp [hc, CarrierTable.countOf]
    · simp [hc, CarrierTable.countOf]

/-- The record at an index in use is replaced, and the class counts follow its class. -/
theorem CarrierTable.Right.replaced (h : a.Right) {r r' : Record} (used : lookupKey a.records i = some r) (hb : b.Canonical)
    (records : b.records = insertKey a.records i r') (pool : b.poolFree = a.poolFree)
    (counts : ∀ c : Fin 16, b.classCounts[c.val] + (if r.cls = c then 1 else 0) =
      a.classCounts[c.val] + if r'.cls = c then 1 else 0) : b.Right := by
  have use : ∀ j, (lookupKey b.records j).isNone = (lookupKey a.records j).isNone := by
    intro j
    by_cases hj : j = i
    · rw [hj, records, lookupKey_insertKey_self, used]; rfl
    · rw [records, lookupKey_insertKey_ne _ _ hj]
  have old := perm_eraseKey used
  have new : b.records.Perm ((i, r') :: eraseKey a.records i) := records ▸ perm_insertKey_old h.canonical.records used r'
  refine ⟨hb, fun j q hj => ?indices, pool ▸ h.once, fun j => ?pool, ?total, fun c => ?classes⟩
  case indices =>
    cases hq : lookupKey a.records j with
    | none =>
      have := use j
      rw [hq, hj] at this
      cases this
    | some q' => exact h.indices j q' hq
  case pool =>
    rw [pool, h.pool, ← Option.isNone_iff_eq_none, ← Option.isNone_iff_eq_none, use]
  case total =>
    have total := h.total
    have lengthOld := old.length_eq
    have lengthNew := new.length_eq
    rw [List.length_cons] at lengthOld lengthNew
    rw [pool, CarrierTable.freeWays_congr use]
    omega
  case classes =>
    have count := counts c
    rw [h.classes, CarrierTable.countOf_perm old] at count
    rw [CarrierTable.countOf_perm new]
    omega

end

/-! #### The places of the records (R40, R41, R44) -/

/-- The part of `State.PlacesRight` that speaks of the table alone. -/
structure CarrierTable.Placed (t : CarrierTable) : Prop where
  placed : ∀ i r, lookupKey t.records i = some r → (i < 3072 ∧ i / 3 = setIndex r.id) ∨ i ∈ t.chainOf (setIndex r.id)
  chained : ∀ set i, i ∈ t.chainOf set → 3072 ≤ i ∧ ∃ r, lookupKey t.records i = some r ∧ setIndex r.id = set
  once : ∀ set, (t.chainOf set).Nodup
  single : ∀ i j r q, lookupKey t.records i = some r → lookupKey t.records j = some q → r.id = q.id → i = j

theorem setIndex_lt (id : CarrierId) : setIndex id < 1024 := Nat.mod_lt _ (by decide)

theorem mem_waysOf {set i : Nat} : i ∈ waysOf set ↔ i / 3 = set := by
  simp only [waysOf, List.mem_cons, List.not_mem_nil, or_false]
  omega

/-- In a canonical table a chain is what was written, also where it is empty. -/
theorem CarrierTable.Canonical.chainOf_setChain {t : CarrierTable} (h : t.Canonical) (set : Nat) (l : List Nat) :
    (t.setChain set l).chainOf set = l := by
  by_cases hl : l = []
  · simp [CarrierTable.chainOf, CarrierTable.setChain, hl, lookupKey_eraseKey_self set h.chains]
  · exact CarrierTable.chainOf_setChain_self t set hl

/-- Freeing a record of the pool takes it out of the chain of its set, and out of no other (R45). -/
theorem CarrierTable.Canonical.remove_chainOf {t : CarrierTable} (h : t.Canonical) (i : Nat) (r : Record) (set : Nat) :
    (t.remove i r).chainOf set =
      if 3072 ≤ i ∧ set = setIndex r.id then (t.chainOf set).erase i else t.chainOf set := by
  have counted : ({ t with records := eraseKey t.records i }.countClass r.cls (· - 1)).Canonical :=
    ⟨keysRising_eraseKey i h.records, h.chains, h.nonempty⟩
  unfold CarrierTable.remove
  simp only []
  split
  · next way =>
    have way : i < 3072 := way
    rw [if_neg (by omega)]
    rfl
  · next way =>
    have way : ¬i < 3072 := way
    by_cases hset : set = setIndex r.id
    · rw [if_pos ⟨by omega, hset⟩, hset]
      exact counted.chainOf_setChain _ _
    · rw [if_neg (by simp [hset])]
      exact CarrierTable.chainOf_setChain_ne _ _ hset

section
variable {a b : CarrierTable} {i : Nat}

/-- The records keep their IDs, each at its index, and the chains stand. -/
theorem CarrierTable.Placed.renewed (h : a.Placed)
    (ids : ∀ j, (lookupKey b.records j).map Record.id = (lookupKey a.records j).map Record.id) (chains : b.chains = a.chains) :
    b.Placed := by
  have chain : ∀ set, b.chainOf set = a.chainOf set := fun set => by simp only [CarrierTable.chainOf, chains]
  have back : ∀ j q, lookupKey b.records j = some q → ∃ q', lookupKey a.records j = some q' ∧ q'.id = q.id := by
    intro j q hq
    have := ids j
    rw [hq] at this
    exact Option.map_eq_some_iff.mp this.symm
  have forth : ∀ j q, lookupKey a.records j = some q → ∃ q', lookupKey b.records j = some q' ∧ q'.id = q.id := by
    intro j q hq
    have := ids j
    rw [hq] at this
    exact Option.map_eq_some_iff.mp this
  refine ⟨fun j q hq => ?_, fun set j hj => ?_, fun set => chain set ▸ h.once set, fun j k q p hq hp same => ?_⟩
  · obtain ⟨q', hq', hid⟩ := back j q hq
    rw [chain, ← hid]
    exact h.placed j q' hq'
  · rw [chain] at hj
    obtain ⟨high, q, hq, hset⟩ := h.chained set j hj
    obtain ⟨q', hq', hid⟩ := forth j q hq
    exact ⟨high, q', hq', hid ▸ hset⟩
  · obtain ⟨q', hq', hid⟩ := back j q hq
    obtain ⟨p', hp', hid'⟩ := back k p hp
    exact h.single j k q' p' hq' hp' (by rw [hid, hid', same])

/-- A record is freed. -/
theorem CarrierTable.Placed.removed (h : a.Placed) (canonical : a.Canonical) {r : Record}
    (used : lookupKey a.records i = some r) : (a.remove i r).Placed := by
  have here : lookupKey (a.remove i r).records i = none := by
    rw [CarrierTable.remove_records, lookupKey_eraseKey_self i canonical.records]
  have others : ∀ j, j ≠ i → lookupKey (a.remove i r).records j = lookupKey a.records j :=
    fun j hj => by rw [CarrierTable.remove_records, lookupKey_eraseKey_ne _ hj]
  have ne : ∀ {j q}, lookupKey (a.remove i r).records j = some q → j ≠ i := by
    rintro j q hq rfl
    rw [here] at hq
    cases hq
  have mem : ∀ set j, j ≠ i → (j ∈ (a.remove i r).chainOf set ↔ j ∈ a.chainOf set) := by
    intro set j hj
    rw [canonical.remove_chainOf]
    split
    · exact List.mem_erase_of_ne hj
    · rfl
  have gone : ∀ set, i ∉ (a.remove i r).chainOf set := by
    intro set hi
    rw [canonical.remove_chainOf] at hi
    split at hi
    · exact (h.once set).not_mem_erase hi
    · next stays =>
      obtain ⟨high, q, hq, hset⟩ := h.chained set i hi
      rw [used] at hq
      cases hq
      exact stays ⟨high, hset.symm⟩
  refine ⟨fun j q hq => ?_, fun set j hj => ?_, fun set => ?_, fun j k q p hq hp same => ?_⟩
  · rw [mem _ j (ne hq)]
    exact h.placed j q (others j (ne hq) ▸ hq)
  · have hne : j ≠ i := fun hji => gone set (hji ▸ hj)
    rw [others j hne]
    exact h.chained set j ((mem set j hne).mp hj)
  · rw [canonical.remove_chainOf]
    split
    · exact (h.once set).erase i
    · exact h.once set
  · exact h.single j k q p (others j (ne hq) ▸ hq) (others k (ne hp) ▸ hp) same

/-- A record with a new ID is placed (R44). -/
theorem CarrierTable.Placed.created (h : a.Placed) (right : a.Right) {r : Record} (hc : a.Created b r i)
    (new : ∀ j q, lookupKey a.records j = some q → q.id ≠ r.id) : b.Placed := by
  have free : lookupKey a.records i = none := by
    rcases hc.place with ⟨-, free, -⟩ | ⟨inPool, -⟩
    · exact free
    · exact ((right.pool i).mp inPool).2.2
  have notChained : ∀ set, i ∉ a.chainOf set := by
    intro set hi
    obtain ⟨-, q, hq, -⟩ := h.chained set i hi
    rw [free] at hq
    cases hq
  have grown : ∀ set, b.chainOf set = a.chainOf set ∨
      (3072 ≤ i ∧ set = setIndex r.id ∧ b.chainOf set = a.chainOf set ++ [i]) := by
    intro set
    rcases hc.place with ⟨-, -, chains⟩ | ⟨inPool, chains⟩
    · exact .inl (by simp only [CarrierTable.chainOf, chains])
    · rw [chains]
      split
      · next hset => exact .inr ⟨((right.pool i).mp inPool).1, hset, rfl⟩
      · exact .inl rfl
  have stays : ∀ set j, j ∈ a.chainOf set → j ∈ b.chainOf set := by
    intro set j hj
    rcases grown set with same | ⟨-, -, more⟩
    · exact same ▸ hj
    · rw [more]; exact List.mem_append_left _ hj
  refine ⟨fun j q hq => ?_, fun set j hj => ?_, fun set => ?_, fun j k q p hq hp same => ?_⟩
  · by_cases hj : j = i
    · subst hj
      rw [hc.lookupKey_self] at hq
      cases hq
      rcases hc.place with ⟨way, -, -⟩ | ⟨inPool, chains⟩
      · rw [mem_waysOf] at way
        have := setIndex_lt r.id
        exact .inl ⟨by omega, way⟩
      · exact .inr (by rw [chains, if_pos rfl]; simp)
    · rw [hc.lookupKey_ne hj] at hq
      exact (h.placed j q hq).imp_right (stays _ j)
  · have old : j ∈ a.chainOf set → 3072 ≤ j ∧ ∃ q, lookupKey b.records j = some q ∧ setIndex q.id = set := by
      intro hj
      rw [hc.lookupKey_ne fun hji => notChained set (hji ▸ hj)]
      exact h.chained set j hj
    rcases grown set with same | ⟨high, hset, more⟩
    · exact old (same ▸ hj)
    · rw [more, List.mem_append, List.mem_singleton] at hj
      rcases hj with hj | rfl
      · exact old hj
      · exact ⟨high, r, hc.lookupKey_self, hset.symm⟩
  · rcases grown set with same | ⟨-, -, more⟩
    · exact same ▸ h.once set
    · rw [more, List.nodup_append]
      refine ⟨h.once set, List.nodup_singleton i, fun j hj k hk => ?_⟩
      rw [List.mem_singleton] at hk
      exact fun hjk => notChained set (hk ▸ hjk ▸ hj)
  · by_cases hj : j = i
    · by_cases hk : k = i
      · rw [hj, hk]
      · rw [hj, hc.lookupKey_self] at hq
        rw [hc.lookupKey_ne hk] at hp
        cases hq
        exact absurd same.symm (new k p hp)
    · rw [hc.lookupKey_ne hj] at hq
      by_cases hk : k = i
      · rw [hk, hc.lookupKey_self] at hp
        cases hp
        exact absurd same (new j q hq)
      · exact h.single j k q p hq (hc.lookupKey_ne hk ▸ hp) same

/-- An ID that a lookup does not find is held by no record (R42). -/
theorem CarrierTable.Placed.absent (h : a.Placed) {id : CarrierId} (none : a.find? id = none) {q : Record}
    (used : lookupKey a.records i = some q) : q.id ≠ id := by
  intro hid
  have missed := List.findSome?_eq_none_iff.mp none i (by
    rw [List.mem_append, mem_waysOf, ← hid]
    exact (h.placed i q used).imp_left And.right)
  rw [CarrierTable.holds?_eq_some.mpr ⟨used, hid, rfl⟩] at missed
  cases missed

end

/-- A create leaves the table in order; its record has an ID that no other holds (R44). -/
theorem CarrierTable.create?_right {t t' : CarrierTable} {i : Nat} {r : Record} (hc : t.create? r = some (i, t'))
    (h : t.Right) : t'.Right := by
  have canonical := h.canonical.create hc
  unfold CarrierTable.create? at hc
  simp only [] at hc
  split at hc
  · next way =>
    obtain ⟨hway, free⟩ := CarrierTable.freeWay?_spec way
    cases hc
    rw [mem_waysOf] at hway
    have := setIndex_lt r.id
    exact h.inserted free canonical rfl rfl (.inl ⟨by omega, rfl⟩)
  · split at hc
    · next j rest pool =>
      cases hc
      have free := ((h.pool i).mp (pool ▸ List.mem_cons_self)).2.2
      exact h.inserted free canonical rfl rfl (.inr pool)
    · cases hc

end Sys2Proof.Machine
end

section
namespace Sys2Proof.Machine

/-! ### O55: operations that bring no new record -/

/-- From `a` to `b` the table keeps its canonical form, its counts and its places, and no ID has come to it. -/
structure CarrierTable.Kept (a b : CarrierTable) : Prop where
  canonical : a.Canonical → b.Canonical
  right : a.Right → b.Right
  placed : a.Right → a.Placed → b.Placed
  ids : a.Canonical → ∀ i q, lookupKey b.records i = some q → ∃ p, lookupKey a.records i = some p ∧ p.id = q.id

namespace CarrierTable.Kept

theorem refl (a : CarrierTable) : a.Kept a := ⟨id, id, fun _ => id, fun _ _ q h => ⟨q, h, rfl⟩⟩

theorem trans {a b c : CarrierTable} (h : a.Kept b) (k : b.Kept c) : a.Kept c where
  canonical ha := k.canonical (h.canonical ha)
  right ha := k.right (h.right ha)
  placed ha hp := k.placed (h.right ha) (h.placed ha hp)
  ids ha i q hq := by
    obtain ⟨p, hp, hpq⟩ := k.ids (h.canonical ha) i q hq
    obtain ⟨o, ho, hop⟩ := h.ids ha i p hp
    exact ⟨o, ho, hop.trans hpq⟩

/-- The ring, which no count speaks of, may change. -/
theorem ring (a : CarrierTable) (l : List RingEntry) : a.Kept { a with ring := l } where
  canonical h := ⟨h.records, h.chains, h.nonempty⟩
  right h := ⟨⟨h.canonical.records, h.canonical.chains, h.canonical.nonempty⟩, h.indices, h.once, h.pool, h.total, h.classes⟩
  placed _ h := ⟨h.placed, h.chained, h.once, h.single⟩
  ids _ _ q h := ⟨q, h, rfl⟩

/-- The record at an index in use is replaced by one of its ID, and the class counts follow its class. -/
theorem replaced {a : CarrierTable} {i : Nat} {r r' : Record} (used : lookupKey a.records i = some r) (hid : r'.id = r.id)
    {counts : Vector Nat 16} (moved : ∀ c : Fin 16, 0 < a.classCounts[r.cls.val] →
      counts[c.val] + (if r.cls = c then 1 else 0) = a.classCounts[c.val] + if r'.cls = c then 1 else 0) :
    a.Kept { a with records := insertKey a.records i r', classCounts := counts } := by
  have ids : ∀ j, (lookupKey (insertKey a.records i r') j).map Record.id = (lookupKey a.records j).map Record.id := by
    intro j
    by_cases hj : j = i
    · rw [hj, lookupKey_insertKey_self, used, Option.map_some, Option.map_some, hid]
    · rw [lookupKey_insertKey_ne _ _ hj]
  have canonical : a.Canonical → ({ a with records := insertKey a.records i r', classCounts := counts } : CarrierTable).Canonical :=
    fun h => ⟨keysRising_insertKey i r' h.records, h.chains, h.nonempty⟩
  refine ⟨canonical, fun h => ?_, fun _ h => h.renewed ids rfl, fun _ j q hq => ?_⟩
  · refine h.replaced used (canonical h.canonical) rfl rfl fun c => moved c ?_
    rw [h.classes, CarrierTable.countOf_perm (perm_eraseKey used), if_pos rfl]
    omega
  · have := ids j
    rw [show lookupKey (insertKey a.records i r') j = some q from hq] at this
    exact Option.map_eq_some_iff.mp this.symm

/-- The record at an index in use is replaced by one of its ID and class. -/
theorem written {a : CarrierTable} {i : Nat} {r r' : Record} (used : lookupKey a.records i = some r) (hid : r'.id = r.id)
    (hcls : r'.cls = r.cls) : a.Kept { a with records := insertKey a.records i r' } :=
  replaced used hid fun _ _ => by rw [hcls]

/-- A record is freed. -/
theorem removed {a : CarrierTable} {i : Nat} {r : Record} (used : lookupKey a.records i = some r) : a.Kept (a.remove i r) where
  canonical h := h.remove i r
  right h := h.erased used (h.canonical.remove i r) (CarrierTable.remove_records a i r)
    (CarrierTable.remove_classCounts a i r) (CarrierTable.remove_poolFree a i r)
  placed h hp := hp.removed h.canonical used
  ids h j q hq := by
    rw [CarrierTable.remove_records] at hq
    by_cases hj : j = i
    · rw [hj, lookupKey_eraseKey_self i h.records] at hq
      cases hq
    · rw [lookupKey_eraseKey_ne _ hj] at hq
      exact ⟨q, hq, rfl⟩

/-- Every record is changed in the same way, its ID and class kept. -/
theorem mapped (a : CarrierTable) {f : Record → Record} (hid : ∀ r, (f r).id = r.id) (hcls : ∀ r, (f r).cls = r.cls) :
    a.Kept { a with records := a.records.map fun p => (p.1, f p.2) } := by
  have look : ∀ j, lookupKey (a.records.map fun p => (p.1, f p.2)) j = (lookupKey a.records j).map f := lookupKey_map f a.records
  have canonical : a.Canonical → ({ a with records := a.records.map fun p => (p.1, f p.2) } : CarrierTable).Canonical :=
    fun h => ⟨keysRising_map (fun p => f p.2) h.records, h.chains, h.nonempty⟩
  refine ⟨canonical, fun h => ⟨canonical h.canonical, fun i r hr => ?indices, h.once, fun i => ?pool, ?total, fun c => ?classes⟩,
    fun _ h => h.renewed (fun j => ?same) rfl, fun _ j q hq => ?ids⟩
  case indices =>
    obtain ⟨q, hq, -⟩ := Option.map_eq_some_iff.mp ((look i).symm.trans hr)
    exact h.indices i q hq
  case pool => rw [h.pool, look]; simp
  case total =>
    have ways := CarrierTable.freeWays_congr (a := a)
      (b := { a with records := a.records.map fun p => (p.1, f p.2) }) fun j => by rw [look]; simp
    rw [ways, List.length_map]
    exact h.total
  case classes => simp [CarrierTable.countOf, h.classes, List.filter_map, Function.comp_def, hcls]
  case same => rw [look]; cases lookupKey a.records j <;> simp [hid]
  case ids =>
    obtain ⟨p, hp, hpq⟩ := Option.map_eq_some_iff.mp ((look j).symm.trans hq)
    exact ⟨p, hp, hpq ▸ (hid p).symm⟩

end CarrierTable.Kept

/-- The same of the Carrier Tables of two states. -/
def State.TableKept (s t : State) : Prop := s.table.Kept t.table

namespace State.TableKept

theorem refl (s : State) : s.TableKept s := CarrierTable.Kept.refl _

theorem trans {s t u : State} (h : s.TableKept t) (k : t.TableKept u) : s.TableKept u := CarrierTable.Kept.trans h k

theorem of_table {s t : State} (h : t.table = s.table) : s.TableKept t := by
  unfold State.TableKept
  rw [h]
  exact CarrierTable.Kept.refl _

/-- A change that leaves the table, behind one that keeps it. -/
theorem silent {s t u : State} (h : s.TableKept t) (e : u.table = t.table) : s.TableKept u := h.trans (of_table e)

/-- The same, before it. -/
theorem after {s t u : State} (h : t.TableKept u) (e : t.table = s.table) : s.TableKept u := (of_table e).trans h

theorem of_plant {s t : State} (h : s.PlantFrame t) : s.TableKept t := of_table (by rw [h])

theorem foldl {α : Type} {f : State → α → State} (hf : ∀ s a, State.TableKept s (f s a)) (l : List α) (s : State) :
    s.TableKept (l.foldl f s) := by
  induction l generalizing s with
  | nil => exact refl s
  | cons a l ih => exact (hf s a).trans (ih _)

end State.TableKept

section
variable (s : State)

theorem State.setRecord_tableKept {s : State} {i : Nat} {r r' : Record} (h : s.record? i = some r) (hc : r'.core = r.core) :
    s.TableKept (s.setRecord i r') :=
  CarrierTable.Kept.written h (congrArg RecordCore.id hc) (congrArg RecordCore.cls hc)

/-- A record rewritten with its ID and class. -/
theorem State.modRecord_tableKept (i : Nat) {f : Record → Record} (hid : ∀ r, (f r).id = r.id) (hcls : ∀ r, (f r).cls = r.cls) :
    s.TableKept (s.modRecord i f) := by
  unfold State.modRecord
  split
  · next r hr => exact CarrierTable.Kept.written hr (hid r) (hcls r)
  · exact .refl s

theorem State.setHold_tableKept (i : Nat) (b : Bool) : s.TableKept (s.setHold i b) :=
  s.modRecord_tableKept i (fun _ => rfl) fun _ => rfl

theorem State.enlist_tableKept (i : Nat) : s.TableKept (s.enlist i) := by
  unfold State.enlist
  split
  · next r hr =>
    split
    · exact .trans (State.setRecord_tableKept hr (by rfl)) (.of_table (State.setZone_table ..))
    · exact .refl s
  · exact .refl s

theorem State.crossOnce_tableKept (i : Nat) (st : Option Byte) : s.TableKept (s.crossOnce i st) := by
  unfold State.crossOnce
  split
  · next r hr =>
    split
    · next hk => exact (State.setRecord_tableKept hr (Record.cross?_core hk)).trans (.of_plant (State.post_frame _ _))
    · exact .refl s
  · exact .refl s

theorem State.crossAll_tableKept (i : Nat) (st : Option Byte) : s.TableKept (s.crossAll i st) :=
  ((s.crossOnce_tableKept i st).trans (State.crossOnce_tableKept _ i st)).trans (State.crossOnce_tableKept _ i st)

theorem State.settleCross_tableKept (i : Nat) (st : Option Byte) (b : Bool) : s.TableKept (s.settleCross i st b) := by
  unfold State.settleCross
  split
  · next r hr =>
    split
    · next zp _ =>
      have crossed := (State.setRecord_tableKept hr (Record.settle_core r (s.zone zp.zone).wear)).trans
        (State.crossAll_tableKept _ i st)
      simp only []
      split
      · exact crossed.trans (.after (State.enlist_tableKept _ i) rfl)
      · exact crossed
    · exact .refl s
  · exact .refl s

theorem popWalk_tableKept (z : Fin 32) (l : List Nat) (s : State) : s.TableKept (popWalk z l s) := by
  induction l generalizing s with
  | nil => exact .refl s
  | cons i rest ih =>
    unfold popWalk
    split
    · split
      · split
        · split
          · exact ih s
          · exact (s.settleCross_tableKept i none true).trans (ih _)
        · exact .refl s
      · exact ih s
    · exact ih s

theorem State.pop_tableKept (z : Fin 32) : s.TableKept (s.pop z) := popWalk_tableKept ..

theorem State.refreshZone_table (z : Fin 32) (st : Option Byte) : (s.refreshZone z st).table = s.table := by
  unfold State.refreshZone
  simp only []
  split
  · rfl
  · split <;> rw [State.post_frame] <;> rfl

theorem State.refreshPop_tableKept (z : Fin 32) (st : Option Byte) : s.TableKept (s.refreshPop z st) :=
  .after (State.pop_tableKept _ z) (s.refreshZone_table z st)

theorem State.advance_tableKept (z : Fin 32) : s.TableKept (s.advance z) := by
  unfold State.advance
  split
  · exact .after (State.refreshPop_tableKept _ z none) rfl
  · exact .refl s

theorem State.advanceAll_tableKept (zs : List (Fin 32)) : s.TableKept (s.advanceAll zs) := .foldl State.advance_tableKept zs s

theorem State.attach_tableKept (i : Nat) (z : Fin 32) (st : Option Byte) : s.TableKept (s.attach i z st) := by
  unfold State.attach
  split
  · next r hr =>
    exact ((State.setRecord_tableKept hr (by simp)).trans (State.crossAll_tableKept _ i st)).trans (State.enlist_tableKept _ i)
  · exact .refl s

theorem State.relistTo_tableKept (i : Nat) (cs : CarrierState) (z : Option (Fin 32)) (st : Option Byte) :
    s.TableKept (s.relistTo i cs z st) := by
  unfold State.relistTo
  split
  · next r hr =>
    have settled : (match r.zonePart with
        | some zp => r.settle (s.zone zp.zone).wear
        | none => r : Record).core = r.core := by split <;> simp
    have unlisted : (match r.zonePart with
        | some zp => s.unlist zp.zone i
        | none => s : State).table = s.table := by split <;> rfl
    have here : (match r.zonePart with
        | some zp => s.unlist zp.zone i
        | none => s : State).record? i = some r := by rw [State.record?, unlisted]; exact hr
    simp only []
    split
    · refine .after (.trans (State.setRecord_tableKept here ?_) (State.attach_tableKept ..)) unlisted
      exact (s.creditLeaving_core _ _).trans settled
    · refine .after (State.setRecord_tableKept here ?_) unlisted
      exact (Record.rejudgeWarn_core _ _).trans ((s.creditLeaving_core _ _).trans settled)
  · exact .refl s

theorem State.rekeyZone_tableKept (sel : Record → Bool) (z : Fin 32) : s.TableKept (s.rekeyZone sel z) := by
  refine .after (.foldl (fun a i => ?_) _ _) (s.setZone_table z _)
  refine (a.modRecord_tableKept i (fun r => ?_) fun r => ?_).trans (State.attach_tableKept ..)
  · exact congrArg RecordCore.id (r.settle_core _)
  · exact congrArg RecordCore.cls (r.settle_core _)

theorem State.withTables_tableKept (t : Tables) : s.TableKept { s with tables := t } := .of_table rfl

theorem State.classRekey_tableKept (c : Fin 16) (row : ClassRow) : s.TableKept (s.classRekey c row) :=
  ((s.advanceAll_tableKept s.tables.configuredZones).trans (State.withTables_tableKept _ _)).trans
    (.foldl (f := fun a z => a.rekeyZone (fun r => r.cls == c) z) (fun a z => a.rekeyZone_tableKept _ z) _ _)

theorem State.zoneChange_table (z : Fin 32) (old new : ZoneConfig) : (s.zoneChange z old new).table = s.table := by
  unfold State.zoneChange
  split <;> rfl

theorem State.zoneWrite_tableKept (z : Fin 32) (row : ZoneConfig) : s.TableKept (s.zoneWrite z row) := by
  unfold State.zoneWrite
  simp only []
  have charged : (if (s.tables.zone z).configured then s.chargeZone z else s).table = s.table := by split <;> rfl
  generalize (if (s.tables.zone z).configured then s.chargeZone z else s) = u at charged
  have changed := (State.zoneChange_table { u with tables := { u.tables with zones := u.tables.zones.set z.val row } } z
    (s.tables.zone z) row).trans charged
  split
  · exact .after (State.refreshPop_tableKept _ z none) changed
  · exact .of_table changed

theorem foldl_chargeZone_tableKept (zs : List (Fin 32)) : s.TableKept (zs.foldl State.chargeZone s) :=
  .foldl (f := State.chargeZone) (fun _ _ => .of_table rfl) zs s

theorem State.gridChange_tableKept (f : Tables → Tables) : s.TableKept (s.gridChange f) :=
  ((foldl_chargeZone_tableKept s s.tables.configuredZones).trans (State.withTables_tableKept _ _)).trans
    (.foldl (fun a z => .after (State.pop_tableKept _ z) (a.setZone_table z _)) _ _)

theorem State.loadReplace_tableKept (new : Tables) : s.TableKept (s.loadReplace new) := by
  have charge : s.TableKept { s.tables.configuredZones.foldl State.chargeZone s with
      tables := { new with part := s.tables.part } } :=
    (foldl_chargeZone_tableKept s _).trans (State.withTables_tableKept _ _)
  have change := fun a => State.TableKept.foldl (f := fun a z => a.zoneChange z (s.tables.zone z) (new.zone z))
    (fun a z => .of_table (a.zoneChange_table z _ _)) allZones a
  have refresh := fun a => State.TableKept.foldl (f := fun a z => a.refreshPop z none)
    (fun a z => a.refreshPop_tableKept z none) new.configuredZones a
  have rekey := fun a => State.TableKept.foldl (f := fun a z => a.rekeyZone (fun _ => true) z)
    (fun a z => a.rekeyZone_tableKept (fun _ => true) z) new.configuredZones a
  exact (((charge.trans (change _)).trans (refresh _)).trans (rekey _)).trans (State.withTables_tableKept _ _)

theorem State.acceptSample_tableKept (z : Fin 32) (slot : Fin 3) (t : Telegram) : s.TableKept (s.acceptSample z slot t) :=
  .after (State.refreshPop_tableKept _ z (some t.source)) rfl

/-! #### Records freed and written -/

theorem State.removeRecord_tableKept (i : Nat) : s.TableKept (s.removeRecord i) := by
  unfold State.removeRecord
  split
  · next hr => exact CarrierTable.Kept.removed hr
  · exact .refl s

theorem State.leaveBatch_table (oven : Byte) (i : Nat) : (s.leaveBatch oven i).table = s.table := by
  unfold State.leaveBatch
  repeat' split
  all_goals rfl

theorem State.unlinkRecord_tableKept (i : Nat) : s.TableKept (s.unlinkRecord i) := by
  unfold State.unlinkRecord
  split
  · exact ((s.setHold_tableKept i true).trans (State.advance_tableKept ..)).silent rfl
  · exact .refl s

theorem State.deleteRecord_tableKept (i : Nat) (r : Record) : s.TableKept (s.deleteRecord i r) := by
  unfold State.deleteRecord
  refine (s.unlinkRecord_tableKept i).trans (.after (State.removeRecord_tableKept ..) ?_)
  split
  · exact State.leaveBatch_table ..
  · rfl

theorem State.writeSettle_tableKept (i : Nat) : s.TableKept (s.writeSettle i) := by
  unfold State.writeSettle
  split
  · refine ((s.setHold_tableKept i true).trans (State.advance_tableKept ..)).trans
      ((State.setHold_tableKept _ i false).trans (State.modRecord_tableKept _ i (fun r => ?_) fun r => ?_))
    · exact congrArg RecordCore.id (r.settle_core _)
    · exact congrArg RecordCore.cls (r.settle_core _)
  · exact .refl s

/-- A class written moves the record's count from its old class to the new one (R53). -/
theorem State.writeClass_tableKept (i : Nat) (cls : Option (Fin 16)) : s.TableKept (s.writeClass i cls) := by
  unfold State.writeClass
  split
  · next _ _ r c hr =>
    refine CarrierTable.Kept.replaced (r' := { r with cls := c }) hr rfl fun d counted => ?_
    show (Vector.set _ _ _)[d.val] + _ = _
    rw [Vector.set_fin]
    simp only [State.setRecord_table, CarrierTable.countClass, Vector.set_fin]
    by_cases hd : c = d
    · subst hd
      by_cases hc : r.cls = c
      · subst hc; simp; omega
      · simp [hc]
    · by_cases hc : r.cls = d
      · subst hc; simp [hd]; omega
      · simp [hd, hc]
  · exact .refl s

theorem State.writeFigures_tableKept (i : Nat) (w : RecordWrite) : s.TableKept (s.writeFigures i w) :=
  s.modRecord_tableKept i (fun _ => rfl) fun _ => rfl

theorem State.writeRetire_tableKept (i : Nat) : s.TableKept (s.writeRetire i) := by
  unfold State.writeRetire
  split
  · next r hr =>
    have unlisted : (match r.zonePart with
        | some zp => s.unlist zp.zone i
        | none => s : State).table = s.table := by split <;> rfl
    have left : (match r.bakePart with
        | some bp => (match r.zonePart with
            | some zp => s.unlist zp.zone i
            | none => s : State).leaveBatch bp.oven i
        | none => (match r.zonePart with
            | some zp => s.unlist zp.zone i
            | none => s : State)).table = s.table := by
      split
      · exact (State.leaveBatch_table ..).trans unlisted
      · exact unlisted
    refine .after ?_ left
    refine CarrierTable.Kept.written (r := r) ?_ rfl rfl
    rw [left]
    exact hr
  · exact .refl s

theorem State.writeRelist_tableKept (i : Nat) (w : RecordWrite) : s.TableKept (s.writeRelist i w) := by
  unfold State.writeRelist
  split
  · next r hr =>
    split
    · exact .after (State.attach_tableKept ..) rfl
    · split
      · exact State.setRecord_tableKept hr (by simp)
      · exact .refl s
  · exact .refl s

theorem State.writeRecord_tableKept (i : Nat) (w : RecordWrite) : s.TableKept (s.writeRecord i w) := by
  have figures : s.TableKept (((s.writeSettle i).writeClass i w.cls).writeFigures i w) :=
    (s.writeSettle_tableKept i).trans ((State.writeClass_tableKept ..).trans (State.writeFigures_tableKept ..))
  unfold State.writeRecord
  refine figures.trans (.trans ?_ (State.writeRelist_tableKept ..))
  split
  · exact State.writeRetire_tableKept ..
  · exact .refl _

/-! #### The engine's work on its record -/

theorem State.rememberRelease_tableKept (w : Work) (o : CommitOutcome) (i : Option Nat) :
    s.TableKept (s.rememberRelease w o i) := by
  unfold State.rememberRelease
  split
  · exact s.modRecord_tableKept _ (fun _ => rfl) fun _ => rfl
  · exact .refl s

theorem State.ringAppend_tableKept (w : Work) (o : CommitOutcome) : s.TableKept (s.ringAppend w o) := by
  unfold State.ringAppend
  split
  · exact CarrierTable.Kept.ring _ _
  · exact .refl s

theorem State.countWorkFault_table (w : Work) : (s.countWorkFault w).table = s.table := by
  unfold State.countWorkFault
  split <;> rfl

theorem State.compose_table (w : Work) (o : RepeatOutcome) (reason : Option Byte) (band : Option Nat) :
    (s.compose w o reason band).table = s.table := by
  cases o <;> rfl

theorem State.closeCommit_tableKept (w : Work) : s.TableKept (s.closeCommit w) := by
  unfold State.closeCommit
  split
  · exact (((s.rememberRelease_tableKept ..).trans (State.rememberRelease_tableKept ..)).trans
      (State.ringAppend_tableKept ..)).silent ((State.compose_table ..).trans (State.countWorkFault_table ..))
  · exact .refl s

theorem State.relistHeld_tableKept (w : Work) : s.TableKept (s.relistHeld w) := by
  unfold State.relistHeld
  split
  · exact s.settleCross_tableKept ..
  · exact .refl s

theorem State.settleEngine_tableKept (w : Work) : s.TableKept (s.settleEngine w).1 := by
  unfold State.settleEngine
  simp only []
  split
  · exact (s.advanceAll_tableKept _).trans (State.settleCross_tableKept ..)
  · exact s.advanceAll_tableKept _

theorem State.advanceCommit_tableKept (w : Work) (z : Option (Fin 32)) : s.TableKept (s.advanceCommit w z) :=
  s.advanceAll_tableKept _

theorem State.commitFault_tableKept (w : Work) (f : FaultCode) : s.TableKept (s.commitFault w f) :=
  (s.relistHeld_tableKept w).silent rfl

theorem State.commitStay_tableKept (w : Work) : s.TableKept (s.commitStay w) :=
  ((s.advanceCommit_tableKept w none).trans (State.relistHeld_tableKept _ w)).silent rfl

theorem State.commitZoned_tableKept (w : Work) (k : TxKind) (st : Option CarrierState) : s.TableKept (s.commitZoned w k st) := by
  refine (s.advanceCommit_tableKept w (zone? w.zone)).trans ?_
  unfold State.commitZoned
  simp only []
  split
  · exact .silent (State.relistTo_tableKept ..) rfl
  · exact State.commitFault_tableKept ..
  · exact State.commitFault_tableKept ..

theorem State.commitExpire_tableKept (w : Work) : s.TableKept (s.commitExpire w) := by
  refine (s.advanceCommit_tableKept w none).trans ?_
  unfold State.commitExpire
  simp only []
  split
  · exact .silent (State.relistTo_tableKept ..) rfl
  · exact .of_table rfl

theorem State.commitOpened_tableKept (w : Work) : s.TableKept (s.commitOpened w) := by
  refine (s.advanceCommit_tableKept w (zone? w.zone)).trans ?_
  unfold State.commitOpened
  simp only []
  split
  · refine .silent (.trans (State.modRecord_tableKept _ _ ?_ ?_) (State.attach_tableKept ..)) rfl <;> exact fun _ => rfl
  · exact .silent (State.removeRecord_tableKept ..) rfl
  · exact .of_table rfl

theorem State.commitBakeIn_tableKept (w : Work) : s.TableKept (s.commitBakeIn w) := by
  refine (s.advanceCommit_tableKept w none).trans ?_
  unfold State.commitBakeIn
  simp only []
  split
  · refine .silent (.trans (State.relistTo_tableKept ..) (State.modRecord_tableKept _ _ ?_ ?_)) rfl <;> exact fun _ => rfl
  · exact .of_table rfl

theorem State.bakeNotice_table (w : Work) (r : Record) (o : BakeOutcome) (z : Option (Fin 32)) (n : Nat) :
    (s.bakeNotice w r o z n).table = s.table := by
  unfold State.bakeNotice
  split
  · rfl
  all_goals rw [State.post_frame]

theorem Record.afterBake_id (r : Record) (c : ClassRow) (o : BakeOutcome) : (r.afterBake c o).id = r.id := by
  cases o with
  | complete | retired => rfl
  | short | shortExpired => exact congrArg RecordCore.id (Record.rejudgeWarn_core _ _)

theorem Record.afterBake_cls (r : Record) (c : ClassRow) (o : BakeOutcome) : (r.afterBake c o).cls = r.cls := by
  cases o with
  | complete | retired => rfl
  | short | shortExpired => exact congrArg RecordCore.cls (Record.rejudgeWarn_core _ _)

end

end Sys2Proof.Machine
end

section
namespace Sys2Proof.Machine

/-! ### O55, O56: what of the engine the carriers depend on

`State.PlacesRight` and `State.ListsRight` speak of the engine by what it expects, holds, creates and unlinks. `State.EngineCalm`
says that none of it has come new; `State.Calm` adds that table, lists and zone kinds stand as they were. -/

/-- The phases of a transaction that is checked and not yet committed, from its lookup on. -/
def EnginePhase.Checked (p : EnginePhase) : Prop := p = .settling ∨ p = .probe ∨ p = .deciding ∨ p = .commitOpen

/-- An OPEN, or a SPLIT, on its way to its create brings an ID, which is to be absent (R44). -/
def State.Expects (s : State) (id : CarrierId) : Prop :=
  ∃ w, s.engine.work = some w ∧
    ((id = carrierIdOf w.tel ∧ (s.engine.phase = .commitCreate ∨
        (TxKind.ofByte? w.tel.kind = some .open_ ∧ w.fault = none ∧ s.engine.phase.Checked))) ∨
      (id = childIdOf w.tel ∧ TxKind.ofByte? w.tel.kind = some .split ∧
        ((s.engine.phase = .commitRelist ∧ w.outcome.any CommitOutcome.transition = true) ∨
          (w.fault = none ∧ s.engine.phase.Checked))))

theorem State.placesRight_iff (s : State) :
    s.PlacesRight ↔ s.table.Right ∧ s.table.Placed ∧ (∀ id, s.Expects id → ∀ i r, s.record? i = some r → r.id ≠ id) ∧
      ∀ w, s.engine.phase = .commitCreate → s.engine.work = some w → TxKind.ofByte? w.tel.kind = some .open_ := by
  constructor
  · intro h
    refine ⟨h.table, ⟨h.placed, h.chained, h.once, h.single⟩, ?_, h.creating⟩
    rintro id ⟨w, hw, ⟨rfl, expects⟩ | ⟨rfl, split, expects⟩⟩ i r hr
    · exact h.opening w i r hw hr expects
    · exact h.splitting w i r hw hr split expects
  · rintro ⟨right, placed, absent, creating⟩
    exact ⟨right, placed.placed, placed.chained, placed.once, placed.single,
      fun w i r hw hr expects => absent _ ⟨w, hw, .inl ⟨rfl, expects⟩⟩ i r hr,
      fun w i r hw hr split expects => absent _ ⟨w, hw, .inr ⟨rfl, split, expects⟩⟩ i r hr, creating⟩

/-- From `s` to `t` the engine has come to expect, hold, create, attach or delete nothing new, and is idle at a stop where it was. -/
structure State.EngineCalm (s t : State) : Prop where
  expects : ∀ id, t.Expects id → s.Expects id
  creating : ∀ w, t.engine.phase = .commitCreate → t.engine.work = some w →
    s.engine.phase = .commitCreate ∧ s.engine.work = some w
  held : ∀ w i, t.engine.work = some w → w.held = some i → ∃ v, s.engine.work = some v ∧ v.held = some i
  unlinked : ∀ i, t.Unlinked i ↔ s.Unlinked i
  created : ∀ i, t.Created i ↔ s.Created i
  stopped : (s.StopKept → s.engine.phase = .idle) → t.StopKept → t.engine.phase = .idle

namespace State.EngineCalm

theorem refl (s : State) : s.EngineCalm s :=
  ⟨fun _ => id, fun _ hp hw => ⟨hp, hw⟩, fun w _ hw hi => ⟨w, hw, hi⟩, fun _ => .rfl, fun _ => .rfl, id⟩

theorem trans {s t u : State} (h : s.EngineCalm t) (k : t.EngineCalm u) : s.EngineCalm u where
  expects id he := h.expects id (k.expects id he)
  creating w hp hw := (k.creating w hp hw).elim (h.creating w)
  held w i hw hi := by
    obtain ⟨v, hv, hvi⟩ := k.held w i hw hi
    exact h.held v i hv hvi
  unlinked i := (k.unlinked i).trans (h.unlinked i)
  created i := (k.created i).trans (h.created i)
  stopped hs := k.stopped (h.stopped hs)

/-- The engine stands where it stood. -/
theorem of_phase {s t : State} (hp : t.engine.phase = s.engine.phase) (hw : t.engine.work = s.engine.work)
    (hs : t.StopKept → s.StopKept ∨ t.engine.phase = .idle) : s.EngineCalm t where
  expects i := by unfold State.Expects; rw [hp, hw]; exact id
  creating w := by rw [hp, hw]; exact And.intro
  held w i := by rw [hw]; exact fun hv hi => ⟨w, hv, hi⟩
  unlinked i := by unfold State.Unlinked; rw [hp, hw]
  created i := by unfold State.Created; rw [hp, hw]
  stopped idle kept := (hs kept).elim (fun before => hp.trans (idle before)) id

/-- The engine has gone to IDLE, from a phase in which it deletes and attaches nothing. -/
theorem of_idle {s t : State} (hp : t.engine.phase = .idle) (hw : t.engine.work = none) (hd : s.engine.phase ≠ .commitDelete)
    (hr : s.engine.phase ≠ .commitRelist) : s.EngineCalm t where
  expects id := by
    rintro ⟨w, he, -⟩
    rw [hw] at he
    cases he
  creating w he := by rw [hp] at he; cases he
  held w i he := by rw [hw] at he; cases he
  unlinked i := by
    refine ⟨fun h => ?_, fun h => absurd h.1 hd⟩
    rw [State.Unlinked, hp] at h
    cases h.1
  created i := by
    refine ⟨fun h => ?_, fun h => absurd h.1 hr⟩
    rw [State.Created, hp] at h
    cases h.1
  stopped _ _ := hp

end State.EngineCalm

/-- From `s` to `t` table, zones and zone kinds stand, and the engine is calm. -/
structure State.Calm (s t : State) : Prop where
  table : t.table = s.table
  zones : t.zones = s.zones
  configs : t.tables.zones = s.tables.zones
  engine : s.EngineCalm t

/-- An outcome whose next state, if there is one, is calm. -/
def State.CalmSafe (s : State) (o : Host.Outcome State Fault Refusal) : Prop := ∀ t, o = .next t → s.Calm t

/-- What of a state the invariants of the carriers read. -/
structure CarrierView where
  table : CarrierTable
  zones : Vector Zone 32
  configs : Vector ZoneConfig 32
  phase : EnginePhase
  work : Option Work
  monitor : Monitor
  checkValid : Bool
  quiesce : Option Quiesce

def State.carriers (s : State) : CarrierView :=
  { table := s.table, zones := s.zones, configs := s.tables.zones, phase := s.engine.phase, work := s.engine.work
    monitor := s.retention.monitor, checkValid := s.retention.checkValid, quiesce := s.retention.quiesce }

/-- Whether the part has stopped with its retained domain is seen in the view. -/
theorem State.StopKept.of_view {s t : State} (h : t.carriers = s.carriers) (k : t.StopKept) : s.StopKept := by
  unfold State.StopKept at k ⊢
  rw [show t.retention.monitor = s.retention.monitor from congrArg CarrierView.monitor h,
    show t.retention.checkValid = s.retention.checkValid from congrArg CarrierView.checkValid h,
    show t.retention.quiesce = s.retention.quiesce from congrArg CarrierView.quiesce h] at k
  exact k

namespace State.Calm

theorem of_view {s t : State} (h : t.carriers = s.carriers) : s.Calm t where
  table := congrArg CarrierView.table h
  zones := congrArg CarrierView.zones h
  configs := congrArg CarrierView.configs h
  engine := .of_phase (congrArg CarrierView.phase h) (congrArg CarrierView.work h) fun k => .inl (k.of_view h)

theorem refl (s : State) : s.Calm s := of_view rfl

theorem trans {s t u : State} (h : s.Calm t) (k : t.Calm u) : s.Calm u :=
  ⟨k.table.trans h.table, k.zones.trans h.zones, k.configs.trans h.configs, h.engine.trans k.engine⟩

/-- A change that the view does not show, behind one that is calm. -/
theorem silent {s t u : State} (h : s.Calm t) (e : u.carriers = t.carriers) : s.Calm u := h.trans (of_view e)

/-- The same, before it. -/
theorem after {s t u : State} (h : t.Calm u) (e : t.carriers = s.carriers) : s.Calm u := (of_view e).trans h

theorem of_plant {s t : State} (h : s.PlantFrame t) : s.Calm t := of_view (by rw [h]; rfl)

end State.Calm

theorem State.CalmSafe.next {s t : State} (h : s.Calm t) : s.CalmSafe (.next t) := by
  rintro _ ⟨⟩
  exact h

theorem State.CalmSafe.fault (s : State) (f : Fault) : s.CalmSafe (.fault f) := by rintro _ ⟨⟩

theorem State.CalmSafe.same {s t : State} (h : t.carriers = s.carriers) : s.CalmSafe (.next t) := .next (.of_view h)

/-! #### The shared operations -/

section
variable (s : State)

theorem State.floorChoice?_carriers {s t : State} (h : s.floorChoice? = some t) : t.carriers = s.carriers := by
  unfold State.floorChoice? at h
  split at h
  · cases h
  · cases h; rfl
  · cases h; rfl
  · split at h <;> cases h <;> rfl

theorem State.kickFloor_carriers : s.kickFloor.carriers = s.carriers := by
  unfold State.kickFloor
  split
  · cases h : s.floorChoice? with
    | none => rfl
    | some t => exact State.floorChoice?_carriers h
  · rfl

theorem State.floorFree_carriers : s.floorFree.carriers = s.carriers := by
  unfold State.floorFree
  cases h : s.floorChoice? with
  | none => rfl
  | some t => exact State.floorChoice?_carriers h

theorem State.plantFree_carriers : s.plantFree.carriers = s.carriers := by
  unfold State.plantFree
  cases h : s.plantChoice? with
  | none => rfl
  | some t => rw [Option.getD_some, State.plantChoice?_frame h]; rfl

theorem State.setPort_carriers (port : LinkPort) (x : PortState) : (s.setPort port x).carriers = s.carriers := by
  cases port <;> rfl

theorem State.agentNext_carriers : s.agentNext.carriers = s.carriers := by
  unfold State.agentNext
  split <;> rfl

theorem State.pushReply_carriers (t : Telegram) : (s.pushReply t).carriers = s.carriers := by rw [s.pushReply_frame]; rfl

theorem State.pushOrDrop_carriers (t : Telegram) : (s.pushOrDrop t).carriers = s.carriers := by
  unfold State.pushOrDrop
  split
  · exact s.pushReply_carriers t
  · rfl

theorem State.pushReplies_carriers (l : List Telegram) (s : State) : (s.pushReplies l).carriers = s.carriers := by
  induction l generalizing s with
  | nil => rfl
  | cons t l ih => exact (ih _).trans (s.pushOrDrop_carriers t)

theorem State.tryPlace_carriers {s t : State} {o : Output} (h : s.tryPlace o = some t) : t.carriers = s.carriers := by
  unfold State.tryPlace at h
  split at h
  · split at h
    · cases h; rw [State.pushUpRelay_frame]; rfl
    · cases h
  · split at h
    · cases h; exact State.kickFloor_carriers _
    · cases h

theorem State.outputGone_carriers : s.outputGone.carriers = s.carriers := by
  unfold State.outputGone
  split
  · next w _ _ =>
    cases h : w.output.bind s.tryPlace with
    | none => rfl
    | some t =>
      obtain ⟨o, _, ho⟩ := Option.bind_eq_some_iff.mp h
      exact State.tryPlace_carriers ho
  · rfl

theorem State.serve_calm (t : Telegram) (op : MgmtOp) {f : State → State} (hf : s.Calm (f s)) : s.Calm (s.serve t op f) := by
  unfold State.serve
  split
  · exact .of_view rfl
  · exact hf

theorem State.startRun_carriers (im : Option StoredImage) (run : ImageRun) : (s.startRun im run).carriers = s.carriers :=
  State.agentNext_carriers { s with store := { s.store with image := im, run := some run } }

theorem State.complete_carriers (a b c : Byte) (st : MgmtStatus) : (s.complete a b c st).carriers = s.carriers := by
  unfold State.complete
  simp only []
  split <;> rfl

theorem State.staleExpiry_carriers (b : Fin 16) : (s.staleExpiry b).carriers = s.carriers := by
  unfold State.staleExpiry
  repeat' split
  all_goals rfl

theorem State.dropRequest_carriers : s.dropRequest.carriers = s.carriers := by
  unfold State.dropRequest State.agentDrain
  split
  · exact State.pushOrDrop_carriers { s.setPause false with agent := .atStart } _
  · rfl

/-! #### Stops -/

theorem State.withView_calm {s u : State} {r : Retention} (hu : u.carriers = s.carriers) {x : StopView} {b : Bool}
    (he : x.engine = { s.engine.stopped with pause := b }) (hr : x.retention = r)
    (kept : State.StopKept { s with retention := r } → s.StopKept ∨ s.engine.phase = .idle) : s.Calm (u.withView x) := by
  have phase : (u.withView x).engine.phase = s.engine.stopped.phase := by rw [show (u.withView x).engine = _ from he]
  have work : (u.withView x).engine.work = s.engine.stopped.work := by rw [show (u.withView x).engine = _ from he]
  refine ⟨congrArg CarrierView.table hu, congrArg CarrierView.zones hu, congrArg CarrierView.configs hu, ?_⟩
  by_cases resting : s.engine.phase = .offering ∨ s.engine.phase = .placing
  · have idle : s.engine.stopped = { s.engine with phase := .idle, work := none } := by
      unfold Engine.stopped
      rcases resting with h | h <;> rw [h]
    rw [idle] at phase work
    refine .of_idle phase work ?_ ?_ <;> rcases resting with h | h <;> rw [h] <;> decide
  · rw [Engine.stopped_of_ne (fun h => resting (.inl h)) fun h => resting (.inr h)] at phase work
    refine .of_phase phase work fun k => ?_
    rw [phase]
    refine kept ?_
    unfold State.StopKept at k ⊢
    rwa [show (u.withView x).retention = r from hr] at k

/-- A stop begins (R20, R154, R186): the engine goes to IDLE from OFFERING or PLACING, and otherwise goes on. -/
theorem State.beginStop_calm (r : Retention)
    (kept : State.StopKept { s with retention := r } → s.StopKept ∨ s.engine.phase = .idle) :
    s.Calm { s with retention := r }.beginStop := by
  have gone := s.outputGone_carriers
  have placed := fun l => (State.pushReplies_carriers l s.outputGone).trans gone
  rcases s.agent_cases with h | h | ⟨t, h, ha⟩
  · rw [s.beginStop_late r h]
    exact State.withView_calm (b := s.engine.stopped.pause) (placed _) rfl rfl kept
  · rw [s.beginStop_drops r h]
    exact State.withView_calm (placed _) rfl rfl kept
  · rw [s.beginStop_keeps r h ha]
    exact State.withView_calm (b := s.engine.stopped.pause) gone rfl rfl kept

/-- A quiesce that begins has nothing recorded yet (R189). -/
theorem State.beginQuiesce_calm (c : QuiesceCause) (n : Nat) : s.Calm (s.beginQuiesce c n) := by
  refine s.beginStop_calm _ fun kept => .inl ?_
  rcases kept with kept | ⟨q, hq, hk⟩
  · exact .inl kept
  · cases hq
    exact nomatch (show false = true from hk.elim id id)

theorem State.placeReset_calm (r : Telegram) : s.Calm (s.placeReset r) := by
  have pushed : s.Calm { s.pushReply r with agent := { s.agent with phase := .idle } } :=
    (State.Calm.of_plant (s.pushReply_frame r)).trans (.of_view rfl)
  unfold State.placeReset
  simp only []
  split
  · exact pushed.silent (State.agentNext_carriers _)
  · exact pushed.trans (State.beginQuiesce_calm _ _ _)

end

/-! #### The commands that leave the carriers alone -/

section
variable (s : State)

theorem receivers_calm (port : LinkPort) :
    (∀ line, s.CalmSafe (execCharacterReceived port line s)) ∧ s.CalmSafe (execBreakDetected port s) ∧
      s.CalmSafe (execBreakEnd port s) ∧ s.CalmSafe (execZeroCharacterLineHigh port s) ∧
      s.CalmSafe (execInterCharacterTimeout port s) := by
  have guarded : ∀ (p : Prop) [Decidable p] (x : PortState),
      s.CalmSafe (if p then .next (s.setPort port x) else .next s) := by
    intro p _ x
    split
    · exact .same (s.setPort_carriers port x)
    · exact .same rfl
  exact ⟨fun _ => guarded _ _, guarded _ _, guarded _ _, guarded _ _, guarded _ _⟩

/-- A quiesce that ends was timed before (R189). -/
theorem State.finishQuiesce_calm {q : Quiesce} (h : s.StopKept ∨ s.engine.phase = .idle) : s.Calm (s.finishQuiesce q) :=
  ⟨rfl, rfl, rfl, .of_phase rfl rfl fun _ => h⟩

/-- The quiesce that the reply of a RESET-PART ends is timed. -/
theorem State.resetReplySent_kept {s : State} {src : TxSource} {q : Quiesce} (h : s.resetReplySent src = some q) :
    s.StopKept := by
  unfold State.resetReplySent at h
  split at h
  · next q' hq =>
    split at h
    · next hc => exact .inr ⟨q', hq, .inl hc.2.1⟩
    · cases h
  · cases h

theorem execTelegramSent_calm (port : LinkPort) : s.CalmSafe (execTelegramSent port s) := by
  unfold execTelegramSent
  split
  · exact .same s.floorFree_carriers
  · split
    · next sent => exact .next (s.finishQuiesce_calm (.inl (State.resetReplySent_kept sent)))
    · exact .same s.plantFree_carriers
  · exact .same rfl

theorem execStartingEnd_calm (port : LinkPort) : s.CalmSafe (execStartingEnd port s) := by
  unfold execStartingEnd
  split
  · exact .same (State.floorFree_carriers { s with floorPref := .answer })
  · exact .same s.plantFree_carriers
  · exact .same rfl

theorem execPlantRoutingTake_calm : s.CalmSafe (execPlantRoutingTake s) := by
  unfold execPlantRoutingTake
  split
  · split
    · split
      · split
        · split <;> exact .same rfl
        · exact .same rfl
      · split
        · exact .same (State.kickFloor_carriers _)
        · exact .same rfl
    · exact .same rfl
  · exact .same rfl

theorem execAdvanceTimerExpiry_calm (z : Nat) : s.CalmSafe (execAdvanceTimerExpiry z s) := by
  unfold execAdvanceTimerExpiry
  split
  · split <;> exact .same rfl
  · exact .fault s _

/-- The timers of the batches. -/
theorem batchTimers_calm (n : Nat) : s.CalmSafe (execStaleTimerExpiry n s) ∧ s.CalmSafe (execBakeStale n s) := by
  refine ⟨?_, ?_⟩
  · unfold execStaleTimerExpiry
    split
    · split
      · exact .same (s.staleExpiry_carriers _)
      · exact .same rfl
    · exact .fault s _
  · unfold execBakeStale
    split
    · split
      · simp only []
        split
        · exact .next ((State.Calm.of_plant (State.post_frame { s with batchWait := _, batches := _ } _)).after rfl)
        · exact .same rfl
      · exact .same rfl
    · exact .fault s _

theorem State.reply_calm {s u : State} (h : u.carriers = s.carriers) (t : Telegram) (st : MgmtStatus) (data : List Byte) :
    s.CalmSafe (.next (u.reply t st data)) :=
  .next ((State.Calm.of_view (s := u) (t := u.reply t st data) rfl).after h)

/-- The offset is stated here for any number: the kernel need not compute with one. -/
theorem State.retimed_carriers (n : Nat) (flags : StartFlags) :
    { s with retention := { s.retention with offset := n, flags := flags } }.carriers = s.carriers := rfl

/-- The requests the agent answers without the other blocks. -/
theorem reads_calm :
    s.CalmSafe (execUnknownOp s) ∧ s.CalmSafe (execReadStatus s) ∧ s.CalmSafe (execSetTime s) ∧
      s.CalmSafe (execClearStartCause s) ∧ s.CalmSafe (execReadRow s) ∧ s.CalmSafe (execReadRecord s) ∧
      s.CalmSafe (execReadBatch s) ∧ s.CalmSafe (execClearRuleCounters s) ∧ s.CalmSafe (execClearFaultCounters s) := by
  refine ⟨?_, ?_, ?_, ?_, ?_, ?_, ?_, ?_, ?_⟩
  · unfold execUnknownOp
    split
    · split <;> exact .same rfl
    · exact .same rfl
  · unfold execReadStatus; split <;> exact .same rfl
  · unfold execSetTime
    split
    · exact State.reply_calm (s.retimed_carriers _ _) _ _ _
    · exact .same rfl
  · unfold execClearStartCause; split <;> exact .same rfl
  · unfold execReadRow; split <;> exact .same rfl
  · unfold execReadRecord
    split
    · split <;> exact .same rfl
    · exact .same rfl
  · unfold execReadBatch; split <;> exact .same rfl
  · unfold execClearRuleCounters; split <;> exact .same rfl
  · unfold execClearFaultCounters; split <;> exact .same rfl

theorem execSetMode_calm : s.CalmSafe (execSetMode s) := by
  unfold execSetMode
  split
  · refine .next (s.serve_calm _ _ ?_)
    unfold State.changeMode
    split <;> exact .of_view rfl
  · exact .same rfl

/-- The rows that no zone depends on (R178). -/
theorem rowWrites_calm :
    s.CalmSafe (execStationWrite s) ∧ s.CalmSafe (execPartConfigurationWrite s) ∧ s.CalmSafe (execPolicyTableWrite s) := by
  refine ⟨?_, ?_, ?_⟩
  · unfold execStationWrite
    split
    · exact .next (s.serve_calm _ _ (.of_view rfl))
    · exact .same rfl
  · unfold execPartConfigurationWrite
    split
    · exact .next (s.serve_calm _ _ (.of_view rfl))
    · exact .same rfl
  · unfold execPolicyTableWrite
    split
    · next w _ =>
      split
      · next policy =>
        refine .next (s.serve_calm _ _ ?_)
        cases w <;> first | exact .of_view rfl | cases policy
      · exact .same rfl
    · exact .same rfl

/-- The commands of the Image Store but for the replacement of a load. -/
theorem images_calm :
    s.CalmSafe (execSaveImage s) ∧ s.CalmSafe (execSaveImageComplete s) ∧ s.CalmSafe (execLoadImage s) ∧
      s.CalmSafe (execCompareImage s) ∧ s.CalmSafe (execCompareImageComplete s) := by
  refine ⟨?save, ?saved, ?load, ?compare, ?compared⟩
  case save =>
    unfold execSaveImage
    split
    · exact .next (s.serve_calm _ _ (.of_view (s.startRun_carriers ..)))
    · exact .same rfl
  case saved =>
    unfold execSaveImageComplete
    split
    · split
      · exact .same (State.complete_carriers { s with store := _ } ..)
      · exact .same rfl
    · exact .same rfl
  case load =>
    unfold execLoadImage
    split
    · split
      · exact .same rfl
      · refine .next ?_
        unfold State.beginLoad
        split <;> exact .of_view rfl
    · exact .same rfl
  case compare =>
    have begun : ∀ (u : State) t, u.Calm (u.beginCompare t) := by
      intro u t
      unfold State.beginCompare
      split
      · exact .refl u
      · exact .of_view (u.startRun_carriers ..)
    unfold execCompareImage
    split
    · simp only []
      split
      · exact .next (s.serve_calm _ _ (begun ..))
      · exact .next ((State.serve_calm { s with store := { s.store with compared := false } } _ _ (begun ..)).after rfl)
    · exact .same rfl
  case compared =>
    unfold execCompareImageComplete
    split
    · split
      · exact .same (State.complete_carriers { s with store := _ } ..)
      · exact .same rfl
    · exact .same rfl

/-- RESET-PART and the placing of replies. -/
theorem replies_calm : s.CalmSafe (execResetPart s) ∧ s.CalmSafe (execReplyPlace s) := by
  refine ⟨?_, ?_⟩
  · unfold execResetPart
    split
    · refine .next (s.serve_calm _ _ ?_)
      unfold State.resetRequest
      simp only []
      split
      · exact s.placeReset_calm _
      · exact .of_view rfl
    · exact .same rfl
  · unfold execReplyPlace
    split
    · split
      · split
        · split
          · exact .next (s.placeReset_calm _)
          · exact .next ((State.Calm.of_plant (s.pushReply_frame _)).silent (State.agentNext_carriers _))
        · split
          · exact .same s.agentNext_carriers
          · exact .same rfl
      · exact .same rfl
    · exact .same rfl

/-- A change of the Retention Unit alone. -/
theorem State.retain_calm {f : Retention → Retention} (h : (s.retain f).StopKept → s.StopKept ∨ s.engine.phase = .idle) :
    s.Calm (s.retain f) := ⟨rfl, rfl, rfl, .of_phase rfl rfl h⟩

/-- The supply monitor and the counter. -/
theorem monitor_calm :
    s.CalmSafe (execSupplyFail s) ∧ s.CalmSafe (execSupplyRecover s) ∧ s.CalmSafe (execSupplyReturn s) ∧
      s.CalmSafe (execSupplyDrop s) ∧ s.CalmSafe (execPowerApplied s) ∧ s.CalmSafe (execBackupLoss s) ∧
      s.CalmSafe (execMonotonicTick s) := by
  have running : ∀ m ok, m ≠ .frozen → m ≠ .restorePending → s.Calm (s.setMonitor m ok) := fun m ok frozen pending =>
    s.retain_calm fun kept => .inl (.inr (kept.resolve_left fun h => h.1.elim frozen pending))
  have stopped : ∀ m ok, s.retention.monitor = .frozen ∨ s.retention.monitor = .restorePending → s.Calm (s.setMonitor m ok) :=
    fun m ok h => s.retain_calm fun kept => .inl (kept.imp_left fun k => ⟨h, k.2⟩)
  refine ⟨?_, ?_, ?_, ?_, ?_, ?_, ?_⟩
  · unfold execSupplyFail
    split
    · exact .next (running _ _ (by decide) (by decide))
    · exact .same rfl
  · unfold execSupplyRecover
    split
    · exact .next (running _ _ (by decide) (by decide))
    · exact .same rfl
  · unfold execSupplyReturn
    split
    · next h => exact .next (stopped _ _ (.inl h))
    · exact .next (running _ _ (by decide) (by decide))
    · exact .same rfl
  · unfold execSupplyDrop
    split
    · next h => exact .next (stopped _ _ (.inr h))
    · exact .next (running _ _ (by decide) (by decide))
    · exact .same rfl
  · unfold execPowerApplied
    split
    · next h => exact .next (stopped _ _ (.inl h))
    · exact .same rfl
  · unfold execBackupLoss
    split
    · exact .next (s.retain_calm fun kept => .inl (.inr (kept.resolve_left fun h => nomatch h.2)))
    · exact .same rfl
  · unfold execMonotonicTick
    split <;> exact .same rfl

/-- The work of a stop has ended: the engine is idle (R185). -/
theorem State.workEnded_idle {s : State} (h : s.workEnded = true) : s.engine.phase = .idle := by
  simp only [State.workEnded, Bool.and_eq_true, beq_iff_eq] at h
  exact h.1.1

/-- Freezes and quiesces. -/
theorem stops_calm :
    s.CalmSafe (execLineBreak s) ∧ s.CalmSafe (execFreeze s) ∧ s.CalmSafe (execFreezeStop s) ∧
      s.CalmSafe (execQuiesceStop s) ∧ s.CalmSafe (execMainSupplyLoss s) := by
  refine ⟨?lineBreak, ?freeze, ?freezeStop, ?quiesceStop, ?supplyLoss⟩
  case lineBreak =>
    unfold execLineBreak
    split
    · exact .next (s.beginQuiesce_calm _ _)
    · exact .same rfl
  case freeze =>
    unfold execFreeze
    split
    · refine .next (s.beginStop_calm _ ?_)
      rintro (⟨h | h, -⟩ | ⟨q, hq, -⟩)
      · cases h
      · cases h
      · cases hq
    · exact .same rfl
  case freezeStop =>
    unfold execFreezeStop
    split
    · next h => exact .next ⟨rfl, rfl, rfl, .of_phase rfl rfl fun _ => .inr (State.workEnded_idle h.2)⟩
    · exact .same rfl
  case quiesceStop =>
    unfold execQuiesceStop
    split
    · next q _ =>
      split
      · next h =>
        have idle := State.workEnded_idle h.2
        have timed : s.Calm (if q.timed then s else s.recordFreezeTime) := by
          split
          · exact .refl s
          · exact s.retain_calm fun _ => .inr idle
        have idle' : (if q.timed then s else s.recordFreezeTime).engine.phase = .idle := by split <;> exact idle
        refine .next ?_
        unfold State.quiesceEnds
        simp only []
        split
        · exact timed.trans ⟨rfl, rfl, rfl, .of_phase rfl rfl fun _ => .inr idle'⟩
        · exact timed.trans (State.finishQuiesce_calm _ (.inr idle'))
      · exact .same rfl
    · exact .same rfl
  case supplyLoss =>
    have lost : s.Calm (s.stopReceivers.stopTransmitters.retain fun r =>
        { r with monitor := .frozen, supplyOk := false, checkValid := false, quiesce := none }) := by
      refine ⟨rfl, rfl, rfl, .of_phase rfl rfl ?_⟩
      rintro (⟨-, h⟩ | ⟨q, hq, -⟩)
      · cases h
      · cases hq
    unfold execMainSupplyLoss
    split
    · exact .next lost
    · exact .next lost
    · exact .next lost
    · exact .same rfl

end

end Sys2Proof.Machine
end

section
namespace Sys2Proof.Machine

/-! ### O56: the watch lists and their records

`State.Lists` is the part of `State.ListsRight` that speaks of lists and records, relative to what the engine has in hand: the
records that stand outside their list, those it has just created, and those it holds. An operation of the Zone Engine keeps it
for every `Hands`; taking a record out of its list, and putting it back, moves the record into and out of `Hands.off`. -/

/-- A record that names a zone is in a state of a zone, and one that names an oven is BAKING (R38). -/
structure Record.Shaped (r : Record) : Prop where
  zoned : r.zonePart ≠ none → r.state.inZone = true
  baking : r.bakePart ≠ none → r.state = .baking

/-- A record in a state of a zone names one, and is DRY exactly in a DRY zone. -/
structure Record.Suited (r : Record) (kind : Fin 32 → ZoneKind) : Prop where
  stands : r.state.inZone = true → r.zonePart ≠ none
  dry : ∀ zp, r.zonePart = some zp → (r.state = .dry ↔ kind zp.zone = .dry)

/-- Zone and watch key of a record, which place it in the lists. -/
def Record.place (r : Record) : Option (Fin 32 × Nat) := r.zonePart.map fun zp => (zp.zone, zp.key)

/-- What the engine has in hand: records outside their list, records just created, and records held. -/
structure Hands where
  off : Nat → Prop
  fresh : Nat → Prop
  held : Nat → Prop

/-- The same with one more record outside its list. -/
def Hands.without (h : Hands) (i : Nat) : Hands := { h with off := fun j => h.off j ∨ j = i }

/-- What the engine of a state has in hand. -/
def State.hands (s : State) : Hands where
  off i := s.Unlinked i ∨ s.Created i
  fresh i := s.Created i
  held i := ∃ w, s.engine.work = some w ∧ w.held = some i

/-- What the lists ask of the record at an index. -/
structure Record.Fits (r : Record) (kind : Fin 32 → ZoneKind) (h : Hands) (i : Nat) : Prop where
  shaped : r.Shaped
  suited : ¬h.off i → r.Suited kind
  fresh : h.fresh i → r.zonePart = none ∧ r.bakePart = none
  held : h.held i → r.held = true

/-- Kind of a zone. -/
def State.kindOf (s : State) (z : Fin 32) : ZoneKind := (s.tables.zone z).kind

/-- Lists and records agree but for what the engine has in hand. -/
structure State.Lists (s : State) (h : Hands) : Prop where
  once : ∀ z : Fin 32, (s.zone z).watch.Nodup
  ordered : ∀ z : Fin 32, (s.zone z).watch.Pairwise fun i j => s.keyOf i ≤ s.keyOf j
  mem : ∀ (z : Fin 32) i, i ∈ (s.zone z).watch ↔ ¬h.off i ∧ s.zoneOf? i = some z
  fits : ∀ i r, s.record? i = some r → r.Fits s.kindOf h i

theorem State.zoneOf?_of {s : State} {i : Nat} {r : Record} (h : s.record? i = some r) :
    s.zoneOf? i = r.zonePart.map ZonePart.zone := by
  unfold State.zoneOf?
  rw [h]

theorem State.zoneOf?_eq_some {s : State} {i : Nat} {z : Fin 32} :
    s.zoneOf? i = some z ↔ ∃ r zp, s.record? i = some r ∧ r.zonePart = some zp ∧ zp.zone = z := by
  unfold State.zoneOf?
  cases s.record? i with
  | none => simp
  | some r => simp [Option.map_eq_some_iff]

theorem State.zoneOf?_congr {s t : State} {i : Nat} (h : t.record? i = s.record? i) : t.zoneOf? i = s.zoneOf? i := by
  unfold State.zoneOf?
  rw [h]

theorem State.keyOf_congr {s t : State} {i : Nat} (h : t.record? i = s.record? i) : t.keyOf i = s.keyOf i := by
  unfold State.keyOf
  rw [h]

theorem State.keyOf_of {s : State} {i : Nat} {r : Record} (h : s.record? i = some r) :
    s.keyOf i = (r.place.map Prod.snd).getD 0 := by
  unfold State.keyOf Record.place
  rw [h]
  cases hz : r.zonePart <;> simp [hz]

theorem Record.place_zone (r : Record) : r.place.map Prod.fst = r.zonePart.map ZonePart.zone := by
  unfold Record.place
  cases r.zonePart <;> rfl

/-- `State.ListsRight`, taken apart. -/
theorem State.listsRight_iff (s : State) :
    s.ListsRight ↔ s.table.Right ∧ s.Lists s.hands ∧
      (∀ w, s.engine.phase = .commitCreate → s.engine.work = some w →
        TxKind.ofByte? w.tel.kind = some .open_ ∧ ∃ o, w.outcome = some o ∧ o.transition = true) ∧
      (s.StopKept → s.engine.phase = .idle) := by
  constructor
  · intro h
    have listed : ∀ (z : Fin 32) i, i ∈ (s.zone z).watch ↔ ¬s.hands.off i ∧ s.zoneOf? i = some z := by
      intro z i
      constructor
      · intro hi
        obtain ⟨r, zp, hr, hz, rfl, -⟩ := h.member z i hi
        refine ⟨?_, by rw [State.zoneOf?_of hr, hz]; rfl⟩
        rintro (unlinked | created)
        · exact h.unlinked i _ unlinked hi
        · rw [(h.created i r created hr).1] at hz
          cases hz
      · rintro ⟨on, hz⟩
        obtain ⟨r, zp, hr, hzp, rfl⟩ := State.zoneOf?_eq_some.mp hz
        obtain ⟨zq, hzq, hi⟩ := h.listed i r hr (h.zoned i r hr (by rw [hzp]; exact Option.some_ne_none _))
          (fun k => on (.inl k)) fun k => on (.inr k)
        rw [hzp] at hzq
        cases hzq
        exact hi
    refine ⟨h.table, ⟨h.once, h.ordered, listed, fun i r hr => ⟨⟨h.zoned i r hr, h.baking i r hr⟩, fun on => ?_,
      fun hc => h.created i r hc hr, fun ⟨w, hw, hi⟩ => h.held i w r hw hi hr⟩⟩, h.creating, h.stopped⟩
    refine ⟨fun inz => ?_, fun zp hzp => ?_⟩
    · obtain ⟨zp, hzp, -⟩ := h.listed i r hr inz (fun k => on (.inl k)) fun k => on (.inr k)
      rw [hzp]
      exact Option.some_ne_none _
    · have hi := (listed zp.zone i).mpr ⟨on, by rw [State.zoneOf?_of hr, hzp]; rfl⟩
      obtain ⟨q, zq, hq, -, -, dry⟩ := h.member _ i hi
      rw [hr] at hq
      cases hq
      exact dry
  · rintro ⟨right, h, creating, stopped⟩
    refine ⟨right, h.once, h.ordered, fun z i hi => ?_, fun i r hr inz notUnlinked notCreated => ?_,
      fun i r hr => (h.fits i r hr).shaped.zoned, fun i r hr => (h.fits i r hr).shaped.baking,
      fun i w r hw hi hr => (h.fits i r hr).held ⟨w, hw, hi⟩, fun i z hu hi => ((h.mem z i).mp hi).1 (.inl hu),
      fun i r hc hr => (h.fits i r hr).fresh hc, creating, stopped⟩
    · obtain ⟨on, hz⟩ := (h.mem z i).mp hi
      obtain ⟨r, zp, hr, hzp, rfl⟩ := State.zoneOf?_eq_some.mp hz
      exact ⟨r, zp, hr, hzp, rfl, ((h.fits i r hr).suited on).dry zp hzp⟩
    · have on : ¬s.hands.off i := fun k => k.elim notUnlinked notCreated
      obtain ⟨zp, hzp⟩ := Option.ne_none_iff_exists'.mp (((h.fits i r hr).suited on).stands inz)
      exact ⟨zp, hzp, (h.mem _ i).mpr ⟨on, by rw [State.zoneOf?_of hr, hzp]; rfl⟩⟩

/-- `t` shows the records, lists and zone kinds of `s`. -/
structure State.SameLists (s t : State) : Prop where
  records : ∀ i, t.record? i = s.record? i
  watch : ∀ z : Fin 32, (t.zone z).watch = (s.zone z).watch
  kinds : ∀ z : Fin 32, t.kindOf z = s.kindOf z

namespace State.SameLists

theorem refl (s : State) : s.SameLists s := ⟨fun _ => rfl, fun _ => rfl, fun _ => rfl⟩

theorem trans {s t u : State} (h : s.SameLists t) (k : t.SameLists u) : s.SameLists u :=
  ⟨fun i => (k.records i).trans (h.records i), fun z => (k.watch z).trans (h.watch z), fun z => (k.kinds z).trans (h.kinds z)⟩

theorem of_eq {s t : State} (ht : t.table = s.table) (hz : t.zones = s.zones) (hc : t.tables = s.tables) : s.SameLists t := by
  refine ⟨fun i => ?_, fun z => ?_, fun z => ?_⟩
  · unfold State.record?; rw [ht]
  · unfold State.zone; rw [hz]
  · unfold State.kindOf; rw [hc]

theorem of_plant {s t : State} (h : s.PlantFrame t) : s.SameLists t := of_eq (by rw [h]) (by rw [h]) (by rw [h])

/-- A zone changes, but for its list. -/
theorem setZone (s : State) (z : Fin 32) {x : Zone} (h : x.watch = (s.zone z).watch) : s.SameLists (s.setZone z x) := by
  refine ⟨fun i => State.setZone_record? s z x i, fun y => ?_, fun _ => rfl⟩
  by_cases hy : y = z
  · subst hy
    rw [State.setZone_zone_self]
    exact h
  · rw [State.setZone_zone_ne _ _ hy]

theorem foldl {α : Type} {f : State → α → State} (hf : ∀ s a, State.SameLists s (f s a)) (l : List α) (s : State) :
    s.SameLists (l.foldl f s) := by
  induction l generalizing s with
  | nil => exact refl s
  | cons a l ih => exact (hf s a).trans (ih _)

end State.SameLists

theorem insertWatch_congr {f g : Nat → Nat} {l : List Nat} (h : ∀ j ∈ l, g j = f j) (i k : Nat) :
    insertWatch g i k l = insertWatch f i k l := by
  have eq : ∀ m : List Nat, (∀ j ∈ m, g j = f j) →
      (m.takeWhile fun j => decide (k < g j)) = (m.takeWhile fun j => decide (k < f j)) ∧
        (m.dropWhile fun j => decide (k < g j)) = m.dropWhile fun j => decide (k < f j) := by
    intro m hm
    induction m with
    | nil => exact ⟨rfl, rfl⟩
    | cons a m ih =>
      obtain ⟨ht, hd⟩ := ih fun j hj => hm j (List.mem_cons_of_mem _ hj)
      rw [List.takeWhile_cons, List.takeWhile_cons, List.dropWhile_cons, List.dropWhile_cons, hm a List.mem_cons_self, ht, hd]
      exact ⟨rfl, rfl⟩
  obtain ⟨ht, hd⟩ := eq l.reverse fun j hj => h j (List.mem_reverse.mp hj)
  unfold insertWatch
  rw [ht, hd]

/-- An insertion keeps the order of the keys (R95). -/
theorem insertWatch_ordered {f : Nat → Nat} {i : Nat} {l : List Nat} (h : l.Pairwise fun a b => f a ≤ f b) :
    (insertWatch f i (f i) l).Pairwise fun a b => f a ≤ f b := by
  set rest := l.reverse.dropWhile fun j => decide (f i < f j) with hrest
  set above := l.reverse.takeWhile fun j => decide (f i < f j) with habove
  have whole : rest.reverse ++ above.reverse = l := by
    rw [← List.reverse_append, List.takeWhile_append_dropWhile, List.reverse_reverse]
  rw [← whole, List.pairwise_append] at h
  obtain ⟨hr, ha, across⟩ := h
  have larger : ∀ j ∈ above, f i < f j := fun j hj => by
    simpa using List.mem_takeWhile_imp hj
  have smaller : ∀ j ∈ rest, f j ≤ f i := by
    intro j hj
    cases hc : rest with
    | nil => rw [hc] at hj; cases hj
    | cons a m =>
      have ha : f a ≤ f i := by
        have := List.head_dropWhile_not (l := l.reverse) (fun j => decide (f i < f j)) (by rw [← hrest, hc]; exact List.cons_ne_nil _ _)
        simp only [← hrest, hc, List.head_cons, decide_eq_false_iff_not, not_lt] at this
        exact this
      rw [hc] at hj hr
      rw [List.reverse_cons, List.pairwise_append] at hr
      rcases List.mem_cons.mp hj with rfl | hj
      · exact ha
      · exact (hr.2.2 j (List.mem_reverse.mpr hj) a (List.mem_singleton.mpr rfl)).trans ha
  refine List.pairwise_append.mpr ⟨hr, List.pairwise_cons.mpr ⟨fun j hj => (larger j (List.mem_reverse.mp hj)).le, ha⟩, ?_⟩
  intro a hra b hb
  have ha := smaller a (List.mem_reverse.mp hra)
  rcases List.mem_cons.mp hb with rfl | hb
  · exact ha
  · exact across a hra b hb

namespace State.Lists

section
variable {s t : State} {h : Hands} {i : Nat}

/-- What the lists say depends on records, lists and zone kinds alone. -/
theorem same (k : s.Lists h) (e : s.SameLists t) : t.Lists h where
  once z := by rw [e.watch]; exact k.once z
  ordered z := by
    rw [e.watch, show t.keyOf = s.keyOf from funext fun i => State.keyOf_congr (e.records i)]
    exact k.ordered z
  mem z i := by rw [e.watch, State.zoneOf?_congr (e.records i)]; exact k.mem z i
  fits i r hr := by rw [funext e.kinds]; exact k.fits i r (e.records i ▸ hr)

/-- Other hands, with the same records outside their lists and none more created or held. -/
theorem hands {h' : Hands} (k : s.Lists h) (off : ∀ i, h'.off i ↔ h.off i) (fresh : ∀ i, h'.fresh i → h.fresh i)
    (held : ∀ i, h'.held i → h.held i) : s.Lists h' where
  once := k.once
  ordered := k.ordered
  mem z i := by rw [off]; exact k.mem z i
  fits i r hr :=
    have f := k.fits i r hr
    ⟨f.shaped, fun on => f.suited fun ho => on ((off i).mpr ho), fun hf => f.fresh (fresh i hf), fun hf => f.held (held i hf)⟩

/-- An index that holds no record may count as inside its list, as outside it, as created and as held. -/
theorem vacant {h' : Hands} (k : s.Lists h) (empty : s.record? i = none) (off : ∀ j, j ≠ i → (h'.off j ↔ h.off j))
    (fresh : ∀ j, j ≠ i → h'.fresh j → h.fresh j) (held : ∀ j, j ≠ i → h'.held j → h.held j) : s.Lists h' := by
  have ne : ∀ {j r}, s.record? j = some r → j ≠ i := by
    rintro j r hr rfl
    rw [empty] at hr
    cases hr
  refine ⟨k.once, k.ordered, fun z j => ?_, fun j r hr =>
    have f := k.fits j r hr
    ⟨f.shaped, fun on => f.suited fun ho => on ((off j (ne hr)).mpr ho), fun hf => f.fresh (fresh j (ne hr) hf),
      fun hf => f.held (held j (ne hr) hf)⟩⟩
  rw [k.mem]
  by_cases hj : j = i
  · have none : s.zoneOf? j = none := by unfold State.zoneOf?; rw [hj, empty]
    rw [none]
    exact ⟨(fun m => nomatch m.2), (fun m => nomatch m.2)⟩
  · rw [off j hj]

/-- Where a record stands in the list of its zone, taking it out of that list is taking it out of every list. -/
theorem unlist_watch (k : s.Lists h) {z : Fin 32} (hz : s.zoneOf? i = some z) (y : Fin 32) :
    ((s.unlist z i).zone y).watch = (s.zone y).watch.erase i := by
  rw [State.unlist_watch]
  split
  · next hy => rw [hy]
  · next hy =>
    refine (List.erase_of_not_mem fun hi => hy ?_).symm
    have := ((k.mem y i).mp hi).2
    rw [hz] at this
    exact (Option.some.inj this).symm

/-- A record that names no zone, or stands outside its list, is in none. -/
theorem erase_watch (k : s.Lists h) (out : h.off i ∨ s.zoneOf? i = none) (y : Fin 32) :
    (s.zone y).watch = (s.zone y).watch.erase i := by
  refine (List.erase_of_not_mem fun hi => ?_).symm
  obtain ⟨on, hz⟩ := (k.mem y i).mp hi
  rcases out with out | out
  · exact on out
  · rw [out] at hz
    cases hz

/-- A record is taken out of every list, and is changed or freed. -/
theorem taken (k : s.Lists h) (others : ∀ j, j ≠ i → t.record? j = s.record? j)
    (watch : ∀ z : Fin 32, (t.zone z).watch = (s.zone z).watch.erase i) (kinds : ∀ z : Fin 32, t.kindOf z = s.kindOf z)
    (here : ∀ r, t.record? i = some r → r.Fits s.kindOf (h.without i) i) :
    t.Lists (h.without i) := by
  have ne : ∀ {z : Fin 32} {j}, j ∈ (s.zone z).watch.erase i → j ≠ i := by
    rintro z j hj rfl
    exact List.Nodup.not_mem_erase (k.once z) hj
  refine ⟨fun z => ?_, fun z => ?_, fun z j => ?_, fun j r hr => ?_⟩
  · rw [watch]
    exact (k.once z).erase i
  · rw [watch]
    refine ((k.ordered z).sublist List.erase_sublist).imp_of_mem fun {a b} ha hb hab => ?_
    rwa [State.keyOf_congr (others _ (ne ha)), State.keyOf_congr (others _ (ne hb))]
  · rw [watch, (k.once z).mem_erase_iff, k.mem]
    by_cases hj : j = i
    · exact ⟨fun m => absurd hj m.1, fun m => absurd (.inr hj) m.1⟩
    · rw [State.zoneOf?_congr (others j hj)]
      simp [Hands.without, hj]
  · rw [funext kinds]
    by_cases hj : j = i
    · subst hj
      exact here r hr
    · rw [others j hj] at hr
      have f := k.fits j r hr
      exact ⟨f.shaped, fun on => f.suited fun ho => on (.inl ho), f.fresh, f.held⟩

/-- A record outside its list is changed or freed. -/
theorem loose (k : s.Lists h) (off : h.off i) (others : ∀ j, j ≠ i → t.record? j = s.record? j)
    (watch : ∀ z : Fin 32, (t.zone z).watch = (s.zone z).watch) (kinds : ∀ z : Fin 32, t.kindOf z = s.kindOf z)
    (here : ∀ r, t.record? i = some r → r.Fits s.kindOf (h.without i) i) :
    t.Lists h :=
  (k.taken others (fun z => (watch z).trans (k.erase_watch (.inl off) z)) kinds here).hands
    (fun _ => ⟨.inl, fun m => m.elim id fun e => e ▸ off⟩) (fun _ => id) fun _ => id

/-- A record keeps its place and what the lists ask of it. -/
theorem renewed (k : s.Lists h) {r r' : Record} (hr : s.record? i = some r) (hr' : t.record? i = some r')
    (others : ∀ j, j ≠ i → t.record? j = s.record? j) (watch : ∀ z : Fin 32, (t.zone z).watch = (s.zone z).watch)
    (kinds : ∀ z : Fin 32, t.kindOf z = s.kindOf z) (place : r'.place = r.place) (state : r'.state = r.state)
    (bake : r'.bakePart = r.bakePart) (held : h.held i → r'.held = true) : t.Lists h := by
  have zones : r'.zonePart.map ZonePart.zone = r.zonePart.map ZonePart.zone := by rw [← Record.place_zone, place, Record.place_zone]
  have none_iff : r'.zonePart = none ↔ r.zonePart = none := by
    rw [← Option.map_eq_none_iff (f := ZonePart.zone), zones, Option.map_eq_none_iff]
  have keys : ∀ j, t.keyOf j = s.keyOf j := by
    intro j
    by_cases hj : j = i
    · subst hj
      rw [State.keyOf_of hr', place, State.keyOf_of hr]
    · exact State.keyOf_congr (others j hj)
  have zoneOf : ∀ j, t.zoneOf? j = s.zoneOf? j := by
    intro j
    by_cases hj : j = i
    · subst hj
      rw [State.zoneOf?_of hr', zones, State.zoneOf?_of hr]
    · exact State.zoneOf?_congr (others j hj)
  refine ⟨fun z => ?_, fun z => ?_, fun z j => ?_, fun j q hq => ?_⟩
  · rw [watch]; exact k.once z
  · rw [watch, funext keys]; exact k.ordered z
  · rw [watch, zoneOf]; exact k.mem z j
  · rw [funext kinds]
    by_cases hj : j = i
    · subst hj
      rw [hr'] at hq
      cases hq
      have f := k.fits j r hr
      refine ⟨⟨fun hz => state ▸ f.shaped.zoned fun e => hz (none_iff.mpr e), fun hb => state ▸ f.shaped.baking (bake ▸ hb)⟩,
        fun on => ⟨fun inz e => (f.suited on).stands (state ▸ inz) (none_iff.mp e), fun zp hzp => ?_⟩,
        fun hf => (f.fresh hf).imp none_iff.mpr bake.trans, held⟩
      rw [hzp] at zones
      obtain ⟨zq, hzq, e⟩ := Option.map_eq_some_iff.mp zones.symm
      rw [state, ← e]
      exact (f.suited on).dry zq hzq
    · rw [others j hj] at hq
      exact k.fits j q hq

/-- A record outside its list that names no zone may count as inside it. -/
theorem back (k : s.Lists (h.without i)) (zoneless : s.zoneOf? i = none) (suited : ∀ r, s.record? i = some r → r.Suited s.kindOf) :
    s.Lists h where
  once := k.once
  ordered := k.ordered
  mem z j := by
    rw [k.mem]
    by_cases hj : j = i
    · subst hj
      rw [zoneless]
      exact ⟨(fun m => nomatch m.2), (fun m => nomatch m.2)⟩
    · simp [Hands.without, hj]
  fits j r hr := by
    have f := k.fits j r hr
    refine ⟨f.shaped, fun on => ?_, f.fresh, f.held⟩
    by_cases hj : j = i
    · subst hj
      exact suited r hr
    · exact f.suited fun m => m.elim on hj

/-- A record outside its list is inserted into it by its new key (R95). -/
theorem enlisted (k : s.Lists (h.without i)) (on : ¬h.off i) (suited : ∀ r, s.record? i = some r → r.Suited s.kindOf) :
    (s.enlist i).Lists h := by
  cases hr : s.record? i with
  | none =>
    have same : s.enlist i = s := by unfold State.enlist; rw [hr]
    rw [same]
    exact k.back (by unfold State.zoneOf?; rw [hr]) suited
  | some r =>
    cases hz : r.zonePart with
    | none =>
      have same : s.enlist i = s := by unfold State.enlist; rw [hr]; simp only [hz]
      rw [same]
      exact k.back (by rw [State.zoneOf?_of hr, hz]; rfl) suited
    | some zp =>
      set r' : Record := { r with zonePart := some { zp with key := r.watchKey (s.classOf r) zp.stamp } } with hr'
      set u := s.setRecord i r' with hu
      have form : s.enlist i = u.setZone zp.zone
          { u.zone zp.zone with watch := insertWatch u.keyOf i (r.watchKey (s.classOf r) zp.stamp) (u.zone zp.zone).watch } := by
        unfold State.enlist; rw [hr]; simp only [hz]; rfl
      have here : (s.enlist i).record? i = some r' := by rw [form, State.setZone_record?]; exact State.setRecord_record?_self ..
      have others : ∀ j, j ≠ i → (s.enlist i).record? j = s.record? j := fun j => State.enlist_record?_ne s
      have key : (s.enlist i).keyOf = u.keyOf := by rw [form]; rfl
      have kinds : (s.enlist i).kindOf = s.kindOf := by rw [form]; rfl
      have own : u.keyOf i = r.watchKey (s.classOf r) zp.stamp := State.keyOf_of (State.setRecord_record?_self ..)
      have watch : ∀ y, ((s.enlist i).zone y).watch =
          if y = zp.zone then insertWatch u.keyOf i (u.keyOf i) (s.zone y).watch else (s.zone y).watch := by
        intro y
        rw [form]
        split
        · next e => rw [e, State.setZone_zone_self, own]; rfl
        · next e => rw [State.setZone_zone_ne _ _ e]; rfl
      have absent : ∀ y : Fin 32, i ∉ (s.zone y).watch := fun y hi => ((k.mem y i).mp hi).1 (.inr rfl)
      have keys : ∀ {y : Fin 32} {j}, j ∈ (s.zone y).watch → u.keyOf j = s.keyOf j := fun {y j} hj =>
        State.keyOf_congr (State.setRecord_record?_ne _ _ fun e => absent y (e ▸ hj))
      have ordered : ∀ y : Fin 32, (s.zone y).watch.Pairwise fun a b => u.keyOf a ≤ u.keyOf b := fun y =>
        (k.ordered y).imp_of_mem fun ha hb hab => by rwa [keys ha, keys hb]
      have zone : (s.enlist i).zoneOf? i = some zp.zone := State.zoneOf?_of here
      refine ⟨fun y => ?_, fun y => ?_, fun y j => ?_, fun j q hq => ?_⟩
      · rw [watch]
        split
        · exact nodup_insertWatch _ _ _ (k.once y) (absent y)
        · exact k.once y
      · rw [watch, key]
        split
        · exact insertWatch_ordered (ordered y)
        · exact ordered y
      · rw [watch]
        by_cases hj : j = i
        · subst hj
          rw [zone]
          split
          · next e => simp [mem_insertWatch, on, e]
          · next e => simp [absent y, Ne.symm e]
        · rw [State.zoneOf?_congr (others j hj)]
          have m := k.mem y j
          simp only [Hands.without, hj, or_false] at m
          split <;> simp [mem_insertWatch, hj, m]
      · rw [kinds]
        by_cases hj : j = i
        · subst hj
          rw [here] at hq
          cases hq
          have f := k.fits j r hr
          have named : r.zonePart ≠ none := by rw [hz]; exact Option.some_ne_none _
          refine ⟨⟨fun _ => f.shaped.zoned named, f.shaped.baking⟩, fun _ => ⟨fun _ => Option.some_ne_none _, ?_⟩,
            fun hf => absurd (f.fresh hf).1 named, f.held⟩
          rintro _ ⟨⟩
          exact (suited r hr).dry zp hz
        · rw [others j hj] at hq
          have f := k.fits j q hq
          exact ⟨f.shaped, fun out => f.suited fun m => m.elim out hj, f.fresh, f.held⟩

end

end State.Lists

end Sys2Proof.Machine
end

section
namespace Sys2Proof.Machine

/-! ### O56: the Zone Engine's operations keep the lists -/

/-! #### One record -/

/-- A record in its place: what the lists ask of one that the engine has not in hand. -/
structure Record.Seated (r : Record) (kind : Fin 32 → ZoneKind) : Prop where
  shaped : r.Shaped
  suited : r.Suited kind

theorem Record.Shaped.bakePart_none {r : Record} (h : r.Shaped) (inz : r.state ≠ .baking) : r.bakePart = none := by
  by_contra hb
  exact inz (h.baking hb)

theorem CarrierState.ne_baking_of_inZone {x : CarrierState} (h : x.inZone = true) : x ≠ .baking := by
  rintro rfl
  cases h

/-- A record that has left its zone for a state of none. -/
theorem Record.seated_zoneless {r : Record} {kind : Fin 32 → ZoneKind} (zone : r.zonePart = none) (out : r.state.inZone = false)
    (bake : r.bakePart = none ∨ r.state = .baking) : r.Seated kind where
  shaped := ⟨fun h => absurd zone h, fun h => bake.resolve_left h⟩
  suited := ⟨fun h => (nomatch out.symm.trans h), fun _ h => (nomatch zone.symm.trans h)⟩

/-- A record that stands in a zone whose kind its state suits. -/
theorem Record.seated_zoned {r : Record} {kind : Fin 32 → ZoneKind} {zp : ZonePart} (zone : r.zonePart = some zp)
    (inz : r.state.inZone = true) (bake : r.bakePart = none) (dry : r.state = .dry ↔ kind zp.zone = .dry) : r.Seated kind where
  shaped := ⟨fun _ => inz, fun h => absurd bake h⟩
  suited := ⟨fun _ => by rw [zone]; exact Option.some_ne_none _, by rw [zone]; rintro _ ⟨⟩; exact dry⟩

/-- A crossing sets the warn mark, or makes a MOUNTED carrier OVERRUN, or expires the carrier out of its zone (R84, R85). -/
theorem Record.crossed_seated {r : Record} {kind : Fin 32 → ZoneKind} (h : r.Seated kind) (c : ClassRow) :
    (r.crossed c).Seated kind := by
  obtain ⟨id, cls, st, consumed, bakeCount, warn, eligible, lastShort, memory, zone, dry, bake, held⟩ := r
  unfold Record.crossed Record.cross?
  cases zone with
  | none => exact h
  | some zp =>
    have inz : st.inZone = true := h.shaped.zoned (Option.some_ne_none _)
    have none : bake = none := h.shaped.bakePart_none (CarrierState.ne_baking_of_inZone inz)
    have stands := h.suited.dry zp rfl
    have moved : ∀ st' warn' e d, st'.inZone = true → (st' = .dry ↔ st = .dry) →
        Record.Seated ⟨id, cls, st', consumed, bakeCount, warn', e, lastShort, memory, some zp, d, bake, held⟩ kind :=
      fun st' warn' e d inz' same => Record.seated_zoned rfl inz' none (same.trans stands)
    have expired : ∀ warn', Record.Seated
        ⟨id, cls, .expired, consumed, bakeCount, warn', false, lastShort, memory, Option.none, Option.none, bake, held⟩ kind :=
      fun _ => Record.seated_zoneless rfl rfl (.inl none)
    simp only []
    split
    · exact h
    · cases st with
      | overrun => exact expired warn
      | mounted =>
        simp only []
        split
        · exact moved _ _ _ _ rfl .rfl
        · split
          · exact moved _ _ _ _ rfl ⟨nofun, nofun⟩
          · exact expired warn
      | dry | exposed =>
        simp only []
        split
        · exact moved _ _ _ _ rfl .rfl
        · exact expired warn
      | baking | expired | retired => exact h

theorem Record.crossedAll_seated {r : Record} {kind : Fin 32 → ZoneKind} (h : r.Seated kind) (c : ClassRow) :
    (r.crossedAll c).Seated kind :=
  Record.crossed_seated (Record.crossed_seated (Record.crossed_seated h c) c) c

theorem Record.crossedAll_of_none {c : ClassRow} {r : Record} (h : r.cross? c = none) : r.crossedAll c = r := by
  unfold Record.crossedAll
  rw [Record.crossed_of_none h, Record.crossed_of_none h, Record.crossed_of_none h]

theorem Record.crossedAll_held (c : ClassRow) (r : Record) : (r.crossedAll c).held = r.held :=
  congrArg RecordCore.held (Record.crossedAll_core c r)

theorem Record.settle_place (r : Record) (w : Nat) : (r.settle w).place = r.place := by
  unfold Record.settle Record.place
  cases hz : r.zonePart <;> simp [hz]

theorem Record.settle_state (r : Record) (w : Nat) : (r.settle w).state = r.state := by
  unfold Record.settle
  cases r.zonePart <;> rfl

theorem Record.settle_bakePart (r : Record) (w : Nat) : (r.settle w).bakePart = r.bakePart :=
  congrArg RecordCore.bakePart (r.settle_core w)

theorem Record.settle_held (r : Record) (w : Nat) : (r.settle w).held = r.held := congrArg RecordCore.held (r.settle_core w)

/-- A record with the place, the state and the bake part of another that is seated. -/
theorem Record.Seated.of_place {r r' : Record} {kind : Fin 32 → ZoneKind} (h : r.Seated kind) (place : r'.place = r.place)
    (state : r'.state = r.state) (bake : r'.bakePart = r.bakePart) : r'.Seated kind := by
  have zones : r'.zonePart.map ZonePart.zone = r.zonePart.map ZonePart.zone := by rw [← Record.place_zone, place, Record.place_zone]
  have none_iff : r'.zonePart = none ↔ r.zonePart = none := by
    rw [← Option.map_eq_none_iff (f := ZonePart.zone), zones, Option.map_eq_none_iff]
  refine ⟨⟨fun hz => state ▸ h.shaped.zoned fun e => hz (none_iff.mpr e), fun hb => state ▸ h.shaped.baking (bake ▸ hb)⟩,
    ⟨fun inz e => h.suited.stands (state ▸ inz) (none_iff.mp e), fun zp hzp => ?_⟩⟩
  rw [hzp] at zones
  obtain ⟨zq, hzq, e⟩ := Option.map_eq_some_iff.mp zones.symm
  rw [state, ← e]
  exact h.suited.dry zq hzq

/-- A seated record fits hands that have not created it, and hold it only if it is marked held. -/
theorem Record.Seated.fits {r : Record} {kind : Fin 32 → ZoneKind} (h : r.Seated kind) {k : Hands} {i : Nat}
    (fresh : ¬k.fresh i) (held : k.held i → r.held = true) : r.Fits kind k i :=
  ⟨h.shaped, fun _ => h.suited, fun hf => absurd hf fresh, held⟩

theorem Record.Fits.seated {r : Record} {kind : Fin 32 → ZoneKind} {k : Hands} {i : Nat} (h : r.Fits kind k i) (on : ¬k.off i) :
    r.Seated kind := ⟨h.shaped, h.suited on⟩

/-! #### Operations -/

/-- An operation keeps the lists, whatever the engine has in hand. -/
def State.ListsKept (s t : State) : Prop := ∀ h, s.Lists h → t.Lists h

namespace State.ListsKept

theorem refl (s : State) : s.ListsKept s := fun _ => id

theorem trans {s t u : State} (h : s.ListsKept t) (k : t.ListsKept u) : s.ListsKept u := fun x => k x ∘ h x

theorem of_same {s t : State} (h : s.SameLists t) : s.ListsKept t := fun _ k => k.same h

theorem foldl {α : Type} {f : State → α → State} (hf : ∀ s a, State.ListsKept s (f s a)) (l : List α) (s : State) :
    s.ListsKept (l.foldl f s) := by
  induction l generalizing s with
  | nil => exact refl s
  | cons a l ih => exact (hf s a).trans (ih _)

end State.ListsKept

theorem State.setRecord_others (s : State) (i : Nat) (r : Record) : ∀ j, j ≠ i → (s.setRecord i r).record? j = s.record? j :=
  fun _ h => s.setRecord_record?_ne r h

/-- A record that keeps its place, its state, its bake part and its hold mark is written. -/
theorem State.setRecord_lists {s : State} {i : Nat} {r r' : Record} (hr : s.record? i = some r) (place : r'.place = r.place)
    (state : r'.state = r.state) (bake : r'.bakePart = r.bakePart) (held : r'.held = r.held) : s.ListsKept (s.setRecord i r') :=
  fun _ k => k.renewed hr (State.setRecord_record?_self ..) (s.setRecord_others i r') (fun _ => rfl) (fun _ => rfl) place state
    bake fun hh => held.trans ((k.fits i r hr).held hh)

theorem State.modRecord_lists (s : State) (i : Nat) {f : Record → Record} (place : ∀ r, (f r).place = r.place)
    (state : ∀ r, (f r).state = r.state) (bake : ∀ r, (f r).bakePart = r.bakePart) (held : ∀ r, (f r).held = r.held) :
    s.ListsKept (s.modRecord i f) := by
  unfold State.modRecord
  split
  · next r hr => exact State.setRecord_lists hr (place r) (state r) (bake r) (held r)
  · exact .refl s

/-- A hold mark, set, or cleared of a record that is not in the engine's hand. -/
theorem State.Lists.setHold {s : State} {h : Hands} (k : s.Lists h) {i : Nat} {b : Bool} (free : h.held i → b = true) :
    (s.setHold i b).Lists h := by
  unfold State.setHold State.modRecord
  split
  · next r hr =>
    exact k.renewed hr (State.setRecord_record?_self ..) (s.setRecord_others i _) (fun _ => rfl) (fun _ => rfl) rfl rfl rfl free
  · exact k

section
variable {s : State} {h : Hands} {i : Nat}

/-- A record crossed: the rest stands. -/
theorem State.crossAll_kindOf (s : State) (i : Nat) (st : Option Byte) (z : Fin 32) : (s.crossAll i st).kindOf z = s.kindOf z := by
  unfold State.kindOf
  rw [(s.crossAll_frame i st).tables]

theorem State.crossAll_set_record? (s : State) (i : Nat) (r : Record) (st : Option Byte) :
    ((s.setRecord i r).crossAll i st).record? i = some (r.crossedAll (s.classOf r)) :=
  State.crossAll_record? (State.setRecord_record?_self ..) st

theorem State.crossAll_set_others (s : State) (i : Nat) (r : Record) (st : Option Byte) :
    ∀ j, j ≠ i → ((s.setRecord i r).crossAll i st).record? j = s.record? j := fun j hj =>
  (State.crossAll_record?_ne _ st hj).trans (s.setRecord_others i r j hj)

theorem State.crossAll_set_watch (s : State) (i : Nat) (r : Record) (st : Option Byte) (z : Fin 32) :
    (((s.setRecord i r).crossAll i st).zone z).watch = (s.zone z).watch := State.crossAll_watch ..

/-- A settlement with its crossings (R80, R84, R97). -/
theorem State.Lists.settleCross (k : s.Lists h) (on : ¬h.off i) (st : Option Byte) (b : Bool) : (s.settleCross i st b).Lists h := by
  unfold State.settleCross
  split
  · next r hr =>
    split
    · next zp hz =>
      have f := k.fits i r hr
      have fresh : ¬h.fresh i := fun hf => nomatch hz.symm.trans (f.fresh hf).1
      set r' := r.settle (s.zone zp.zone).wear with hr'
      have seated : r'.Seated s.kindOf := (f.seated on).of_place (r.settle_place _) (r.settle_state _) (r.settle_bakePart _)
      have crossed := Record.crossedAll_seated seated (s.classOf r')
      have held : h.held i → (r'.crossedAll (s.classOf r')).held = true := fun hh =>
        (Record.crossedAll_held ..).trans ((r.settle_held _).trans (f.held hh))
      simp only []
      split
      · have out : (((s.setRecord i r').crossAll i st).unlist zp.zone i).Lists (h.without i) := by
          refine k.taken (s.crossAll_set_others i r' st) (fun z => ?_) (State.crossAll_kindOf _ i st) fun q hq => ?_
          · rw [← k.unlist_watch (z := zp.zone) (by rw [State.zoneOf?_of hr, hz]; rfl) z, State.unlist_watch, State.unlist_watch,
              s.crossAll_set_watch, s.crossAll_set_watch]
          · cases (s.crossAll_set_record? i r' st).symm.trans hq
            exact crossed.fits fresh held
        refine out.enlisted on fun q hq => ?_
        cases (s.crossAll_set_record? i r' st).symm.trans hq
        rw [show State.kindOf (((s.setRecord i r').crossAll i st).unlist zp.zone i) = s.kindOf from
          funext (State.crossAll_kindOf _ i st)]
        exact crossed.suited
      · next no =>
        have none : r'.cross? (s.classOf r') = none := by
          rw [Bool.or_eq_true, not_or, Bool.not_eq_true, Bool.not_eq_true, Option.isSome_eq_false_iff, Option.isNone_iff_eq_none] at no
          exact no.2
        have here := s.crossAll_set_record? i r' st
        rw [Record.crossedAll_of_none none] at here
        exact k.renewed hr here (s.crossAll_set_others i r' st) (s.crossAll_set_watch i r' st) (State.crossAll_kindOf _ i st)
          (r.settle_place _) (r.settle_state _) (r.settle_bakePart _) fun hh => (r.settle_held _).trans (f.held hh)
    · exact k
  · exact k

/-- A pop passes over no record that is out of its list (R100, R101). -/
theorem State.Lists.popWalk (z : Fin 32) (l : List Nat) {s : State} (k : s.Lists h) (on : ∀ i ∈ l, ¬h.off i) :
    (popWalk z l s).Lists h := by
  induction l generalizing s with
  | nil => exact k
  | cons i rest ih =>
    have rest_on := fun j hj => on j (List.mem_cons_of_mem i hj)
    unfold Machine.popWalk
    split
    · split
      · split
        · refine ih ?_ rest_on
          split
          · exact k
          · exact k.settleCross (on i List.mem_cons_self) none true
        · exact k
      · exact ih k rest_on
    · exact ih k rest_on

theorem State.pop_lists (s : State) (z : Fin 32) : s.ListsKept (s.pop z) :=
  fun _ k => k.popWalk z _ fun _ hi => ((k.mem z _).mp hi).1

theorem State.refreshZone_same (s : State) (z : Fin 32) (st : Option Byte) : s.SameLists (s.refreshZone z st) := by
  have refreshed := State.SameLists.setZone s z (Zone.refresh_watch (s.zone z) s.tables (s.tables.zone z) s.now)
  unfold State.refreshZone
  simp only []
  split
  · exact refreshed
  · split <;> exact refreshed.trans (.of_plant (State.post_frame _ _))

theorem State.chargeZone_same (s : State) (z : Fin 32) : s.SameLists (s.chargeZone z) :=
  (State.SameLists.setZone s z (Zone.charge_watch (s.zone z) s.now)).trans (.of_eq rfl rfl rfl)

theorem State.refreshPop_lists (s : State) (z : Fin 32) (st : Option Byte) : s.ListsKept (s.refreshPop z st) :=
  (State.ListsKept.of_same (s.refreshZone_same z st)).trans (State.pop_lists _ z)

theorem State.advance_lists (s : State) (z : Fin 32) : s.ListsKept (s.advance z) := by
  unfold State.advance
  split
  · exact (State.ListsKept.of_same (s.chargeZone_same z)).trans (State.refreshPop_lists _ z none)
  · exact .refl s

theorem State.advanceAll_lists (s : State) (zs : List (Fin 32)) : s.ListsKept (s.advanceAll zs) := .foldl State.advance_lists zs s

theorem State.acceptSample_lists (s : State) (z : Fin 32) (slot : Fin 3) (t : Telegram) : s.ListsKept (s.acceptSample z slot t) := by
  refine .trans ?_ (State.refreshPop_lists _ z _)
  exact .of_same ((s.chargeZone_same z).trans (.setZone _ z rfl))

/-- A record that stands outside its list is attached to a zone its state suits (R94). -/
theorem State.Lists.attach (k : s.Lists (h.without i)) (on : ¬h.off i) (fresh : ¬h.fresh i) {r : Record} (hr : s.record? i = some r)
    {z : Fin 32} (inz : r.state.inZone = true) (dry : r.state = .dry ↔ s.kindOf z = .dry) (st : Option Byte) :
    (s.attach i z st).Lists h := by
  have f := k.fits i r hr
  set r' := (r.enterZone z (s.zone z) (s.tables.zone z).kind (s.classOf r) s.now).rejudge (s.classOf r) with hr'
  have state : r'.state = r.state ∨ (r.state = .overrun ∧ r'.state = .mounted) := by
    rw [hr', Record.rejudge_eq, Record.enterZone_eq]
    simp only []
    split
    · next ho => exact .inr ⟨ho.1, rfl⟩
    · exact .inl rfl
  have seated : r'.Seated s.kindOf := by
    have bake : r'.bakePart = none := by
      rw [show r'.bakePart = r.bakePart from congrArg RecordCore.bakePart (by simp [hr'] : r'.core = r.core)]
      exact f.shaped.bakePart_none (CarrierState.ne_baking_of_inZone inz)
    have zone : r'.zonePart.map ZonePart.zone = some z := by rw [hr', Record.rejudge_eq, Record.enterZone_eq]; rfl
    obtain ⟨zp, hzp, e⟩ := Option.map_eq_some_iff.mp zone
    rcases state with state | ⟨before, after⟩
    · exact Record.seated_zoned hzp (state ▸ inz) bake (by rw [state, e]; exact dry)
    · refine Record.seated_zoned hzp (after ▸ rfl) bake ?_
      rw [e, ← dry, before, after]
      exact ⟨nofun, nofun⟩
  have crossed := Record.crossedAll_seated seated (s.classOf r')
  have held : (h.without i).held i → (r'.crossedAll (s.classOf r')).held = true := fun hh =>
    (Record.crossedAll_held ..).trans
      ((congrArg RecordCore.held (by simp [hr'] : r'.core = r.core)).trans (f.held hh))
  have form : s.attach i z st = ((s.setRecord i r').crossAll i st).enlist i := by unfold State.attach; rw [hr]
  have out : ((s.setRecord i r').crossAll i st).Lists (h.without i) := by
    refine k.loose (.inr rfl) (s.crossAll_set_others i r' st) (s.crossAll_set_watch i r' st) (State.crossAll_kindOf _ i st)
      fun q hq => ?_
    cases (s.crossAll_set_record? i r' st).symm.trans hq
    exact crossed.fits fresh held
  rw [form]
  refine out.enlisted on fun q hq => ?_
  cases (s.crossAll_set_record? i r' st).symm.trans hq
  rw [show State.kindOf ((s.setRecord i r').crossAll i st) = s.kindOf from funext (State.crossAll_kindOf _ i st)]
  exact crossed.suited

/-- A record is taken out of the list of its zone, if it names one. -/
theorem State.Lists.unlisted (k : s.Lists h) (i : Nat) {t : State}
    (ht : t = match s.zoneOf? i with
      | some z => s.unlist z i
      | none => s) : t.Lists (h.without i) := by
  have here : ∀ r, s.record? i = some r → r.Fits s.kindOf (h.without i) i := fun r hr =>
    have f := k.fits i r hr
    ⟨f.shaped, fun out => absurd (.inr rfl) out, f.fresh, f.held⟩
  cases hz : s.zoneOf? i with
  | none =>
    rw [hz] at ht
    subst ht
    exact k.taken (fun _ _ => rfl) (k.erase_watch (.inr hz)) (fun _ => rfl) here
  | some z =>
    rw [hz] at ht
    subst ht
    exact k.taken (fun _ _ => rfl) (k.unlist_watch hz) (fun _ => rfl) here

end

end Sys2Proof.Machine
end

section
namespace Sys2Proof.Machine

/-! ### O56: relists, rekeys and writes -/

theorem State.modRecord_of {s : State} {i : Nat} {r : Record} (hr : s.record? i = some r) (f : Record → Record) :
    s.modRecord i f = s.setRecord i (f r) := by
  unfold State.modRecord
  rw [hr]

theorem State.modRecord_record? {s : State} {i : Nat} {r : Record} (hr : s.record? i = some r) (f : Record → Record) :
    (s.modRecord i f).record? i = some (f r) := by rw [State.modRecord_of hr, State.setRecord_record?_self]

theorem State.modRecord_record?_ne (s : State) {i j : Nat} (f : Record → Record) (h : j ≠ i) :
    (s.modRecord i f).record? j = s.record? j := by
  unfold State.modRecord
  split
  · exact s.setRecord_record?_ne _ h
  · rfl

theorem State.modRecord_kindOf (s : State) (i : Nat) (f : Record → Record) : (s.modRecord i f).kindOf = s.kindOf := by
  unfold State.modRecord
  split <;> rfl

section
variable {s : State} {h : Hands} {i : Nat}

/-- A record taken out of the list of the zone it names, if it names one. -/
def State.offList (s : State) (i : Nat) : State :=
  match s.zoneOf? i with
  | some z => s.unlist z i
  | none => s

theorem State.offList_zoned {z : Fin 32} (hz : s.zoneOf? i = some z) : s.offList i = s.unlist z i := by
  unfold State.offList
  rw [hz]

theorem State.offList_zoneless (hz : s.zoneOf? i = none) : s.offList i = s := by
  unfold State.offList
  rw [hz]

theorem State.offList_record? (s : State) (i j : Nat) : (s.offList i).record? j = s.record? j := by
  unfold State.offList
  split <;> rfl

theorem State.offList_kindOf (s : State) (i : Nat) : (s.offList i).kindOf = s.kindOf := by
  unfold State.offList
  split <;> rfl

theorem State.Lists.offList (k : s.Lists h) (i : Nat) : (s.offList i).Lists (h.without i) := k.unlisted i rfl

/-- A relist to a zone (R96): out of the list, settled and credited, and attached. -/
theorem State.relistTo_some {r : Record} (hr : s.record? i = some r) (cs : CarrierState) (z : Fin 32) (st : Option Byte) :
    ∃ left : Record, left.core = r.core ∧
      s.relistTo i cs (some z) st = ((s.offList i).setRecord i { left with state := cs }).attach i z st := by
  unfold State.relistTo
  rw [hr]
  cases hz : r.zonePart with
  | none =>
    refine ⟨s.creditLeaving r (some z), s.creditLeaving_core _ _, ?_⟩
    rw [State.offList_zoneless (by rw [State.zoneOf?_of hr, hz]; rfl)]
    simp only [hz]
  | some zp =>
    refine ⟨s.creditLeaving (r.settle (s.zone zp.zone).wear) (some z), (s.creditLeaving_core _ _).trans (r.settle_core _), ?_⟩
    rw [State.offList_zoned (z := zp.zone) (by rw [State.zoneOf?_of hr, hz]; rfl)]
    simp only [hz]

/-- A relist to no zone. -/
theorem State.relistTo_none {r : Record} (hr : s.record? i = some r) (cs : CarrierState) (st : Option Byte) :
    ∃ left : Record, left.core = r.core ∧
      s.relistTo i cs none st = (s.offList i).setRecord i (Record.rejudgeWarn { left.leaveZone with state := cs } (s.classOf r)) := by
  unfold State.relistTo
  rw [hr]
  cases hz : r.zonePart with
  | none =>
    refine ⟨s.creditLeaving r none, s.creditLeaving_core _ _, ?_⟩
    rw [State.offList_zoneless (by rw [State.zoneOf?_of hr, hz]; rfl)]
    simp only [hz]
  | some zp =>
    refine ⟨s.creditLeaving (r.settle (s.zone zp.zone).wear) none, (s.creditLeaving_core _ _).trans (r.settle_core _), ?_⟩
    rw [State.offList_zoned (z := zp.zone) (by rw [State.zoneOf?_of hr, hz]; rfl)]
    simp only [hz]

/-- A record outside its list is rewritten, without a bake part. -/
theorem State.Lists.setLoose (k : s.Lists (h.without i)) (fresh : ¬h.fresh i) {q : Record}
    (zoned : q.zonePart ≠ none → q.state.inZone = true) (bake : q.bakePart = none) (held : h.held i → q.held = true) :
    (s.setRecord i q).Lists (h.without i) :=
  k.loose (.inr rfl) (s.setRecord_others i q) (fun _ => rfl) (fun _ => rfl) fun p hp => by
    cases (State.setRecord_record?_self ..).symm.trans hp
    exact ⟨⟨zoned, fun hb => absurd bake hb⟩, fun o => absurd (.inr rfl) o, fun hf => absurd hf fresh, held⟩

/-- The record of a relist goes to a zone that its new state suits (R96). -/
theorem State.Lists.relistTo_some (k : s.Lists h) (on : ¬h.off i) (fresh : ¬h.fresh i) {r : Record} (hr : s.record? i = some r)
    (bake : r.bakePart = none) {cs : CarrierState} {z : Fin 32} (inz : cs.inZone = true) (dry : cs = .dry ↔ s.kindOf z = .dry)
    (st : Option Byte) : (s.relistTo i cs (some z) st).Lists h := by
  obtain ⟨left, core, form⟩ := State.relistTo_some hr cs z st
  have loose := (k.offList i).setLoose fresh (q := { left with state := cs }) (fun _ => inz)
    ((congrArg RecordCore.bakePart core).trans bake) fun hh => (congrArg RecordCore.held core).trans ((k.fits i r hr).held hh)
  rw [form]
  refine loose.attach on fresh (State.setRecord_record?_self ..) inz ?_ st
  show cs = .dry ↔ (s.offList i).kindOf z = .dry
  rw [State.offList_kindOf]
  exact dry

/-- The record of a relist goes to no zone, in a state of none (R96). -/
theorem State.Lists.relistTo_none (k : s.Lists h) (fresh : ¬h.fresh i) {r : Record} (hr : s.record? i = some r)
    (bake : r.bakePart = none) {cs : CarrierState} (out : cs.inZone = false) (st : Option Byte) :
    (s.relistTo i cs none st).Lists h := by
  obtain ⟨left, core, form⟩ := State.relistTo_none hr cs st
  rw [form]
  set q := Record.rejudgeWarn { left.leaveZone with state := cs } (s.classOf r) with hq
  have eq : q.zonePart = none ∧ q.bakePart = none ∧ q.state = cs ∧ q.held = left.held := by
    rw [hq, Record.rejudgeWarn_eq]
    exact ⟨rfl, (congrArg RecordCore.bakePart core).trans bake, rfl, rfl⟩
  obtain ⟨zone, bake', state, held⟩ := eq
  refine ((k.offList i).setLoose fresh (fun hz => absurd zone hz) bake' fun hh => ?_).back ?_ fun p hp => ?_
  · exact held.trans ((congrArg RecordCore.held core).trans ((k.fits i r hr).held hh))
  · rw [State.zoneOf?_of (State.setRecord_record?_self ..), zone]; rfl
  · cases (State.setRecord_record?_self ..).symm.trans hp
    exact (Record.seated_zoneless zone (state ▸ out) (.inl bake')).suited

/-- The zone of a record is advanced, and it leaves its list (R57, R99). -/
theorem State.Lists.unlinked (k : s.Lists h) (i : Nat) : (s.unlinkRecord i).Lists (h.without i) := by
  unfold State.unlinkRecord
  cases hz : s.zoneOf? i with
  | none => exact k.unlisted i (by rw [hz])
  | some z =>
    obtain ⟨r, zp, hr, hzp, rfl⟩ := State.zoneOf?_eq_some.mp hz
    refine (State.advance_lists _ zp.zone h (k.setHold (i := i) (b := true) fun _ => rfl)).unlisted i ?_
    have marked : (s.setHold i true).record? i = some { r with held := true } := State.modRecord_record? hr _
    rw [State.zoneOf?_of (State.advance_held (z := zp.zone) marked rfl), hzp]
    rfl

/-- A record outside its list is freed; its index may count as the engine's or not (R45). -/
theorem State.Lists.removed {h' : Hands} (k : s.Lists h) (out : h.off i) (canonical : s.table.Canonical)
    (off : ∀ j, j ≠ i → (h'.off j ↔ h.off j)) (fresh : ∀ j, j ≠ i → h'.fresh j → h.fresh j)
    (held : ∀ j, j ≠ i → h'.held j → h.held j) : (s.removeRecord i).Lists h' := by
  unfold State.removeRecord
  split
  · next r hr =>
    have records := CarrierTable.remove_records s.table i r
    have gone : State.record? { s with table := s.table.remove i r } i = none := by
      show lookupKey (s.table.remove i r).records i = none
      rw [records]
      exact lookupKey_eraseKey_self i canonical.records
    have freed : State.Lists { s with table := s.table.remove i r } h := by
      refine k.loose out (fun j hj => ?_) (fun _ => rfl) (fun _ => rfl) fun q hq => nomatch gone.symm.trans hq
      show lookupKey (s.table.remove i r).records j = _
      rw [records, lookupKey_eraseKey_ne _ hj]
      rfl
    exact freed.vacant gone off fresh held
  · next hn => exact k.vacant hn off fresh held

/-! #### Rekeys (R105 to R107) -/

/-- The records of a rekey leave their list together. -/
theorem State.Lists.setAside (k : s.Lists h) (z : Fin 32) (p : Nat → Bool) :
    (s.setZone z { s.zone z with watch := (s.zone z).watch.filter fun i => !p i }).Lists
      { h with off := fun j => h.off j ∨ j ∈ (s.zone z).watch.filter p } := by
  have watch : ∀ y, ((s.setZone z { s.zone z with watch := (s.zone z).watch.filter fun i => !p i }).zone y).watch =
      if y = z then (s.zone z).watch.filter fun i => !p i else (s.zone y).watch := by
    intro y
    split
    · next e => rw [e, State.setZone_zone_self]
    · next e => rw [State.setZone_zone_ne _ _ e]
  refine ⟨fun y => ?_, fun y => ?_, fun y j => ?_, fun j r hr => ?_⟩
  · rw [watch]
    split
    · exact (k.once z).filter _
    · exact k.once y
  · rw [watch]
    split
    · exact (k.ordered z).filter _
    · exact k.ordered y
  · have here := k.mem z j
    have there := k.mem y j
    have zones : (s.setZone z { s.zone z with watch := (s.zone z).watch.filter fun i => !p i }).zoneOf? j = s.zoneOf? j := rfl
    rw [watch, zones]
    simp only [List.mem_filter, here, not_or, not_and]
    split
    · next e =>
      subst e
      simp only [List.mem_filter, here]
      cases p j <;> simp
      all_goals tauto
    · next e =>
      rw [there]
      constructor
      · rintro ⟨on, hz⟩
        exact ⟨⟨on, fun both _ => absurd (Option.some.inj (hz.symm.trans both.2)) e⟩, hz⟩
      · rintro ⟨⟨on, -⟩, hz⟩
        exact ⟨on, hz⟩
  · have f := k.fits j r hr
    exact ⟨f.shaped, fun on => f.suited fun ho => on (.inl ho), f.fresh, f.held⟩

/-- The records set aside come back one by one. -/
theorem foldl_rekeyRecord_lists (z : Fin 32) (l : List Nat) (nodup : l.Nodup) {s : State}
    (k : s.Lists { h with off := fun j => h.off j ∨ j ∈ l })
    (each : ∀ j ∈ l, ¬h.off j ∧ ¬h.fresh j ∧
      ∃ r, s.record? j = some r ∧ r.state.inZone = true ∧ (r.state = .dry ↔ s.kindOf z = .dry)) :
    (l.foldl (fun a i => a.rekeyRecord z i) s).Lists h := by
  induction l generalizing s with
  | nil => exact k.hands (fun _ => by simp) (fun _ => id) fun _ => id
  | cons i l ih =>
    obtain ⟨notIn, nodup⟩ := List.nodup_cons.mp nodup
    obtain ⟨on, fresh, r, hr, inz, dry⟩ := each i List.mem_cons_self
    have settled : (s.modRecord i fun r => r.settle (s.zone z).wear).Lists
        (Hands.without { h with off := fun j => h.off j ∨ j ∈ l } i) := by
      refine State.modRecord_lists s i (fun r => r.settle_place _) (fun r => r.settle_state _) (fun r => r.settle_bakePart _)
        (fun r => r.settle_held _) _ (k.hands (fun j => ?_) (fun _ => id) fun _ => id)
      simp only [Hands.without, List.mem_cons]
      tauto
    have kinds : (s.rekeyRecord z i).kindOf = s.kindOf := by
      unfold State.rekeyRecord
      rw [← s.modRecord_kindOf i fun r => r.settle (s.zone z).wear]
      funext y
      unfold State.kindOf
      rw [(State.attach_frame ..).tables]
    refine ih nodup (State.Lists.attach settled (fun ho => ho.elim on notIn) fresh (State.modRecord_record? hr _) ?_ ?_ none)
      fun j hj => ?_
    · rw [Record.settle_state]; exact inz
    · rw [Record.settle_state, s.modRecord_kindOf]; exact dry
    · obtain ⟨on, fresh, q, hq, rest⟩ := each j (List.mem_cons_of_mem i hj)
      have ne : j ≠ i := fun e => notIn (e ▸ hj)
      refine ⟨on, fresh, q, ?_, by rw [kinds]; exact rest⟩
      unfold State.rekeyRecord
      rw [State.attach_record?_ne _ _ _ ne, State.modRecord_record?_ne _ _ ne, hq]

theorem State.rekeyZone_lists (s : State) (sel : Record → Bool) (z : Fin 32) : s.ListsKept (s.rekeyZone sel z) := by
  intro h k
  unfold State.rekeyZone
  refine foldl_rekeyRecord_lists z _ ((k.once z).filter _) (k.setAside z (s.selected sel)) fun j hj => ?_
  obtain ⟨on, hz⟩ := (k.mem z j).mp (List.mem_of_mem_filter hj)
  obtain ⟨r, zp, hr, hzp, rfl⟩ := State.zoneOf?_eq_some.mp hz
  have f := k.fits j r hr
  have named : r.zonePart ≠ none := by rw [hzp]; exact Option.some_ne_none _
  exact ⟨on, fun hf => named (f.fresh hf).1, r, hr, f.shaped.zoned named, (f.suited on).dry zp hzp⟩

theorem State.classRekey_lists (s : State) (c : Fin 16) (row : ClassRow) : s.ListsKept (s.classRekey c row) := by
  set s1 := s.advanceAll s.tables.configuredZones with hs1
  have written : s1.ListsKept { s1 with tables := { s1.tables with classes := s1.tables.classes.set c.val row } } :=
    .of_same ⟨fun _ => rfl, fun _ => rfl, fun _ => rfl⟩
  exact ((s.advanceAll_lists s.tables.configuredZones).trans written).trans
    (.foldl (f := fun a z => a.rekeyZone (fun r => r.cls == c) z) (fun a z => a.rekeyZone_lists _ z) _ _)

/-! #### Zones and grid (R72, R73, R182) -/

/-- The kind of a zone without members may change. -/
theorem State.Lists.rekinded {t : State} (k : s.Lists h) (records : ∀ j, t.record? j = s.record? j)
    (watch : ∀ z : Fin 32, (t.zone z).watch = (s.zone z).watch)
    (kinds : ∀ z : Fin 32, (s.zone z).watch = [] ∨ t.kindOf z = s.kindOf z) : t.Lists h where
  once z := by rw [watch]; exact k.once z
  ordered z := by
    rw [watch, show t.keyOf = s.keyOf from funext fun i => State.keyOf_congr (records i)]
    exact k.ordered z
  mem z j := by rw [watch, State.zoneOf?_congr (records j)]; exact k.mem z j
  fits j r hr := by
    rw [records] at hr
    have f := k.fits j r hr
    refine ⟨f.shaped, fun on => ⟨(f.suited on).stands, fun zp hzp => ?_⟩, f.fresh, f.held⟩
    have member : j ∈ (s.zone zp.zone).watch := (k.mem _ j).mpr ⟨on, by rw [State.zoneOf?_of hr, hzp]; rfl⟩
    rw [(kinds zp.zone).resolve_left (List.ne_nil_of_mem member)]
    exact (f.suited on).dry zp hzp

theorem State.zoneInUse_eq_false {z : Fin 32} {new : ZoneConfig} (free : s.zoneInUse z new = false) :
    (s.zone z).watch = [] ∨ new.kind = s.kindOf z := by
  rw [State.zoneInUse, Bool.and_eq_false_iff] at free
  rcases free with free | free
  · exact .inl (List.isEmpty_iff.mp (by simpa using free))
  · exact .inr (by simpa [State.kindOf] using Eq.symm (by simpa using free))

/-- The change of a zone's configuration leaves records, lists and tables. -/
theorem State.zoneChange_same (s : State) (z : Fin 32) (old new : ZoneConfig) : s.SameLists (s.zoneChange z old new) := by
  unfold State.zoneChange
  split
  · exact .refl s
  · exact .setZone s z rfl
  · exact .setZone s z rfl
  · exact .refl s

theorem State.zoneWrite_lists {s : State} {z : Fin 32} {row : ZoneConfig} (free : s.zoneInUse z row = false) :
    s.ListsKept (s.zoneWrite z row) := by
  intro h k
  unfold State.zoneWrite
  simp only []
  have charged : s.SameLists (if (s.tables.zone z).configured then s.chargeZone z else s) := by
    split
    · exact s.chargeZone_same z
    · exact .refl s
  have tables : (if (s.tables.zone z).configured then s.chargeZone z else s).tables = s.tables := by split <;> rfl
  generalize (if (s.tables.zone z).configured then s.chargeZone z else s) = u at charged tables
  have written : State.Lists { u with tables := { u.tables with zones := u.tables.zones.set z.val row } } h := by
    refine k.rekinded charged.records charged.watch fun y => ?_
    have kind : State.kindOf { u with tables := { u.tables with zones := u.tables.zones.set z.val row } } y =
        if z = y then row.kind else s.kindOf y := by
      unfold State.kindOf Tables.zone
      simp only [tables, Vector.getElem_set, Fin.val_inj]
      split <;> rfl
    rw [kind]
    split
    · next e => exact e ▸ State.zoneInUse_eq_false free
    · exact .inr rfl
  have changed := written.same (State.zoneChange_same _ z (s.tables.zone z) row)
  split
  · exact State.refreshPop_lists _ z none h changed
  · exact changed

theorem foldl_chargeZone_same (zs : List (Fin 32)) (s : State) : s.SameLists (zs.foldl State.chargeZone s) :=
  .foldl State.chargeZone_same zs s

theorem State.regridPop_lists (s : State) (z : Fin 32) : s.ListsKept (s.regridPop z) := by
  have watch : ((s.zone z).regrid s.tables (s.tables.zone z) s.now).watch = (s.zone z).watch := by
    unfold Zone.regrid
    split <;> rfl
  exact (State.ListsKept.of_same (.setZone s z watch)).trans (State.pop_lists _ z)

theorem State.gridChange_lists (s : State) {f : Tables → Tables} (hf : ∀ t, (f t).zones = t.zones) : s.ListsKept (s.gridChange f) := by
  refine .trans (.of_same ((foldl_chargeZone_same s.tables.configuredZones s).trans ?_)) (.foldl State.regridPop_lists _ _)
  refine ⟨fun _ => rfl, fun _ => rfl, fun z => ?_⟩
  unfold State.kindOf Tables.zone
  rw [hf]

theorem State.zoneChange_kindOf (s : State) (z y : Fin 32) (old new : ZoneConfig) :
    (s.zoneChange z old new).kindOf y = s.kindOf y := (s.zoneChange_same z old new).kinds y

theorem State.loadReplace_lists {s : State} {new : Tables} (free : s.loadInUse new = false) : s.ListsKept (s.loadReplace new) := by
  intro h k
  have unused : ∀ z, s.zoneInUse z (new.zone z) = false := by
    intro z
    rw [State.loadInUse, Bool.or_eq_false_iff] at free
    have := List.any_eq_false.mp free.2 z (List.mem_finRange z)
    simpa using this
  have charged := foldl_chargeZone_same s.tables.configuredZones s
  set s2 : State := { s.tables.configuredZones.foldl State.chargeZone s with tables := { new with part := s.tables.part } } with hs2
  have written : s2.Lists h := k.rekinded charged.records charged.watch fun z => State.zoneInUse_eq_false (unused z)
  have changed := fun a => State.SameLists.foldl (f := fun a z => a.zoneChange z (s.tables.zone z) (new.zone z))
    (fun a z => a.zoneChange_same z _ _) allZones a
  have refreshed := fun a => State.ListsKept.foldl (f := fun a z => a.refreshPop z none)
    (fun a z => a.refreshPop_lists z none) new.configuredZones a
  have rekeyed := fun a => State.ListsKept.foldl (f := fun a z => a.rekeyZone (fun _ => true) z)
    (fun a z => a.rekeyZone_lists (fun _ => true) z) new.configuredZones a
  have whole := rekeyed _ h (refreshed _ h (written.same (changed s2)))
  have kinds : ∀ z, (new.configuredZones.foldl (fun a z => a.rekeyZone (fun _ => true) z)
      (new.configuredZones.foldl (fun a z => a.refreshPop z none)
        (allZones.foldl (fun a z => a.zoneChange z (s.tables.zone z) (new.zone z)) s2))).kindOf z = (new.zone z).kind := by
    intro z
    have frame := (foldl_zoneFrame (fun a z => a.refreshPop z none) (fun a z => a.refreshPop_frame z none) new.configuredZones
      (allZones.foldl (fun a z => a.zoneChange z (s.tables.zone z) (new.zone z)) s2)).trans
        (foldl_zoneFrame (fun a z => a.rekeyZone (fun _ => true) z) (fun a z => a.rekeyZone_frame _ z) new.configuredZones _)
    rw [State.kindOf, frame.tables]
    exact (changed s2).kinds z
  exact whole.same ⟨fun _ => rfl, fun _ => rfl, fun z => (kinds z).symm⟩

/-! #### Records written and deleted (R56, R57) -/

theorem State.leaveBatch_same (s : State) (oven : Byte) (i : Nat) : s.SameLists (s.leaveBatch oven i) := by
  unfold State.leaveBatch
  split
  · split
    · exact .of_eq rfl rfl rfl
    · exact .of_eq rfl rfl rfl
  · exact .refl s

theorem State.Lists.writeSettle (k : s.Lists h) (free : ¬h.held i) : (s.writeSettle i).Lists h := by
  unfold State.writeSettle
  split
  · refine State.modRecord_lists _ i (fun r => r.settle_place _) (fun r => r.settle_state _) (fun r => r.settle_bakePart _)
      (fun r => r.settle_held _) _ (State.Lists.setHold ?_ fun hh => absurd hh free)
    exact State.advance_lists _ _ h (k.setHold fun _ => rfl)
  · exact k

theorem State.Lists.writeClass (k : s.Lists h) (cls : Option (Fin 16)) : (s.writeClass i cls).Lists h := by
  unfold State.writeClass
  split
  · next r c hr =>
    exact State.setRecord_lists (r' := { r with cls := c }) hr rfl rfl rfl rfl h k |>.same ⟨fun _ => rfl, fun _ => rfl, fun _ => rfl⟩
  · exact k

theorem State.writeFigures_lists (s : State) (i : Nat) (w : RecordWrite) : s.ListsKept (s.writeFigures i w) :=
  s.modRecord_lists i (fun _ => rfl) (fun _ => rfl) (fun _ => rfl) fun _ => rfl

/-- A retirement (R56 step 5): out of the list, out of the batch, and rewritten. -/
theorem State.writeRetire_of {r : Record} (hr : s.record? i = some r) :
    ∃ v : State, (s.offList i).SameLists v ∧ s.writeRetire i = v.setRecord i { r.leaveZone with state := .retired, bakePart := none } := by
  unfold State.writeRetire
  rw [hr]
  have zone := State.zoneOf?_of hr
  cases hz : r.zonePart with
  | none =>
    rw [State.offList_zoneless (by rw [zone, hz]; rfl)]
    cases hb : r.bakePart with
    | none => exact ⟨s, .refl s, by simp only [hz, hb]⟩
    | some bp => exact ⟨_, s.leaveBatch_same bp.oven i, by simp only [hz, hb]⟩
  | some zp =>
    rw [State.offList_zoned (z := zp.zone) (by rw [zone, hz]; rfl)]
    cases hb : r.bakePart with
    | none => exact ⟨_, .refl _, by simp only [hz, hb]⟩
    | some bp => exact ⟨_, State.leaveBatch_same _ bp.oven i, by simp only [hz, hb]⟩

theorem State.Lists.writeRetire (k : s.Lists h) (free : ¬h.held i) : (s.writeRetire i).Lists h := by
  cases hr : s.record? i with
  | none =>
    have same : s.writeRetire i = s := by unfold State.writeRetire; rw [hr]
    rw [same]
    exact k
  | some r =>
    obtain ⟨v, same, form⟩ := State.writeRetire_of hr
    rw [form]
    set q : Record := { r.leaveZone with state := .retired, bakePart := none } with hq
    have seated : ∀ kind, q.Seated kind := fun kind => Record.seated_zoneless rfl rfl (.inl rfl)
    have left : v.Lists (h.without i) := (k.offList i).same same
    have retired : (v.setRecord i q).Lists (h.without i) :=
      left.loose (.inr rfl) (v.setRecord_others i q) (fun _ => rfl) (fun _ => rfl) fun p hp => by
        cases (State.setRecord_record?_self ..).symm.trans hp
        exact ⟨(seated v.kindOf).shaped, fun o => absurd (.inr rfl) o, fun _ => ⟨rfl, rfl⟩, fun hh => absurd hh free⟩
    refine retired.back ?_ fun p hp => ?_
    · rw [State.zoneOf?_of (State.setRecord_record?_self ..)]; rfl
    · cases (State.setRecord_record?_self ..).symm.trans hp
      exact (seated _).suited

theorem State.Lists.writeRelist (k : s.Lists h) (own : h.off i → h.fresh i) (w : RecordWrite) : (s.writeRelist i w).Lists h := by
  unfold State.writeRelist
  split
  · next r hr =>
    have f := k.fits i r hr
    split
    · next zp hz =>
      have named : r.zonePart ≠ none := by rw [hz]; exact Option.some_ne_none _
      have fresh : ¬h.fresh i := fun hf => named (f.fresh hf).1
      have on : ¬h.off i := fun ho => fresh (own ho)
      rw [← State.offList_zoned (z := zp.zone) (i := i) (by rw [State.zoneOf?_of hr, hz]; rfl)]
      refine (k.offList i).attach on fresh (r := r) ?_ (f.shaped.zoned named) ?_ none
      · rw [State.offList_record?, hr]
      · rw [State.offList_kindOf]
        exact (f.suited on).dry zp hz
    · split
      · refine State.setRecord_lists hr ?_ ?_ ?_ ?_ h k <;> rw [Record.rejudgeWarn_eq]
        rfl
      · exact k
  · exact k

/-- An accepted WRITE-RECORD, of a record that the engine does not hold, and has out of its list only if it just created it. -/
theorem State.Lists.writeRecord (k : s.Lists h) (free : ¬h.held i) (own : h.off i → h.fresh i) (w : RecordWrite) :
    (s.writeRecord i w).Lists h := by
  have figures : (((s.writeSettle i).writeClass i w.cls).writeFigures i w).Lists h :=
    State.writeFigures_lists _ i w h ((k.writeSettle free).writeClass w.cls)
  unfold State.writeRecord
  simp only []
  refine State.Lists.writeRelist ?_ own w
  split
  · exact figures.writeRetire free
  · exact figures

/-- A record is deleted: its index may count as the engine's or not. -/
theorem State.Lists.deleteRecord {h' : Hands} (k : s.Lists h) (canonical : s.table.Canonical) (r : Record)
    (off : ∀ j, j ≠ i → (h'.off j ↔ h.off j)) (fresh : ∀ j, j ≠ i → h'.fresh j → h.fresh j)
    (held : ∀ j, j ≠ i → h'.held j → h.held j) : (s.deleteRecord i r).Lists h' := by
  unfold State.deleteRecord
  simp only []
  have left : ∀ u : State, u.SameLists (match r.bakePart with
      | some bp => u.leaveBatch bp.oven i
      | none => u) ∧ (match r.bakePart with
      | some bp => u.leaveBatch bp.oven i
      | none => u : State).table = u.table := by
    intro u
    split
    · exact ⟨u.leaveBatch_same _ i, u.leaveBatch_table _ i⟩
    · exact ⟨.refl u, rfl⟩
  obtain ⟨same, table⟩ := left (s.unlinkRecord i)
  refine ((k.unlinked i).same same).removed (.inr rfl) ?_ (fun j hj => ?_) fresh held
  · rw [table]
    exact (s.unlinkRecord_tableKept i).canonical canonical
  · rw [off j hj]
    exact ⟨.inl, fun o => o.resolve_right hj⟩

end

end Sys2Proof.Machine
end

section
namespace Sys2Proof.Machine

/-! ### O55, O56: the agent's requests and the timers -/

/-- Engine and Retention Unit stand as they were. -/
def State.Seat (s t : State) : Prop := t.engine = s.engine ∧ t.retention = s.retention

namespace State.Seat

theorem refl (s : State) : s.Seat s := ⟨rfl, rfl⟩

theorem trans {s t u : State} (h : s.Seat t) (k : t.Seat u) : s.Seat u := ⟨k.1.trans h.1, k.2.trans h.2⟩

theorem of_zone {s t : State} (h : s.ZoneFrame t) : s.Seat t := by
  obtain ⟨frame, -⟩ := h
  exact ⟨by rw [frame], by rw [frame]⟩

theorem foldl {α : Type} {f : State → α → State} (hf : ∀ s a, State.Seat s (f s a)) (l : List α) (s : State) :
    s.Seat (l.foldl f s) := by
  induction l generalizing s with
  | nil => exact refl s
  | cons a l ih => exact (hf s a).trans (ih _)

theorem engineCalm {s t : State} (h : s.Seat t) : s.EngineCalm t := by
  refine .of_phase (congrArg Engine.phase h.1) (congrArg Engine.work h.1) fun k => .inl ?_
  unfold State.StopKept at k ⊢
  rwa [h.2] at k

end State.Seat

section
variable (s : State)

theorem State.modRecord_seat (i : Nat) (f : Record → Record) : s.Seat (s.modRecord i f) := by
  unfold State.modRecord
  split
  · exact ⟨rfl, rfl⟩
  · exact .refl s

theorem State.leaveBatch_seat (oven : Byte) (i : Nat) : s.Seat (s.leaveBatch oven i) := by
  unfold State.leaveBatch
  split
  · split
    · exact ⟨rfl, rfl⟩
    · exact ⟨rfl, rfl⟩
  · exact .refl s

theorem State.removeRecord_seat (i : Nat) : s.Seat (s.removeRecord i) := by
  unfold State.removeRecord
  split
  · exact ⟨rfl, rfl⟩
  · exact .refl s

theorem State.unlinkRecord_seat (i : Nat) : s.Seat (s.unlinkRecord i) := by
  unfold State.unlinkRecord
  split
  · exact (s.modRecord_seat i _).trans (.of_zone ((State.advance_frame ..).trans (State.unlist_frame ..)))
  · exact .refl s

theorem State.writeSettle_seat (i : Nat) : s.Seat (s.writeSettle i) := by
  unfold State.writeSettle
  split
  · exact ((s.modRecord_seat i _).trans (.of_zone (State.advance_frame ..))).trans
      ((State.modRecord_seat _ i _).trans (State.modRecord_seat _ i _))
  · exact .refl s

theorem State.writeClass_seat (i : Nat) (c : Option (Fin 16)) : s.Seat (s.writeClass i c) := by
  unfold State.writeClass
  split
  · exact ⟨rfl, rfl⟩
  · exact .refl s

theorem State.offList_seat (i : Nat) : s.Seat (s.offList i) := by
  unfold State.offList
  split
  · exact ⟨rfl, rfl⟩
  · exact .refl s

theorem State.writeRetire_seat (i : Nat) : s.Seat (s.writeRetire i) := by
  unfold State.writeRetire
  split
  · next r hr =>
    have unlisted : s.Seat (match r.zonePart with
        | some zp => s.unlist zp.zone i
        | none => s) := by
      split
      · exact ⟨rfl, rfl⟩
      · exact .refl s
    simp only []
    split
    · exact (unlisted.trans (State.leaveBatch_seat ..)).trans ⟨rfl, rfl⟩
    · exact unlisted.trans ⟨rfl, rfl⟩
  · exact .refl s

theorem State.writeRelist_seat (i : Nat) (w : RecordWrite) : s.Seat (s.writeRelist i w) := by
  unfold State.writeRelist
  split
  · split
    · exact .of_zone ((s.unlist_frame _ i).trans (State.attach_frame ..))
    · split
      · exact ⟨rfl, rfl⟩
      · exact .refl s
  · exact .refl s

theorem State.writeRecord_seat (i : Nat) (w : RecordWrite) : s.Seat (s.writeRecord i w) := by
  have figures : s.Seat (((s.writeSettle i).writeClass i w.cls).writeFigures i w) :=
    (s.writeSettle_seat i).trans ((State.writeClass_seat ..).trans (State.modRecord_seat ..))
  unfold State.writeRecord
  refine figures.trans (.trans ?_ (State.writeRelist_seat ..))
  split
  · exact State.writeRetire_seat ..
  · exact .refl _

theorem State.deleteRecord_seat (i : Nat) (r : Record) : s.Seat (s.deleteRecord i r) := by
  unfold State.deleteRecord
  refine (s.unlinkRecord_seat i).trans (.trans ?_ (State.removeRecord_seat ..))
  split
  · exact State.leaveBatch_seat ..
  · exact .refl _

theorem State.zoneChange_seat (z : Fin 32) (old new : ZoneConfig) : s.Seat (s.zoneChange z old new) := by
  unfold State.zoneChange
  split
  · exact .refl s
  · exact ⟨rfl, rfl⟩
  · exact ⟨rfl, rfl⟩
  · exact .refl s

theorem State.withTables_seat (t : Tables) : s.Seat { s with tables := t } := ⟨rfl, rfl⟩

theorem foldl_chargeZone_seat (zs : List (Fin 32)) : s.Seat (zs.foldl State.chargeZone s) :=
  .foldl (fun a z => .of_zone (a.chargeZone_frame z)) zs s

theorem State.zoneWrite_seat (z : Fin 32) (row : ZoneConfig) : s.Seat (s.zoneWrite z row) := by
  unfold State.zoneWrite
  simp only []
  have charged : s.Seat (if (s.tables.zone z).configured then s.chargeZone z else s) := by
    split
    · exact .of_zone (s.chargeZone_frame z)
    · exact .refl s
  generalize (if (s.tables.zone z).configured then s.chargeZone z else s) = u at charged
  have changed := (charged.trans (u.withTables_seat { u.tables with zones := u.tables.zones.set z.val row })).trans
    (State.zoneChange_seat _ z (s.tables.zone z) row)
  split
  · exact changed.trans (.of_zone (State.refreshPop_frame ..))
  · exact changed

theorem State.gridChange_seat (f : Tables → Tables) : s.Seat (s.gridChange f) :=
  ((foldl_chargeZone_seat s s.tables.configuredZones).trans (State.withTables_seat _ _)).trans
    (.foldl (fun a z => .of_zone ((a.setZone_frame z _).trans (State.pop_frame ..))) _ _)

theorem State.classRekey_seat (c : Fin 16) (row : ClassRow) : s.Seat (s.classRekey c row) :=
  ((State.Seat.of_zone (s.advanceAll_frame s.tables.configuredZones)).trans (State.withTables_seat _ _)).trans
    (.foldl (fun a z => .of_zone (a.rekeyZone_frame (fun r => r.cls == c) z)) _ _)

theorem State.loadReplace_seat (new : Tables) : s.Seat (s.loadReplace new) := by
  have charge : s.Seat { s.tables.configuredZones.foldl State.chargeZone s with tables := { new with part := s.tables.part } } :=
    (foldl_chargeZone_seat s _).trans (State.withTables_seat _ _)
  have change := fun a => State.Seat.foldl (f := fun a z => a.zoneChange z (s.tables.zone z) (new.zone z))
    (fun a z => a.zoneChange_seat z _ _) allZones a
  have refresh := fun a => State.Seat.foldl (f := fun a z => a.refreshPop z none)
    (fun a z => .of_zone (a.refreshPop_frame z none)) new.configuredZones a
  have rekey := fun a => State.Seat.foldl (f := fun a z => a.rekeyZone (fun _ => true) z)
    (fun a z => .of_zone (a.rekeyZone_frame (fun _ => true) z)) new.configuredZones a
  exact (((charge.trans (change _)).trans (refresh _)).trans (rekey _)).trans (State.withTables_seat _ _)

end

/-! #### What a step keeps -/

/-- A lookup finds a record in use that holds the ID (R42). -/
theorem CarrierTable.find?_some {a : CarrierTable} {id : CarrierId} {i : Nat} {r : Record} (h : a.find? id = some (i, r)) :
    lookupKey a.records i = some r ∧ r.id = id := by
  obtain ⟨j, -, hj⟩ := List.exists_of_findSome?_eq_some h
  unfold CarrierTable.holds? at hj
  split at hj
  · next q hq =>
    split at hj
    · next e =>
      cases hj
      exact ⟨hq, e⟩
    · cases hj
  · cases hj

/-- From `s` to `t` the invariants of O55 and O56 are kept. -/
structure State.CarriersKept (s t : State) : Prop where
  canonical : s.table.Canonical → t.table.Canonical
  right : s.table.Right → t.table.Right
  places : s.PlacesRight → t.PlacesRight
  lists : s.ListsRight → t.ListsRight

/-- An outcome whose next state, if there is one, keeps them. -/
def State.CarrierSafe (s : State) (o : Host.Outcome State Fault Refusal) : Prop := ∀ t, o = .next t → s.CarriersKept t

theorem State.CarrierSafe.next {s t : State} (h : s.CarriersKept t) : s.CarrierSafe (.next t) := by
  rintro _ ⟨⟩
  exact h

theorem State.CarrierSafe.fault (s : State) (f : Fault) : s.CarrierSafe (.fault f) := by rintro _ ⟨⟩

/-- Hands of which every record out of its list was just created or is held. -/
def Hands.Proper (h : Hands) : Prop := ∀ i, h.off i → h.fresh i ∨ h.held i

theorem State.hands_proper (s : State) : s.hands.Proper := by
  rintro i (⟨-, held⟩ | created)
  · exact .inr held
  · exact .inl created

/-- A request of the agent, or a timer, has done its work: the engine has in hand what it had. -/
structure State.AgentKept (s t : State) : Prop where
  table : s.TableKept t
  engine : s.EngineCalm t
  lists : ∀ h : Hands, h.Proper → s.table.Canonical → s.Lists h → t.Lists h

namespace State.AgentKept

theorem trans {s t u : State} (h : s.AgentKept t) (k : t.AgentKept u) : s.AgentKept u :=
  ⟨h.table.trans k.table, h.engine.trans k.engine,
    fun x proper canonical l => k.lists x proper (h.table.canonical canonical) (h.lists x proper canonical l)⟩

theorem of_calm {s t : State} (h : s.Calm t) : s.AgentKept t where
  table := .of_table h.table
  engine := h.engine
  lists x _ _ k := by
    refine k.same ⟨fun i => ?_, fun z => ?_, fun z => ?_⟩
    · unfold State.record?; rw [h.table]
    · unfold State.zone; rw [h.zones]
    · unfold State.kindOf Tables.zone; rw [h.configs]

theorem of_view {s t : State} (h : t.carriers = s.carriers) : s.AgentKept t := of_calm (.of_view h)

theorem refl (s : State) : s.AgentKept s := of_view rfl

/-- A change that the view does not show, behind one that keeps the invariants. -/
theorem silent {s t u : State} (h : s.AgentKept t) (e : u.carriers = t.carriers) : s.AgentKept u := h.trans (of_view e)

theorem after {s t u : State} (h : t.AgentKept u) (e : t.carriers = s.carriers) : s.AgentKept u := (of_view e).trans h

theorem of_parts {s t : State} (table : s.TableKept t) (seat : s.Seat t) (lists : s.ListsKept t) : s.AgentKept t :=
  ⟨table, seat.engineCalm, fun h _ _ => lists h⟩

theorem of_zone {s t : State} (table : s.TableKept t) (frame : s.ZoneFrame t) (lists : s.ListsKept t) : s.AgentKept t :=
  of_parts table (.of_zone frame) lists

theorem carriersKept {s t : State} (h : s.AgentKept t) : s.CarriersKept t where
  canonical := h.table.canonical
  right := h.table.right
  places p := by
    obtain ⟨right, placed, absent, creating⟩ := s.placesRight_iff.mp p
    refine t.placesRight_iff.mpr ⟨h.table.right right, h.table.placed right placed, fun id he i r hr => ?_, fun w hp hw => ?_⟩
    · obtain ⟨q, hq, e⟩ := h.table.ids right.canonical i r hr
      rw [← e]
      exact absent id (h.engine.expects id he) i q hq
    · obtain ⟨hp', hw'⟩ := h.engine.creating w hp hw
      exact creating w hp' hw'
  lists l := by
    obtain ⟨right, lists, creating, stopped⟩ := s.listsRight_iff.mp l
    refine t.listsRight_iff.mpr ⟨h.table.right right, ?_, fun w hp hw => ?_, h.engine.stopped stopped⟩
    · refine (h.lists _ s.hands_proper right.canonical lists).hands (fun i => ?_) (fun i => (h.engine.created i).mp) ?_
      · exact or_congr (h.engine.unlinked i) (h.engine.created i)
      · rintro i ⟨w, hw, hi⟩
        exact h.engine.held w i hw hi
    · obtain ⟨hp', hw'⟩ := h.engine.creating w hp hw
      exact creating w hp' hw'

end State.AgentKept

theorem State.CarrierSafe.calm {s : State} {o : Host.Outcome State Fault Refusal} (h : s.CalmSafe o) : s.CarrierSafe o :=
  fun t ht => (State.AgentKept.of_calm (h t ht)).carriersKept

theorem State.CarrierSafe.agent {s t : State} (h : s.AgentKept t) : s.CarrierSafe (.next t) := .next h.carriersKept

theorem State.CarrierSafe.same {s t : State} (h : t.carriers = s.carriers) : s.CarrierSafe (.next t) := .agent (.of_view h)

/-! #### The commands of the agent and of the advance timers -/

section
variable (s : State)

theorem State.serve_agentKept (t : Telegram) (op : MgmtOp) {f : State → State} (hf : s.AgentKept (f s)) :
    s.AgentKept (s.serve t op f) := by
  unfold State.serve
  split
  · exact .of_view rfl
  · exact hf

theorem State.asZoneRequest_agentKept {f : State → State} (hf : ∀ a, State.AgentKept a (f a)) : s.AgentKept (s.asZoneRequest f) := by
  unfold State.asZoneRequest
  split
  · exact (hf s.withdrawAgent).after rfl
  · split
    · exact .refl s
    · exact .of_view rfl

theorem State.asRecordRequest_agentKept (id : CarrierId) {f : State → State} (hf : ∀ a, State.AgentKept a (f a)) :
    s.AgentKept (s.asRecordRequest id f) := by
  unfold State.asRecordRequest
  split
  · exact s.asZoneRequest_agentKept hf
  · exact hf s

theorem State.advance_agentKept (z : Fin 32) : s.AgentKept (s.advance z) :=
  .of_zone (s.advance_tableKept z) (s.advance_frame z) (s.advance_lists z)

theorem State.classRekey_agentKept (c : Fin 16) (row : ClassRow) : s.AgentKept (s.classRekey c row) :=
  .of_parts (s.classRekey_tableKept c row) (s.classRekey_seat c row) (s.classRekey_lists c row)

theorem State.rekeyRequest_agentKept (t : Telegram) (c : Fin 16) (r : ClassRow) : s.AgentKept (s.rekeyRequest t c r) :=
  s.asZoneRequest_agentKept fun a => (a.classRekey_agentKept c r).silent rfl

theorem State.classWrite_agentKept (t : Telegram) (c : Fin 16) (r : ClassRow) : s.AgentKept (s.classWrite t c r) := by
  unfold State.classWrite
  split
  · exact .of_view rfl
  · split
    · exact .of_view rfl
    · split
      · exact .of_view s.dropRequest_carriers
      · split
        · exact .refl s
        · exact (State.rekeyRequest_agentKept (s.beginRekey t c r) t c r).after rfl

theorem State.writeRecordNow_agentKept (t : Telegram) (id : CarrierId) (w : RecordWrite) : s.AgentKept (s.writeRecordNow t id w) := by
  unfold State.writeRecordNow
  split
  · exact .of_view rfl
  · next i r found =>
    split
    · exact .of_view rfl
    · next unheld =>
      split
      · exact .of_view rfl
      · refine State.AgentKept.silent (t := s.writeRecord i w)
          ⟨s.writeRecord_tableKept i w, (s.writeRecord_seat i w).engineCalm, fun h proper _ k => ?_⟩ rfl
        have hr : s.record? i = some r := (CarrierTable.find?_some found).1
        have free : ¬h.held i := fun hh => unheld ((k.fits i r hr).held hh)
        exact k.writeRecord free (fun ho => (proper i ho).resolve_right free) w

theorem State.deleteRecordNow_agentKept (t : Telegram) (id : CarrierId) : s.AgentKept (s.deleteRecordNow t id) := by
  unfold State.deleteRecordNow
  split
  · exact .of_view rfl
  · next i r found =>
    split
    · exact .of_view rfl
    · exact State.AgentKept.silent (t := s.deleteRecord i r)
        ⟨s.deleteRecord_tableKept i r, (s.deleteRecord_seat i r).engineCalm,
          fun h _ canonical k => k.deleteRecord canonical r (fun _ _ => .rfl) (fun _ _ m => m) fun _ _ m => m⟩ rfl

theorem State.loadRequest_agentKept (t : Telegram) : s.AgentKept (s.loadRequest t) := by
  unfold State.loadRequest
  split
  · next new _ =>
    split
    · exact .of_view rfl
    · next free =>
      exact State.AgentKept.silent (t := s.loadReplace new)
        (.of_parts (s.loadReplace_tableKept new) (s.loadReplace_seat new)
          (State.loadReplace_lists (by rw [Bool.not_eq_true] at free; exact free))) rfl
  · exact .of_view rfl

theorem execTimerRequest_carrierSafe (z : Nat) : s.CarrierSafe (execTimerRequest z s) := by
  unfold execTimerRequest
  split
  · split
    · exact .agent ((State.advance_agentKept s.takeZoneRequest _).after rfl)
    · exact .same rfl
  · exact .fault s _

theorem zoneWrites_carrierSafe : s.CarrierSafe (execZoneConfigurationWrite s) ∧ s.CarrierSafe (execGridWrite s) ∧
    s.CarrierSafe (execClassWrite s) := by
  refine ⟨?zone, ?grid, ?cls⟩
  case zone =>
    unfold execZoneConfigurationWrite
    split
    · next t z r _ =>
      refine .agent (s.serve_agentKept _ _ (s.asZoneRequest_agentKept fun a => ?_))
      unfold State.zoneWriteRequest
      split
      · exact .of_view rfl
      · next free =>
        exact State.AgentKept.silent (t := a.zoneWrite z r)
          (.of_parts (a.zoneWrite_tableKept z r) (a.zoneWrite_seat z r)
            (State.zoneWrite_lists (by rw [Bool.not_eq_true] at free; exact free))) rfl
    · exact .same rfl
  case grid =>
    unfold execGridWrite
    split
    · next w _ =>
      split
      · next grid =>
        have zones : ∀ tb : Tables, (tb.write w).zones = tb.zones := by
          intro tb
          cases w with
          | grid | rh | temp => rfl
          | _ => cases grid
        exact .agent (s.serve_agentKept _ _ (s.asZoneRequest_agentKept fun a =>
          State.AgentKept.silent (t := a.gridChange fun tb => tb.write w)
            (.of_parts (a.gridChange_tableKept _) (a.gridChange_seat _) (a.gridChange_lists zones)) rfl))
      · exact .same rfl
    · exact .same rfl
  case cls =>
    unfold execClassWrite
    split
    · split
      · exact .agent (s.rekeyRequest_agentKept ..)
      · exact .same rfl
    · split
      · exact .agent (s.serve_agentKept _ _ (s.classWrite_agentKept ..))
      · exact .same rfl

/-- WRITE-RECORD, by whichever field its command stands for, and DELETE-RECORD. -/
theorem records_carrierSafe :
    s.CarrierSafe (execWriteRecordClass s) ∧ s.CarrierSafe (execWriteRecordConsumed s) ∧
      s.CarrierSafe (execWriteRecordBakeCount s) ∧ s.CarrierSafe (execWriteRecordRetire s) ∧
      s.CarrierSafe (execDeleteRecord s) := by
  have written : ∀ (b : Bool) (t : Telegram) (id : CarrierId) (w : RecordWrite),
      s.CarriersKept (if b then s.writeRecordRequest t id w else s) := by
    intro b t id w
    cases b
    · exact (State.AgentKept.refl s).carriersKept
    · exact (s.asRecordRequest_agentKept id fun a => a.writeRecordNow_agentKept t id w).carriersKept
  refine ⟨?_, ?_, ?_, ?_, ?_⟩
  · unfold execWriteRecordClass
    split
    · exact .next (written ..)
    · exact .same rfl
  · unfold execWriteRecordConsumed
    split
    · exact .next (written ..)
    · exact .same rfl
  · unfold execWriteRecordBakeCount
    split
    · exact .next (written ..)
    · exact .same rfl
  · unfold execWriteRecordRetire
    split
    · exact .next (written ..)
    · exact .same rfl
  · unfold execDeleteRecord
    split
    · exact .agent (s.asRecordRequest_agentKept _ fun a => a.deleteRecordNow_agentKept ..)
    · exact .same rfl

theorem zoneReads_carrierSafe : s.CarrierSafe (execReadZone s) ∧ s.CarrierSafe (execListZone s) := by
  refine ⟨?_, ?_⟩
  · unfold execReadZone
    split
    · exact .agent (s.asZoneRequest_agentKept fun a => (a.advance_agentKept _).silent rfl)
    · exact .same rfl
  · unfold execListZone
    split
    · exact .agent (s.asZoneRequest_agentKept fun a => (a.advance_agentKept _).silent rfl)
    · exact .same rfl

theorem execLoadImageReplace_carrierSafe : s.CarrierSafe (execLoadImageReplace s) := by
  unfold execLoadImageReplace
  split
  · split
    · exact .agent (s.asZoneRequest_agentKept fun a => a.loadRequest_agentKept _)
    · exact .same rfl
  · exact .same rfl

end

end Sys2Proof.Machine
end

section
namespace Sys2Proof.Machine

/-! ### O55, O56: the engine's checks -/

/-- A step of the engine: what it must show for the invariants. -/
theorem State.CarriersKept.of_engine {s t : State} (table : s.TableKept t)
    (expects : ∀ id, t.Expects id → s.Expects id ∨ s.table.find? id = none)
    (creating : ∀ w, t.engine.phase = .commitCreate → t.engine.work = some w →
      TxKind.ofByte? w.tel.kind = some .open_ ∧ ∃ o, w.outcome = some o ∧ o.transition = true)
    (lists : s.ListsRight → t.Lists t.hands)
    (stopped : (s.StopKept → s.engine.phase = .idle) → t.StopKept → t.engine.phase = .idle) : s.CarriersKept t where
  canonical := table.canonical
  right := table.right
  places p := by
    obtain ⟨right, placed, absent, -⟩ := s.placesRight_iff.mp p
    refine t.placesRight_iff.mpr ⟨table.right right, table.placed right placed, fun id he i r hr => ?_,
      fun w hp hw => (creating w hp hw).1⟩
    obtain ⟨q, hq, e⟩ := table.ids right.canonical i r hr
    rw [← e]
    rcases expects id he with before | none
    · exact absent id before i q hq
    · exact placed.absent none hq
  lists l := t.listsRight_iff.mpr ⟨table.right l.table, lists l, creating, stopped l.stopped⟩

theorem State.CarriersKept.trans {s t u : State} (h : s.CarriersKept t) (k : t.CarriersKept u) : s.CarriersKept u :=
  ⟨k.canonical ∘ h.canonical, k.right ∘ h.right, k.places ∘ h.places, k.lists ∘ h.lists⟩

/-- Hands that hold a record, and have none out of its list. -/
def Hands.hold (o : Option Nat) : Hands := { off := fun _ => False, fresh := fun _ => False, held := fun i => o = some i }

/-- The ID that a transaction brings to its create. -/
def Work.Brings (w : Work) (id : CarrierId) : Prop :=
  (TxKind.ofByte? w.tel.kind = some .open_ ∧ id = carrierIdOf w.tel) ∨
    (TxKind.ofByte? w.tel.kind = some .split ∧ id = childIdOf w.tel)

/-- Outside create, relist and delete the engine has just the record it holds in hand. -/
theorem State.lists_hands_iff {s : State} {w : Work} (hw : s.engine.work = some w)
    (unlinked : s.engine.phase ≠ .commitDelete) (created : ∀ i, ¬s.Created i) :
    s.Lists s.hands ↔ s.Lists (.hold w.held) := by
  have off : ∀ i, ¬s.hands.off i := fun i ho => ho.elim (fun u => unlinked u.1) (created i)
  have held : ∀ i, s.hands.held i ↔ w.held = some i := by
    intro i
    refine ⟨?_, fun hi => ⟨w, hw, hi⟩⟩
    rintro ⟨v, hv, hi⟩
    rw [hw] at hv
    cases hv
    exact hi
  exact ⟨fun k => k.hands (fun i => (iff_false_intro (off i)).symm) (fun _ => False.elim) fun i => (held i).mpr,
    fun k => k.hands (fun i => iff_false_intro (off i)) (fun i => created i) fun i => (held i).mp⟩

theorem State.not_created {s : State} (h : s.engine.phase ≠ .commitRelist) (i : Nat) : ¬s.Created i := fun c => h c.1

theorem State.ListsRight.hold {s : State} (h : s.ListsRight) {w : Work} (hw : s.engine.work = some w)
    (unlinked : s.engine.phase ≠ .commitDelete) (relist : s.engine.phase ≠ .commitRelist) : s.Lists (.hold w.held) :=
  (State.lists_hands_iff hw unlinked (State.not_created relist)).mp (s.listsRight_iff.mp h).2.1

/-- The engine lands in a phase with its working values, having done its work on the record it holds. -/
structure State.Lands (s t : State) (p : EnginePhase) (w : Work) : Prop where
  phase : t.engine.phase = p
  work : t.engine.work = some w
  table : s.TableKept t
  lists : s.ListsRight → t.Lists (.hold w.held)
  stopped : (s.StopKept → s.engine.phase = .idle) → t.StopKept → t.engine.phase = .idle

/-- Phases in which the engine expects nothing and has no record out of its list. -/
def EnginePhase.quiet : EnginePhase → Bool
  | .settling | .probe | .deciding | .commitOpen | .commitCreate | .commitRelist | .commitDelete => false
  | _ => true

theorem EnginePhase.Checked.ne {p : EnginePhase} (h : p.Checked) : p ≠ .commitCreate ∧ p ≠ .commitRelist ∧ p ≠ .commitDelete := by
  rcases h with h | h | h | h <;> rw [h] <;> decide

theorem EnginePhase.ne_of_quiet {p : EnginePhase} (h : p.quiet = true) :
    p ≠ .commitCreate ∧ p ≠ .commitRelist ∧ p ≠ .commitDelete ∧ ¬p.Checked := by
  have ne : ∀ q : EnginePhase, q.quiet = false → p ≠ q := by
    rintro q hq rfl
    rw [h] at hq
    cases hq
  refine ⟨ne _ rfl, ne _ rfl, ne _ rfl, ?_⟩
  rintro (e | e | e | e) <;> exact ne _ rfl e

/-- What a checked transaction expects is what it brings. -/
theorem State.expects_of_brings {s : State} {w : Work} (hw : s.engine.work = some w) (hp : s.engine.phase.Checked)
    (fault : w.fault = none) {id : CarrierId} (h : w.Brings id) : s.Expects id := by
  rcases h with ⟨kind, rfl⟩ | ⟨kind, rfl⟩
  · exact ⟨w, hw, .inl ⟨rfl, .inr ⟨kind, fault, hp⟩⟩⟩
  · exact ⟨w, hw, .inr ⟨rfl, kind, .inr ⟨fault, hp⟩⟩⟩

theorem State.brings_of_expects {s : State} {w : Work} (hw : s.engine.work = some w) (create : s.engine.phase ≠ .commitCreate)
    (relist : s.engine.phase ≠ .commitRelist) {id : CarrierId} (h : s.Expects id) :
    s.engine.phase.Checked ∧ w.fault = none ∧ w.Brings id := by
  obtain ⟨v, hv, ⟨rfl, hc | ⟨kind, fault, hp⟩⟩ | ⟨rfl, kind, ⟨hr, -⟩ | ⟨fault, hp⟩⟩⟩ := h
  · exact absurd hc create
  · rw [hw] at hv
    cases hv
    exact ⟨hp, fault, .inl ⟨kind, rfl⟩⟩
  · exact absurd hr relist
  · rw [hw] at hv
    cases hv
    exact ⟨hp, fault, .inr ⟨kind, rfl⟩⟩

namespace State.Lands

variable {s t : State} {p : EnginePhase} {w : Work}

theorem of_parts {u : State} (phase : t.engine.phase = p) (work : t.engine.work = some w) (ht : t.table = u.table)
    (hz : t.zones = u.zones) (hc : t.tables = u.tables) (hr : t.retention = s.retention) (table : s.TableKept u)
    (lists : s.ListsRight → u.Lists (.hold w.held)) (busy : s.engine.phase ≠ .idle) : s.Lands t p w where
  phase := phase
  work := work
  table := table.silent ht
  lists l := (lists l).same (.of_eq ht hz hc)
  stopped idle kept := absurd (idle (by unfold State.StopKept at kept ⊢; rwa [hr] at kept)) busy

/-- The engine is set on its way from a state with which its work has ended. -/
theorem goes {u : State} (p : EnginePhase) (w : Work) (seat : s.Seat u) (table : s.TableKept u)
    (lists : s.ListsRight → u.Lists (.hold w.held)) (busy : s.engine.phase ≠ .idle) : s.Lands (u.engineTo p w) p w :=
  of_parts (u := u) rfl rfl rfl rfl rfl seat.2 table lists busy

theorem asks {u : State} (p : EnginePhase) (w : Work) (seat : s.Seat u) (table : s.TableKept u)
    (lists : s.ListsRight → u.Lists (.hold w.held)) (busy : s.engine.phase ≠ .idle) : s.Lands (u.engineAsks p w) p w :=
  of_parts (u := u) rfl rfl rfl rfl rfl seat.2 table lists busy

theorem places {u : State} (w : Work) (q : OutputQueue) (tel : Telegram) (seat : s.Seat u) (table : s.TableKept u)
    (lists : s.ListsRight → u.Lists (.hold w.held)) (busy : s.engine.phase ≠ .idle) :
    s.Lands (u.placeOutput w q tel) .placing { w with output := some { queue := q, tel := tel } } :=
  goes .placing { w with output := some { queue := q, tel := tel } } seat table lists busy

/-- A composed output. -/
theorem composed {u : State} (w : Work) (o : RepeatOutcome) (reason : Option Byte) (band : Option Nat) (seat : s.Seat u)
    (table : s.TableKept u) (lists : s.ListsRight → u.Lists (.hold w.held)) (busy : s.engine.phase ≠ .idle) :
    ∃ v, s.Lands (u.compose w o reason band) .placing v := by
  rw [State.compose_eq]
  exact ⟨_, goes _ { w with output := _ } seat table lists busy⟩

theorem hands (l : s.Lands t p w) (create : p ≠ .commitDelete) (relist : p ≠ .commitRelist) (k : s.ListsRight) : t.Lists t.hands :=
  (State.lists_hands_iff l.work (l.phase ▸ create) (State.not_created (l.phase ▸ relist))).mpr (l.lists k)

/-- A landing where nothing is expected. -/
theorem quiet (l : s.Lands t p w) (h : p.quiet = true) : s.CarriersKept t := by
  obtain ⟨create, relist, delete, checked⟩ := EnginePhase.ne_of_quiet h
  refine .of_engine l.table (fun id he => ?_) (fun v hp => absurd (l.phase ▸ hp) create) (l.hands delete relist) l.stopped
  exact absurd (l.phase ▸ (State.brings_of_expects l.work (l.phase ▸ create) (l.phase ▸ relist) he).1) checked

/-- A landing among the checks. -/
theorem checked (l : s.Lands t p w) (h : p.Checked)
    (brings : ∀ id, w.fault = none → w.Brings id → s.Expects id ∨ s.table.find? id = none) : s.CarriersKept t := by
  obtain ⟨create, relist, delete⟩ := h.ne
  refine .of_engine l.table (fun id he => ?_) (fun v hp => absurd (l.phase ▸ hp) create) (l.hands delete relist) l.stopped
  obtain ⟨-, fault, he⟩ := State.brings_of_expects l.work (l.phase ▸ create) (l.phase ▸ relist) he
  exact brings id fault he

end State.Lands

/-- A fault ends the checks (R131). -/
theorem State.faulted_carriersKept {s u : State} {w : Work} (f : FaultCode) (seat : s.Seat u) (table : s.TableKept u)
    (lists : s.ListsRight → u.Lists (.hold w.held)) (busy : s.engine.phase ≠ .idle) : s.CarriersKept (u.faulted w f) :=
  (State.Lands.goes .commitOpen { w with fault := some f } seat table lists busy).checked (.inr (.inr (.inr rfl)))
    fun _ none => nomatch none

/-! #### Take and sample -/

theorem State.live_not_kept {s : State} (h : s.live = true) : ¬s.StopKept := by
  simp only [State.live, State.halted, State.stopping, Bool.and_eq_true, Bool.not_eq_true', Bool.or_eq_false_iff,
    beq_eq_false_iff_ne] at h
  obtain ⟨⟨⟨frozen, pending⟩, -⟩, -, quiesce⟩ := h
  rintro (⟨h | h, -⟩ | ⟨q, hq, -⟩)
  · exact frozen h
  · exact pending h
  · rw [hq] at quiesce
    cases quiesce

section
variable (s : State)

theorem State.countFault_sameLists (f : FaultCode) : s.SameLists (s.countFault f) := .of_eq rfl rfl rfl

/-- A telegram taken from an idle engine leads to a phase where nothing is held, and nothing faultless is checked. -/
theorem State.classify_lands (t : Telegram) (live : s.live = true) (idle : s.engine.phase = .idle) :
    ∃ p w, s.Lands (s.classify t) p w ∧ (p.quiet = true ∨ (p = .commitOpen ∧ w.fault ≠ none)) := by
  have rest : s.ListsRight → s.Lists (.hold none) := by
    intro l
    have out : ∀ i, ¬s.hands.off i := by
      rintro i (⟨h, -⟩ | ⟨h, -⟩)
      · exact nomatch idle.symm.trans h
      · exact nomatch idle.symm.trans h
    exact (s.listsRight_iff.mp l).2.1.hands (fun i => (iff_false_intro (out i)).symm) (fun _ => False.elim)
      fun _ none => nomatch none
  have lands : ∀ {u : State} p (w : Work), w.held = none → u.table = s.table → u.zones = s.zones → u.tables = s.tables →
      u.retention = s.retention → u.engine.phase = p → u.engine.work = some w → s.Lands u p w := by
    intro u p w held ht hz hc hr phase work
    refine ⟨phase, work, .of_table ht, fun l => held ▸ (rest l).same (.of_eq ht hz hc), fun _ kept => ?_⟩
    exact absurd (show s.StopKept by unfold State.StopKept at kept ⊢; rwa [hr] at kept) (State.live_not_kept live)
  unfold State.classify
  simp only []
  split
  · split
    · split
      · exact ⟨_, _, lands .placing _ rfl rfl rfl rfl rfl rfl rfl, .inl rfl⟩
      · exact ⟨_, _, lands .lookup _ rfl rfl rfl rfl rfl rfl rfl, .inl rfl⟩
    · exact ⟨_, _, lands .placing _ rfl rfl rfl rfl rfl rfl rfl, .inl rfl⟩
  · split
    · split
      · exact ⟨_, _, lands .commitOpen _ rfl rfl rfl rfl rfl rfl rfl, .inr ⟨rfl, Option.some_ne_none _⟩⟩
      · split
        · exact ⟨_, _, lands .commitOpen _ rfl rfl rfl rfl rfl rfl rfl, .inr ⟨rfl, Option.some_ne_none _⟩⟩
        · exact ⟨_, _, lands .lookup _ rfl rfl rfl rfl rfl rfl rfl, .inl rfl⟩
    · split
      · split
        · exact ⟨_, _, lands .offering _ rfl rfl rfl rfl rfl rfl rfl, .inl rfl⟩
        · exact ⟨_, _, lands .placing _ rfl rfl rfl rfl rfl rfl rfl, .inl rfl⟩
      · exact ⟨_, _, lands .placing _ rfl rfl rfl rfl rfl rfl rfl, .inl rfl⟩

theorem execTransactionTake_carrierSafe : s.CarrierSafe (execTransactionTake s) := by
  unfold execTransactionTake
  split
  · next t rest _ =>
    split
    · next h =>
      obtain ⟨live, idle, -⟩ := h
      obtain ⟨p, w, lands, phase⟩ := State.classify_lands { s with floor := { s.floor with queue := rest } } t live idle
      refine .next (.trans (State.AgentKept.of_view (s := s) (t := { s with floor := { s.floor with queue := rest } }) rfl).carriersKept ?_)
      rcases phase with quiet | ⟨rfl, fault⟩
      · exact lands.quiet quiet
      · exact lands.checked (.inr (.inr (.inr rfl))) fun _ none => absurd none fault
    · exact .same rfl
  · exact .same rfl

theorem execSampleIntake_carrierSafe : s.CarrierSafe (execSampleIntake s) := by
  unfold execSampleIntake
  split
  · next w hp hw =>
    split
    · have busy : s.engine.phase ≠ .idle := by rw [hp]; decide
      have rest : s.ListsRight → s.takeZoneRequest.Lists (.hold w.held) := fun l =>
        (l.hold hw (by rw [hp]; decide) (by rw [hp]; decide)).same (.of_eq rfl rfl rfl)
      have taken : ∀ u : State, s.Seat u → s.TableKept u → (s.ListsRight → u.Lists (.hold w.held)) →
          s.CarrierSafe (.next (u.placeOutput w .upRelay w.tel)) := fun u seat table lists =>
        .next ((State.Lands.places w .upRelay w.tel seat table lists busy).quiet rfl)
      simp only []
      split
      · next z slot _ =>
        refine taken _ ?_ (.after (State.acceptSample_tableKept s.takeZoneRequest z slot w.tel) rfl)
          fun l => State.acceptSample_lists s.takeZoneRequest z slot w.tel _ (rest l)
        exact .trans ⟨rfl, rfl⟩ (State.Seat.of_zone (s := s.takeZoneRequest)
          (((State.chargeZone_frame _ z).trans (State.setZone_frame ..)).trans (State.refreshPop_frame ..)))
      · exact taken _ ⟨rfl, rfl⟩ (.of_table rfl) fun l => (rest l).same (.of_eq rfl rfl rfl)
    · exact .same rfl
  · exact .same rfl

/-! #### Lookup and ring search -/

theorem State.setHold_seat (i : Nat) (b : Bool) : s.Seat (s.setHold i b) := s.modRecord_seat i _

/-- A record marked held may count as held. -/
theorem State.Lists.grip {s : State} {o : Option Nat} (k : s.Lists (.hold o)) (i : Nat) : (s.setHold i true).Lists (.hold (some i)) := by
  have free : s.Lists (.hold none) := k.hands (fun _ => .rfl) (fun _ => id) fun _ none => nomatch none
  have marked : (s.setHold i true).Lists (.hold none) := free.setHold fun _ => rfl
  refine ⟨marked.once, marked.ordered, marked.mem, fun j r hr => ?_⟩
  have f := marked.fits j r hr
  refine ⟨f.shaped, f.suited, f.fresh, fun hj => ?_⟩
  cases Option.some.inj hj
  unfold State.setHold State.modRecord at hr
  split at hr
  · rw [State.setRecord_record?_self] at hr
    cases hr
    rfl
  · next none => exact nomatch none.symm.trans hr

/-- What is held may be let go of. -/
theorem State.Lists.drop {s : State} {o : Option Nat} (k : s.Lists (.hold o)) : s.Lists (.hold none) :=
  k.hands (fun _ => .rfl) (fun _ => id) fun _ none => nomatch none

theorem State.lookupCarrier_carriersKept {w : Work} {k : TxKind} (hp : s.engine.phase = .lookup) (hw : s.engine.work = some w)
    (hk : TxKind.ofByte? w.tel.kind = some k) : s.CarriersKept (s.lookupCarrier w k) := by
  have busy : s.engine.phase ≠ .idle := by rw [hp]; decide
  have rest : s.ListsRight → s.Lists (.hold w.held) := fun l => l.hold hw (by rw [hp]; decide) (by rw [hp]; decide)
  have reissued : ∀ (v : Work) o reason band, (s.ListsRight → s.Lists (.hold v.held)) → s.CarriersKept (s.reissue v o reason band) := by
    intro v o reason band lists
    obtain ⟨_, lands⟩ := State.Lands.composed { v with commitMode := some s.mode, outcome := some { outcome := o, reason := reason, transition := false } }
      (if o = .refused ∧ s.mode ≠ .enforce then .relayedMarked else o) reason band (.refl s) (.refl s) lists busy
    exact lands.quiet rfl
  have faulted : ∀ v f, (s.ListsRight → s.Lists (.hold v.held)) → s.CarriersKept (s.faulted v f) := fun v f lists =>
    State.faulted_carriersKept f (.refl s) (.refl s) lists busy
  unfold State.lookupCarrier
  split
  · next open_ =>
    subst open_
    unfold State.lookupOpen
    split
    · next absent =>
      refine (State.Lands.asks .settling w (.refl s) (.refl s) rest busy).checked (.inl rfl) fun id _ brings => .inr ?_
      rcases brings with ⟨-, rfl⟩ | ⟨split, -⟩
      · exact absent
      · rw [hk] at split
        cases split
    · simp only []
      split
      · exact reissued _ _ _ _ rest
      · exact faulted _ _ rest
  · next other =>
    split
    · next i r _ =>
      unfold State.lookupFound
      simp only []
      have gripped : s.ListsRight → (s.setHold i true).Lists (.hold (some i)) := fun l => (rest l).grip i
      split
      · exact reissued _ _ _ _ fun l => (rest l).drop
      · split
        · exact State.faulted_carriersKept _ (s.setHold_seat i true) (s.setHold_tableKept i true) gripped busy
        · next child =>
          refine (State.Lands.asks (u := s.setHold i true) .settling { w with held := some i, childFound := _ } (s.setHold_seat i true)
            (s.setHold_tableKept i true) gripped busy).checked (.inl rfl)
            fun id _ brings => .inr ?_
          rcases brings with ⟨isOpen, -⟩ | ⟨split, rfl⟩
          · exact absurd (Option.some.inj (hk.symm.trans isOpen)) other
          · have : k = .split := Option.some.inj (hk.symm.trans split)
            simpa [this] using child
    · split
      · exact (State.Lands.goes .ring w (.refl s) (.refl s) rest busy).quiet rfl
      · exact faulted _ _ rest

theorem State.lookupQuery_carriersKept {w : Work} (hp : s.engine.phase = .lookup) (hw : s.engine.work = some w)
    (hk : TxKind.ofByte? w.tel.kind = none) : s.CarriersKept (s.lookupQuery w) := by
  have busy : s.engine.phase ≠ .idle := by rw [hp]; decide
  have rest : s.ListsRight → s.Lists (.hold w.held) := fun l => l.hold hw (by rw [hp]; decide) (by rw [hp]; decide)
  unfold State.lookupQuery
  split
  · next i r _ =>
    refine (State.Lands.asks .settling { w with held := some i } (s.setHold_seat i true) (s.setHold_tableKept i true)
      (fun l => (rest l).grip i) busy).checked (.inl rfl) fun id _ brings => ?_
    rcases brings with ⟨kind, -⟩ | ⟨kind, -⟩ <;> exact nomatch hk.symm.trans kind
  · have counted : s.ListsRight → (s.countFault .unknownCarrier).Lists (.hold w.held) := fun l => (rest l).same (.of_eq rfl rfl rfl)
    exact (State.Lands.places (s := s) (u := s.countFault .unknownCarrier) w .answer _ ⟨rfl, rfl⟩ (.of_table rfl) counted busy).quiet rfl

/-- The lookups. -/
theorem lookups_carrierSafe : s.CarrierSafe (execCarrierLookup s) ∧ s.CarrierSafe (execRingSearch s) := by
  refine ⟨?_, ?_⟩
  · unfold execCarrierLookup
    split
    · next w hp hw =>
      split
      · split
        · next k hk => exact .next (s.lookupCarrier_carriersKept hp hw hk)
        · next hk => exact .next (s.lookupQuery_carriersKept hp hw hk)
      · exact .same rfl
    · exact .same rfl
  · unfold execRingSearch
    split
    · next w hp hw =>
      have busy : s.engine.phase ≠ .idle := by rw [hp]; decide
      have rest : s.ListsRight → s.Lists (.hold w.held) := fun l => l.hold hw (by rw [hp]; decide) (by rw [hp]; decide)
      split
      · split
        · next e _ =>
          obtain ⟨_, lands⟩ := State.Lands.composed
            { w with commitMode := some s.mode, outcome := some { outcome := e.outcome, reason := e.reason, transition := false } }
            (if e.outcome = .refused ∧ s.mode ≠ .enforce then .relayedMarked else e.outcome) e.reason none (.refl s) (.refl s) rest busy
          exact .next (lands.quiet rfl)
        · exact .next (State.faulted_carriersKept _ (.refl s) (.refl s) rest busy)
      · exact .same rfl
    · exact .same rfl

end

end Sys2Proof.Machine
end

section
namespace Sys2Proof.Machine

/-! ### O55, O56: settlement, probe, lookup and commit -/

section
variable (s : State)

/-- A decision reading, and the fault of a probe or a settlement, from a state among the checks (R128, R131). -/
theorem State.decided_carriersKept {u : State} {w w' : Work} {k : TxKind} (hw : s.engine.work = some w) (hp : s.engine.phase.Checked)
    (tel : w'.tel = w.tel) (fault : w'.fault = w.fault) (seat : s.Seat u) (table : s.TableKept u)
    (lists : s.ListsRight → u.Lists (.hold w'.held)) :
    s.CarriersKept (u.decisionReading w' k) ∧ s.CarriersKept (u.engineTo .probe w') ∧ ∀ f, s.CarriersKept (u.faulted w' f) := by
  have busy : s.engine.phase ≠ .idle := by
    rcases hp with h | h | h | h <;> rw [h] <;> decide
  have brings : ∀ id, w'.fault = none → w'.Brings id → s.Expects id ∨ s.table.find? id = none := by
    intro id hf hb
    unfold Work.Brings at hb
    rw [tel] at hb
    exact .inl (State.expects_of_brings hw hp (fault ▸ hf) hb)
  refine ⟨?_, ?_, fun f => State.faulted_carriersKept f seat table lists busy⟩
  · unfold State.decisionReading
    split
    · exact (State.Lands.goes .commitOpen { w' with verdict := some (.mark, reasonUnchecked) } seat table lists busy).checked (.inr (.inr (.inr rfl))) brings
    · exact (State.Lands.goes .deciding { w' with lookup := some (u.lookupRequest w' k) } seat table lists busy).checked (.inr (.inr (.inl rfl))) brings
  · exact (State.Lands.goes .probe w' seat table lists busy).checked (.inr (.inl rfl)) brings

theorem execFreeRecordProbe_carrierSafe : s.CarrierSafe (execFreeRecordProbe s) := by
  unfold execFreeRecordProbe
  split
  · next w hp hw =>
    have lists : s.ListsRight → s.Lists (.hold w.held) := fun l => l.hold hw (by rw [hp]; decide) (by rw [hp]; decide)
    split
    · split
      · next k _ =>
        obtain ⟨decided, -, faulted⟩ := s.decided_carriersKept (k := k) hw (.inr (.inl hp)) rfl rfl (.refl s) (.refl s) lists
        refine .next ?_
        split
        · exact decided
        · exact faulted _
      · exact .same rfl
    · exact .same rfl
  · exact .same rfl

theorem State.settleEngine_seat (w : Work) : s.Seat (s.settleEngine w).1 := by
  unfold State.settleEngine
  simp only []
  split
  · exact .of_zone ((s.advanceAll_frame _).trans (State.settleCross_frame ..))
  · exact .of_zone (s.advanceAll_frame _)

theorem State.settleEngine_lists {s : State} {w : Work} (k : s.Lists (.hold w.held)) : (s.settleEngine w).1.Lists (.hold w.held) := by
  have advanced := s.advanceAll_lists (zonesNamed (w.held.bind s.zoneOf?) w.bodyZone?) _ k
  unfold State.settleEngine
  simp only []
  split
  · exact advanced.settleCross (fun off => off) _ false
  · exact advanced

theorem execSettleRequest_carrierSafe : s.CarrierSafe (execSettleRequest s) := by
  unfold execSettleRequest
  split
  · next w hp hw =>
    split
    · have rest : s.ListsRight → s.takeZoneRequest.Lists (.hold w.held) := fun l =>
        (l.hold hw (by rw [hp]; decide) (by rw [hp]; decide)).same (.of_eq rfl rfl rfl)
      have seat : s.Seat (s.takeZoneRequest.settleEngine w).1 := .trans ⟨rfl, rfl⟩ (State.settleEngine_seat _ w)
      have table : s.TableKept (s.takeZoneRequest.settleEngine w).1 := .after (State.settleEngine_tableKept s.takeZoneRequest w) rfl
      have lists : s.ListsRight → (s.takeZoneRequest.settleEngine w).1.Lists (.hold w.held) := fun l =>
        State.settleEngine_lists (rest l)
      have busy : s.engine.phase ≠ .idle := by rw [hp]; decide
      have tel : (s.takeZoneRequest.settleEngine w).2.tel = w.tel := rfl
      have fault : (s.takeZoneRequest.settleEngine w).2.fault = w.fault := rfl
      have held : (s.takeZoneRequest.settleEngine w).2.held = w.held := rfl
      generalize s.takeZoneRequest.settleEngine w = pair at seat table lists tel fault held
      obtain ⟨u, w'⟩ := pair
      simp only [] at seat table lists tel fault held ⊢
      rw [← held] at lists
      split
      · next k _ =>
        obtain ⟨decided, probed, faulted⟩ := s.decided_carriersKept (k := k) hw (.inl hp) tel fault seat table lists
        refine .next ?_
        unfold State.afterSettle
        split
        · exact faulted _
        · split
          · exact probed
          · exact decided
      · refine .next ?_
        unfold State.answerQuery
        split
        · next i r f _ _ _ =>
          refine (State.Lands.places (u := u.setHold i false) { w' with held := none } .answer _ (seat.trans (u.setHold_seat i false))
            (table.trans (u.setHold_tableKept i false)) (fun l => ?_) busy).quiet rfl
          exact (lists l).drop.setHold fun none => nomatch none
        · exact (State.Lands.places w' .answer _ seat table lists busy).quiet rfl
    · exact .same rfl
  · exact .same rfl

/-! #### The policy lookup -/

/-- What the policy's effects leave: engine, Retention Unit, table, zones and their configuration. -/
structure State.PolicyFrame (s t : State) : Prop where
  seat : s.Seat t
  table : t.table = s.table
  lists : s.SameLists t

namespace State.PolicyFrame

theorem trans {s t u : State} (h : s.PolicyFrame t) (k : t.PolicyFrame u) : s.PolicyFrame u :=
  ⟨h.seat.trans k.seat, k.table.trans h.table, h.lists.trans k.lists⟩

theorem refl (s : State) : s.PolicyFrame s := ⟨.refl s, rfl, .refl s⟩

theorem of_plant {s t : State} (h : s.PlantFrame t) : s.PolicyFrame t :=
  ⟨⟨by rw [h], by rw [h]⟩, by rw [h], .of_plant h⟩

end State.PolicyFrame

theorem State.applyPass_policyFrame (q : LookupRequest) (b : Bool) (h : PassHit) (v : Verdict) :
    s.PolicyFrame (s.applyPass q b h v) := by
  have counted : ∀ (u : State) a, u.PolicyFrame (u.countRule a) := by
    intro u a
    unfold State.countRule
    split
    · exact ⟨⟨rfl, rfl⟩, rfl, .of_eq rfl rfl rfl⟩
    · exact .refl u
  have noticed : ∀ (u : State) a, u.PolicyFrame (u.policyNotice q a v) := by
    intro u a
    unfold State.policyNotice
    split
    · exact .refl u
    · exact .of_plant (State.post_frame ..)
  have copied : ∀ (u : State) a, u.PolicyFrame (u.copyNotice q b h a v) := by
    intro u a
    unfold State.copyNotice
    split
    · simp only []
      split
      · exact .of_plant (State.post_frame ..)
      · refine (State.PolicyFrame.of_plant (State.post_frame ..)).trans ⟨⟨rfl, rfl⟩, rfl, ⟨fun _ => rfl, fun _ => rfl, fun z => ?_⟩⟩
        unfold State.kindOf Tables.zone Tables.clearCopyOnce
        cases h with
        | entry i => rfl
        | dflt => cases b <;> rfl
    · exact .refl u
  exact ((counted s _).trans (noticed _ _)).trans (copied _ _)

theorem State.lookupPolicy_policyFrame (q : LookupRequest) : s.PolicyFrame (s.lookupPolicy q).1 :=
  (s.applyPass_policyFrame q false _ _).trans (State.applyPass_policyFrame _ q true _ _)

theorem execPolicyLookup_carrierSafe : s.CarrierSafe (execPolicyLookup s) := by
  unfold execPolicyLookup
  split
  · next w hp hw =>
    split
    · split
      · next q _ =>
        have frame := s.lookupPolicy_policyFrame q
        have lists : s.ListsRight → (s.lookupPolicy q).1.Lists (.hold w.held) := fun l =>
          (l.hold hw (by rw [hp]; decide) (by rw [hp]; decide)).same frame.lists
        refine .next ((State.Lands.goes .commitOpen { w with verdict := some (s.lookupPolicy q).2 } frame.seat
          (.of_table frame.table) lists (by rw [hp]; decide)).checked (.inr (.inr (.inr rfl))) fun id none brings => .inl ?_)
        exact State.expects_of_brings hw (.inr (.inr (.inl hp))) none brings
      · exact .same rfl
    · exact .same rfl
  · exact .same rfl

/-! #### The commit -/

/-- A record let go of keeps its place, whatever is remembered in it. -/
theorem State.Lists.released {s : State} (k : s.Lists (.hold none)) (w : Work) (o : CommitOutcome) (i : Option Nat) :
    (s.rememberRelease w o i).Lists (.hold none) := by
  unfold State.rememberRelease State.modRecord
  split
  · next i =>
    split
    · next r hr =>
      exact k.renewed hr (State.setRecord_record?_self ..) (s.setRecord_others i _) (fun _ => rfl) (fun _ => rfl) rfl rfl rfl
        fun none => nomatch none
    · exact k
  · exact k

theorem State.rememberRelease_seat (w : Work) (o : CommitOutcome) (i : Option Nat) : s.Seat (s.rememberRelease w o i) := by
  unfold State.rememberRelease
  split
  · exact s.modRecord_seat _ _
  · exact .refl s

/-- Nothing but the ring and the fault counters is touched behind the release. -/
theorem State.ringCount_same (w : Work) (o : CommitOutcome) :
    s.SameLists ((s.ringAppend w o).countWorkFault w) ∧ s.Seat ((s.ringAppend w o).countWorkFault w) := by
  have ring : s.SameLists (s.ringAppend w o) ∧ s.Seat (s.ringAppend w o) := by
    unfold State.ringAppend
    split
    · exact ⟨⟨fun _ => rfl, fun _ => rfl, fun _ => rfl⟩, rfl, rfl⟩
    · exact ⟨.refl s, .refl s⟩
  have count : ∀ u : State, u.SameLists (u.countWorkFault w) ∧ u.Seat (u.countWorkFault w) := by
    intro u
    unfold State.countWorkFault
    split
    · exact ⟨.of_eq rfl rfl rfl, rfl, rfl⟩
    · exact ⟨.refl u, .refl u⟩
  obtain ⟨lists, seat⟩ := count (s.ringAppend w o)
  exact ⟨ring.1.trans lists, ring.2.trans seat⟩

theorem State.closeCommit_carriersKept {w : Work} (lists : s.ListsRight → s.Lists (.hold w.held)) (busy : s.engine.phase ≠ .idle) :
    s.CarriersKept (s.closeCommit w) := by
  unfold State.closeCommit
  split
  · next o _ =>
    simp only []
    obtain ⟨same, seat⟩ := State.ringCount_same ((s.rememberRelease w o w.held).rememberRelease w o w.created) w o
    have table := ((s.rememberRelease_tableKept w o w.held).trans (State.rememberRelease_tableKept _ w o w.created)).trans
      ((State.ringAppend_tableKept _ w o).silent (State.countWorkFault_table _ w))
    obtain ⟨_, lands⟩ := State.Lands.composed { w with held := none, created := none } o.outcome o.reason
      (w.figures.map Figures.pct)
      (((s.rememberRelease_seat w o w.held).trans (State.rememberRelease_seat _ w o w.created)).trans seat) table
      (fun l => (((lists l).drop.released w o w.held).released w o w.created).same same) busy
    exact lands.quiet rfl
  · exact (State.AgentKept.refl s).carriersKept

/-- An outcome with a transition is that of a faultless transaction (R142). -/
theorem fixOutcome_transition {f : Option FaultCode} {v : Option (Verdict × Byte)} {m : Mode}
    (h : (fixOutcome f v m).transition = true) : f = none := by
  cases f with
  | none => rfl
  | some f =>
    unfold fixOutcome at h
    simp only [] at h
    split at h <;> cases h

theorem State.firstCommitPhase_create {w : Work} {o : CommitOutcome} (h : s.firstCommitPhase w o = .commitCreate) :
    o.transition = true ∧ TxKind.ofByte? w.tel.kind = some .open_ := by
  unfold State.firstCommitPhase at h
  split at h
  · next ht =>
    split at h
    · next hk => exact ⟨ht, hk⟩
    · split at h <;> cases h
    · cases h
  · split at h <;> cases h

theorem State.firstCommitPhase_relist {w : Work} {o : CommitOutcome} (h : s.firstCommitPhase w o = .commitRelist)
    (ht : o.transition = true) : TxKind.ofByte? w.tel.kind ≠ some .open_ := by
  intro hk
  unfold State.firstCommitPhase at h
  rw [if_pos ht, hk] at h
  cases h

theorem State.firstCommitPhase_delete {w : Work} {o : CommitOutcome} (h : s.firstCommitPhase w o = .commitDelete) :
    w.held.bind s.zoneOf? = none := by
  unfold State.firstCommitPhase at h
  split at h
  · split at h
    · cases h
    · split at h
      · cases h
      · next none => simpa using none
    · cases h
  · split at h <;> cases h

/-- The phases in which a commit begins its work. -/
theorem State.firstCommitPhase_mem (w : Work) (o : CommitOutcome) :
    s.firstCommitPhase w o = .commitCreate ∨ s.firstCommitPhase w o = .commitUnlink ∨ s.firstCommitPhase w o = .commitDelete ∨
      s.firstCommitPhase w o = .commitRelist ∨ s.firstCommitPhase w o = .commitClose := by
  unfold State.firstCommitPhase
  split
  · split
    · exact .inl rfl
    · split
      · exact .inr (.inl rfl)
      · exact .inr (.inr (.inl rfl))
    · exact .inr (.inr (.inr (.inl rfl)))
  · split
    · exact .inr (.inr (.inr (.inl rfl)))
    · exact .inr (.inr (.inr (.inr rfl)))

/-- Hands whose held record has left its list. -/
def Hands.loose (o : Option Nat) : Hands := { off := fun i => o = some i, fresh := fun _ => False, held := fun i => o = some i }

/-- In COMMIT-DELETE the record held is out of its list. -/
theorem State.lists_loose_iff {s : State} {w : Work} (hp : s.engine.phase = .commitDelete) (hw : s.engine.work = some w) :
    s.Lists s.hands ↔ s.Lists (.loose w.held) := by
  have created : ∀ i, ¬s.Created i := State.not_created (by rw [hp]; decide)
  have held : ∀ i, s.hands.held i ↔ w.held = some i := by
    intro i
    refine ⟨?_, fun hi => ⟨w, hw, hi⟩⟩
    rintro ⟨v, hv, hi⟩
    rw [hw] at hv
    cases hv
    exact hi
  have off : ∀ i, s.hands.off i ↔ w.held = some i := fun i =>
    ⟨fun h => h.elim (fun u => (held i).mp u.2) fun c => absurd c (created i), fun h => .inl ⟨hp, w, hw, h⟩⟩
  exact ⟨fun k => k.hands (fun i => (off i).symm) (fun _ => False.elim) fun i => (held i).mpr,
    fun k => k.hands off (fun i => created i) fun i => (held i).mp⟩

/-- Out of its list, the record held has left the hands that hold it. -/
theorem State.Lists.loosed {s : State} {o : Option Nat} (k : ∀ i, o = some i → s.Lists ((Hands.hold o).without i))
    (free : o = none → s.Lists (.hold none)) : s.Lists (.loose o) := by
  cases o with
  | none => exact (free rfl).hands (fun i => ⟨(fun h => nomatch h), False.elim⟩) (fun _ => id) fun i h => nomatch h
  | some i =>
    refine (k i rfl).hands (fun j => ⟨fun h => .inr (Option.some.inj h).symm, fun h => ?_⟩) (fun _ => id) fun j => id
    exact h.elim False.elim fun e => e ▸ rfl

theorem State.openCommit_carriersKept {w : Work} (hp : s.engine.phase = .commitOpen) (hw : s.engine.work = some w) :
    s.CarriersKept (s.openCommit w) := by
  have busy : s.engine.phase ≠ .idle := by rw [hp]; decide
  have checked : s.engine.phase.Checked := .inr (.inr (.inr hp))
  have rest : s.ListsRight → s.Lists (.hold w.held) := fun l => l.hold hw (by rw [hp]; decide) (by rw [hp]; decide)
  unfold State.openCommit
  simp only []
  set o := fixOutcome w.fault w.verdict s.mode with ho
  set w' : Work := { w with commitMode := some s.mode, outcome := some o } with hw'
  have faultless : o.transition = true → w.fault = none := fixOutcome_transition
  have stopped : ∀ t : State, t.retention = s.retention → (s.StopKept → s.engine.phase = .idle) → t.StopKept → t.engine.phase = .idle :=
    fun t hr idle kept => absurd (idle (by unfold State.StopKept at kept ⊢; rwa [hr] at kept)) busy
  rcases s.firstCommitPhase_mem w o with h | h | h | h | h <;> rw [h]
  · obtain ⟨transition, kind⟩ := s.firstCommitPhase_create h
    have lands : s.Lands (s.engineTo .commitCreate w') .commitCreate w' := .goes _ _ (.refl s) (.refl s) rest busy
    refine .of_engine lands.table ?_ ?_ (lands.hands (by decide) (by decide)) lands.stopped
    · rintro id ⟨v, hv, ⟨rfl, -⟩ | ⟨rfl, -, ⟨hr, -⟩ | ⟨-, hc⟩⟩⟩
      · cases hv
        exact .inl (State.expects_of_brings hw checked (faultless transition) (.inl ⟨kind, rfl⟩))
      · exact nomatch hr
      · exact absurd rfl hc.ne.1
    · rintro v - hv
      cases hv
      exact ⟨kind, o, rfl, transition⟩
  · exact (State.Lands.asks .commitUnlink w' (.refl s) (.refl s) rest busy).quiet rfl
  · have zoneless := s.firstCommitPhase_delete h
    refine .of_engine (t := s.engineTo .commitDelete w') (.of_table rfl) ?_ (fun v hc => nomatch hc) (fun l => ?_) (stopped _ rfl)
    · rintro id ⟨v, -, ⟨-, hc | ⟨-, -, hc⟩⟩ | ⟨-, -, ⟨hr, -⟩ | ⟨-, hc⟩⟩⟩
      · exact nomatch hc
      · exact absurd rfl hc.ne.2.2
      · exact nomatch hr
      · exact absurd rfl hc.ne.2.2
    · refine (State.lists_loose_iff (w := w') rfl rfl).mpr (State.Lists.same (s := s) ?_ (.of_eq rfl rfl rfl))
      refine State.Lists.loosed (fun i hi => ?_) fun none => (rest l).drop
      have := (rest l).offList i
      rwa [State.offList_zoneless (by rw [show w.held = some i from hi] at zoneless; exact zoneless)] at this
  · have created : ∀ i, ¬(s.engineAsks .commitRelist w').Created i := by
      rintro i ⟨-, v, p, hv, hk, hp', ht, -⟩
      cases hv
      cases hp'
      exact s.firstCommitPhase_relist h ht hk
    refine .of_engine (t := s.engineAsks .commitRelist w') (.of_table rfl) ?_ (fun v hc => nomatch hc) (fun l => ?_) (stopped _ rfl)
    · rintro id ⟨v, hv, ⟨rfl, hc | ⟨-, -, hc⟩⟩ | ⟨rfl, split, ⟨-, ht⟩ | ⟨-, hc⟩⟩⟩
      · exact nomatch hc
      · exact absurd rfl hc.ne.2.1
      · cases hv
        exact .inl (State.expects_of_brings hw checked (faultless ht) (.inr ⟨split, rfl⟩))
      · exact absurd rfl hc.ne.2.1
    · exact (State.lists_hands_iff (s := s.engineAsks .commitRelist w') (w := w') rfl (fun hd => nomatch hd) created).mpr
        ((rest l).same (.of_eq rfl rfl rfl))
  · exact s.closeCommit_carriersKept rest busy

theorem execCommit_carrierSafe : s.CarrierSafe (execCommit s) := by
  unfold execCommit
  split
  · next w hp hw =>
    refine .next ?_
    split
    · exact s.openCommit_carriersKept hp hw
    · exact (State.AgentKept.refl s).carriersKept
  · next w hp hw =>
    refine .next ?_
    split
    · exact s.closeCommit_carriersKept (fun l => l.hold hw (by rw [hp]; decide) (by rw [hp]; decide)) (by rw [hp]; decide)
    · exact (State.AgentKept.refl s).carriersKept
  · exact .same rfl

end

end Sys2Proof.Machine
end

section
namespace Sys2Proof.Machine

/-! ### O55, O56: create, relists and delete -/

/-! #### Creates -/

/-- A record that has no zone and no oven, in a list of records out of their lists. -/
theorem State.Lists.createdLoose {s : State} {h : Hands} (k : s.Lists h) {i : Nat} (empty : s.record? i = none) {t : State}
    {r : Record} (hr : t.record? i = some r) (others : ∀ j, j ≠ i → t.record? j = s.record? j)
    (watch : ∀ z : Fin 32, (t.zone z).watch = (s.zone z).watch) (kinds : ∀ z : Fin 32, t.kindOf z = s.kindOf z)
    (zone : r.zonePart = none) (bake : r.bakePart = none) (held : r.held = true) {h' : Hands} (off : h'.off i)
    (offs : ∀ j, j ≠ i → (h'.off j ↔ h.off j)) (fresh : ∀ j, j ≠ i → h'.fresh j → h.fresh j) (helds : ∀ j, h'.held j → h.held j) :
    t.Lists h' := by
  refine (k.vacant (h' := h') empty offs fresh fun j _ => helds j).loose off others watch kinds fun q hq => ?_
  cases hr.symm.trans hq
  exact ⟨⟨fun hz => absurd zone hz, fun hb => absurd bake hb⟩, fun on => absurd (.inl off) on, fun _ => ⟨zone, bake⟩, fun _ => held⟩

/-- A create takes an index that holds no record (R44). -/
theorem CarrierTable.Right.created_free {a b : CarrierTable} {r : Record} {i : Nat} (h : a.Right) (hc : a.Created b r i) :
    lookupKey a.records i = none := by
  rcases hc.place with ⟨-, free, -⟩ | ⟨inPool, -⟩
  · exact free
  · exact ((h.pool i).mp inPool).2.2

section
variable (s : State)

theorem State.createOpen_carriersKept {w : Work} (hp : s.engine.phase = .commitCreate) (hw : s.engine.work = some w) :
    s.CarriersKept (s.createOpen w) := by
  have busy : s.engine.phase ≠ .idle := by rw [hp]; decide
  have rest : s.ListsRight → s.Lists (.hold w.held) := fun l => l.hold hw (by rw [hp]; decide) (by rw [hp]; decide)
  unfold State.createOpen
  split
  · next c _ =>
    split
    · next i tb hc =>
      have created := CarrierTable.create?_created hc
      have stopped : ∀ t : State, t.retention = s.retention → (s.StopKept → s.engine.phase = .idle) → t.StopKept →
          t.engine.phase = .idle :=
        fun t hr idle kept => absurd (idle (by unfold State.StopKept at kept ⊢; rwa [hr] at kept)) busy
      refine ⟨fun h => h.create hc, CarrierTable.create?_right hc, fun p => ?_, fun l => ?_⟩
      · obtain ⟨right, placed, absent, creating⟩ := s.placesRight_iff.mp p
        refine (State.placesRight_iff _).mpr ⟨CarrierTable.create?_right hc right, placed.created right created fun j q hq => ?_,
          ?_, fun v hv => nomatch hv⟩
        · exact absent _ ⟨w, hw, .inl ⟨rfl, .inl hp⟩⟩ j q hq
        · rintro id ⟨v, hv, ⟨-, hv' | ⟨-, -, hv'⟩⟩ | ⟨-, split, -⟩⟩
          · exact nomatch hv'
          · exact absurd rfl hv'.ne.2.1
          · cases hv
            exact nomatch (creating w hp hw).symm.trans split
      · obtain ⟨isOpen, o, ho, transition⟩ := l.creating w hp hw
        have free : s.record? i = none := l.table.created_free created
        refine (State.listsRight_iff _).mpr ⟨CarrierTable.create?_right hc l.table, ?_, (fun v hv => nomatch hv), stopped _ rfl l.stopped⟩
        set t : State := { s with table := tb }.engineAsks .commitRelist { w with created := some i } with ht
        have fresh : ∀ j, t.Created j ↔ j = i := by
          intro j
          constructor
          · rintro ⟨-, v, p, hv, -, -, -, hj⟩
            cases hv
            exact (Option.some.inj hj).symm
          · rintro rfl
            exact ⟨rfl, _, o, rfl, isOpen, ho, transition, rfl⟩
        have off : ∀ j, t.hands.off j ↔ j = i := fun j =>
          ⟨fun h => h.elim (fun u => nomatch u.1) (fresh j).mp, fun h => .inr ((fresh j).mpr h)⟩
        refine (rest l).createdLoose (t := t) free created.lookupKey_self (fun j hj => created.lookupKey_ne hj) (fun _ => rfl) (fun _ => rfl)
          rfl rfl rfl ((off i).mpr rfl) (fun j hj => ?_) (fun j hj hf => absurd ((fresh j).mp hf) hj) fun j ⟨v, hv, hj⟩ => ?_
        · rw [off]
          exact iff_of_false hj id
        · cases hv
          exact hj
    · exact (State.Lands.goes .commitClose (w.refault .tableFull) (.refl s) (.refl s) rest busy).quiet rfl
  · exact (State.Lands.goes .commitClose { w.refault .classUnknown with figures := none } (.refl s) (.refl s) rest busy).quiet rfl

theorem execCreate_carrierSafe : s.CarrierSafe (execCreate s) := by
  unfold execCreate
  split
  · next w hp hw =>
    refine .next ?_
    split
    · exact s.createOpen_carriersKept hp hw
    · exact (State.AgentKept.refl s).carriersKept
  · exact .same rfl

/-! #### Relists -/

end

section
variable {s : State} {w : Work}

/-- A relist that has come from a state `s` to `u`: its engine's seat, its table and its lists. -/
structure State.Relisted (s u : State) (h : Hands) : Prop where
  seat : s.Seat u
  table : s.TableKept u
  lists : s.ListsRight → u.Lists h

namespace State.Relisted

variable {u v : State} {h : Hands}

theorem then_ (k : s.Relisted u h) (seat : u.Seat v) (table : u.TableKept v) (lists : u.Lists h → v.Lists h) : s.Relisted v h :=
  ⟨k.seat.trans seat, k.table.trans table, fun l => lists (k.lists l)⟩

theorem zone (k : s.Relisted u h) (frame : u.ZoneFrame v) (table : u.TableKept v) (lists : u.Lists h → v.Lists h) : s.Relisted v h :=
  k.then_ (.of_zone frame) table lists

theorem advanceCommit (k : s.Relisted u h) (w : Work) (z : Option (Fin 32)) : s.Relisted (u.advanceCommit w z) h :=
  k.zone (State.advanceAll_frame ..) (u.advanceCommit_tableKept w z) (u.advanceAll_lists _ h)

theorem relistHeld {w : Work} {o : Option Nat} (k : s.Relisted u (.hold o)) : s.Relisted (u.relistHeld w) (.hold o) := by
  refine k.zone ?_ (u.relistHeld_tableKept w) fun l => ?_
  · unfold State.relistHeld
    split
    · exact State.relistStay_frame ..
    · exact .refl u
  · unfold State.relistHeld
    split
    · exact l.settleCross (fun off => off) _ false
    · exact l

/-- A relist ends, and the engine goes on. -/
theorem quiet {w : Work} (k : s.Relisted u (.hold w.held)) (busy : s.engine.phase ≠ .idle) {p : EnginePhase} (hp : p.quiet = true) :
    s.CarriersKept (u.engineTo p w) := (State.Lands.goes p w k.seat k.table k.lists busy).quiet hp

theorem fault {w : Work} (k : s.Relisted u (.hold w.held)) (busy : s.engine.phase ≠ .idle) (f : FaultCode) :
    s.CarriersKept (u.commitFault w f) :=
  (State.Lands.goes .commitClose (w.refault f) (k.relistHeld (w := w)).seat (k.relistHeld (w := w)).table (k.relistHeld (w := w)).lists
    busy).quiet rfl

theorem stay {w : Work} (k : s.Relisted u (.hold w.held)) (busy : s.engine.phase ≠ .idle) : s.CarriersKept (u.commitStay w) :=
  ((k.advanceCommit w none).relistHeld (w := w)).quiet busy rfl

end State.Relisted

/-- A record held keeps its place through the advances of a commit. -/
theorem State.advanceCommit_record? {u : State} {o : Option Nat} (l : u.Lists (.hold o)) {i : Nat} (hi : o = some i) {r : Record}
    (hr : u.record? i = some r) (w : Work) (z : Option (Fin 32)) : (u.advanceCommit w z).record? i = some r :=
  State.advanceAll_held hr ((l.fits i r hr).held hi) _

/-- The state of a zoned transition suits a zone that suits the kind (R137, R139). -/
theorem TxKind.zoned_suits {k : TxKind} {x st : CarrierState} {z : ZoneKind} (h : k.transition x = .zoned st) (suits : k.suits z = true) :
    st.inZone = true ∧ (st = .dry ↔ z = .dry) := by
  cases k with
  | store =>
    have state : st = .dry := by cases x <;> cases h <;> rfl
    have zone : z = .dry := by simpa [TxKind.suits] using suits
    subst state zone
    exact ⟨rfl, by decide⟩
  | issue | move =>
    have state : st = .exposed := by
      cases x <;> cases h
      all_goals rfl
    have zone : z = .floor ∨ z = .line := by simpa [TxKind.suits] using suits
    subst state
    rcases zone with rfl | rfl
    · exact ⟨rfl, by decide⟩
    · exact ⟨rfl, by decide⟩
  | mount =>
    have state : st = .mounted := by
      cases x <;> cases h <;> rfl
    have zone : z = .line := by simpa [TxKind.suits] using suits
    subst state zone
    exact ⟨rfl, by decide⟩
  | open_ | demount | bakeIn | bakeOut | split | close => cases x <;> cases h

theorem stateInZone_suits (z : ZoneKind) : (stateInZone z).inZone = true ∧ (stateInZone z = .dry ↔ z = .dry) := by
  cases z <;> exact ⟨rfl, by decide⟩

theorem TxKind.transition_baking {k : TxKind} (h : k ≠ .open_) (hb : k ≠ .bakeOut) : k.transition .baking = .illegal := by
  cases k <;> first | rfl | exact absurd rfl h | exact absurd rfl hb

theorem Tables.zoneFault?_none {t : Tables} {k : TxKind} {n : Nat} {z : Fin 32} (hz : zone? n = some z) (h : t.zoneFault? k n = none) :
    (t.zone z).configured = true ∧ k.suits (t.zone z).kind = true := by
  unfold Tables.zoneFault? at h
  rw [hz] at h
  simp only [] at h
  split at h
  · cases h
  · next configured =>
    split at h
    · cases h
    · next suits => simpa using And.intro configured suits

theorem Tables.zoneFault?_zone {t : Tables} {k : TxKind} {n : Nat} (h : t.zoneFault? k n = none) : ∃ z, zone? n = some z := by
  unfold Tables.zoneFault? at h
  split at h
  · cases h
  · next z hz => exact ⟨z, hz⟩

/-- STORE, ISSUE, MOVE, MOUNT and DEMOUNT: the state of the transition suits the zone (R144, R149). -/
theorem State.commitZoned_carriersKept {u : State} (k : s.Relisted u (.hold w.held)) (busy : s.engine.phase ≠ .idle) {kind : TxKind}
    {st : Option CarrierState} {i : Nat} {r : Record} (hi : w.held = some i) (hr : u.record? i = some r) (unbaked : r.state ≠ .baking)
    (fits : ∀ z, kind.suits z = true → (st.getD (stateInZone z)).inZone = true ∧ (st.getD (stateInZone z) = .dry ↔ z = .dry)) :
    s.CarriersKept (u.commitZoned w kind st) := by
  have advanced := k.advanceCommit w (zone? w.zone)
  unfold State.commitZoned
  simp only []
  split
  · next j z hj hz free =>
    cases hi.symm.trans hj
    have configured := Tables.zoneFault?_none hz free
    obtain ⟨inz, dry⟩ := fits _ configured.2
    refine State.Relisted.quiet ⟨advanced.seat.trans (.of_zone (State.relistTo_frame ..)),
      advanced.table.trans (State.relistTo_tableKept ..), fun l => ?_⟩ busy rfl
    have kept := State.advanceCommit_record? (k.lists l) hi hr w (zone? w.zone)
    have lists := advanced.lists l
    exact lists.relistTo_some (fun off => off) (fun fresh => fresh) kept ((lists.fits i r kept).shaped.bakePart_none unbaked) inz dry _
  · exact advanced.fault busy _
  · exact advanced.fault busy _

/-- DEMOUNT from OVERRUN: the carrier goes to no zone. -/
theorem State.commitExpire_carriersKept {u : State} (k : s.Relisted u (.hold w.held)) (busy : s.engine.phase ≠ .idle) {i : Nat}
    {r : Record} (hi : w.held = some i) (hr : u.record? i = some r) (unbaked : r.state ≠ .baking) : s.CarriersKept (u.commitExpire w) := by
  have advanced := k.advanceCommit w none
  unfold State.commitExpire
  simp only []
  split
  · next j hj =>
    cases hi.symm.trans hj
    refine State.Relisted.quiet ⟨advanced.seat.trans (.of_zone (State.relistTo_frame ..)),
      advanced.table.trans (State.relistTo_tableKept ..), fun l => ?_⟩ busy rfl
    have kept := State.advanceCommit_record? (k.lists l) hi hr w none
    have lists := advanced.lists l
    exact lists.relistTo_none (fun fresh => fresh) kept ((lists.fits i r kept).shaped.bakePart_none unbaked) rfl _
  · exact advanced.quiet busy rfl

/-- A record that stands in no zone is rewritten in a state of none. -/
theorem State.Lists.restated {h : Hands} {i : Nat} {r q : Record} (k : s.Lists h) (fresh : ¬h.fresh i) (hr : s.record? i = some r)
    (before : r.zonePart = none) (zone : q.zonePart = none) (out : q.state.inZone = false)
    (bake : q.bakePart = none ∨ q.state = .baking) (held : h.held i → q.held = true) : (s.setRecord i q).Lists h := by
  have seated : ∀ kind, q.Seated kind := fun _ => Record.seated_zoneless zone out bake
  have loose := k.offList i
  rw [State.offList_zoneless (by rw [State.zoneOf?_of hr, before]; rfl)] at loose
  have rewritten : (s.setRecord i q).Lists (h.without i) :=
    loose.loose (.inr rfl) (s.setRecord_others i q) (fun _ => rfl) (fun _ => rfl) fun p hp => by
      cases (State.setRecord_record?_self ..).symm.trans hp
      exact (seated _).fits fresh held
  refine rewritten.back ?_ fun p hp => ?_
  · rw [State.zoneOf?_of (State.setRecord_record?_self ..), zone]; rfl
  · cases (State.setRecord_record?_self ..).symm.trans hp
    exact (seated _).suited

/-- BAKE-IN: the carrier goes to no zone, and then names its oven (R148, R158). -/
theorem State.commitBakeIn_carriersKept {u : State} (k : s.Relisted u (.hold w.held)) (busy : s.engine.phase ≠ .idle) {i : Nat}
    {r : Record} (hi : w.held = some i) (hr : u.record? i = some r) (unbaked : r.state ≠ .baking) : s.CarriersKept (u.commitBakeIn w) := by
  have advanced := k.advanceCommit w none
  unfold State.commitBakeIn
  simp only []
  split
  · next j hj =>
    cases hi.symm.trans hj
    refine State.Relisted.quiet (w := { w with commitTime := u.now }) ?relisted busy ?quiet
    case quiet => rfl
    refine ⟨(advanced.seat.trans (.of_zone (State.relistTo_frame ..))).trans (State.modRecord_seat ..),
      (advanced.table.trans (State.relistTo_tableKept ..)).trans (State.modRecord_tableKept _ _ ?_ ?_), fun l => ?_⟩
    · exact fun _ => rfl
    · exact fun _ => rfl
    have kept := State.advanceCommit_record? (k.lists l) hi hr w none
    have lists := advanced.lists l
    have relisted := lists.relistTo_none (fun fresh => fresh) kept ((lists.fits i r kept).shaped.bakePart_none unbaked)
      (cs := .baking) rfl (some w.tel.source)
    obtain ⟨left, core, form⟩ := State.relistTo_none kept .baking (some w.tel.source)
    set q := Record.rejudgeWarn { left.leaveZone with state := .baking } (State.classOf (u.advanceCommit w none) r) with hq
    have here : (State.relistTo (u.advanceCommit w none) i .baking none (some w.tel.source)).record? i = some q := by
      rw [form, State.setRecord_record?_self]
    have eq : q.zonePart = none ∧ q.state = .baking := by
      rw [hq, Record.rejudgeWarn_eq]
      exact ⟨rfl, rfl⟩
    rw [State.modRecord_of here]
    exact relisted.restated (fun fresh => fresh) here eq.1 eq.1 (congrArg CarrierState.inZone eq.2) (.inr eq.2)
      (relisted.fits i q here).held
  · exact advanced.quiet busy rfl

/-- The record after a bake: it stands in no zone and in no oven. -/
theorem Record.afterBake_spec (r : Record) (c : ClassRow) (o : BakeOutcome) :
    (r.afterBake c o).zonePart = r.zonePart ∧ (r.afterBake c o).bakePart = none ∧ (r.afterBake c o).held = r.held := by
  cases o with
  | complete | retired => exact ⟨rfl, rfl, rfl⟩
  | short | shortExpired =>
    unfold Record.afterBake
    simp only [Record.rejudgeWarn_eq]
    exact ⟨trivial, trivial, trivial⟩

theorem State.bakeNotice_same (u : State) (w : Work) (r : Record) (o : BakeOutcome) (z : Option (Fin 32)) (n : Nat) :
    u.SameLists (u.bakeNotice w r o z n) ∧ u.Seat (u.bakeNotice w r o z n) := by
  have posted : ∀ m, u.SameLists (u.post m) ∧ u.Seat (u.post m) := fun m =>
    ⟨.of_plant (u.post_frame m), .of_zone (u.post_frame m).zoneFrame⟩
  cases o with
  | complete => exact ⟨.refl u, .refl u⟩
  | retired | short | shortExpired => exact posted _

/-- BAKE-OUT: the carrier is retired or expired, or goes to a zone (R148, R160). -/
theorem State.commitBakeOut_carriersKept {u : State} (k : s.Relisted u (.hold w.held)) (busy : s.engine.phase ≠ .idle) :
    s.CarriersKept (u.commitBakeOut w) := by
  unfold State.commitBakeOut
  split
  · exact k.quiet busy rfl
  · next i r bp found =>
    obtain ⟨j, hj, found⟩ := Option.bind_eq_some_iff.mp found
    obtain ⟨q, hq, found⟩ := Option.bind_eq_some_iff.mp found
    obtain ⟨b, hb, found⟩ := Option.map_eq_some_iff.mp found
    cases found
    simp only []
    set o := r.bakeOutcome (u.classOf r) bp u.now with ho
    set r' := r.afterBake (u.classOf r) o with hr'
    obtain ⟨zone, bake, held⟩ := r.afterBake_spec (u.classOf r) o
    have id : r'.id = r.id := r.afterBake_id _ _
    have cls : r'.cls = r.cls := r.afterBake_cls _ _
    rw [← hr'] at zone bake held
    clear_value r' o
    have baking : s.ListsRight → r.state = .baking ∧ r.zonePart = none := by
      intro l
      have shaped := ((k.lists l).fits i r hq).shaped
      have state := shaped.baking (by rw [hb]; exact Option.some_ne_none _)
      refine ⟨state, ?_⟩
      by_contra named
      have := shaped.zoned named
      rw [state] at this
      cases this
    have ended : ∀ st : CarrierState, st.inZone = false →
        s.CarriersKept (((u.setRecord i { r' with state := st }).bakeNotice w r' o none (u.now - bp.entered)).engineTo .commitLeave
          { w with commitTime := u.now }) := by
      intro st out
      obtain ⟨same, seat⟩ := State.bakeNotice_same (u.setRecord i { r' with state := st }) w r' o none (u.now - bp.entered)
      refine State.Relisted.quiet (w := { w with commitTime := u.now })
        ⟨(k.seat.trans ⟨rfl, rfl⟩).trans seat, ?_, fun l => State.Lists.same ?_ same⟩ busy rfl
      · refine (k.table.trans ?_).silent (State.bakeNotice_table ..)
        exact CarrierTable.Kept.written hq id cls
      · have before := (baking l).2
        exact (k.lists l).restated (fun fresh => fresh) hq before (zone.trans before) out (.inl bake)
          fun hh => held.trans (((k.lists l).fits i r hq).held hh)
    have attached : s.CarriersKept
        (match zone? w.zone, (u.advanceCommit w (zone? w.zone)).tables.zoneFault? .bakeOut w.zone with
        | some z, none =>
          ((((u.advanceCommit w (zone? w.zone)).setRecord i
            { r' with state := stateInZone ((u.advanceCommit w (zone? w.zone)).tables.zone z).kind }).bakeNotice w r' o (some z)
              (u.now - bp.entered)).attach i z (some w.tel.source)).engineTo .commitLeave { w with commitTime := u.now }
        | _, f => (u.advanceCommit w (zone? w.zone)).commitFault { w with commitTime := u.now } (f.getD .zoneUnknown)) := by
      have advanced := k.advanceCommit w (zone? w.zone)
      set v := u.advanceCommit w (zone? w.zone) with hv
      split
      · next z hz free =>
        set q' : Record := { r' with state := stateInZone (v.tables.zone z).kind } with hq'
        obtain ⟨same, seat⟩ := State.bakeNotice_same (v.setRecord i q') w r' o (some z) (u.now - bp.entered)
        obtain ⟨inz, dry⟩ := stateInZone_suits (v.tables.zone z).kind
        have noticed : ((v.setRecord i q').bakeNotice w r' o (some z) (u.now - bp.entered)).record? i = some q' :=
          (same.records i).trans (State.setRecord_record?_self ..)
        refine State.Relisted.quiet (w := { w with commitTime := u.now })
          ⟨((advanced.seat.trans ⟨rfl, rfl⟩).trans seat).trans (.of_zone (State.attach_frame ..)), ?_, fun l => ?_⟩ busy rfl
        · refine .trans ?_ (State.attach_tableKept ..)
          refine (advanced.table.trans ?_).silent (State.bakeNotice_table ..)
          have cores := (State.advanceAll_frame u (zonesNamed (w.held.bind u.zoneOf?) (zone? w.zone))).2 i
          obtain ⟨p, hp, core⟩ := Option.map_eq_some_iff.mp (cores.trans (by rw [hq]; rfl))
          exact CarrierTable.Kept.written (r' := q') hp (id.trans (congrArg RecordCore.id core).symm)
            (cls.trans (congrArg RecordCore.cls core).symm)
        · have before := (baking l).2
          have kept := State.advanceCommit_record? (k.lists l) hj hq w (zone? w.zone)
          have lists := advanced.lists l
          have out := lists.offList i
          rw [State.offList_zoneless (by rw [State.zoneOf?_of kept, before]; rfl)] at out
          have written : (v.setRecord i q').Lists ((Hands.hold w.held).without i) :=
            out.setLoose (fun fresh => fresh) (fun _ => inz) bake fun hh => held.trans ((lists.fits i r kept).held hh)
          refine (written.same same).attach (fun off => off) (fun fresh => fresh) noticed inz ?_ _
          rw [show State.kindOf ((v.setRecord i q').bakeNotice w r' o (some z) (u.now - bp.entered)) z = v.kindOf z from same.kinds z]
          exact dry
      · exact State.Relisted.fault (w := { w with commitTime := u.now }) advanced busy _
    cases o with
    | retired => exact ended .retired rfl
    | shortExpired => exact ended .expired rfl
    | complete | short => exact attached

end

end Sys2Proof.Machine
end

section
namespace Sys2Proof.Machine

/-! ### O55, O56: the relists that create, delete, batches and output -/

/-- Hands of an OPEN between its create and its attach. -/
def Hands.made (created held : Option Nat) : Hands :=
  { off := fun i => created = some i, fresh := fun i => created = some i, held := fun i => held = some i }

section
variable {s : State} {w : Work}

/-- In COMMIT-RELIST an OPEN that commits has in hand the record it created. -/
theorem State.ListsRight.made (l : s.ListsRight) (hp : s.engine.phase = .commitRelist) (hw : s.engine.work = some w)
    (kind : TxKind.ofByte? w.tel.kind = some .open_) {o : CommitOutcome} (ho : w.outcome = some o) (transition : o.transition = true) :
    s.Lists (.made w.created w.held) := by
  have fresh : ∀ i, s.Created i ↔ w.created = some i := by
    intro i
    constructor
    · rintro ⟨-, v, p, hv, -, -, -, hi⟩
      cases hw.symm.trans hv
      exact hi
    · intro hi
      exact ⟨hp, w, o, hw, kind, ho, transition, hi⟩
  refine (s.listsRight_iff.mp l).2.1.hands (fun i => ?_) (fun i => (fresh i).mpr) fun i hi => ⟨w, hw, hi⟩
  refine ⟨fun h => .inr ((fresh i).mpr h), fun h => h.elim (fun u => ?_) (fresh i).mp⟩
  have := u.1
  rw [hp] at this
  cases this

/-- In COMMIT-RELIST any other transaction has just its held record in hand. -/
theorem State.ListsRight.relisting (l : s.ListsRight) (hp : s.engine.phase = .commitRelist) (hw : s.engine.work = some w)
    (no : ¬(TxKind.ofByte? w.tel.kind = some .open_ ∧ ∃ o, w.outcome = some o ∧ o.transition = true)) : s.Lists (.hold w.held) := by
  refine (State.lists_hands_iff hw (by rw [hp]; decide) ?_).mp (s.listsRight_iff.mp l).2.1
  rintro i ⟨-, v, o, hv, kind, ho, transition, -⟩
  cases hw.symm.trans hv
  exact no ⟨kind, o, ho, transition⟩

/-- The relist of an OPEN: its record is attached, or freed again (R98, R145). -/
theorem State.commitOpened_carriersKept {u : State} (k : s.Relisted u (.made w.created w.held)) (busy : s.engine.phase ≠ .idle) :
    s.CarriersKept (u.commitOpened w) := by
  have advanced := k.advanceCommit w (zone? w.zone)
  unfold State.commitOpened
  simp only []
  set v := u.advanceCommit w (zone? w.zone) with hv
  split
  · next i z hi hz free =>
    refine State.Relisted.quiet ⟨(advanced.seat.trans (State.modRecord_seat ..)).trans (.of_zone (State.attach_frame ..)),
      (advanced.table.trans (State.modRecord_tableKept _ _ ?_ ?_)).trans (State.attach_tableKept ..), fun l => ?_⟩ busy rfl
    · exact fun _ => rfl
    · exact fun _ => rfl
    have lists := advanced.lists l
    cases hr : v.record? i with
    | none =>
      have same : v.modRecord i (fun r => { r with state := stateInZone (v.tables.zone z).kind }) = v := by
        unfold State.modRecord
        rw [hr]
      rw [same]
      have gone : v.attach i z (some w.tel.source) = v := by
        unfold State.attach
        rw [hr]
      rw [gone]
      refine lists.vacant hr (fun j hj => ?_) (fun _ _ => False.elim) fun _ _ hh => hh
      exact iff_of_false id fun e => hj (Option.some.inj (hi.symm.trans e)).symm
    | some r =>
      have f := lists.fits i r hr
      obtain ⟨zone, bake⟩ := f.fresh hi
      obtain ⟨inz, dry⟩ := stateInZone_suits (v.tables.zone z).kind
      rw [State.modRecord_of hr]
      have loose : v.Lists ((Hands.hold w.held).without i) := by
        refine lists.hands (fun j => ?_) (fun _ => False.elim) fun _ hh => hh
        refine ⟨fun h => h.elim False.elim fun e => e ▸ hi, fun h => .inr (Option.some.inj (hi.symm.trans h)).symm⟩
      exact (loose.setLoose (q := { r with state := stateInZone (v.tables.zone z).kind }) (fun fresh => fresh) (fun _ => inz) bake
        f.held).attach (fun off => off) (fun fresh => fresh)
        (State.setRecord_record?_self ..) inz dry _
  · next i hi _ =>
    refine State.Relisted.quiet (w := { w.refault ((v.tables.zoneFault? .open_ w.zone).getD .zoneUnknown) with created := none })
      ⟨advanced.seat.trans (State.removeRecord_seat ..), advanced.table.trans (State.removeRecord_tableKept ..), fun l => ?_⟩ busy rfl
    refine (advanced.lists l).removed hi (advanced.table.canonical l.table.canonical) (fun j hj => ?_) (fun _ _ => False.elim)
      fun _ _ hh => hh
    exact iff_of_false id fun e => hj (Option.some.inj (hi.symm.trans e)).symm
  · next hi =>
    refine State.Relisted.quiet (w := w.refault _) ⟨advanced.seat, advanced.table, fun l => ?_⟩ busy rfl
    refine (advanced.lists l).hands (fun j => ?_) (fun _ => False.elim) fun _ hh => hh
    exact iff_of_false id fun e => nomatch hi.symm.trans e

/-- A SPLIT has created its child: what the invariants need of the state the engine goes on from. -/
theorem State.CarriersKept.of_created {v : State} {w' : Work} (busy : s.engine.phase ≠ .idle) (seat : s.Seat v)
    (canonical : s.table.Canonical → v.table.Canonical) (right : s.table.Right → v.table.Right)
    (placed : s.PlacesRight → v.table.Placed) (lists : s.ListsRight → v.Lists (.hold w'.held)) :
    s.CarriersKept (v.engineTo .commitClose w') := by
  have quiet := EnginePhase.ne_of_quiet (p := .commitClose) rfl
  refine ⟨canonical, right, fun p => ?_, fun l => ?_⟩
  · refine (State.placesRight_iff _).mpr ⟨right p.table, placed p, fun id he => ?_, fun _ hv => nomatch hv⟩
    exact absurd (State.brings_of_expects (w := w') rfl quiet.1 quiet.2.1 he).1 quiet.2.2.2
  · refine (State.listsRight_iff _).mpr ⟨right l.table, ?_, (fun _ hv => nomatch hv), fun kept => ?_⟩
    · exact (State.lists_hands_iff (w := w') rfl quiet.2.2.1 (State.not_created quiet.2.1)).mpr ((lists l).same (.of_eq rfl rfl rfl))
    · refine absurd (l.stopped ?_) busy
      unfold State.StopKept at kept ⊢
      rwa [show (v.engineTo .commitClose w').retention = s.retention from seat.2] at kept

/-- The relist of a SPLIT: its child is created, and attached or expired (R98, R146). -/
theorem State.commitSplit_carriersKept {u : State} (k : s.Relisted u (.hold w.held)) (busy : s.engine.phase ≠ .idle)
    (expects : s.Expects (childIdOf w.tel)) : s.CarriersKept (u.commitSplit w) := by
  have advanced := (k.advanceCommit w (zone? w.zone)).relistHeld (w := w)
  unfold State.commitSplit
  simp only []
  set v := (u.advanceCommit w (zone? w.zone)).relistHeld w with hv
  split
  · exact advanced.quiet busy rfl
  · next p _ =>
    set st := childState p.state (((zone? w.zone).map fun z => (v.tables.zone z).kind).getD .unset) with hst
    split
    · exact State.Relisted.quiet (w := w.refault _) advanced busy rfl
    · next free =>
      split
      · exact State.Relisted.quiet (w := w.refault _) advanced busy rfl
      · split
        · exact State.Relisted.quiet (w := w.refault _) advanced busy rfl
        · next i tb hc =>
          have created := CarrierTable.create?_created hc
          set child := childRecord p (childIdOf w.tel) st with hchild
          set v2 : State := { v with table := tb } with hv2
          have here : v2.record? i = some child := created.lookupKey_self
          have absent : s.PlacesRight → ∀ j q, lookupKey v.table.records j = some q → q.id ≠ child.id := by
            intro pr j q hq e
            obtain ⟨right, -, absent, -⟩ := s.placesRight_iff.mp pr
            obtain ⟨q', hq', same⟩ := advanced.table.ids right.canonical j q hq
            exact absent _ expects j q' hq' (same.trans e)
          have placed : s.PlacesRight → v2.table.Placed := fun pr => by
            obtain ⟨right, placed, -, -⟩ := s.placesRight_iff.mp pr
            exact (advanced.table.placed right placed).created (advanced.table.right right) created (absent pr)
          have loose : s.ListsRight → v2.Lists ((Hands.hold w.held).without i) := fun l =>
            (advanced.lists l).createdLoose ((advanced.table.right l.table).created_free created) here
              (fun j hj => created.lookupKey_ne hj) (fun _ => rfl) (fun _ => rfl) rfl rfl rfl (.inr rfl)
              (fun j hj => by simp [Hands.without, hj]) (fun _ _ => False.elim) fun _ hh => hh
          have canonical : s.table.Canonical → v2.table.Canonical := fun h => (advanced.table.canonical h).create hc
          have right : s.table.Right → v2.table.Right := fun h => CarrierTable.create?_right hc (advanced.table.right h)
          have seat : s.Seat v2 := advanced.seat.trans ⟨rfl, rfl⟩
          have stayed : st = .expired → s.CarriersKept (v2.engineTo .commitClose { w with created := some i }) := by
            intro expired
            refine .of_created busy seat canonical right placed fun l => (loose l).back ?_ fun q hq => ?_
            · rw [State.zoneOf?_of here]
              rfl
            · cases here.symm.trans hq
              exact (Record.seated_zoneless rfl (congrArg CarrierState.inZone expired) (.inl rfl)).suited
          split
          · next expired => exact stayed expired
          · next z hz alive =>
            have state : st = stateInZone (v.tables.zone z).kind := by
              rw [hst, hz]
              unfold childState
              rw [hst, hz] at alive
              unfold childState at alive
              split
              · next gone => exact absurd (if_pos gone) (alive ·)
              · rfl
            obtain ⟨inz, dry⟩ := stateInZone_suits (v.tables.zone z).kind
            have attached := State.attach_tableKept v2 i z (some w.tel.source)
            refine .of_created busy (seat.trans (.of_zone (State.attach_frame ..))) (attached.canonical ∘ canonical)
              (attached.right ∘ right) (fun pr => attached.placed (right pr.table) (placed pr)) fun l => ?_
            exact (loose l).attach (fun off => off) (fun fresh => fresh) here (show st.inZone = true from state ▸ inz)
              (show st = .dry ↔ v.kindOf z = .dry by rw [state]; exact dry) _
          · next hz alive =>
            rw [if_neg (by exact alive)] at free
            obtain ⟨z, hz'⟩ := Tables.zoneFault?_zone free
            exact nomatch hz.symm.trans hz'

/-! #### The commands of the commit -/

theorem TxKind.eq_split_of_transition {k : TxKind} {x : CarrierState} (h : k.transition x = .split) : k = .split := by
  cases k with
  | split => rfl
  | _ => cases x <;> cases h

theorem execCommitRelist_carrierSafe (s : State) : s.CarrierSafe (execCommitRelist s) := by
  unfold execCommitRelist
  split
  · next w hp hw =>
    have busy : s.engine.phase ≠ .idle := by rw [hp]; decide
    refine .next ?_
    split
    · have begun : ∀ h, (s.ListsRight → s.Lists h) → s.Relisted s.takeZoneRequest h := fun h lists =>
        ⟨⟨rfl, rfl⟩, .of_table rfl, fun l => (lists l).same (.of_eq rfl rfl rfl)⟩
      have held : ¬(TxKind.ofByte? w.tel.kind = some .open_ ∧ ∃ o, w.outcome = some o ∧ o.transition = true) →
          s.Relisted s.takeZoneRequest (.hold w.held) := fun no => begun _ fun l => l.relisting hp hw no
      unfold State.commitRelistStep
      split
      · next transition =>
        obtain ⟨o, ho, transition⟩ : ∃ o, w.outcome = some o ∧ o.transition = true := by
          cases ho : w.outcome with
          | none => rw [ho] at transition; cases transition
          | some o => exact ⟨o, rfl, by rw [ho] at transition; exact transition⟩
        split
        · next kind => exact State.commitOpened_carriersKept (begun _ fun l => l.made hp hw kind ho transition) busy
        · next k notOpen kind =>
          have ne : k ≠ .open_ := notOpen
          have k' := held fun isOpen => ne (Option.some.inj (kind.symm.trans isOpen.1))
          have found : ∀ {m : Transition}, (s.takeZoneRequest.heldState? w).map k.transition = some m → m ≠ .illegal → m ≠ .bakeOut →
              ∃ i r, w.held = some i ∧ s.takeZoneRequest.record? i = some r ∧ k.transition r.state = m ∧ r.state ≠ .baking := by
            intro m hm legal out
            obtain ⟨x, hx, rfl⟩ := Option.map_eq_some_iff.mp hm
            obtain ⟨r, hr, rfl⟩ := Option.map_eq_some_iff.mp hx
            obtain ⟨i, hi, hr⟩ := Option.bind_eq_some_iff.mp hr
            refine ⟨i, r, hi, hr, rfl, fun baking => ?_⟩
            rw [baking] at legal out
            by_cases hb : k = .bakeOut
            · subst hb
              exact out rfl
            · exact legal (TxKind.transition_baking ne hb)
          split
          · next st hm =>
            obtain ⟨i, r, hi, hr, ht, unbaked⟩ := found hm (fun h => nomatch h) (fun h => nomatch h)
            exact State.commitZoned_carriersKept k' busy hi hr unbaked fun z suits => TxKind.zoned_suits ht suits
          · next hm =>
            obtain ⟨i, r, hi, hr, -, unbaked⟩ := found hm (by decide) (by decide)
            exact State.commitZoned_carriersKept k' busy hi hr unbaked fun z _ => stateInZone_suits z
          · next hm =>
            obtain ⟨i, r, hi, hr, -, unbaked⟩ := found hm (by decide) (by decide)
            exact State.commitExpire_carriersKept k' busy hi hr unbaked
          · next hm =>
            obtain ⟨i, r, hi, hr, -, unbaked⟩ := found hm (by decide) (by decide)
            exact State.commitBakeIn_carriersKept k' busy hi hr unbaked
          · exact State.commitBakeOut_carriersKept k' busy
          · next hm =>
            obtain ⟨i, r, -, -, ht, -⟩ := found hm (by decide) (by decide)
            have split := TxKind.eq_split_of_transition ht
            refine State.commitSplit_carriersKept k' busy ⟨w, hw, .inr ⟨rfl, split ▸ kind, .inl ⟨hp, ?_⟩⟩⟩
            rw [ho]
            exact transition
          · exact k'.stay busy
        · next none => exact (held fun isOpen => nomatch none.symm.trans isOpen.1).stay busy
      · next no =>
        refine (held fun isOpen => ?_).stay busy
        obtain ⟨-, o, ho, transition⟩ := isOpen
        rw [ho] at no
        exact no transition
    · exact (State.AgentKept.refl s).carriersKept
  · exact .same rfl

theorem execUnlink_carrierSafe (s : State) : s.CarrierSafe (execUnlink s) := by
  unfold execUnlink
  split
  · next w hp hw =>
    have busy : s.engine.phase ≠ .idle := by rw [hp]; decide
    have rest : s.ListsRight → s.takeZoneRequest.Lists (.hold w.held) := fun l =>
      (l.hold hw (by rw [hp]; decide) (by rw [hp]; decide)).same (.of_eq rfl rfl rfl)
    have unlinked : ∀ v : State, s.Seat v → s.TableKept v → (s.ListsRight → v.Lists (.loose w.held)) →
        s.CarriersKept (v.engineTo .commitDelete w) := by
      intro v seat table lists
      refine .of_engine (t := v.engineTo .commitDelete w) (table.silent rfl) (fun id he => ?_) (fun _ hc => nomatch hc) (fun l => ?_)
        fun idle kept => ?_
      · have checked := (State.brings_of_expects (s := v.engineTo .commitDelete w) rfl (fun hc => nomatch hc) (fun hc => nomatch hc) he).1
        exact absurd rfl checked.ne.2.2
      · exact (State.lists_loose_iff (s := v.engineTo .commitDelete w) rfl rfl).mpr ((lists l).same (.of_eq rfl rfl rfl))
      · refine absurd (idle ?_) busy
        unfold State.StopKept at kept ⊢
        rwa [show (v.engineTo .commitDelete w).retention = s.retention from seat.2] at kept
    split
    · split
      · next i hi =>
        refine .next (unlinked _ (.trans ⟨rfl, rfl⟩ (State.unlinkRecord_seat _ i))
          (.after (State.unlinkRecord_tableKept s.takeZoneRequest i) rfl) fun l => State.Lists.loosed (fun j hj => ?_) fun none => ?_)
        · cases hi.symm.trans hj
          exact (rest l).unlinked i
        · exact nomatch hi.symm.trans none
      · next none =>
        refine .next (unlinked _ ⟨rfl, rfl⟩ (.of_table rfl) fun l => State.Lists.loosed (fun j hj => nomatch none.symm.trans hj) fun _ => ?_)
        exact (rest l).drop
    · exact .same rfl
  · exact .same rfl

theorem execDelete_carrierSafe (s : State) : s.CarrierSafe (execDelete s) := by
  unfold execDelete
  split
  · next w hp hw =>
    have busy : s.engine.phase ≠ .idle := by rw [hp]; decide
    have rest : s.ListsRight → s.Lists (.loose w.held) := fun l => (State.lists_loose_iff hp hw).mp (s.listsRight_iff.mp l).2.1
    split
    · split
      · next i hi =>
        refine .next ((State.Lands.goes .commitClose { w with held := none } (s.removeRecord_seat i) (s.removeRecord_tableKept i)
          (fun l => ?_) busy).quiet rfl)
        refine (rest l).removed hi l.table.canonical (fun j hj => ?_) (fun _ _ => False.elim) fun _ _ hh => nomatch hh
        exact iff_of_false id fun e => hj (Option.some.inj (hi.symm.trans e)).symm
      · next none =>
        refine .next ((State.Lands.goes .commitClose w (.refl s) (.refl s) (fun l => ?_) busy).quiet rfl)
        exact (rest l).hands (fun j => iff_of_false id fun e => nomatch none.symm.trans e) (fun _ => False.elim) fun _ hh => hh
    · exact .same rfl
  · exact .same rfl

/-- A join touches the batches alone. -/
theorem State.joinBatch_frame (s : State) (i : Nat) (bp : BakePart) (required : Nat) :
    s.Seat (s.joinBatch i bp required) ∧ (s.joinBatch i bp required).table = s.table ∧ s.SameLists (s.joinBatch i bp required) := by
  unfold State.joinBatch
  split
  · exact ⟨⟨rfl, rfl⟩, rfl, .of_eq rfl rfl rfl⟩
  · split
    · exact ⟨⟨rfl, rfl⟩, rfl, .of_eq rfl rfl rfl⟩
    · exact ⟨.refl s, rfl, .refl s⟩

/-- The batch of a bake is joined or left. -/
theorem batchMoves_carrierSafe (s : State) : s.CarrierSafe (execBatchJoin s) ∧ s.CarrierSafe (execBatchLeave s) := by
  have moved : ∀ {w : Work} {v : State}, (s.ListsRight → s.Lists (.hold w.held)) → s.engine.phase ≠ .idle → s.Seat v →
      v.table = s.table → s.SameLists v → s.CarriersKept (v.engineTo .commitClose w) := fun lists busy seat table same =>
    (State.Lands.goes .commitClose _ seat (.of_table table) (fun l => (lists l).same same) busy).quiet rfl
  refine ⟨?_, ?_⟩
  · unfold execBatchJoin
    split
    · next w hp hw =>
      have busy : s.engine.phase ≠ .idle := by rw [hp]; decide
      have rest : s.ListsRight → s.Lists (.hold w.held) := fun l => l.hold hw (by rw [hp]; decide) (by rw [hp]; decide)
      split
      · split
        · next i _ bp _ =>
          obtain ⟨seat, table, same⟩ := s.joinBatch_frame i bp ((s.classOf _).requiredSeconds bp.tier)
          exact .next (moved rest busy seat table same)
        · exact .next (moved rest busy (.refl s) rfl (.refl s))
      · exact .same rfl
    · exact .same rfl
  · unfold execBatchLeave
    split
    · next w hp hw =>
      have busy : s.engine.phase ≠ .idle := by rw [hp]; decide
      have rest : s.ListsRight → s.Lists (.hold w.held) := fun l => l.hold hw (by rw [hp]; decide) (by rw [hp]; decide)
      split
      · split
        · exact .next (moved rest busy (s.leaveBatch_seat ..) (s.leaveBatch_table ..) (s.leaveBatch_same ..))
        · exact .next (moved rest busy (.refl s) rfl (.refl s))
      · exact .same rfl
    · exact .same rfl

theorem execOutputPlace_carrierSafe (s : State) : s.CarrierSafe (execOutputPlace s) := by
  unfold execOutputPlace
  split
  · next w hp hw =>
    have ended : ∀ u : State, u.carriers = s.carriers → s.CarrierSafe (.next u.engineIdle) := by
      intro u h
      refine .agent (.of_calm ((State.Calm.of_view h).trans ⟨rfl, rfl, rfl, ?_⟩))
      have phase : u.engine.phase = .placing := (congrArg CarrierView.phase h).trans hp
      exact .of_idle rfl rfl (by rw [phase]; decide) (by rw [phase]; decide)
    split
    · split
      · split
        · next placed => exact ended _ (State.tryPlace_carriers placed)
        · split
          · exact ended s rfl
          · exact .same rfl
      · exact ended s rfl
    · exact .same rfl
  · exact .same rfl

end

/-! #### Starts -/

section
variable (s : State)

/-- A start that keeps the retained domain follows a stop (R184, R187, R189). -/
theorem State.startCause?_kept {s : State} {c : StartCause} (h : s.startCause? = some c) (hc : c ≠ .powerOn) : s.StopKept := by
  unfold State.startCause? at h
  split at h
  · next pending =>
    split at h
    · next kept => exact .inl ⟨.inr pending, kept.2⟩
    · exact absurd (Option.some.inj h).symm hc
  · split at h
    · next q hq =>
      split at h
      · next stopped => exact .inr ⟨q, hq, .inr stopped⟩
      · cases h
    · cases h

theorem State.restartZone_kept (c : StartCause) (z : Fin 32) :
    s.Seat (State.restartZone c s z) ∧ s.TableKept (State.restartZone c s z) ∧ s.ListsKept (State.restartZone c s z) := by
  by_cases hc : c = .powerOn
  · subst hc
    exact ⟨.refl s, .refl s, .refl s⟩
  · have watch : (s.restartCharge c z).watch = (s.zone z).watch := by
      cases c with
      | powerOn => rfl
      | supplyRestore => exact Zone.charge_watch ..
      | command | lineBreak => exact Zone.charge_watch ..
    rw [State.restartZone_eq hc]
    exact ⟨.of_zone ((s.setZone_frame z _).trans (State.pop_frame ..)), .after (State.pop_tableKept _ z) rfl,
      (State.ListsKept.of_same (.setZone s z watch)).trans (State.pop_lists _ z)⟩

theorem foldl_restartZone_kept (c : StartCause) (zs : List (Fin 32)) :
    s.Seat (zs.foldl (State.restartZone c) s) ∧ s.TableKept (zs.foldl (State.restartZone c) s) ∧
      s.ListsKept (zs.foldl (State.restartZone c) s) :=
  ⟨.foldl (fun a z => (a.restartZone_kept c z).1) zs s, .foldl (fun a z => (a.restartZone_kept c z).2.1) zs s,
    .foldl (fun a z => (a.restartZone_kept c z).2.2) zs s⟩

/-- The zones set stale at a start (R77). -/
theorem State.restartZones_kept :
    s.SameLists s.restartZones ∧ s.restartZones.engine = s.engine ∧ s.restartZones.table = s.table := by
  refine ⟨.foldl (f := State.staleZone) (fun a z => .setZone a z rfl) allZones s, ?_⟩
  rw [show s.restartZones = allZones.foldl State.staleZone s from rfl, foldl_staleZone_zones]
  exact ⟨rfl, rfl⟩

theorem foldl_staleExpiry_kept (bs : List (Fin 16)) (s : State) :
    s.SameLists (bs.foldl State.staleExpiry s) ∧ (bs.foldl State.staleExpiry s).engine = s.engine ∧
      (bs.foldl State.staleExpiry s).table = s.table := by
  induction bs generalizing s with
  | nil => exact ⟨.refl s, rfl, rfl⟩
  | cons b bs ih =>
    obtain ⟨same, engine, table⟩ := ih (s.staleExpiry b)
    have one : s.SameLists (s.staleExpiry b) := by
      unfold State.staleExpiry
      split
      · split
        · exact .of_eq rfl rfl rfl
        · exact .refl s
      · exact .refl s
    exact ⟨one.trans same, engine.trans (s.staleExpiry_engine b),
      table.trans (congrArg CarrierView.table (s.staleExpiry_carriers b))⟩

theorem State.startEnable_kept :
    s.SameLists s.startEnable ∧ s.startEnable.engine = s.engine ∧ s.startEnable.table = s.table := by
  obtain ⟨same, engine, table⟩ := foldl_staleExpiry_kept (List.finRange 16) s
  unfold State.startEnable
  generalize (List.finRange 16).foldl State.staleExpiry s = u at same engine table
  exact ⟨same.trans (.of_eq rfl rfl rfl), engine, table⟩

/-- From step 4 of a start on: the engine rests, the table is kept and the lists are (R188). -/
theorem State.start_after (c : StartCause) :
    (s.start c).engine = .atStart ∧ (s.startBase c).TableKept (s.start c) ∧ (s.startBase c).ListsKept (s.start c) := by
  have form : s.start c = ((s.startBase c).restartAdvance c).restartZones.startEnable := rfl
  rw [form]
  have resting : (s.startBase c).engine = .atStart := rfl
  generalize s.startBase c = base at resting
  have restart : base.Seat (base.restartAdvance c) ∧ base.TableKept (base.restartAdvance c) ∧ base.ListsKept (base.restartAdvance c) :=
    foldl_restartZone_kept base c base.tables.configuredZones
  obtain ⟨seat, table, lists⟩ := restart
  generalize base.restartAdvance c = u at seat table lists
  obtain ⟨sameA, engineA, tableA⟩ := u.restartZones_kept
  obtain ⟨sameB, engineB, tableB⟩ := u.restartZones.startEnable_kept
  exact ⟨(engineB.trans engineA).trans (seat.1.trans resting), table.silent (tableB.trans tableA),
    lists.trans (.of_same (sameA.trans sameB))⟩

/-- Every record rewritten with its place, state and bake part, when nothing is held. -/
theorem State.Lists.mapped {s t : State} (k : s.Lists (.hold none)) {f : Record → Record} (place : ∀ r, (f r).place = r.place)
    (state : ∀ r, (f r).state = r.state) (bake : ∀ r, (f r).bakePart = r.bakePart)
    (records : ∀ i, t.record? i = (s.record? i).map f) (watch : ∀ z : Fin 32, (t.zone z).watch = (s.zone z).watch)
    (kinds : ∀ z : Fin 32, t.kindOf z = s.kindOf z) : t.Lists (.hold none) := by
  have keys : t.keyOf = s.keyOf := by
    funext i
    cases hr : s.record? i with
    | none =>
      have hr' : t.record? i = none := by rw [records, hr]; rfl
      unfold State.keyOf
      rw [hr, hr']
    | some r => rw [State.keyOf_of (show t.record? i = some (f r) by rw [records, hr]; rfl), place, ← State.keyOf_of hr]
  have zones : ∀ i, t.zoneOf? i = s.zoneOf? i := by
    intro i
    cases hr : s.record? i with
    | none =>
      have hr' : t.record? i = none := by rw [records, hr]; rfl
      unfold State.zoneOf?
      rw [hr, hr']
    | some r =>
      rw [State.zoneOf?_of (show t.record? i = some (f r) by rw [records, hr]; rfl), ← Record.place_zone, place, Record.place_zone,
        ← State.zoneOf?_of hr]
  refine ⟨fun z => ?_, fun z => ?_, fun z i => ?_, fun i r hr => ?_⟩
  · rw [watch]; exact k.once z
  · rw [watch, keys]; exact k.ordered z
  · rw [watch, zones]; exact k.mem z i
  · rw [records] at hr
    obtain ⟨q, hq, rfl⟩ := Option.map_eq_some_iff.mp hr
    rw [funext kinds]
    exact (((k.fits i q hq).seated fun off => off).of_place (place q) (state q) (bake q)).fits (fun fresh => fresh) fun hh => nomatch hh

/-- What a start rests on, by its cause: the cleared state of POWER-ON, or the retained one with every hold mark cleared. -/
theorem State.startBase_kept {c : StartCause} (h : s.startCause? = some c) :
    (s.table.Canonical → (s.startBase c).table.Canonical) ∧ (s.table.Right → (s.startBase c).table.Right) ∧
      (s.table.Right → s.table.Placed → (s.startBase c).table.Placed) ∧ (s.ListsRight → (s.startBase c).Lists (.hold none)) := by
  by_cases hc : c = .powerOn
  · subst hc
    have loaded : ∀ u : State, u.loadAtStart.table = u.table ∧ u.loadAtStart.zones = u.zones := by
      intro u
      unfold State.loadAtStart
      split
      · exact ⟨rfl, rfl⟩
      · exact ⟨rfl, rfl⟩
    have table : (s.startBase .powerOn).table = .empty := by
      show { (s.clearRetained.loadAtStart).table with
        records := (s.clearRetained.loadAtStart).table.records.map fun p => (p.1, { p.2 with held := false }) } = CarrierTable.empty
      rw [(loaded _).1]
      rfl
    have watch : ∀ z : Fin 32, ((s.startBase .powerOn).zone z).watch = [] := by
      intro z
      show ((s.clearRetained.loadAtStart).zones[z.val]).watch = []
      simp only [(loaded _).2]
      show ((Vector.replicate 32 (Zone.cleared 0))[z.val]).watch = []
      rw [Vector.getElem_replicate]
      rfl
    have absent : ∀ i, (s.startBase .powerOn).record? i = none := fun i => by
      unfold State.record?
      rw [table]
      rfl
    rw [table]
    refine ⟨fun _ => CarrierTable.empty_canonical, fun _ => CarrierTable.empty_right, fun _ _ => ?_, fun _ => ?_⟩
    · exact ⟨fun i r hr => (nomatch (show none = some r from hr)), fun set i hi => (nomatch (show i ∈ [] from hi)), fun _ => .nil,
        fun i j r q hr => nomatch (show none = some r from hr)⟩
    · refine ⟨fun z => by rw [watch]; exact .nil, fun z => by rw [watch]; exact .nil, fun z i => ?_, fun i r hr => ?_⟩
      · rw [watch]
        refine iff_of_false (fun hi => nomatch hi) fun m => ?_
        have := m.2
        unfold State.zoneOf? at this
        rw [absent] at this
        cases this
      · rw [absent] at hr
        cases hr
  · have retained : (s.startTables c).table = s.table ∧ (s.startTables c).zones = s.zones ∧ (s.startTables c).tables = s.tables := by
      cases c with
      | powerOn => exact absurd rfl hc
      | supplyRestore | command | lineBreak => exact ⟨rfl, rfl, rfl⟩
    obtain ⟨tableEq, zonesEq, tablesEq⟩ := retained
    have table : (s.startBase c).table = { s.table with records := s.table.records.map fun p => (p.1, { p.2 with held := false }) } := by
      rw [← tableEq]
      rfl
    have kept : s.table.Kept (s.startBase c).table := table ▸ CarrierTable.Kept.mapped s.table (f := fun r => { r with held := false })
      (fun _ => rfl) fun _ => rfl
    refine ⟨kept.canonical, kept.right, kept.placed, fun l => ?_⟩
    have idle := l.stopped (State.startCause?_kept h hc)
    have rest : s.Lists (.hold none) := by
      refine (s.listsRight_iff.mp l).2.1.hands (fun i => ?_) (fun _ => False.elim) fun _ hh => nomatch hh
      refine iff_of_false id ?_
      rintro (⟨hp, -⟩ | ⟨hp, -⟩)
      · exact nomatch idle.symm.trans hp
      · exact nomatch idle.symm.trans hp
    refine rest.mapped (f := fun r => { r with held := false }) (fun _ => rfl) (fun _ => rfl) (fun _ => rfl)
      (s.startBase_record? hc) (fun z => ?_) fun z => ?_
    · show ((s.startTables c).zones[z.val]).watch = _
      simp only [zonesEq]
      rfl
    · show ((s.startTables c).tables.zone z).kind = _
      rw [tablesEq]
      rfl

theorem execStartSequence_carrierSafe : s.CarrierSafe (execStartSequence s) := by
  unfold execStartSequence
  split
  · next c h =>
    obtain ⟨engine, table, lists⟩ := s.start_after c
    obtain ⟨canonical, right, placed, base⟩ := s.startBase_kept h
    have phase : (s.start c).engine.phase = .idle := by rw [engine]; rfl
    have work : (s.start c).engine.work = none := by rw [engine]; rfl
    refine .next ⟨table.canonical ∘ canonical, table.right ∘ right, fun p => ?_, fun l => ?_⟩
    · obtain ⟨before, places, -, -⟩ := s.placesRight_iff.mp p
      refine (State.placesRight_iff _).mpr ⟨table.right (right before), table.placed (right before) (placed before places), ?_,
        fun w hp => nomatch phase.symm.trans hp⟩
      rintro id ⟨w, hw, -⟩
      exact nomatch work.symm.trans hw
    · refine (State.listsRight_iff _).mpr ⟨table.right (right l.table), ?_, fun w hp => (nomatch phase.symm.trans hp), fun _ => phase⟩
      refine (lists _ (base l)).hands (fun i => ?_) (fun i c => nomatch phase.symm.trans c.1) ?_
      · refine iff_of_false ?_ id
        rintro (⟨hp, -⟩ | ⟨hp, -⟩)
        · exact nomatch phase.symm.trans hp
        · exact nomatch phase.symm.trans hp
      · rintro i ⟨w, hw, -⟩
        exact nomatch work.symm.trans hw
  · exact .same rfl

end

end Sys2Proof.Machine
end

section
namespace Sys2Proof.Machine

/-! ### O55, O56: one step -/

/-- No command breaks the invariants of the carriers. -/
theorem exec_carrierSafe (c : Instr) (s : State) : s.CarrierSafe (exec c s) := by
  obtain ⟨unknownOp, readStatus, setTime, clearStartCause, readRow, readRecord, readBatch, clearRules, clearFaults⟩ := reads_calm s
  obtain ⟨stationWrite, partWrite, policyWrite⟩ := rowWrites_calm s
  obtain ⟨zoneWrite, gridWrite, classWrite⟩ := zoneWrites_carrierSafe s
  obtain ⟨writeClass, writeConsumed, writeBakeCount, writeRetire, deleteRecord⟩ := records_carrierSafe s
  obtain ⟨save, saved, load, compare, compared⟩ := images_calm s
  obtain ⟨supplyFail, supplyRecover, supplyReturn, supplyDrop, powerApplied, backupLoss, tick⟩ := monitor_calm s
  obtain ⟨lineBreak, freeze, freezeStop, quiesceStop, supplyLoss⟩ := stops_calm s
  cases c with
  | characterReceived port line => exact .calm ((receivers_calm s port).1 line)
  | breakDetected port => exact .calm (receivers_calm s port).2.1
  | breakEnd port => exact .calm (receivers_calm s port).2.2.1
  | lineBreak => exact .calm lineBreak
  | interCharacterTimeout port => exact .calm (receivers_calm s port).2.2.2.2
  | telegramSent port => exact .calm (execTelegramSent_calm s port)
  | startingEnd port => exact .calm (execStartingEnd_calm s port)
  | plantRoutingTake => exact .calm (execPlantRoutingTake_calm s)
  | transactionTake => exact execTransactionTake_carrierSafe s
  | sampleIntake => exact execSampleIntake_carrierSafe s
  | carrierLookup => exact (lookups_carrierSafe s).1
  | ringSearch => exact (lookups_carrierSafe s).2
  | freeRecordProbe => exact execFreeRecordProbe_carrierSafe s
  | settleRequest => exact execSettleRequest_carrierSafe s
  | policyLookup => exact execPolicyLookup_carrierSafe s
  | commit => exact execCommit_carrierSafe s
  | commitRelist => exact execCommitRelist_carrierSafe s
  | create => exact execCreate_carrierSafe s
  | delete => exact execDelete_carrierSafe s
  | unlink => exact execUnlink_carrierSafe s
  | batchJoin => exact (batchMoves_carrierSafe s).1
  | batchLeave => exact (batchMoves_carrierSafe s).2
  | outputPlace => exact execOutputPlace_carrierSafe s
  | advanceTimerExpiry zone => exact .calm (execAdvanceTimerExpiry_calm s zone)
  | timerRequest zone => exact execTimerRequest_carrierSafe s zone
  | staleTimerExpiry batch => exact .calm (batchTimers_calm s batch).1
  | bakeStale batch => exact .calm (batchTimers_calm s batch).2
  | unknownOp => exact .calm unknownOp
  | readStatus => exact .calm readStatus
  | setMode => exact .calm (execSetMode_calm s)
  | setTime => exact .calm setTime
  | readRow => exact .calm readRow
  | stationWrite => exact .calm stationWrite
  | partConfigurationWrite => exact .calm partWrite
  | zoneConfigurationWrite => exact zoneWrite
  | gridWrite => exact gridWrite
  | classWrite => exact classWrite
  | policyTableWrite => exact .calm policyWrite
  | readRecord => exact .calm readRecord
  | writeRecordClass => exact writeClass
  | writeRecordConsumed => exact writeConsumed
  | writeRecordBakeCount => exact writeBakeCount
  | writeRecordRetire => exact writeRetire
  | deleteRecord => exact deleteRecord
  | readZone => exact (zoneReads_carrierSafe s).1
  | listZone => exact (zoneReads_carrierSafe s).2
  | readBatch => exact .calm readBatch
  | clearRuleCounters => exact .calm clearRules
  | clearFaultCounters => exact .calm clearFaults
  | saveImage => exact .calm save
  | saveImageComplete => exact .calm saved
  | loadImage => exact .calm load
  | loadImageReplace => exact execLoadImageReplace_carrierSafe s
  | compareImage => exact .calm compare
  | compareImageComplete => exact .calm compared
  | clearStartCause => exact .calm clearStartCause
  | resetPart => exact .calm (replies_calm s).1
  | replyPlace => exact .calm (replies_calm s).2
  | supplyFail => exact .calm supplyFail
  | supplyRecover => exact .calm supplyRecover
  | freeze => exact .calm freeze
  | freezeStop => exact .calm freezeStop
  | quiesceStop => exact .calm quiesceStop
  | supplyReturn => exact .calm supplyReturn
  | supplyDrop => exact .calm supplyDrop
  | powerApplied => exact .calm powerApplied
  | backupLoss => exact .calm backupLoss
  | startSequence => exact execStartSequence_carrierSafe s
  | monotonicTick => exact .calm tick
  | zeroCharacterLineHigh port => exact .calm (receivers_calm s port).2.2.2.1
  | mainSupplyLoss => exact .calm supplyLoss

theorem step_carriersKept {s t : State} (h : step s = .next t) : s.CarriersKept t := by
  unfold step at h
  split at h
  · cases h
    exact (State.AgentKept.refl s).carriersKept
  · next c rest _ =>
    exact (State.AgentKept.of_view (s := s) (t := { s with pending := rest }) rfl).carriersKept.trans (exec_carrierSafe c _ t h)

/-- Settles O55: every command keeps the table's form, counts and places (`exec_carrierSafe`). -/
theorem tableStaysCanonical : Obligations.TableStaysCanonical := by
  unfold Obligations.TableStaysCanonical
  intro s t h
  have kept := step_carriersKept h
  exact ⟨kept.canonical, kept.right, kept.places⟩

/-- Settles O56: every command keeps the watch lists in step with their records (`exec_carrierSafe`). -/
theorem listsStayRight : Obligations.ListsStayRight := by
  unfold Obligations.ListsStayRight
  intro s t lists h
  exact (step_carriersKept h).lists lists

end Sys2Proof.Machine
end

section
namespace Sys2Proof.Machine

/-! ### O17: the settle request of a transaction -/

/-- What the checks and the decision reading leave of the working values that a settle request returned (R131, R141). -/
structure Work.SameReturned (w w' : Work) : Prop where
  held : w'.held = w.held
  settled : w'.settled = w.settled
  figures : w'.figures = w.figures
  conditions : w'.conditions = w.conditions

/-- Behind the settle request the engine alone moves on, with what it returned. -/
theorem State.afterSettle_moves (s : State) (w : Work) (k : TxKind) :
    ∃ p w', s.afterSettle w k = s.engineTo p w' ∧ w.SameReturned w' := by
  unfold State.afterSettle
  split
  · exact ⟨_, _, rfl, ⟨rfl, rfl, rfl, rfl⟩⟩
  · split
    · exact ⟨_, _, rfl, ⟨rfl, rfl, rfl, rfl⟩⟩
    · unfold State.decisionReading
      split <;> exact ⟨_, _, rfl, ⟨rfl, rfl, rfl, rfl⟩⟩

/-- SETTLE_REQUEST of a transaction at its turn (R70, R136). -/
theorem exec_settleRequest {s : State} {w : Work} {k : TxKind} (hp : s.engine.phase = .settling) (hw : s.engine.work = some w)
    (hr : s.running = true) (hz : s.zoneWait.head? = some .engine) (hk : TxKind.ofByte? w.tel.kind = some k) :
    exec .settleRequest s =
      .next ((s.takeZoneRequest.settleEngine w).1.afterSettle (s.takeZoneRequest.settleEngine w).2 k) := by
  have turn : s.engineTurn = true := by simp [State.engineTurn, hr, hz]
  simp only [exec, execSettleRequest, hp, hw, turn, if_true, hk]

section
variable (s : State) (w : Work)

/-- The settle request is its advances, and behind them the settlement of the carrier that is held (R70). -/
theorem State.settleEngine_advanced :
    ∃ v, v = s.advanceAll (zonesNamed (w.held.bind s.zoneOf?) w.bodyZone?) ∧
      (w.held = none → (s.settleEngine w).1 = v) ∧
      v.ZoneFrame (s.settleEngine w).1 ∧ v.SameAir (s.settleEngine w).1 ∧ (s.settleEngine w).1.zoneWait = v.zoneWait := by
  refine ⟨_, rfl, ?_⟩
  unfold State.settleEngine
  cases w.held with
  | none => exact ⟨fun _ => rfl, .refl _, .refl _, rfl⟩
  | some i =>
    exact ⟨fun h => (nomatch h), State.settleCross_frame .., fun _ => State.settleCross_sameAir ..,
      State.settleCross_zoneWait ..⟩

theorem State.settleEngine_frame : s.ZoneFrame (s.settleEngine w).1 := by
  obtain ⟨v, rfl, -, frame, -⟩ := s.settleEngine_advanced w
  exact (s.advanceAll_frame _).trans frame

/-- The carrier's zone and the body's zone are charged, and no other zone's conditions or clocks change (R70). -/
theorem State.settleEngine_charges (z : Fin 32) :
    if (w.held.bind s.zoneOf? = some z ∨ w.bodyZone? = some z) ∧ (s.tables.zone z).kind ≠ .unset then
      s.Charged (s.settleEngine w).1 z
    else ((s.settleEngine w).1.zone z).air = (s.zone z).air := by
  obtain ⟨v, rfl, -, -, air, wait⟩ := s.settleEngine_advanced w
  have advanced := s.advanceAll_air _ (zonesNamed_nodup (w.held.bind s.zoneOf?) w.bodyZone?) z
  simp only [mem_zonesNamed] at advanced
  split at advanced
  · next named => rw [if_pos named]; exact advanced.sameAir air wait
  · next named => rw [if_neg named]; exact (air z).trans advanced

theorem State.settleEngine_posts_none (h : w.held = none) :
    ∃ l, (∀ n ∈ l, n.OfAdvance) ∧ s.Posts (s.settleEngine w).1 l := by
  obtain ⟨v, rfl, same, -⟩ := s.settleEngine_advanced w
  rw [same h]
  exact State.advanceAll_posts _ s

/-- What is returned of the carrier and of the target zone (R70). -/
theorem State.settleEngine_returns :
    (s.settleEngine w).2.held = w.held ∧ (s.settleEngine w).2.tel = w.tel ∧ (s.settleEngine w).2.zone = w.zone ∧
      (s.settleEngine w).2.settled = w.held.bind (s.settleEngine w).1.record? ∧
      (s.settleEngine w).2.conditions = (s.settleEngine w).2.target?.map fun z =>
        ((s.settleEngine w).1.zone z).conditions ((s.settleEngine w).1.tables.zone z).kind :=
  ⟨rfl, rfl, rfl, rfl, rfl⟩

/-- The figures returned are those of the settled record, or of an OPEN's first consumed (R90, R91, R136). -/
theorem State.settleEngine_figures :
    (s.settleEngine w).2.figures = (s.settleEngine w).1.figuresOf (s.settleEngine w).2 := rfl

end

/-- The figures of a settled record (R90, R91). -/
theorem State.figuresOf_settled (s : State) {w : Work} {r : Record} (h : w.settled = some r) :
    s.figuresOf w = some
      ((s.tables.cls r.cls).figures r.state r.consumed ((r.zonePart.map fun zp => (s.zone zp.zone).rate).getD 0)) := by
  simp only [State.figuresOf, h]
  rfl

/-- The figures of an OPEN are those of its first consumed (R136). -/
theorem State.figuresOf_open (s : State) {w : Work} {c : Fin 16} (none : w.settled = none)
    (hk : TxKind.ofByte? w.tel.kind = some .open_) (hc : openClassOf w.tel = c.val) (live : (s.tables.cls c).floorLife ≠ 0) :
    ∃ rate, s.figuresOf w =
      some ((s.tables.cls c).figures .exposed (min (openMinutesOf w.tel) (s.tables.cls c).floorLife * 3840) rate) := by
  simp only [State.figuresOf, none, if_pos hk, Tables.openClass?_some hc live, Option.map_some]
  exact ⟨_, rfl⟩

/-- Settles O17. -/
theorem settleRequestSettles : Obligations.SettleRequestSettles := by
  intro s w k hp hw hr hz hk hheld
  obtain ⟨u, hu⟩ : ∃ u, u = (s.takeZoneRequest.settleEngine w).1 := ⟨_, rfl⟩
  obtain ⟨w2, hw2⟩ : ∃ w2, w2 = (s.takeZoneRequest.settleEngine w).2 := ⟨_, rfl⟩
  obtain ⟨p, w', moved, kept⟩ := u.afterSettle_moves w2 k
  have runs : exec .settleRequest s = .next (u.engineTo p w') := by
    rw [exec_settleRequest hp hw hr hz hk, ← hu, ← hw2, moved]
  have frame : s.ZoneFrame u := by
    rw [hu]
    exact (s.zoneWait_frame _).trans (s.takeZoneRequest.settleEngine_frame w)
  obtain ⟨framed, engine⟩ := frame.engineTo p w'
  obtain ⟨held2, tel2, zone2, settled2, conditions2⟩ := s.takeZoneRequest.settleEngine_returns w
  rw [← hw2] at held2 tel2 zone2 settled2 conditions2
  rw [← hu] at settled2 conditions2
  have figures2 : w2.figures = u.figuresOf w2 := by rw [hw2, hu]; exact s.takeZoneRequest.settleEngine_figures w
  have target2 := Work.target?_eq (w := w2) (k := k) (by rw [tel2]; exact hk)
  refine ⟨u.engineTo p w', w', w2.target?, ((w2.settled.bind Record.zonePart).map fun zp => (u.zone zp.zone).rate).getD 0,
    runs, framed, rfl, kept.held.trans held2, by rw [engine],
    kept.settled.trans settled2, fun i r0 hi hrec => ?carrier, fun none => ?advances, ?target, ?conditions,
    fun r settled => ⟨by rw [kept.settled.symm.trans settled]; rfl, ?figures⟩,
    fun c life first open_ none hc hlife live hfirst => ?opened, fun z => ?charges⟩
  case carrier =>
    obtain ⟨-, -, ⟨r, urec, uheld, settles, -⟩, -, l, hl, posts⟩ :=
      State.settleEngine_held (s := s.takeZoneRequest) hi hrec (hheld i r0 hi hrec) hu
    exact ⟨r, l, urec, uheld, settles, hl, posts.posted⟩
  case advances =>
    obtain ⟨l, hl, posts⟩ := s.takeZoneRequest.settleEngine_posts_none w none
    rw [← hu] at posts
    exact ⟨l, hl, posts.posted⟩
  case target => rw [target2, zone2, kept.settled]
  case conditions =>
    rw [kept.conditions, conditions2, frame.tables]
    rfl
  case figures =>
    have settled := kept.settled.symm.trans settled
    rw [kept.figures, figures2, u.figuresOf_settled settled, settled, ClassRow.figures_eq, frame.tables]
    rfl
  case opened =>
    have settledNone : w2.settled = Option.none := by rw [settled2, none]; rfl
    rw [← frame.tables] at hlife
    obtain ⟨rate, fig⟩ := u.figuresOf_open (c := c) settledNone (by rw [tel2, hk, open_]) (by rw [tel2]; exact hc)
      (hlife ▸ live)
    rw [tel2, ← hlife, ← hfirst, ClassRow.figures_eq, ← hlife, if_neg (by simp)] at fig
    exact ⟨_, by rw [kept.figures, figures2, fig], rfl, rfl⟩
  case charges =>
    have charged := s.takeZoneRequest.settleEngine_charges w z
    rw [← hu] at charged
    exact charged

end Sys2Proof.Machine
end

section
namespace Sys2Proof.Machine

/-! ### Management writes of a record: their turn, the advance that passes over it, and its batch -/

/-! #### The turn (R56, R57, R69) -/

section
variable {s : State} {id : CarrierId}

theorem State.inZone_of_find? {i : Nat} {r : Record} (h : s.table.find? id = some (i, r)) :
    s.inZone id = r.zonePart.isSome := by
  simp only [State.inZone, h]

theorem State.withdrawAgent_absent (h : ZoneRequest.agent ∉ s.zoneWait) : s.withdrawAgent = s := by
  have kept : (s.zoneWait.filter fun q => q != ZoneRequest.agent) = s.zoneWait :=
    List.filter_eq_self.mpr fun q hq => by
      rw [bne_iff_ne]
      rintro rfl
      exact h hq
  unfold State.withdrawAgent
  rw [kept]

theorem State.asZoneRequest_turn (h : s.AgentTurn) (f : State → State) : s.asZoneRequest f = f s.withdrawAgent :=
  if_pos h

theorem State.asZoneRequest_waits (h : ¬s.AgentTurn) (f : State → State) :
    s.asZoneRequest f = if ZoneRequest.agent ∈ s.zoneWait then s else { s with zoneWait := s.zoneWait ++ [.agent] } :=
  if_neg h

/-- At its turn a record request is carried out, and no request of the agent waits behind it. -/
theorem State.asRecordRequest_turn (h : s.RecordTurn id) (f : State → State) :
    s.asRecordRequest id f = f s.withdrawAgent := by
  have atOnce : ZoneRequest.agent ∉ s.zoneWait → f s = f s.withdrawAgent := fun absent => by
    rw [State.withdrawAgent_absent absent]
  unfold State.asRecordRequest
  rcases h with turn | ⟨absent, zoneless⟩
  · split
    · exact State.asZoneRequest_turn turn f
    · next direct => exact atOnce fun waits => direct (.inr waits)
  · have out : s.inZone id = false := by
      cases hf : s.table.find? id with
      | none => simp only [State.inZone, hf]
      | some p => rw [State.inZone_of_find? (i := p.1) (r := p.2) hf, zoneless p.1 p.2 hf]; rfl
    rw [if_neg (by simp [out, absent]), atOnce absent]

/-- Before its turn the request for a record in a zone waits, once. -/
theorem State.asRecordRequest_waits {i : Nat} {r : Record} (hf : s.table.find? id = some (i, r)) (zoned : r.zonePart ≠ none)
    (turn : ¬s.AgentTurn) (f : State → State) :
    s.asRecordRequest id f =
      if ZoneRequest.agent ∈ s.zoneWait then s else { s with zoneWait := s.zoneWait ++ [.agent] } := by
  have inside : s.inZone id = true := by
    rw [State.inZone_of_find? hf]
    exact Option.isSome_iff_ne_none.mpr zoned
  rw [State.asRecordRequest, if_pos (.inl inside), State.asZoneRequest_waits turn]

end

/-! #### What such a write may change -/

/-- Nothing changed but the Carrier Table, the zones and their requests, the batches and theirs, and the Plant side. -/
def State.WriteFrame (s u : State) : Prop :=
  u = { s with
        table := u.table, zones := u.zones, zoneWait := u.zoneWait, batches := u.batches, batchWait := u.batchWait
        plant := { s.plant with tx := u.plant.tx }, notices := u.notices, replies := u.replies
        upRelay := u.upRelay, plantStreak := u.plantStreak }

section
variable {s t u : State}

theorem State.WriteFrame.refl (s : State) : s.WriteFrame s := rfl

theorem State.WriteFrame.trans (h : s.WriteFrame t) (k : t.WriteFrame u) : s.WriteFrame u := by
  unfold State.WriteFrame at h k ⊢
  rw [k, h]

theorem State.ZoneFrame.writeFrame (h : s.ZoneFrame t) : s.WriteFrame t := by
  have form := h.1
  unfold State.WriteFrame
  rw [form]

theorem State.withdrawAgent_writeFrame (s : State) : s.WriteFrame s.withdrawAgent := rfl

theorem State.removeRecord_writeFrame (s : State) (i : Nat) : s.WriteFrame (s.removeRecord i) := by
  unfold State.removeRecord
  split <;> rfl

/-- The reply is addressed as the tables say and the telegram asks, which such a write leaves. -/
theorem State.WriteFrame.reply (h : s.WriteFrame u) (t : Telegram) (st : MgmtStatus) (data : List Byte) :
    u.reply t st data = { u with agent := (s.reply t st data).agent } := by
  rw [h]
  rfl

/-- An accepted write of a record, with its reply. -/
theorem State.WriteFrame.replied (h : s.WriteFrame u) (t : Telegram) (st : MgmtStatus) (data : List Byte) :
    u.reply t st data = { s with
      table := u.table, zones := u.zones, zoneWait := u.zoneWait, batches := u.batches, batchWait := u.batchWait
      plant := { s.plant with tx := u.plant.tx }, notices := u.notices, replies := u.replies
      upRelay := u.upRelay, plantStreak := u.plantStreak, agent := (s.reply t st data).agent } := by
  rw [h.reply]
  exact congrArg (fun x : State => { x with agent := (s.reply t st data).agent }) h

end

/-! #### The batch of a record (R162, R164) -/

/-- The first open batch of an oven is the one that is found. -/
theorem State.batchOf?_first {s : State} {oven : Byte} {b : Fin 16} {x : Batch} (hb : s.batches[b.val] = some x)
    (hx : x.oven = oven) (first : ∀ j : Fin 16, j < b → ∀ y, s.batches[j.val] = some y → y.oven ≠ oven) :
    s.batchOf? oven = some (b, x) := by
  obtain ⟨before, after, split⟩ := List.append_of_mem (List.mem_finRange b)
  have sorted := List.pairwise_lt_finRange 16
  rw [split, List.pairwise_append] at sorted
  refine List.findSome?_eq_some_iff.mpr ⟨before, b, after, split, ?_, fun j hj => ?_⟩
  · simp only [hb, hx, if_true]
  · have passed := first j (sorted.2.2 j hj b List.mem_cons_self)
    cases hy : s.batches[j.val] with
    | none => rfl
    | some y => simp only [passed y hy, if_false]

/-- A record leaves the batch of its oven. -/
theorem State.leaveBatch_left (s : State) (oven : Byte) (i : Nat) : s.BatchLeft (s.leaveBatch oven i) oven i := by
  intro b x hb hx first
  have found := State.batchOf?_first hb hx first
  refine ⟨fun before after members new rest => ?_, fun members => ?_⟩
  · have erased : x.members.erase i = before ++ after := by
      rw [members, List.erase_append_right _ new, List.erase_cons_head]
    simp only [State.leaveBatch, found, erased, if_neg rest, and_self]
  · have erased : x.members.erase i = [] := by rw [members, List.erase_cons_head]
    simp only [State.leaveBatch, found, erased, if_true]
    exact ⟨rfl, rfl⟩

/-- Leaving a batch is judged by the batches and their requests alone. -/
theorem State.BatchLeft.congr {s t u v : State} {oven : Byte} {i : Nat} (h : t.BatchLeft u oven i)
    (from_ : t.batches = s.batches ∧ t.batchWait = s.batchWait) (into : v.batches = u.batches ∧ v.batchWait = u.batchWait) :
    s.BatchLeft v oven i := by
  obtain ⟨hb, hw⟩ := from_
  obtain ⟨kb, kw⟩ := into
  unfold State.BatchLeft at h ⊢
  rw [kb, kw, ← hb, ← hw]
  exact h

theorem State.ZoneFrame.sameBatches {s t : State} (h : s.ZoneFrame t) :
    t.batches = s.batches ∧ t.batchWait = s.batchWait := by
  rw [h.1]
  exact ⟨rfl, rfl⟩

/-! #### The pop of an advance posts of records that are not held -/

/-- A notice of a record that is in use and not held. -/
def State.OfUnheld (s : State) (n : Notice) : Prop := ∃ j q, s.record? j = some q ∧ q.held = false ∧ n.carrier = some q.id

theorem State.SameCores.record? {s t : State} (h : s.SameCores t) {j : Nat} {q : Record} (hq : t.record? j = some q) :
    ∃ p, s.record? j = some p ∧ q.core = p.core := by
  have same := h j
  rw [hq] at same
  obtain ⟨p, hp, core⟩ := Option.map_eq_some_iff.mp same.symm
  exact ⟨p, hp, core.symm⟩

theorem State.OfUnheld.of_cores {s t : State} {n : Notice} (k : t.OfUnheld n) (h : s.SameCores t) : s.OfUnheld n := by
  obtain ⟨j, q, hq, held, carrier⟩ := k
  obtain ⟨p, hp, core⟩ := h.record? hq
  exact ⟨j, p, hp, (congrArg RecordCore.held core).symm.trans held, carrier.trans (congrArg (some ∘ RecordCore.id) core)⟩

theorem State.settleNotices_carrier {s t : State} {r : Record} {st : Option Byte} {n : Notice}
    (h : n ∈ s.settleNotices t r st) : n.carrier = some r.id := by
  unfold State.settleNotices at h
  split at h
  · obtain ⟨kind, -, rfl⟩ := List.mem_map.mp h
    rfl
  · cases h

theorem popWalk_posts_unheld (z : Fin 32) (l : List Nat) (s : State) :
    ∃ ns, (∀ n ∈ ns, n.OfPop ∧ s.OfUnheld n) ∧ s.Posts (popWalk z l s) ns := by
  induction l generalizing s with
  | nil => exact ⟨[], by simp, .nothing rfl rfl⟩
  | cons i rest ih =>
    unfold popWalk
    split
    · next r hr =>
      split
      · split
        · split
          · exact ih s
          · next free =>
            obtain ⟨ns, each, posts⟩ := ih (s.settleCross i none true)
            refine ⟨s.settleNotices s r none ++ ns, fun n hn => ?_, (State.settleCross_posts hr none true).trans posts⟩
            rcases List.mem_append.mp hn with own | later
            · exact ⟨State.settleNotices_ofPop own, i, r, hr, by simpa using free, State.settleNotices_carrier own⟩
            · exact ⟨(each n later).1, (each n later).2.of_cores (State.settleCross_frame ..).2⟩
        · exact ⟨[], by simp, .nothing rfl rfl⟩
      · exact ih s
    · exact ih s

theorem State.staleNotices_carrier {s t : State} {z : Fin 32} {n : Notice} (h : n ∈ s.staleNotices t z none) :
    n.OfAdvance ∧ n.carrier = none := by
  unfold State.staleNotices at h
  split at h
  · cases h
  · split at h <;> (rw [List.mem_singleton] at h; subst h; exact ⟨.inr ⟨rfl, rfl, by simp, by simp⟩, rfl⟩)

/-- An advance posts of its zone's stale flag, and of records that are not held (R67, R100). -/
theorem State.advance_posts_unheld (s : State) (z : Fin 32) :
    ∃ ns, (∀ n ∈ ns, n.OfAdvance ∧ (n.carrier = none ∨ s.OfUnheld n)) ∧ s.Posts (s.advance z) ns := by
  unfold State.advance
  split
  · obtain ⟨v, hv⟩ : ∃ v, v = (s.chargeZone z).refreshZone z none := ⟨_, rfl⟩
    obtain ⟨ns, each, popped⟩ := popWalk_posts_unheld z (v.zone z).watch v
    have charged : s.Posts (s.chargeZone z) [] := .nothing rfl rfl
    have refreshed := State.refreshZone_posts (s.chargeZone z) z none
    rw [← hv] at refreshed
    have cores : s.SameCores v := by
      rw [hv]
      exact ((s.chargeZone_frame z).trans (State.refreshZone_frame _ z none)).2
    have form : (s.chargeZone z).refreshPop z none = popWalk z (v.zone z).watch v := by rw [hv]; rfl
    rw [form]
    refine ⟨_, fun n hn => ?_, (charged.trans refreshed).trans popped⟩
    · rcases List.mem_append.mp hn with stale | pop
      · obtain ⟨ofAdvance, none⟩ := State.staleNotices_carrier stale
        exact ⟨ofAdvance, .inl none⟩
      · exact ⟨.inl (each n pop).1, .inr ((each n pop).2.of_cores cores)⟩
  · exact ⟨[], by simp, .nothing rfl rfl⟩

/-! #### The advance that passes over a record (log entry 37) -/

section
variable {s : State} {i : Nat} {r : Record}

theorem State.setHold_record? (hr : s.record? i = some r) (b : Bool) : (s.setHold i b).record? i = some { r with held := b } :=
  State.modRecord_record? hr _

theorem State.setHold_record?_ne (s : State) {i j : Nat} (b : Bool) (h : j ≠ i) : (s.setHold i b).record? j = s.record? j :=
  s.modRecord_record?_ne _ h

theorem State.setHold_posts (s : State) (i : Nat) (b : Bool) : s.Posts (s.setHold i b) [] := by
  rw [s.setHold_table i b]
  exact .nothing rfl rfl

theorem State.setHold_zone (s : State) (i : Nat) (b : Bool) (z : Fin 32) : (s.setHold i b).zone z = s.zone z := by
  rw [s.setHold_table i b]
  rfl

theorem State.setHold_writeFrame (s : State) (i : Nat) (b : Bool) : s.WriteFrame (s.setHold i b) := by
  rw [s.setHold_table i b]
  rfl

/-- What an advance of zone `z` does that passes over the record at an index. -/
structure State.PassesOver (s u : State) (z : Fin 32) (i : Nat) (r : Record) : Prop where
  record : u.record? i = some { r with held := true }
  others : ∀ j, j ≠ i → (u.record? j).map Record.core = (s.record? j).map Record.core
  charged : (s.tables.zone z).kind ≠ .unset → s.Charged u z
  air : ∀ y, ¬(y = z ∧ (s.tables.zone z).kind ≠ .unset) → (u.zone y).air = (s.zone y).air
  watch : ∀ y : Fin 32, (s.zone y).watch.Nodup → (u.zone y).watch.Nodup
  notices : ∃ l, s.PopNoticesBut i r.id l ∧ s.Posts u l
  frame : s.WriteFrame u
  batches : u.batches = s.batches ∧ u.batchWait = s.batchWait
  table : u.table = { s.table with records := u.table.records }

theorem State.passesOver (hr : s.record? i = some r) (z : Fin 32) : s.PassesOver ((s.setHold i true).advance z) z i r := by
  obtain ⟨v, hv⟩ : ∃ v, v = s.setHold i true := ⟨_, rfl⟩
  have form : v = { s with table := v.table } := by rw [hv]; exact s.setHold_table i true
  have kinds : v.tables = s.tables := by rw [form]
  have marked : v.record? i = some { r with held := true } := by rw [hv]; exact State.setHold_record? hr true
  have zones : ∀ y, v.zone y = s.zone y := fun y => by rw [hv, State.setHold_zone]
  have frame := v.advance_frame z
  have heldTable : v.table = { s.table with records := v.table.records } := by
    rw [hv, State.setHold_eq hr]
    rfl
  rw [← hv]
  refine ⟨State.advance_held marked rfl, fun j hj => ?others, fun configured => ?charged, fun y hy => ?air,
    fun y nodup => ?watch, ?notices, ?frame, ?batches, ?table⟩
  case others => rw [frame.2 j, hv, State.setHold_record?_ne s true hj]
  case charged =>
    refine (State.advance_charged (s := v) (by rw [kinds]; exact configured)).from_air ?_ (by rw [zones])
    rw [form]
    rfl
  case air =>
    rw [← zones y]
    by_cases hyz : y = z
    · have unset : (v.tables.zone z).configured = false := by
        rw [kinds, Bool.eq_false_iff, ne_eq, ZoneConfig.configured_iff]
        exact fun configured => hy ⟨hyz, configured⟩
      rw [State.advance_none unset]
    · exact v.advance_other hyz
  case watch => exact v.advance_nodup z y (by rw [zones]; exact nodup)
  case notices =>
    obtain ⟨l, each, posts⟩ := v.advance_posts_unheld z
    refine ⟨l, ⟨fun n hn => (each n hn).1, fun single n hn same => ?_⟩, ?_⟩
    · rcases (each n hn).2 with none | ⟨j, q, hq, free, carrier⟩
      · exact nomatch none.symm.trans same
      · have ne : j ≠ i := by
          rintro rfl
          cases marked.symm.trans hq
          cases free
        rw [hv, State.setHold_record?_ne s true ne] at hq
        exact ne (single j q hq (Option.some.inj (carrier.symm.trans same)))
    · have mark := s.setHold_posts i true
      rw [← hv] at mark
      exact mark.trans posts
  case frame =>
    have mark := s.setHold_writeFrame i true
    rw [← hv] at mark
    exact mark.trans frame.writeFrame
  case batches =>
    obtain ⟨batches, wait⟩ := frame.sameBatches
    rw [batches, wait, form]
    exact ⟨rfl, rfl⟩
  case table =>
    have inner : (v.advance z).table = { v.table with records := (v.advance z).table.records } := by rw [frame.1]
    rw [inner, heldTable]

end

/-! ### O44: DELETE-RECORD -/

/-- DELETE-RECORD goes through the record's request (R57). -/
theorem exec_deleteRecord {s : State} {t : Telegram} {id : CarrierId} (h : s.Serving t (.deleteRecord id)) :
    exec .deleteRecord s = .next (s.asRecordRequest id fun s => s.deleteRecordNow t id) := by
  simp only [exec, execDeleteRecord, h.operation?]

section
variable {s : State} {i : Nat} {r : Record}

/-- What the deletion of a record keeps and leaves, up to the record's batch. -/
structure State.UnlinksRecord (s u : State) (i : Nat) (r : Record) : Prop where
  record : ∃ q, u.record? i = some q ∧ q.core = { r.core with held := q.held }
  others : ∀ j, j ≠ i → (u.record? j).map Record.core = (s.record? j).map Record.core
  zone : ∀ zp, r.zonePart = some zp →
    ((s.tables.zone zp.zone).kind ≠ .unset → s.Charged u zp.zone) ∧
      ((s.zone zp.zone).watch.Nodup → i ∉ (u.zone zp.zone).watch)
  air : ∀ z, z ∉ r.zonePart.map ZonePart.zone → (u.zone z).air = (s.zone z).air
  notices : ∃ l, s.PopNoticesBut i r.id l ∧ s.Posts u l ∧ (r.zonePart = none → l = [])
  frame : s.WriteFrame u
  batches : u.batches = s.batches ∧ u.batchWait = s.batchWait
  table : u.table = { s.table with records := u.table.records }

theorem State.unlinkRecord_unlinks (hr : s.record? i = some r) : s.UnlinksRecord (s.unlinkRecord i) i r := by
  unfold State.unlinkRecord
  rw [State.zoneOf?_eq hr]
  cases hz : r.zonePart with
  | none =>
    exact ⟨⟨r, hr, rfl⟩, fun _ _ => rfl, (fun zp h => nomatch hz.symm.trans h), fun _ _ => rfl,
      ⟨[], ⟨fun _ h => (nomatch h), fun _ _ h => (nomatch h)⟩, .nothing rfl rfl, fun _ => rfl⟩, .refl s, ⟨rfl, rfl⟩, rfl⟩
  | some zp =>
    show s.UnlinksRecord (((s.setHold i true).advance zp.zone).unlist zp.zone i) i r
    obtain ⟨u, hu⟩ : ∃ u, u = (s.setHold i true).advance zp.zone := ⟨_, rfl⟩
    have passes := State.passesOver hr zp.zone
    rw [← hu] at passes ⊢
    have air := u.unlist_sameAir zp.zone i
    obtain ⟨l, but, posts⟩ := passes.notices
    refine ⟨⟨_, passes.record, rfl⟩, passes.others, fun zp' h => ?zone, fun z h => ?air,
      ⟨l, but, ?posts, (fun h => nomatch hz.symm.trans h)⟩, passes.frame.trans (u.unlist_frame zp.zone i).writeFrame,
      passes.batches, passes.table⟩
    case zone =>
      cases hz.symm.trans h
      exact ⟨fun configured => (passes.charged configured).sameAir air (u.unlist_zoneWait ..),
        fun nodup => State.unlist_not_mem i (passes.watch _ nodup)⟩
    case air =>
      rw [air z]
      refine passes.air z fun ⟨same, _⟩ => h ?_
      rw [hz, same]
      rfl
    case posts => simpa using posts.trans (u.unlist_posts zp.zone i)

/-- The record's batch is left, if it is in an oven. -/
def State.leaveOven (s : State) (r : Record) (i : Nat) : State :=
  match r.bakePart with
  | some bp => s.leaveBatch bp.oven i
  | none => s

theorem State.leaveBatch_form (s : State) (oven : Byte) (i : Nat) :
    s.leaveBatch oven i =
      { s with batches := (s.leaveBatch oven i).batches, batchWait := (s.leaveBatch oven i).batchWait } := by
  unfold State.leaveBatch
  split
  · split <;> rfl
  · rfl

theorem State.leaveOven_form (s : State) (r : Record) (i : Nat) :
    s.leaveOven r i = { s with batches := (s.leaveOven r i).batches, batchWait := (s.leaveOven r i).batchWait } := by
  unfold State.leaveOven
  split
  · exact s.leaveBatch_form ..
  · rfl

/-- A deletion is made in three steps (R57, R164). -/
theorem State.deleteRecord_eq (s : State) (i : Nat) (r : Record) :
    s.deleteRecord i r = ((s.unlinkRecord i).leaveOven r i).removeRecord i := rfl

theorem State.removeRecord_of {q : Record} (h : s.record? i = some q) :
    s.removeRecord i = { s with table := s.table.remove i q } := by
  simp only [State.removeRecord, h]

end

/-- What a deletion does (R45, R57, R164). -/
structure State.DeletesRecord (s u : State) (i : Nat) (r : Record) : Prop where
  gone : u.record? i = none
  others : ∀ j, j ≠ i → (u.record? j).map Record.core = (s.record? j).map Record.core
  zone : ∀ zp, r.zonePart = some zp →
    ((s.tables.zone zp.zone).kind ≠ .unset → s.Charged u zp.zone) ∧
      ((s.zone zp.zone).watch.Nodup → i ∉ (u.zone zp.zone).watch)
  air : ∀ z, z ∉ r.zonePart.map ZonePart.zone → (u.zone z).air = (s.zone z).air
  notices : ∃ l, s.PopNoticesBut i r.id l ∧ s.Posts u l ∧ (r.zonePart = none → l = [])
  kept : r.bakePart = none → u.batches = s.batches ∧ u.batchWait = s.batchWait
  left : ∀ bp, r.bakePart = some bp → s.BatchLeft u bp.oven i
  counts : u.table.classCounts = s.table.classCounts.set r.cls.val (s.table.classCounts[r.cls.val] - 1)
  ring : u.table.ring = s.table.ring
  pool : u.table.poolFree = if i < 3072 then s.table.poolFree else i :: s.table.poolFree
  frame : s.WriteFrame u

/-- A deletion takes the record out of its list and its batch, and frees it. -/
theorem State.deleteRecord_deletes {s : State} {i : Nat} {r : Record} (hr : s.record? i = some r)
    (canonical : s.table.Canonical) : s.DeletesRecord (s.deleteRecord i r) i r := by
  have steps := State.unlinkRecord_unlinks hr
  have kept : (s.unlinkRecord i).table.Canonical := (s.unlinkRecord_tableKept i).canonical canonical
  rw [State.deleteRecord_eq]
  obtain ⟨v, hv⟩ : ∃ v, v = s.unlinkRecord i := ⟨_, rfl⟩
  rw [← hv] at steps kept ⊢
  obtain ⟨x, hx⟩ : ∃ x, x = v.leaveOven r i := ⟨_, rfl⟩
  have form : x = { v with batches := x.batches, batchWait := x.batchWait } := by rw [hx]; exact v.leaveOven_form r i
  have tables : x.table = v.table := by rw [form]
  obtain ⟨q, hq, core⟩ := steps.record
  have cls : q.cls = r.cls := congrArg RecordCore.cls core
  have removed := State.removeRecord_of (s := x) (i := i) (q := q) (by rw [State.record?, tables]; exact hq)
  obtain ⟨u, hu⟩ : ∃ u, u = x.removeRecord i := ⟨_, rfl⟩
  have utable : u.table = v.table.remove i q := by rw [hu, removed, tables]
  have uform : u = { v with table := u.table, batches := x.batches, batchWait := x.batchWait } := by rw [hu, removed, form]
  have records : ∀ j, u.record? j = lookupKey (eraseKey v.table.records i) j := fun j => by
    rw [State.record?, utable, CarrierTable.remove_records]
  have zones : ∀ z, u.zone z = v.zone z := fun z => by rw [uform]; rfl
  rw [← hx, ← hu]
  refine ⟨?gone, fun j hj => ?others, fun zp hzp => ?zone, fun z hz => ?air, ?notices, fun hb => ?kept, fun bp hb => ?left,
    ?counts, ?ring, ?pool, ?frame⟩
  case gone => exact (records i).trans (lookupKey_eraseKey_self i kept.records)
  case others =>
    have same : u.record? j = v.record? j := (records j).trans (lookupKey_eraseKey_ne _ hj)
    rw [same]
    exact steps.others j hj
  case zone =>
    obtain ⟨charged, gone⟩ := steps.zone zp hzp
    rw [zones]
    exact ⟨fun configured => (charged configured).sameAir (fun y => by rw [zones]) (by rw [uform]), gone⟩
  case air =>
    rw [zones]
    exact steps.air z hz
  case notices =>
    obtain ⟨l, but, posts, quiet⟩ := steps.notices
    have silent : v.Posts u [] := by rw [uform]; exact .nothing rfl rfl
    exact ⟨l, but, by simpa using posts.trans silent, quiet⟩
  case kept =>
    have same : x = v := by rw [hx, State.leaveOven, hb]
    rw [uform, same]
    exact steps.batches
  case left =>
    have same : x = v.leaveBatch bp.oven i := by rw [hx, State.leaveOven, hb]
    refine (v.leaveBatch_left bp.oven i).congr steps.batches ?_
    rw [uform, same]
    exact ⟨rfl, rfl⟩
  case counts =>
    rw [utable, CarrierTable.remove_classCounts, steps.table]
    simp only [cls]
  case ring => rw [utable, CarrierTable.remove_ring, steps.table]
  case pool => rw [utable, CarrierTable.remove_poolFree, steps.table]
  case frame =>
    have out : v.WriteFrame x := by rw [form]; rfl
    rw [hu]
    exact (steps.frame.trans out).trans (x.removeRecord_writeFrame i)

/-- Settles O44. -/
theorem recordDeleted : Obligations.RecordDeleted := by
  intro s t id serving
  have runs := exec_deleteRecord serving
  refine ⟨fun i r hf zoned turn => ?waits, fun turn hf => ?absent, fun i r turn hf =>
    ⟨fun held => ?held, fun free canonical => ?freed⟩⟩
  case waits => rw [runs, State.asRecordRequest_waits hf zoned turn]
  all_goals rw [State.asRecordRequest_turn turn] at runs
  case absent => simp only [runs, State.deleteRecordNow, State.withdrawAgent_table, hf]
  case held => simp only [runs, State.deleteRecordNow, State.withdrawAgent_table, hf, held, if_true]
  case freed =>
    have deletes := State.deleteRecord_deletes (s := s.withdrawAgent) (CarrierTable.find?_some hf).1 canonical
    obtain ⟨l, but, posts, quiet⟩ := deletes.notices
    simp only [runs, State.deleteRecordNow, State.withdrawAgent_table, hf, free, Bool.false_eq_true, if_false]
    exact ⟨_, l, rfl, deletes.gone, but, posts.posted, deletes.zone, quiet, deletes.kept, deletes.left, deletes.others,
      deletes.counts, deletes.ring, deletes.pool, deletes.air,
      (s.withdrawAgent_writeFrame.trans deletes.frame).replied t .done []⟩

end Sys2Proof.Machine
end

section
namespace Sys2Proof.Machine

/-! ### O43: WRITE-RECORD -/

/-! #### What a step of a record write leaves alone -/

/-- A step of the write of the record at an index: other records keep their cores, and no zone's conditions or clocks change. -/
structure State.WritesOn (s u : State) (i : Nat) : Prop where
  air : s.SameAir u
  wait : u.zoneWait = s.zoneWait
  others : ∀ j, j ≠ i → (u.record? j).map Record.core = (s.record? j).map Record.core
  frame : s.WriteFrame u
  table : u.table = { s.table with records := u.table.records, classCounts := u.table.classCounts }

theorem State.WritesOn.refl (s : State) (i : Nat) : s.WritesOn s i := ⟨.refl s, rfl, fun _ _ => rfl, .refl s, rfl⟩

theorem State.WritesOn.trans {s t u : State} {i : Nat} (h : s.WritesOn t i) (k : t.WritesOn u i) : s.WritesOn u i where
  air := h.air.trans k.air
  wait := k.wait.trans h.wait
  others j hj := (k.others j hj).trans (h.others j hj)
  frame := h.frame.trans k.frame
  table := by rw [k.table, h.table]

/-- A Zone Engine step that touches no clock and no request. -/
theorem State.ZoneFrame.writesOn {s u : State} (h : s.ZoneFrame u) (i : Nat) (air : s.SameAir u)
    (wait : u.zoneWait = s.zoneWait) : s.WritesOn u i where
  air := air
  wait := wait
  others j _ := h.2 j
  frame := h.writeFrame
  table := by rw [h.1]

/-- The record at an index becomes `q`, with no other change but of the class counts. -/
structure State.RecordSet (s u : State) (i : Nat) (q : Record) : Prop where
  form : u = { s with table := { s.table with records := u.table.records, classCounts := u.table.classCounts } }
  record : u.record? i = some q
  others : ∀ j, j ≠ i → u.record? j = s.record? j

section
variable {s t u : State} {i : Nat} {q r : Record}

theorem State.setRecord_recordSet (s : State) (i : Nat) (q : Record) : s.RecordSet (s.setRecord i q) i q :=
  ⟨rfl, State.setRecord_record?_self .., s.setRecord_others i q⟩

theorem State.modRecord_recordSet (h : s.record? i = some r) (f : Record → Record) :
    s.RecordSet (s.modRecord i f) i (f r) := by
  rw [State.modRecord_of h]
  exact s.setRecord_recordSet i (f r)

theorem State.RecordSet.refl (h : s.record? i = some r) : s.RecordSet s i r := ⟨rfl, h, fun _ _ => rfl⟩

theorem State.RecordSet.trans (h : s.RecordSet t i q) (k : t.RecordSet u i r) : s.RecordSet u i r where
  form := by
    have form := k.form
    rw [h.form] at form
    exact form
  record := k.record
  others j hj := (k.others j hj).trans (h.others j hj)

theorem State.RecordSet.zone (h : s.RecordSet u i q) (z : Fin 32) : u.zone z = s.zone z := by
  rw [h.form]
  rfl

theorem State.RecordSet.posts (h : s.RecordSet u i q) : s.Posts u [] := by
  rw [h.form]
  exact .nothing rfl rfl

theorem State.RecordSet.batches (h : s.RecordSet u i q) : u.batches = s.batches ∧ u.batchWait = s.batchWait := by
  rw [h.form]
  exact ⟨rfl, rfl⟩

theorem State.RecordSet.tables (h : s.RecordSet u i q) : u.tables = s.tables := by rw [h.form]

theorem State.RecordSet.writesOn (h : s.RecordSet u i q) : s.WritesOn u i where
  air y := by rw [h.zone]
  wait := by rw [h.form]
  others j hj := by rw [h.others j hj]
  frame := by
    rw [h.form]
    rfl
  table := by rw [h.form]

end

/-! #### Step 1: the advance and the settlement -/

/-- A record charged up to the W of the zone it stands in (R80). -/
def State.settledRecord (u : State) (r : Record) : Record :=
  match r.zonePart with
  | some zp => r.settle (u.zone zp.zone).wear
  | none => r

theorem State.settledRecord_eq (u : State) (r : Record) :
    u.settledRecord r =
      { r with
        consumed := u.settledConsumed r
        zonePart := r.zonePart.map fun zp => { zp with stamp := (u.zone zp.zone).wear } } := by
  unfold State.settledRecord State.settledConsumed
  cases hz : r.zonePart with
  | none =>
    rcases r with ⟨id, cls, st, cons, bc, warn, el, lb, mem, zp, dp, bp, held⟩
    cases hz
    rfl
  | some zp => exact Record.settle_zoned hz _

/-- What step 1 of a record write leaves (R56; log entry 37). -/
structure State.SettlesRecord (s u : State) (i : Nat) (r : Record) : Prop where
  record : u.record? i = some (u.settledRecord r)
  others : ∀ j, j ≠ i → (u.record? j).map Record.core = (s.record? j).map Record.core
  charges : ∀ y, if r.zonePart.map ZonePart.zone = some y ∧ (s.tables.zone y).kind ≠ .unset then s.Charged u y
    else (u.zone y).air = (s.zone y).air
  watch : ∀ y : Fin 32, (s.zone y).watch.Nodup → (u.zone y).watch.Nodup
  notices : ∃ l, s.PopNoticesBut i r.id l ∧ s.Posts u l ∧ (r.zonePart = none → l = [])
  frame : s.WriteFrame u
  batches : u.batches = s.batches ∧ u.batchWait = s.batchWait
  table : u.table = { s.table with records := u.table.records }

section
variable {s : State} {i : Nat} {r : Record}

theorem State.setRecord_counts (s : State) (i : Nat) (q : Record) :
    (s.setRecord i q).table = { s.table with records := (s.setRecord i q).table.records } := rfl

theorem State.writeSettle_settles (hr : s.record? i = some r) (free : r.held = false) :
    s.SettlesRecord (s.writeSettle i) i r := by
  unfold State.writeSettle
  rw [State.zoneOf?_eq hr]
  cases hz : r.zonePart with
  | none =>
    refine ⟨?_, fun _ _ => rfl, fun y => ?_, fun _ => id,
      ⟨[], ⟨fun _ h => (nomatch h), fun _ _ h => (nomatch h)⟩, .nothing rfl rfl, fun _ => rfl⟩, .refl s, ⟨rfl, rfl⟩, rfl⟩
    · show s.record? i = _
      rw [hr, State.settledRecord, hz]
    · rw [hz, if_neg (fun both => nomatch both.1)]
      rfl
  | some zp =>
    obtain ⟨p, hp⟩ : ∃ p, p = (s.setHold i true).advance zp.zone := ⟨_, rfl⟩
    have passes := State.passesOver hr zp.zone
    obtain ⟨v, hv⟩ : ∃ v, v = p.setHold i false := ⟨_, rfl⟩
    show s.SettlesRecord ((((s.setHold i true).advance zp.zone).setHold i false).modRecord i
      fun r => r.settle ((((s.setHold i true).advance zp.zone).setHold i false).zone zp.zone).wear) i r
    rw [← hp] at passes ⊢
    rw [← hv]
    have released : v.record? i = some r := by
      rw [hv, State.setHold_record? passes.record, ← free]
    have wear : v.zone zp.zone = p.zone zp.zone := by rw [hv, State.setHold_zone]
    have mark : p.RecordSet v i { r with held := false } := by
      rw [hv]
      exact State.modRecord_recordSet passes.record fun r => { r with held := false }
    have set := mark.trans (State.modRecord_recordSet released fun r => r.settle (v.zone zp.zone).wear)
    obtain ⟨l, but, posts⟩ := passes.notices
    have writes := set.writesOn
    refine ⟨?record, fun j hj => (writes.others j hj).trans (passes.others j hj), fun y => ?charges,
      fun y nodup => by rw [set.zone]; exact passes.watch y nodup,
      ⟨l, but, by simpa using posts.trans set.posts, (fun h => nomatch hz.symm.trans h)⟩, passes.frame.trans writes.frame,
      ⟨set.batches.1.trans passes.batches.1, set.batches.2.trans passes.batches.2⟩, ?table⟩
    case record =>
      rw [set.record, State.settledRecord, hz]
      show some (r.settle _) = some (r.settle _)
      rw [set.zone, wear]
    case charges =>
      rw [hz]
      split
      · next both =>
        obtain ⟨same, configured⟩ := both
        cases same
        exact (passes.charged configured).sameAir writes.air writes.wait
      · next neither =>
        rw [writes.air y]
        exact passes.air y fun ⟨same, configured⟩ => neither ⟨by rw [same]; rfl, same ▸ configured⟩
    case table =>
      rw [State.modRecord_of released, State.setRecord_counts, hv, State.setHold_eq passes.record,
        State.setRecord_counts p, passes.table]

end

/-! #### Steps 2 to 4: class, consumed and bake count -/

/-- The class row that judges a written record: that of its new class, if the class is written. -/
def State.writtenRow (s : State) (r : Record) (w : RecordWrite) : ClassRow := s.tables.cls (w.cls.getD r.cls)

/-- A record with the fields of a request (R56 steps 2 to 4). -/
def Record.written (r : Record) (w : RecordWrite) (c : ClassRow) : Record :=
  { r with
    cls := w.cls.getD r.cls, consumed := (w.minutes.map c.writtenConsumed).getD r.consumed
    bakeCount := w.bakeCount.getD r.bakeCount }

section
variable {s : State} {i : Nat} {r : Record}

/-- Step 2: the class, and the class counts with it (R53). -/
theorem State.writeClass_sets (hr : s.record? i = some r) (cls : Option (Fin 16)) :
    s.RecordSet (s.writeClass i cls) i { r with cls := cls.getD r.cls } ∧
      (s.writeClass i cls).table.classCounts =
        match cls with
        | none => s.table.classCounts
        | some k => s.table.classMoved r.cls k := by
  unfold State.writeClass
  rw [hr]
  cases cls with
  | none => exact ⟨.refl hr, rfl⟩
  | some k =>
    have set := s.setRecord_recordSet i { r with cls := k }
    exact ⟨⟨rfl, set.record, set.others⟩, rfl⟩

/-- Steps 3 and 4. -/
theorem State.writeFigures_sets (hr : s.record? i = some r) (w : RecordWrite) :
    s.RecordSet (s.writeFigures i w) i
      { r with
        consumed := (w.minutes.map (s.tables.cls r.cls).writtenConsumed).getD r.consumed
        bakeCount := w.bakeCount.getD r.bakeCount } ∧
      (s.writeFigures i w).table.classCounts = s.table.classCounts := by
  unfold State.writeFigures
  refine ⟨State.modRecord_recordSet hr _, ?_⟩
  rw [State.modRecord_of hr]
  rfl

theorem State.writeFields_sets (hr : s.record? i = some r) (w : RecordWrite) {u : State}
    (hu : u = (s.writeClass i w.cls).writeFigures i w) :
    s.RecordSet u i (r.written w (s.writtenRow r w)) ∧
      u.table.classCounts =
        match w.cls with
        | none => s.table.classCounts
        | some k => s.table.classMoved r.cls k := by
  obtain ⟨cls, counts⟩ := State.writeClass_sets hr w.cls
  obtain ⟨figures, same⟩ := State.writeFigures_sets cls.record w
  rw [cls.tables] at figures
  rw [hu]
  exact ⟨cls.trans figures, same.trans counts⟩

/-! #### Step 5: the retirement -/

/-- A record as a retirement leaves it (R56 step 5). -/
def Record.retire (r : Record) : Record := { r.leaveZone with state := .retired, bakePart := none }

theorem State.writeRetire_eq (hr : s.record? i = some r) :
    s.writeRetire i = ((s.offList i).leaveOven r i).setRecord i r.retire := by
  unfold State.writeRetire State.leaveOven
  rw [hr]
  have zone := State.zoneOf?_of hr
  cases hz : r.zonePart with
  | none =>
    rw [State.offList_zoneless (by rw [zone, hz]; rfl)]
    simp only [hz]
    rfl
  | some zp =>
    rw [State.offList_zoned (z := zp.zone) (by rw [zone, hz]; rfl)]
    simp only [hz]
    rfl

theorem State.offList_frame (s : State) (i : Nat) : s.ZoneFrame (s.offList i) := by
  unfold State.offList
  split
  · exact s.unlist_frame ..
  · exact .refl s

theorem State.offList_sameAir (s : State) (i : Nat) : s.SameAir (s.offList i) := by
  unfold State.offList
  split
  · exact State.unlist_sameAir s _ i
  · exact .refl s

theorem State.offList_posts (s : State) (i : Nat) : s.Posts (s.offList i) [] := by
  unfold State.offList
  split
  · exact State.unlist_posts s _ i
  · exact .nothing rfl rfl

theorem State.offList_zoneWait (s : State) (i : Nat) : (s.offList i).zoneWait = s.zoneWait := by
  unfold State.offList
  split <;> rfl

theorem State.leaveOven_writesOn (s : State) (r : Record) (i : Nat) : s.WritesOn (s.leaveOven r i) i := by
  rw [s.leaveOven_form r i]
  exact ⟨fun _ => rfl, rfl, fun _ _ => rfl, rfl, rfl⟩

theorem State.leaveOven_posts (s : State) (r : Record) (i : Nat) : s.Posts (s.leaveOven r i) [] := by
  rw [s.leaveOven_form r i]
  exact .nothing rfl rfl

/-- What a retirement does (R56 step 5, R164). -/
structure State.Retires (s u : State) (i : Nat) (r : Record) : Prop where
  writes : s.WritesOn u i
  record : u.record? i = some r.retire
  counts : u.table.classCounts = s.table.classCounts
  posts : s.Posts u []
  batches : r.bakePart = none → u.batches = s.batches ∧ u.batchWait = s.batchWait
  left : ∀ bp, r.bakePart = some bp → s.BatchLeft u bp.oven i
  watch : ∀ zp, r.zonePart = some zp → (s.zone zp.zone).watch.Nodup → i ∉ (u.zone zp.zone).watch

theorem State.writeRetire_retires (hr : s.record? i = some r) : s.Retires (s.writeRetire i) i r := by
  rw [State.writeRetire_eq hr]
  obtain ⟨o, ho⟩ : ∃ o, o = s.offList i := ⟨_, rfl⟩
  obtain ⟨x, hx⟩ : ∃ x, x = o.leaveOven r i := ⟨_, rfl⟩
  have off : s.WritesOn o i := by
    rw [ho]
    exact (s.offList_frame i).writesOn i (s.offList_sameAir i) (s.offList_zoneWait i)
  have form : x = { o with batches := x.batches, batchWait := x.batchWait } := by rw [hx]; exact o.leaveOven_form r i
  have out : o.WritesOn x i := by rw [hx]; exact o.leaveOven_writesOn r i
  have set := x.setRecord_recordSet i r.retire
  have offBatches : o.batches = s.batches ∧ o.batchWait = s.batchWait := by rw [ho]; exact (s.offList_frame i).sameBatches
  rw [← ho, ← hx]
  refine ⟨(off.trans out).trans set.writesOn, set.record, ?counts, ?posts, fun hb => ?batches, fun bp hb => ?left,
    fun zp hz nodup => ?watch⟩
  case counts =>
    show x.table.classCounts = _
    have same : x.table = o.table := by rw [form]
    rw [same, ho]
    unfold State.offList
    split <;> rfl
  case posts =>
    have offPosts : s.Posts o [] := by rw [ho]; exact s.offList_posts i
    have outPosts : o.Posts x [] := by rw [hx]; exact o.leaveOven_posts r i
    exact (offPosts.trans outPosts).trans set.posts
  case batches =>
    have same : x = o := by rw [hx, State.leaveOven, hb]
    rw [same]
    exact offBatches
  case left =>
    have same : x = o.leaveBatch bp.oven i := by rw [hx, State.leaveOven, hb]
    refine (o.leaveBatch_left bp.oven i).congr offBatches ?_
    rw [same]
    exact ⟨rfl, rfl⟩
  case watch =>
    rw [set.zone, form]
    show i ∉ (o.zone zp.zone).watch
    rw [ho, State.offList_zoned (z := zp.zone) (by rw [State.zoneOf?_of hr, hz]; rfl)]
    exact State.unlist_not_mem i nodup

/-- A record as step 5 leaves it, whether it is retired or not. -/
def Record.retiredIf (r : Record) (retire : Bool) : Record := if retire then r.retire else r

/-- What step 5 leaves of a record. -/
theorem Record.retiredIf_keeps (r : Record) (b : Bool) :
    (r.retiredIf b).id = r.id ∧ (r.retiredIf b).memory = r.memory ∧ (r.retiredIf b).held = r.held ∧
      (r.retiredIf b).lastBakeShort = r.lastBakeShort ∧ (r.retiredIf b).cls = r.cls ∧ (r.retiredIf b).bakeCount = r.bakeCount ∧
      (r.retiredIf b).consumed = r.consumed ∧ (r.retiredIf b).warnIssued = r.warnIssued := by
  cases b <;> exact ⟨rfl, rfl, rfl, rfl, rfl, rfl, rfl, rfl⟩

/-- Step 5, whether the record is retired or not. -/
theorem State.writeRetire_if (hr : s.record? i = some r) (b : Bool) {u : State} (hu : u = if b then s.writeRetire i else s) :
    s.WritesOn u i ∧ u.record? i = some (r.retiredIf b) ∧ u.table.classCounts = s.table.classCounts ∧ s.Posts u [] ∧
      (b = false ∨ r.bakePart = none →
        (r.retiredIf b).bakePart = r.bakePart ∧ u.batches = s.batches ∧ u.batchWait = s.batchWait) := by
  cases b with
  | false =>
    rw [if_neg Bool.false_ne_true] at hu
    rw [hu]
    exact ⟨.refl s i, hr, rfl, .nothing rfl rfl, fun _ => ⟨rfl, rfl, rfl⟩⟩
  | true =>
    rw [if_pos rfl] at hu
    have retires := State.writeRetire_retires hr
    rw [hu]
    refine ⟨retires.writes, retires.record, retires.counts, retires.posts, fun h => ?_⟩
    have none := h.resolve_left Bool.true_eq_false_eq_False
    exact ⟨none.symm, retires.batches none⟩

/-! #### Step 6: the relist -/

/-- The warn-issued flag of a record without a zone part, judged where consumed is written (R86; log entry 43). -/
def Record.judged (r : Record) (w : RecordWrite) (c : ClassRow) : Record :=
  { r with warnIssued := if w.minutes = none then r.warnIssued else r.warnIssued && decide (c.warnPoint ≤ r.consumed) }

theorem State.writeRelist_zoneless (hr : s.record? i = some r) (hz : r.zonePart = none) (w : RecordWrite) :
    s.RecordSet (s.writeRelist i w) i (r.judged w (s.tables.cls r.cls)) ∧
      (s.writeRelist i w).table.classCounts = s.table.classCounts := by
  have form : s.writeRelist i w = if w.minutes.isSome then s.setRecord i (r.rejudgeWarn (s.classOf r)) else s := by
    simp only [State.writeRelist, hr, hz]
  rw [form]
  unfold Record.judged
  cases w.minutes with
  | none => exact ⟨.refl hr, rfl⟩
  | some m =>
    have set := s.setRecord_recordSet i (r.rejudgeWarn (s.classOf r))
    refine ⟨?_, rfl⟩
    rw [Record.rejudgeWarn_eq] at set ⊢
    exact set

/-- A relist in the record's own zone (R56 step 6). -/
theorem State.writeRelist_zoned (hr : s.record? i = some r) {zp : ZonePart} (hz : r.zonePart = some zp) (w : RecordWrite) :
    s.ZoneFrame (s.writeRelist i w) ∧ s.WritesOn (s.writeRelist i w) i ∧
      (∃ r', (s.writeRelist i w).record? i = some r' ∧ (s.writeRelist i w).Enters zp.zone i r r') ∧
      s.Posts (s.writeRelist i w) (s.enterNotices r zp.zone none) := by
  have form : s.writeRelist i w = (s.unlist zp.zone i).attach i zp.zone none := by
    simp only [State.writeRelist, hr, hz]
  have off : (s.unlist zp.zone i).record? i = some r := hr
  have frame := (s.unlist_frame zp.zone i).trans (State.attach_frame _ i zp.zone none)
  rw [form]
  refine ⟨frame, frame.writesOn i ?_ (State.attach_zoneWait ..), State.attach_enters off zp.zone none, ?_⟩
  · exact State.SameAir.trans (State.unlist_sameAir s zp.zone i) (State.attach_sameAir _ i zp.zone none)
  · have posts := (s.unlist_posts zp.zone i).trans (State.attach_posts off zp.zone none)
    simpa [(s.unlist_frame zp.zone i).enterNotices] using posts

/-- What an attach leaves of a record besides its state, its flags and its place. -/
theorem State.Enters.keeps {t : State} {z : Fin 32} {r' : Record} (h : t.Enters z i r r') :
    r'.core = r.core ∧ r'.consumed = r.consumed := by
  obtain ⟨c, x, -, -, placed⟩ := h
  split at placed
  · rw [placed]; exact ⟨rfl, rfl⟩
  · rw [placed.2]; exact ⟨rfl, rfl⟩

/-- An attach does not ask for the stamp that a record brings. -/
theorem State.Enters.restamped {t : State} {z : Fin 32} {r' : Record} {zp : ZonePart} {stamp : Nat} (hz : r.zonePart = some zp)
    (h : t.Enters z i { r with zonePart := some { zp with stamp := stamp } } r') : t.Enters z i r r' := by
  unfold State.Enters at h ⊢
  rw [hz]
  exact h

end

/-! #### The whole write (R56) -/

/-- What a record write that is accepted does (R56, R164). -/
structure State.WritesRecord (s u : State) (i : Nat) (r : Record) (w : RecordWrite) (r' : Record) (l : List Notice) :
    Prop where
  record : u.record? i = some r'
  notices : s.PopNoticesBut i r.id l
  kept : r'.id = r.id ∧ r'.memory = r.memory ∧ r'.held = r.held ∧ r'.lastBakeShort = r.lastBakeShort
  fields : r'.cls = w.cls.getD r.cls ∧ r'.bakeCount = w.bakeCount.getD r.bakeCount
  consumed : r'.consumed = (w.minutes.map (s.writtenRow r w).writtenConsumed).getD (u.settledConsumed r)
  retired : w.retire = true → r'.state = .retired ∧ r'.zonePart = none ∧ r'.bakePart = none
  batches : w.retire = false ∨ r.bakePart = none →
    r'.bakePart = r.bakePart ∧ u.batches = s.batches ∧ u.batchWait = s.batchWait
  left : ∀ bp, w.retire = true → r.bakePart = some bp → s.BatchLeft u bp.oven i
  counts : u.table.classCounts =
    match w.cls with
    | none => s.table.classCounts
    | some k => s.table.classMoved r.cls k
  relisted : ∀ zp into, r.zonePart = some zp → w.retire = false →
    into = { r with cls := w.cls.getD r.cls, consumed := r'.consumed, bakeCount := w.bakeCount.getD r.bakeCount } →
    u.Enters zp.zone i into r' ∧ s.Posts u (l ++ s.enterNotices into zp.zone none)
  unlisted : ∀ zp, r.zonePart = some zp → w.retire = true →
    s.Posts u l ∧ ((s.zone zp.zone).watch.Nodup → i ∉ (u.zone zp.zone).watch)
  zoneless : r.zonePart = none → s.Posts u [] ∧ r'.zonePart = none ∧ (w.retire = false → r'.state = r.state)
  judged : (r.zonePart = none ∨ w.retire = true) →
    r'.warnIssued =
      if w.minutes = none then r.warnIssued
      else r.warnIssued && decide ((s.writtenRow r w).warnPoint ≤ r'.consumed)
  charges : ∀ y, if r.zonePart.map ZonePart.zone = some y ∧ (s.tables.zone y).kind ≠ .unset then s.Charged u y
    else (u.zone y).air = (s.zone y).air
  others : ∀ j, j ≠ i → (u.record? j).map Record.core = (s.record? j).map Record.core
  frame : s.WriteFrame u
  table : u.table = { s.table with records := u.table.records, classCounts := u.table.classCounts }

section
variable {s : State} {i : Nat} {r : Record}

/-- Being charged, or left alone, carries over a step that touches no clock. -/
theorem State.SettlesRecord.charges_on {a u : State} (h : s.SettlesRecord a i r) (k : a.WritesOn u i) (y : Fin 32) :
    if r.zonePart.map ZonePart.zone = some y ∧ (s.tables.zone y).kind ≠ .unset then s.Charged u y
    else (u.zone y).air = (s.zone y).air := by
  have charged := h.charges y
  split at charged
  · next both => rw [if_pos both]; exact charged.sameAir k.air k.wait
  · next neither => rw [if_neg neither]; exact (k.air y).trans charged

theorem State.SettlesRecord.table_on {a u : State} (h : s.SettlesRecord a i r) (k : a.WritesOn u i) :
    u.table = { s.table with records := u.table.records, classCounts := u.table.classCounts } := by
  rw [k.table, h.table]

/-- Steps 1 to 4 of a record write: `a` is the part with the record settled, `b` with its fields written. -/
theorem State.writeRecord_prepares (hr : s.record? i = some r) (free : r.held = false) (w : RecordWrite) :
    ∃ a b, s.SettlesRecord a i r ∧ a.RecordSet b i ((a.settledRecord r).written w (s.writtenRow r w)) ∧
      (b.table.classCounts =
        match w.cls with
        | none => s.table.classCounts
        | some k => s.table.classMoved r.cls k) ∧
      b.tables = s.tables ∧
      s.writeRecord i w = (if w.retire then b.writeRetire i else b).writeRelist i w := by
  obtain ⟨a, ha⟩ : ∃ a, a = s.writeSettle i := ⟨_, rfl⟩
  obtain ⟨b, hb⟩ : ∃ b, b = (a.writeClass i w.cls).writeFigures i w := ⟨_, rfl⟩
  have settles : s.SettlesRecord a i r := by rw [ha]; exact State.writeSettle_settles hr free
  have tables : a.tables = s.tables := by rw [settles.frame]
  have cls : (a.settledRecord r).cls = r.cls := by rw [State.settledRecord_eq]
  obtain ⟨set, counts⟩ := State.writeFields_sets settles.record w hb
  rw [State.writtenRow, cls, tables] at set
  refine ⟨a, b, settles, set, ?_, set.tables.trans tables, by rw [hb, ha]; rfl⟩
  rw [counts, cls, settles.table]
  rfl

/-- A record that keeps its zone part is settled, written and attached to its zone again (R56). -/
theorem State.writeRecord_relists (hr : s.record? i = some r) (free : r.held = false) (w : RecordWrite) {zp : ZonePart}
    (hz : r.zonePart = some zp) (stays : w.retire = false) : ∃ r' l, s.WritesRecord (s.writeRecord i w) i r w r' l := by
  obtain ⟨a, b, settles, set, counts, tables, form⟩ := State.writeRecord_prepares hr free w
  rw [form, stays, if_neg Bool.false_ne_true]
  obtain ⟨q, hq⟩ : ∃ q, q = (a.settledRecord r).written w (s.writtenRow r w) := ⟨_, rfl⟩
  rw [← hq] at set
  rw [State.settledRecord_eq, hz] at hq
  have zoned : q.zonePart = some { zp with stamp := (a.zone zp.zone).wear } := by rw [hq]; rfl
  obtain ⟨frame, writes, ⟨r', record, enters⟩, posts⟩ := State.writeRelist_zoned set.record zoned w
  obtain ⟨u, hu⟩ : ∃ u, u = b.writeRelist i w := ⟨_, rfl⟩
  rw [← hu] at frame writes record enters posts ⊢
  obtain ⟨core, consumed⟩ := enters.keeps
  obtain ⟨l, but, advanced, -⟩ := settles.notices
  have whole := set.writesOn.trans writes
  have account : u.settledConsumed r = a.settledConsumed r := whole.air.settledConsumed r
  have consumed' : r'.consumed = (w.minutes.map (s.writtenRow r w).writtenConsumed).getD (u.settledConsumed r) := by
    rw [consumed, hq, account]
    rfl
  refine ⟨r', l, record, but, ?kept, ?fields, consumed', (fun h => nomatch stays.symm.trans h), fun _ => ?batches,
    (fun _ h => nomatch stays.symm.trans h), ?counts, fun zp' into h _ hinto => ?relisted,
    (fun _ _ h => nomatch stays.symm.trans h), (fun h => nomatch hz.symm.trans h), ?judged, settles.charges_on whole,
    fun j hj => (whole.others j hj).trans (settles.others j hj), settles.frame.trans whole.frame, settles.table_on whole⟩
  case kept =>
    rw [hq] at core
    exact ⟨congrArg RecordCore.id core, congrArg RecordCore.memory core, congrArg RecordCore.held core,
      congrArg RecordCore.lastBakeShort core⟩
  case fields =>
    rw [hq] at core
    exact ⟨congrArg RecordCore.cls core, congrArg RecordCore.bakeCount core⟩
  case batches =>
    rw [hq] at core
    obtain ⟨batches, wait⟩ := frame.sameBatches
    exact ⟨congrArg RecordCore.bakePart core, (batches.trans set.batches.1).trans settles.batches.1,
      (wait.trans set.batches.2).trans settles.batches.2⟩
  case counts =>
    rw [frame.1]
    exact counts
  case relisted =>
    cases hz.symm.trans h
    have brings : q = { into with zonePart := some { zp with stamp := (a.zone zp.zone).wear } } := by
      rw [hinto, consumed, hq]
      rfl
    have intoZone : into.zonePart = some zp := by rw [hinto]; exact hz
    refine ⟨State.Enters.restamped intoZone (by rw [← brings]; exact enters), ?_⟩
    have same : b.enterNotices q zp.zone none = s.enterNotices into zp.zone none := by
      have wall : b.wallTime = s.wallTime := by rw [(settles.frame.trans set.writesOn.frame)]; rfl
      rw [brings]
      simp only [State.enterNotices, State.crossingNotices, tables, wall]
    have said := (advanced.trans set.posts).trans posts
    rw [same] at said
    simpa using said
  case judged =>
    rintro (h | h)
    · exact nomatch hz.symm.trans h
    · exact nomatch stays.symm.trans h

/-- A record without a zone part, and one that is retired, stay out of every list (R56). -/
theorem State.writeRecord_settles (hr : s.record? i = some r) (free : r.held = false) (w : RecordWrite)
    (out : r.zonePart = none ∨ w.retire = true) : ∃ r' l, s.WritesRecord (s.writeRecord i w) i r w r' l := by
  obtain ⟨a, b, settles, set, counts, tables, form⟩ := State.writeRecord_prepares hr free w
  rw [form]
  obtain ⟨q, hq⟩ : ∃ q, q = (a.settledRecord r).written w (s.writtenRow r w) := ⟨_, rfl⟩
  rw [← hq] at set
  rw [State.settledRecord_eq] at hq
  obtain ⟨l, but, advanced, quiet⟩ := settles.notices
  obtain ⟨x, hx⟩ : ∃ x, x = if w.retire then b.writeRetire i else b := ⟨_, rfl⟩
  have retires : w.retire = true → b.Retires x i q := fun h => by
    rw [hx, h]
    exact State.writeRetire_retires set.record
  obtain ⟨writes, record, sameCounts, silent, sameBatches⟩ := State.writeRetire_if set.record w.retire hx
  obtain ⟨id, memory, held, short, cls, count, consumed, warned⟩ := q.retiredIf_keeps w.retire
  have zoneless : (q.retiredIf w.retire).zonePart = none := by
    cases h : w.retire with
    | false =>
      rw [hq]
      show r.zonePart.map _ = none
      rw [out.resolve_right (by simp [h])]
      rfl
    | true => rfl
  obtain ⟨final, lastCounts⟩ := State.writeRelist_zoneless record zoneless w
  have xtables : x.tables = s.tables := by rw [writes.frame, tables]
  rw [cls, xtables] at final
  have row : s.tables.cls q.cls = s.writtenRow r w := by rw [hq]; rfl
  rw [row] at final
  obtain ⟨u, hu⟩ : ∃ u, u = x.writeRelist i w := ⟨_, rfl⟩
  rw [← hx, ← hu]
  rw [← hu] at final lastCounts
  have whole := (set.writesOn.trans writes).trans final.writesOn
  have account : u.settledConsumed r = a.settledConsumed r := whole.air.settledConsumed r
  have said : s.Posts u l := by simpa using ((advanced.trans set.posts).trans silent).trans final.posts
  refine ⟨_, l, final.record, but, ?kept, ?fields, ?consumed, fun h => ?retired, fun h => ?batches, fun bp h hb => ?left,
    ?counts, fun zp into hz h => ?relisted, fun zp hz h => ⟨said, fun nodup => ?unlisted⟩,
    fun hz => ⟨?silent, zoneless, fun h => ?state⟩, fun _ => ?judged, settles.charges_on whole, fun j hj => (whole.others j hj).trans (settles.others j hj),
    settles.frame.trans whole.frame, settles.table_on whole⟩
  case kept =>
    refine ⟨id.trans ?_, memory.trans ?_, held.trans ?_, short.trans ?_⟩ <;> rw [hq] <;> rfl
  case fields =>
    refine ⟨cls.trans ?_, count.trans ?_⟩ <;> rw [hq] <;> rfl
  case consumed =>
    refine consumed.trans ?_
    rw [hq, account]
    rfl
  case retired =>
    rw [h]
    exact ⟨rfl, rfl, rfl⟩
  case batches =>
    have own : q.bakePart = r.bakePart := by rw [hq]; rfl
    obtain ⟨bake, batches, wait⟩ := sameBatches (by rw [own]; exact h)
    exact ⟨bake.trans own, ((final.batches.1.trans batches).trans set.batches.1).trans settles.batches.1,
      ((final.batches.2.trans wait).trans set.batches.2).trans settles.batches.2⟩
  case left =>
    have bake : q.bakePart = some bp := by rw [hq]; exact hb
    exact ((retires h).left bp bake).congr
      ⟨set.batches.1.trans settles.batches.1, set.batches.2.trans settles.batches.2⟩ final.batches
  case counts => exact (lastCounts.trans sameCounts).trans counts
  case relisted =>
    rcases out with none | retire
    · exact nomatch none.symm.trans hz
    · exact nomatch h.symm.trans retire
  case unlisted =>
    have zoned : q.zonePart = some { zp with stamp := (a.zone zp.zone).wear } := by
      rw [hq]
      show r.zonePart.map _ = _
      rw [hz]
      rfl
    have off := (retires h).watch _ zoned
    rw [final.zone]
    refine off ?_
    rw [set.zone]
    exact settles.watch _ nodup
  case silent =>
    rw [quiet hz] at said
    exact said
  case state =>
    rw [h, hq]
    rfl
  case judged =>
    rw [Record.judged, warned, hq]
    rfl

theorem State.writeRecord_writes (hr : s.record? i = some r) (free : r.held = false) (w : RecordWrite) :
    ∃ r' l, s.WritesRecord (s.writeRecord i w) i r w r' l := by
  cases hz : r.zonePart with
  | none => exact State.writeRecord_settles hr free w (.inl hz)
  | some zp =>
    cases h : w.retire with
    | false => exact State.writeRecord_relists hr free w hz h
    | true => exact State.writeRecord_settles hr free w (.inr h)

end

/-! #### The request (R55, R56) -/

/-- Each of the four rows carries out the whole request that selects its field (log entry 32). -/
theorem exec_writeRecord {s : State} {t : Telegram} {id : CarrierId} {w : RecordWrite} {c : Instr}
    (h : s.Serving t (.writeRecord id w))
    (hc : (c = .writeRecordClass ∧ w.cls ≠ none) ∨ (c = .writeRecordConsumed ∧ w.minutes ≠ none) ∨
      (c = .writeRecordBakeCount ∧ w.bakeCount ≠ none) ∨ (c = .writeRecordRetire ∧ w.retire = true)) :
    exec c s = .next (s.asRecordRequest id fun s => s.writeRecordNow t id w) := by
  rcases hc with ⟨rfl, selected⟩ | ⟨rfl, selected⟩ | ⟨rfl, selected⟩ | ⟨rfl, selected⟩
  · simp only [exec, execWriteRecordClass, h.operation?, if_pos (Option.isSome_iff_ne_none.mpr selected)]
    rfl
  · simp only [exec, execWriteRecordConsumed, h.operation?, if_pos (Option.isSome_iff_ne_none.mpr selected)]
    rfl
  · simp only [exec, execWriteRecordBakeCount, h.operation?, if_pos (Option.isSome_iff_ne_none.mpr selected)]
    rfl
  · simp only [exec, execWriteRecordRetire, h.operation?, if_pos selected]
    rfl

/-- The checks of R55: of a class that is not configured. -/
theorem State.writesBadClass_iff (s : State) (w : RecordWrite) :
    (w.cls.any fun c => !(s.tables.cls c).configured) = true ↔ ∃ k, w.cls = some k ∧ (s.tables.cls k).floorLife = 0 := by
  cases w.cls <;> simp [ClassRow.configured]

/-- A write that passes the checks is carried out, and its reply carries the record image (R55, R56). -/
theorem State.writeRecordNow_accepted {s : State} {t : Telegram} {id : CarrierId} {w : RecordWrite} {i : Nat} {r : Record}
    (hf : s.table.find? id = some (i, r)) (free : r.held = false)
    (configured : ∀ k, w.cls = some k → (s.tables.cls k).floorLife ≠ 0) :
    s.writeRecordNow t id w =
      (s.writeRecord i w).reply t .done ((((s.writeRecord i w).record? i).map fun r' => r'.image i).getD []) := by
  have good : ¬(w.cls.any fun c => !(s.tables.cls c).configured) = true := fun bad => by
    obtain ⟨k, hk, unset⟩ := (s.writesBadClass_iff w).mp bad
    exact configured k hk unset
  simp only [State.writeRecordNow, hf, free, Bool.false_eq_true, if_false, if_neg good]

/-- Settles O43. -/
theorem recordWritten : Obligations.RecordWritten := by
  intro s t id w c serving selected
  have runs := exec_writeRecord serving selected
  refine ⟨fun i r hf zoned turn => ?waits, fun turn hf => ?absent, fun i r turn hf =>
    ⟨fun held => ?held, fun k free hk unset => ?badClass, fun free configured => ?written⟩⟩
  case waits => rw [runs, State.asRecordRequest_waits hf zoned turn]
  all_goals rw [State.asRecordRequest_turn turn] at runs
  case absent => simp only [runs, State.writeRecordNow, State.withdrawAgent_table, hf]
  case held => simp only [runs, State.writeRecordNow, State.withdrawAgent_table, hf, held, if_true]
  case badClass =>
    have bad := (s.withdrawAgent.writesBadClass_iff w).mpr ⟨k, hk, unset⟩
    simp only [runs, State.writeRecordNow, State.withdrawAgent_table, hf, free, Bool.false_eq_true, if_false, if_pos bad]
  case written =>
    have hr : s.record? i = some r := (CarrierTable.find?_some hf).1
    obtain ⟨r', l, writes⟩ := State.writeRecord_writes (s := s.withdrawAgent) hr free w
    rw [runs, State.writeRecordNow_accepted (s := s.withdrawAgent) hf free configured]
    obtain ⟨u, hu⟩ : ∃ u, u = s.withdrawAgent.writeRecord i w := ⟨_, rfl⟩
    rw [← hu] at writes ⊢
    have row : s.tables.cls r'.cls = s.writtenRow r w := by rw [writes.fields.1]; rfl
    have image : ((u.record? i).map fun r' => r'.image i).getD [] = r'.image i := by rw [writes.record]; rfl
    obtain ⟨hid, memory, held, short⟩ := writes.kept
    rw [image]
    refine ⟨u.reply t .done (r'.image i), r', l, r'.image i, rfl, writes.record, writes.notices, hid, memory,
      held.trans free, short, writes.fields.1, writes.fields.2, fun m hm => ?minutes, fun hm => ?settled, writes.retired, writes.batches, writes.left,
      writes.counts, fun zp into hz h hinto => ?relisted, fun zp hz h => ?unlisted, fun hz => ?zoneless, fun h => ?judged,
      fun y => ?charges, writes.others, ?frame, r'.image_laidOut i⟩
    case minutes =>
      rw [row, writes.consumed, hm]
      rfl
    case settled =>
      rw [writes.consumed, hm]
      rfl
    case relisted =>
      obtain ⟨enters, posts⟩ := writes.relisted zp into hz h hinto
      exact ⟨enters, posts.posted⟩
    case unlisted =>
      obtain ⟨posts, off⟩ := writes.unlisted zp hz h
      exact ⟨posts.posted, off⟩
    case zoneless =>
      obtain ⟨posts, rest⟩ := writes.zoneless hz
      exact ⟨posts.posted, rest⟩
    case judged =>
      rw [row]
      exact writes.judged h
    case charges => exact writes.charges y
    case frame =>
      rw [(s.withdrawAgent_writeFrame.trans writes.frame).replied t .done (r'.image i)]
      congr 1
      exact writes.table

end Sys2Proof.Machine
end

section
namespace Sys2Proof.Machine

/-! ### O27: the relists of BAKE-IN and BAKE-OUT -/

/-! #### The relist at its turn -/

section
variable {s : State} {w : Work} {i : Nat} {r : Record} {k : TxKind} {o : CommitOutcome}

/-- A transaction that is no SPLIT asks for no child. -/
theorem State.splitAsks_other (hw : s.engine.work = some w) (hk : TxKind.ofByte? w.tel.kind = some k) (other : k ≠ .split) :
    s.splitAsks = false := by
  unfold State.splitAsks
  split
  · next w' _ hw' =>
    cases hw.symm.trans hw'
    rw [hk]
    cases k
    case split => exact absurd rfl other
    all_goals simp
  · rfl

/-- COMMIT_RELIST of a transaction that is no SPLIT, at its turn (R96). -/
theorem exec_commitRelist (hp : s.engine.phase = .commitRelist) (hw : s.engine.work = some w) (hr : s.running = true)
    (hz : s.zoneWait.head? = some .engine) (hk : TxKind.ofByte? w.tel.kind = some k) (other : k ≠ .split) :
    exec .commitRelist s = .next (s.takeZoneRequest.commitRelistStep w) := by
  have turn : s.engineTurn = true := by simp [State.engineTurn, hr, hz]
  exact execCommitRelist_turn hp hw turn (.inr (State.splitAsks_other hw hk other))

/-- A BAKE-IN that is legal in the state its carrier now has (R139, R148). -/
theorem State.commitRelistStep_bakeIn (ho : w.outcome = some o) (transition : o.transition = true)
    (hk : TxKind.ofByte? w.tel.kind = some .bakeIn) (hi : w.held = some i) (hr : s.record? i = some r)
    (legal : r.state = .dry ∨ r.state = .exposed ∨ r.state = .expired) : s.commitRelistStep w = s.commitBakeIn w := by
  have moves : TxKind.bakeIn.transition r.state = .bakeIn := by rcases legal with h | h | h <;> rw [h] <;> rfl
  simp only [State.commitRelistStep, ho, Option.map_some, Option.getD_some, transition, if_true, hk, State.heldState?, hi,
    Option.bind_some, hr, moves]

/-- A BAKE-OUT of a carrier in BAKING. -/
theorem State.commitRelistStep_bakeOut (ho : w.outcome = some o) (transition : o.transition = true)
    (hk : TxKind.ofByte? w.tel.kind = some .bakeOut) (hi : w.held = some i) (hr : s.record? i = some r)
    (baking : r.state = .baking) : s.commitRelistStep w = s.commitBakeOut w := by
  have moves : TxKind.bakeOut.transition r.state = .bakeOut := by rw [baking]; rfl
  simp only [State.commitRelistStep, ho, Option.map_some, Option.getD_some, transition, if_true, hk, State.heldState?, hi,
    Option.bind_some, hr, moves]

end

/-! #### The advances of a relist (R96 step 1) -/

section
variable {s : State} {w : Work} {i : Nat} {r : Record}

/-- What the advances of a commit leave: the held carrier as it was, and its zone and the target zone charged. -/
structure State.CommitAdvances (s v : State) (w : Work) (i : Nat) (r : Record) (z : Option (Fin 32)) : Prop where
  record : v.record? i = some r
  frame : s.ZoneFrame v
  charges : ∀ y, if (r.zonePart.map ZonePart.zone = some y ∨ z = some y) ∧ (s.tables.zone y).kind ≠ .unset then s.Charged v y
    else (v.zone y).air = (s.zone y).air
  watch : ∀ y : Fin 32, (s.zone y).watch.Nodup → (v.zone y).watch.Nodup
  notices : ∃ l, (∀ n ∈ l, n.OfAdvance) ∧ s.Posts v l

theorem State.advanceAll_nodup (zs : List (Fin 32)) {s : State} (y : Fin 32) (nodup : (s.zone y).watch.Nodup) :
    ((s.advanceAll zs).zone y).watch.Nodup := by
  induction zs generalizing s with
  | nil => exact nodup
  | cons z zs ih => exact ih (s.advance_nodup z y nodup)

theorem State.advanceCommit_advances (hi : w.held = some i) (hr : s.record? i = some r) (held : r.held = true)
    (z : Option (Fin 32)) : s.CommitAdvances (s.advanceCommit w z) w i r z where
  record := State.advanceAll_held hr held _
  frame := s.advanceAll_frame _
  charges y := by
    have advanced := s.advanceAll_air _ (zonesNamed_nodup (w.held.bind s.zoneOf?) z) y
    simp only [mem_zonesNamed] at advanced
    rw [hi, Option.bind_some, State.zoneOf?_eq hr] at advanced
    have form : s.advanceCommit w z = s.advanceAll (zonesNamed (r.zonePart.map ZonePart.zone) z) := by
      rw [State.advanceCommit, hi, Option.bind_some, State.zoneOf?_eq hr]
    rw [form]
    exact advanced
  watch y := State.advanceAll_nodup _ y
  notices := State.advanceAll_posts _ s

end

/-! #### BAKE-IN: out of the zone, with the credit (R88, R148) -/

section
variable {s : State} {i : Nat} {r : Record}

/-- The warn-issued flag of a carrier that is credited is judged by what is left of consumed (R88). -/
theorem State.creditLeaving_warnIssued (s : State) (r : Record) (dest : Option (Fin 32)) :
    (s.creditLeaving r dest).warnIssued = r.warnIssued ∨
      (s.creditLeaving r dest).warnIssued =
        (r.warnIssued && decide ((s.classOf r).warnPoint ≤ (s.creditLeaving r dest).consumed)) := by
  unfold State.creditLeaving Record.takeCredit
  repeat' split
  all_goals simp [Record.rejudgeWarn_eq]

/-- A carrier that leaves its zone for none, settled, credited and judged (R96). -/
def State.departed (s : State) (r : Record) (cs : CarrierState) : Record :=
  { r with
    consumed := s.departedConsumed r none, state := cs, zonePart := none, dryPart := none, eligible := false
    warnIssued := r.warnIssued && decide ((s.classOf r).warnPoint ≤ s.departedConsumed r none) }

theorem State.creditLeaving_departs (s : State) (r : Record) (cs : CarrierState) :
    Record.rejudgeWarn { (s.creditLeaving (s.settledRecord r) none).leaveZone with state := cs } (s.classOf r) =
      s.departed r cs := by
  have consumed : (s.creditLeaving (s.settledRecord r) none).consumed = s.departedConsumed r none :=
    State.creditLeaving_consumed none rfl
  have form : (s.creditLeaving (s.settledRecord r) none).leaveZone =
      { r with
        consumed := (s.creditLeaving (s.settledRecord r) none).consumed
        warnIssued := (s.creditLeaving (s.settledRecord r) none).warnIssued
        zonePart := none, dryPart := none, eligible := false } := by
    rw [State.settledRecord_eq]
    unfold State.creditLeaving Record.takeCredit
    repeat' split
    all_goals simp [Record.rejudgeWarn_eq, Record.leaveZone]
  have warned := s.creditLeaving_warnIssued (s.settledRecord r) none
  have cls : s.classOf (s.settledRecord r) = s.classOf r ∧ (s.settledRecord r).warnIssued = r.warnIssued := by
    rw [State.settledRecord_eq]
    exact ⟨rfl, rfl⟩
  rw [cls.1, cls.2, consumed] at warned
  rw [form, Record.rejudgeWarn_eq, consumed, State.departed]
  rcases warned with same | judged
  · rw [same]
  · rw [judged]
    simp

/-- A relist to no zone (R96). -/
theorem State.relistTo_departs (hr : s.record? i = some r) (cs : CarrierState) (st : Option Byte) :
    s.relistTo i cs none st = (s.offList i).setRecord i (s.departed r cs) := by
  rw [← s.creditLeaving_departs r cs]
  unfold State.relistTo State.settledRecord
  rw [hr]
  cases hz : r.zonePart with
  | none =>
    rw [State.offList_zoneless (by rw [State.zoneOf?_of hr, hz]; rfl)]
    simp only [hz]
  | some zp =>
    rw [State.offList_zoned (z := zp.zone) (by rw [State.zoneOf?_of hr, hz]; rfl)]
    simp only [hz]

end

/-- The relist of a BAKE-IN (R148, R158). -/
theorem State.commitBakeIn_of {s : State} {w : Work} {i : Nat} {r : Record} {tier : Fin 4} (hi : w.held = some i)
    (hr : s.record? i = some r) (held : r.held = true) (ht : tierOf w.tel = tier.val) {v : State}
    (hv : v = s.advanceCommit w none) :
    ∃ x q, x = v.offList i ∧
      q = { v.departed r .baking with
            bakePart := some
              { oven := w.tel.source, tier := tier, entered := s.now
                preState := (w.settled.map Record.state).getD .expired } } ∧
      x.RecordSet ((x.setRecord i (v.departed r .baking)).setRecord i q) i q ∧
      s.commitBakeIn w =
        ((x.setRecord i (v.departed r .baking)).setRecord i q).engineTo .commitJoin { w with commitTime := s.now } := by
  have record : v.record? i = some r := by rw [hv]; exact (State.advanceCommit_advances hi hr held none).record
  have number : Fin.ofNat 4 (tierOf w.tel) = tier := Fin.ext (by rw [ht]; exact Nat.mod_eq_of_lt tier.isLt)
  refine ⟨_, _, rfl, rfl, (State.setRecord_recordSet _ i _).trans (State.setRecord_recordSet _ i _), ?_⟩
  simp only [State.commitBakeIn, hi, ← hv, State.relistTo_departs record, number]
  rw [State.modRecord_of (State.setRecord_record?_self ..)]

/-! #### BAKE-OUT: the outcome and its notice (R160, R161) -/

theorem Record.bakeOutcome_long {r : Record} {c : ClassRow} {bp : BakePart} {t : Nat}
    (h : c.bake[bp.tier.val] * 60 ≤ t - bp.entered) :
    r.bakeOutcome c bp t = if c.bakeLimit < min 15 (r.bakeCount + 1) then .retired else .complete := if_pos h

theorem Record.bakeOutcome_brief {r : Record} {c : ClassRow} {bp : BakePart} {t : Nat}
    (h : t - bp.entered < c.bake[bp.tier.val] * 60) :
    r.bakeOutcome c bp t = if bp.preState = .expired then .shortExpired else .short := if_neg (Nat.not_le.mpr h)

/-- A record whose bake was cut short. -/
theorem Record.afterBake_brief (r : Record) (c : ClassRow) {o : BakeOutcome} (h : o = .short ∨ o = .shortExpired) :
    r.afterBake c o =
      { r with
        bakeCount := min 15 (r.bakeCount + 1), lastBakeShort := true, bakePart := none
        warnIssued := r.warnIssued && decide (c.warnPoint ≤ r.consumed) } := by
  rcases h with rfl | rfl <;> exact Record.rejudgeWarn_eq _ c

/-- A record after its bake, in the state the outcome gives it (R160). -/
def Record.bakedTo (r : Record) (c : ClassRow) (o : BakeOutcome) (st : CarrierState) : Record :=
  { r.afterBake c o with state := st }

section
variable (s : State) (w : Work) (r : Record) (o : BakeOutcome) (z : Option (Fin 32)) (n : Nat)

/-- The notices of a bake outcome, of a record as the bake leaves it (R161). -/
def State.bakeNotices : List Notice :=
  match o with
  | .complete => []
  | .retired => [s.notice .retired true (some r.id) none (some w.tel.source) (some 0) none .absent]
  | .short | .shortExpired =>
    [s.notice .bakeShort false (some r.id) (if o.zoned then z else none) (some w.tel.source)
      (some ((s.classOf r).pct r.consumed)) none (.seconds n)]

theorem State.bakeNotice_posts : s.Posts (s.bakeNotice w r o z n) (s.bakeNotices w r o z n) := by
  cases o with
  | complete => exact .nothing rfl rfl
  | retired | short | shortExpired => exact s.post_posts _

theorem State.bakeNotice_frame : s.PlantFrame (s.bakeNotice w r o z n) := by
  cases o with
  | complete => exact .refl s
  | retired | short | shortExpired => exact s.post_frame _

end

section
variable {s : State} {w : Work} {i : Nat} {r : Record} {bp : BakePart}

/-- A bake that ends in no zone: `st` is RETIRED or EXPIRED (R160). -/
theorem State.commitBakeOut_ends (hi : w.held = some i) (hr : s.record? i = some r) (hb : r.bakePart = some bp)
    {o : BakeOutcome} {st : CarrierState} (ho : r.bakeOutcome (s.classOf r) bp s.now = o)
    (ends : (o = .retired ∧ st = .retired) ∨ (o = .shortExpired ∧ st = .expired)) :
    s.commitBakeOut w =
      ((s.setRecord i (r.bakedTo (s.classOf r) o st)).bakeNotice w (r.afterBake (s.classOf r) o) o none
        (s.now - bp.entered)).engineTo .commitLeave { w with commitTime := s.now } := by
  rcases ends with ⟨rfl, rfl⟩ | ⟨rfl, rfl⟩ <;>
    simp only [State.commitBakeOut, hi, Option.bind_some, hr, hb, Option.map_some, ho, Record.bakedTo]

/-- A bake whose carrier goes to the body's zone, which is judged again (R149, R160). -/
theorem State.commitBakeOut_goes (hi : w.held = some i) (hr : s.record? i = some r) (hb : r.bakePart = some bp)
    {o : BakeOutcome} (ho : r.bakeOutcome (s.classOf r) bp s.now = o) (goes : o = .complete ∨ o = .short) {v : State}
    (hv : v = s.advanceCommit w (zone? w.zone)) :
    s.commitBakeOut w =
      match zone? w.zone, v.tables.zoneFault? .bakeOut w.zone with
      | some z, none =>
        (((v.setRecord i (r.bakedTo (s.classOf r) o (stateInZone (v.tables.zone z).kind))).bakeNotice w
          (r.afterBake (s.classOf r) o) o (some z) (s.now - bp.entered)).attach i z (some w.tel.source)).engineTo .commitLeave
            { w with commitTime := s.now }
      | _, f => v.commitFault { w with commitTime := s.now } (f.getD .zoneUnknown) := by
  rcases goes with rfl | rfl <;>
    simp only [State.commitBakeOut, hi, Option.bind_some, hr, hb, Option.map_some, ho, ← hv, Record.bakedTo] <;> rfl

/-- The record of a bake that ends in no zone, and the notices (R160, R161). -/
theorem State.bakeEnds_leaves (s : State) (w : Work) (i : Nat) (q e : Record) (o : BakeOutcome) (p : EnginePhase) (w' : Work)
    (n : Nat) {t : State} (ht : t = ((s.setRecord i e).bakeNotice w q o none n).engineTo p w') :
    t.engine = { s.engine with phase := p, work := some w' } ∧ t.record? i = some e ∧
      s.Posts t (s.bakeNotices w q o none n) := by
  have frame := State.bakeNotice_frame (s.setRecord i e) w q o none n
  have posts := State.bakeNotice_posts (s.setRecord i e) w q o none n
  rw [ht]
  refine ⟨?_, ?_, ?_⟩
  · have engine : ((s.setRecord i e).bakeNotice w q o none n).engine = s.engine := by rw [frame]; rfl
    rw [← engine]
    rfl
  · exact (frame.record? i).trans (State.setRecord_record?_self ..)
  · exact (s.setRecord_posts i _).trans posts

/-- A zone that is NONE is no target of a BAKE-OUT (R137). -/
theorem State.zoneFault?_unset (h : s.bodyKind w = .unset) :
    s.tables.zoneFault? .bakeOut w.zone = some .zoneUnknown := by
  unfold State.bodyKind at h
  unfold Tables.zoneFault?
  cases hz : zone? w.zone with
  | none => rfl
  | some z =>
    rw [hz] at h
    have unset : (s.tables.zone z).configured = false := by
      rw [Bool.eq_false_iff, ne_eq, ZoneConfig.configured_iff]
      exact fun configured => configured h
    simp only [unset, Bool.not_false, if_true]

/-- A configured zone suits a BAKE-OUT (R137). -/
theorem Tables.zoneFault?_bakeOut {t : Tables} {n : Nat} {z : Fin 32} (hz : zone? n = some z) (h : (t.zone z).kind ≠ .unset) :
    t.zoneFault? .bakeOut n = none := by
  have configured := (ZoneConfig.configured_iff (t.zone z)).mpr h
  have suits : TxKind.bakeOut.suits (t.zone z).kind = true := by simpa [TxKind.suits] using h
  simp [Tables.zoneFault?, hz, configured, suits]

/-! #### An attach judges the warn-issued flag itself (R86, R94) -/

theorem State.Enters.rejudged {t : State} {z : Fin 32} {r' : Record}
    (h : t.Enters z i
      { r with warnIssued := r.warnIssued && decide ((t.tables.cls r.cls).warnPoint ≤ r.consumed) } r') :
    t.Enters z i r r' := by
  obtain ⟨c, x, hc, hx, placed⟩ := h
  refine ⟨c, x, hc, ?_, placed⟩
  rw [hx, hc]
  simp

theorem State.enterNotices_rejudged (s : State) (r : Record) (z : Fin 32) (st : Option Byte) :
    s.enterNotices { r with warnIssued := r.warnIssued && decide ((s.tables.cls r.cls).warnPoint ≤ r.consumed) } z st =
      s.enterNotices r z st := by
  simp [State.enterNotices, State.crossingNotices]

end

section
variable {s : State} {w : Work} {i : Nat} {r0 : Record}

/-- The clause of O27 on BAKE-IN, at its turn. -/
theorem State.commitBakeIn_bakes (hi : w.held = some i) (hr : s.record? i = some r0) (held : r0.held = true) {r : Record}
    (settled : w.settled = some r) {tier : Fin 4} (ht : tierOf w.tel = tier.val) :
    ∃ t, s.commitBakeIn w = t ∧
      t.engine = { s.engine with phase := .commitJoin, work := some { w with commitTime := s.now } } ∧
      t.record? i = some
        { r0 with
          consumed := t.departedConsumed r0 none, state := .baking, zonePart := none, dryPart := none
          eligible := false
          warnIssued := r0.warnIssued && decide ((s.tables.cls r0.cls).warnPoint ≤ t.departedConsumed r0 none)
          bakePart := some { oven := w.tel.source, tier := tier, entered := s.now, preState := r.state } } ∧
      (∃ l, (∀ n ∈ l, n.OfAdvance) ∧ s.Posted t l) ∧
      ∀ y, if r0.zonePart.map ZonePart.zone = some y then
          ((s.zone y).watch.Nodup → i ∉ (t.zone y).watch) ∧ ((s.tables.zone y).kind ≠ .unset → s.Charged t y)
        else (t.zone y).air = (s.zone y).air := by
  obtain ⟨v, hv⟩ : ∃ v, v = s.advanceCommit w none := ⟨_, rfl⟩
  have advances := State.advanceCommit_advances hi hr held none
  rw [← hv] at advances
  obtain ⟨x, q, hx, hq, set, form⟩ := State.commitBakeIn_of hi hr held ht hv
  obtain ⟨u, hu⟩ : ∃ u, u = (x.setRecord i (v.departed r0 .baking)).setRecord i q := ⟨_, rfl⟩
  rw [← hu] at set form
  rw [settled] at hq
  have off : v.WritesOn x i := by
    rw [hx]
    exact (v.offList_frame i).writesOn i (v.offList_sameAir i) (v.offList_zoneWait i)
  have writes := off.trans set.writesOn
  have tables : u.tables = v.tables := by rw [writes.frame]
  have account : u.departedConsumed r0 none = v.departedConsumed r0 none := by
    have settledSame := writes.air.settledConsumed r0
    unfold State.departedConsumed
    rw [settledSame, tables]
    split
    · rw [writes.air.dry]
    · rfl
  have engine : u.engine = s.engine := by rw [(advances.frame.writeFrame.trans writes.frame)]
  refine ⟨_, rfl, ?engine, ?record, ?notices, fun y => ?zones⟩
  case engine =>
    rw [form, ← engine]
    rfl
  case record =>
    rw [form]
    refine set.record.trans ?_
    show some q = some { r0 with
      consumed := u.departedConsumed r0 none, state := .baking, zonePart := none, dryPart := none, eligible := false
      warnIssued := r0.warnIssued && decide ((s.tables.cls r0.cls).warnPoint ≤ u.departedConsumed r0 none)
      bakePart := some { oven := w.tel.source, tier := tier, entered := s.now, preState := r.state } }
    rw [account, hq, ← advances.frame.tables]
    rfl
  case notices =>
    obtain ⟨l, each, posts⟩ := advances.notices
    have offPosts : v.Posts x [] := by rw [hx]; exact v.offList_posts i
    have whole : s.Posts u l := by simpa using (posts.trans offPosts).trans set.posts
    rw [form]
    exact ⟨l, each, whole.posted⟩
  case zones =>
    rw [form]
    have charged := advances.charges y
    split
    · next own =>
      refine ⟨fun nodup => ?_, fun configured => ?_⟩
      · show i ∉ (u.zone y).watch
        rw [set.zone, hx, State.offList_zoned (z := y) (by rw [State.zoneOf?_of advances.record, own])]
        exact State.unlist_not_mem i (advances.watch y nodup)
      · rw [if_pos ⟨.inl own, configured⟩] at charged
        exact charged.sameAir (u := u) writes.air writes.wait
    · next other =>
      rw [if_neg (fun both => other (both.1.resolve_right (fun h => nomatch h)))] at charged
      exact (writes.air y).trans charged

/-- A settlement leaves a record without a zone part as it is. -/
theorem State.Settles.zoneless {t : State} {r r' : Record} (h : t.Settles r r') (hz : r.zonePart = none) :
    r' = { r with held := r'.held } := by
  unfold State.Settles at h
  split at h
  · exact h
  · next zoned => exact nomatch hz.symm.trans zoned

/-- The clause of O27 on a BAKE-OUT that finds its zone NONE, at its turn (R149). -/
theorem State.commitBakeOut_faults (hi : w.held = some i) (hr : s.record? i = some r0) (held : r0.held = true) {bp : BakePart}
    (hb : r0.bakePart = some bp) {o : BakeOutcome} (ho : r0.bakeOutcome (s.classOf r0) bp s.now = o)
    (goes : o = .complete ∨ o = .short) (unset : s.bodyKind w = .unset) :
    ∃ t r, s.commitBakeOut w = t ∧ State.ZoneFrame { s with engine := t.engine } t ∧
      t.engine = { s.engine with
        phase := .commitClose, work := some ({ w with commitTime := s.now }.faultedAtCommit .zoneUnknown) } ∧
      t.record? i = some r ∧ r.held = true ∧ t.Settles r0 r ∧ (r0.zonePart = none → r = r0) ∧
      (∃ l, (∀ n ∈ l, n.OfAdvance) ∧ s.Posted t (l ++ s.settleNotices t r0 (some w.tel.source))) ∧
      ∀ y, if r0.zonePart.map ZonePart.zone = some y ∧ (s.tables.zone y).kind ≠ .unset then s.Charged t y
        else (t.zone y).air = (s.zone y).air := by
  obtain ⟨v, hv⟩ : ∃ v, v = s.advanceCommit w (zone? w.zone) := ⟨_, rfl⟩
  have advances := State.advanceCommit_advances hi hr held (zone? w.zone)
  rw [← hv] at advances
  obtain ⟨u, hu⟩ : ∃ u, u = v.settleCross i (some w.tel.source) false := ⟨_, rfl⟩
  obtain ⟨w', hw'⟩ : ∃ w' : Work, w' = { w with commitTime := s.now }.faultedAtCommit .zoneUnknown := ⟨_, rfl⟩
  have fault : v.tables.zoneFault? .bakeOut w.zone = some .zoneUnknown := by
    rw [advances.frame.tables]
    exact State.zoneFault?_unset unset
  have form : s.commitBakeOut w = u.engineTo .commitClose w' := by
    have stay : v.commitFault { w with commitTime := s.now } .zoneUnknown = u.engineTo .commitClose w' := by
      simp only [State.commitFault, State.relistHeld, hi, State.relistStay, Work.refault_eq, hu, hw']
    rw [State.commitBakeOut_goes hi hr hb ho goes hv, fault, ← stay]
    cases zone? w.zone <;> rfl
  have air := v.settleCross_sameAir i (some w.tel.source) false
  obtain ⟨r, record, sameHold, settles⟩ := State.settleCross_settles advances.record (some w.tel.source)
  have wait := v.settleCross_zoneWait i (some w.tel.source) false
  have crossed := State.settleCross_posts advances.record (some w.tel.source) false
  rw [advances.frame.settleNotices (show v.SameAir _ from air)] at crossed
  have frame := advances.frame.trans (State.settleCross_frame v i (some w.tel.source) false)
  rw [← hu] at air record settles wait crossed frame
  obtain ⟨framed, engine⟩ := frame.engineTo .commitClose w'
  rw [form]
  refine ⟨_, r, rfl, framed, by rw [engine, hw'], record, sameHold.trans held, settles, fun zoneless => ?same, ?notices,
    fun y => ?zones⟩
  case same =>
    rw [settles.zoneless zoneless, sameHold]
  case notices =>
    obtain ⟨l, each, posts⟩ := advances.notices
    exact ⟨l, each, (posts.trans crossed).posted⟩
  case zones =>
    have charged := advances.charges y
    split
    · next own =>
      rw [if_pos ⟨.inl own.1, own.2⟩] at charged
      exact charged.sameAir air wait
    · next other =>
      rw [if_neg ?_] at charged
      · exact (air y).trans charged
      · rintro ⟨own | target, configured⟩
        · exact other ⟨own, configured⟩
        · rw [State.bodyKind, target] at unset
          exact configured unset

/-- The clause of O27 on a BAKE-OUT that attaches its carrier, at its turn (R92, R160). -/
theorem State.commitBakeOut_attaches (hi : w.held = some i) (hr : s.record? i = some r0) (held : r0.held = true)
    {bp : BakePart} (hb : r0.bakePart = some bp) {o : BakeOutcome} (ho : r0.bakeOutcome (s.classOf r0) bp s.now = o)
    (goes : o = .complete ∨ o = .short) {z : Fin 32} (hz : zone? w.zone = some z)
    (configured : (s.tables.zone z).kind ≠ .unset)
    {out q : Record} (hq : q = r0.bakedTo (s.classOf r0) o (stateInZone (s.tables.zone z).kind))
    (hout : q = { out with warnIssued := out.warnIssued && decide ((s.tables.cls out.cls).warnPoint ≤ out.consumed) }) :
    ∃ t r' l, s.commitBakeOut w = t ∧
      t.engine = { s.engine with phase := .commitLeave, work := some { w with commitTime := s.now } } ∧ s.Charged t z ∧
      t.record? i = some r' ∧ t.Enters z i out r' ∧ (∀ n ∈ l, n.OfAdvance) ∧
      s.Posted t
        (l ++ s.bakeNotices w (r0.afterBake (s.classOf r0) o) o (some z) (s.now - bp.entered) ++
          s.enterNotices out z (some w.tel.source)) := by
  obtain ⟨v, hv⟩ : ∃ v, v = s.advanceCommit w (zone? w.zone) := ⟨_, rfl⟩
  have advances := State.advanceCommit_advances hi hr held (zone? w.zone)
  rw [← hv] at advances
  have fault : v.tables.zoneFault? .bakeOut w.zone = none := by
    rw [advances.frame.tables]
    exact Tables.zoneFault?_bakeOut hz configured
  have form := State.commitBakeOut_goes hi hr hb ho goes hv
  rw [hz, fault, advances.frame.tables] at form
  dsimp only at form
  rw [← hq] at form
  obtain ⟨e, he⟩ : ∃ e, e = v.setRecord i q := ⟨_, rfl⟩
  obtain ⟨p, hp⟩ : ∃ p, p = e.bakeNotice w (r0.afterBake (s.classOf r0) o) o (some z) (s.now - bp.entered) := ⟨_, rfl⟩
  have plant : e.PlantFrame p := by rw [hp]; exact State.bakeNotice_frame ..
  have noticed := e.bakeNotice_posts w (r0.afterBake (s.classOf r0) o) o (some z) (s.now - bp.entered)
  obtain ⟨u, hu⟩ : ∃ u, u = p.attach i z (some w.tel.source) := ⟨_, rfl⟩
  rw [← he, ← hp, ← hu] at form
  rw [← hp] at noticed
  have here : p.record? i = some q := by
    rw [plant.record?, he, State.setRecord_record?_self]
  obtain ⟨r', record, enters⟩ := State.attach_enters here z (some w.tel.source)
  have entered := State.attach_posts here z (some w.tel.source)
  have frame := p.attach_frame i z (some w.tel.source)
  have air := p.attach_sameAir i z (some w.tel.source)
  have wait := p.attach_zoneWait i z (some w.tel.source)
  rw [← hu] at record enters entered frame air wait
  have ptables : p.tables = s.tables := by rw [plant, he, ← advances.frame.tables]; rfl
  have pwall : p.wallTime = s.wallTime := by rw [plant, he, advances.frame.1]; rfl
  have utables : u.tables = s.tables := frame.tables.trans ptables
  have engine : u.engine = s.engine := by rw [frame.1, plant, he, advances.frame.1]; rfl
  obtain ⟨l, each, advanced⟩ := advances.notices
  rw [form]
  refine ⟨_, r', l, rfl, by rw [← engine]; rfl, ?charged, record, ?enters, each, ?posted⟩
  case charged =>
    have charged := advances.charges z
    rw [if_pos ⟨.inr hz, configured⟩] at charged
    refine charged.sameAir (u := u.engineTo .commitLeave { w with commitTime := s.now }) (fun y => ?_) ?_
    · show (u.zone y).air = _
      rw [air y, plant.zone, he]
      rfl
    · show u.zoneWait = _
      rw [wait, plant.zoneWait, he]
      rfl
  case enters =>
    rw [hout, ← utables] at enters
    exact enters.rejudged
  case posted =>
    have said : e.bakeNotices w (r0.afterBake (s.classOf r0) o) o (some z) (s.now - bp.entered) =
        s.bakeNotices w (r0.afterBake (s.classOf r0) o) o (some z) (s.now - bp.entered) := by
      have tables : e.tables = s.tables := by rw [he, ← advances.frame.tables]; rfl
      have wall : e.wallTime = s.wallTime := by rw [he, advances.frame.1]; rfl
      simp only [State.bakeNotices, State.notice, State.classOf, tables, wall]
    have crossing : p.enterNotices q z (some w.tel.source) = s.enterNotices out z (some w.tel.source) := by
      rw [← s.enterNotices_rejudged out, ← hout]
      simp only [State.enterNotices, State.crossingNotices, ptables, pwall]
    have set : v.Posts e [] := by rw [he]; exact v.setRecord_posts i q
    have whole := ((advanced.trans set).trans noticed).trans entered
    rw [said, crossing, List.append_nil] at whole
    exact whole.posted

end

/-- The notice of a bake that was cut short (R161). -/
theorem State.bakeNotices_brief (s : State) (w : Work) (r : Record) {o : BakeOutcome} (h : o = .short ∨ o = .shortExpired)
    (z : Option (Fin 32)) (n : Nat) :
    s.bakeNotices w (r.afterBake (s.classOf r) o) o z n =
      [{ kind := .bakeShort, high := false, wallTime := s.wallTime, carrier := some r.id
         zone := if o.zoned then z else none, station := some w.tel.source
         percent := some (min 255 (r.consumed * 100 / ((s.tables.cls r.cls).floorLife * 3840)))
         reason := none, extra := .seconds n, startLost := 0 }] := by
  rw [Record.afterBake_brief r _ h]
  rcases h with rfl | rfl <;> rfl

/-- Settles O27. -/
theorem commitBakes : Obligations.CommitBakes := by
  intro s w i r0 o c hp hw hr hz hi houtcome transition hrec held hc
  subst hc
  have hrec' : s.takeZoneRequest.record? i = some r0 := hrec
  refine ⟨fun r tier hk settled legal ht => ?bakeIn, fun bp baked required count done short hk baking hb hbaked hrequired hcount
    hdone hshort => ⟨fun long spent => ?retired, fun brief expired => ?expired, fun goes unset => ?faulted,
      fun z out goes hzone configured hout => ?attached⟩⟩
  case bakeIn =>
    obtain ⟨t, ht, bakes⟩ := State.commitBakeIn_bakes (s := s.takeZoneRequest) hi hrec' held settled ht
    refine ⟨t, ?_, bakes⟩
    rw [exec_commitRelist hp hw hr hz hk (by decide), State.commitRelistStep_bakeIn houtcome transition hk hi hrec' legal, ht]
  all_goals
    have runs : exec .commitRelist s = .next (s.takeZoneRequest.commitBakeOut w) := by
      rw [exec_commitRelist hp hw hr hz hk (by decide),
        State.commitRelistStep_bakeOut houtcome transition hk hi hrec' baking]
    subst hbaked hrequired hcount hdone
  case retired =>
    have ho := (Record.bakeOutcome_long (r := r0) long).trans (if_pos spent)
    obtain ⟨engine, record, posts⟩ := State.bakeEnds_leaves s.takeZoneRequest _ _ _ _ _ _ _ _
      (State.commitBakeOut_ends hi hrec' hb ho (.inl ⟨rfl, rfl⟩))
    exact ⟨_, runs, engine, record, posts.posted⟩
  case expired =>
    have ho := (Record.bakeOutcome_brief (r := r0) brief).trans (if_pos expired)
    obtain ⟨engine, record, posts⟩ := State.bakeEnds_leaves s.takeZoneRequest _ _ _ _ _ _ _ _
      (State.commitBakeOut_ends hi hrec' hb ho (.inr ⟨rfl, rfl⟩))
    rw [State.bakeNotices_brief _ _ _ (.inr rfl)] at posts
    rw [Record.bakedTo, Record.afterBake_brief _ _ (.inr rfl)] at record
    refine ⟨_, runs, engine, record, ?_⟩
    rw [hshort]
    exact posts.posted
  case faulted =>
    obtain ⟨o', ho, either⟩ : ∃ o', r0.bakeOutcome (s.tables.cls r0.cls) bp s.now = o' ∧ (o' = .complete ∨ o' = .short) := by
      rcases goes with ⟨long, spare⟩ | ⟨brief, other⟩
      · exact ⟨_, (Record.bakeOutcome_long long).trans (if_neg (Nat.not_lt.mpr spare)), .inl rfl⟩
      · exact ⟨_, (Record.bakeOutcome_brief brief).trans (if_neg other), .inr rfl⟩
    obtain ⟨t, r, ht, faults⟩ := State.commitBakeOut_faults (s := s.takeZoneRequest) hi hrec' held hb ho either unset
    rw [ht] at runs
    exact ⟨t, r, runs, faults⟩
  case attached =>
    rcases goes with ⟨long, spare⟩ | ⟨brief, other⟩
    · have ho := (Record.bakeOutcome_long (r := r0) long).trans (if_neg (Nat.not_lt.mpr spare))
      rw [if_pos long, if_pos long, decide_eq_false (Nat.not_lt.mpr long)] at hout
      obtain ⟨t, r', l, ht, attaches⟩ := State.commitBakeOut_attaches (s := s.takeZoneRequest) hi hrec' held hb ho
        (.inl rfl) hzone configured (out := out) rfl (by rw [hout]; rfl)
      rw [ht] at runs
      rw [if_pos long]
      exact ⟨t, r', l, runs, attaches⟩
    · have ho := (Record.bakeOutcome_brief (r := r0) brief).trans (if_neg other)
      have notLong := Nat.not_le.mpr brief
      rw [if_neg notLong, if_neg notLong, decide_eq_true brief] at hout
      obtain ⟨t, r', l, ht, attaches⟩ := State.commitBakeOut_attaches (s := s.takeZoneRequest) hi hrec' held hb ho
        (.inr rfl) hzone configured (out := out) rfl (by rw [Record.bakedTo, Record.afterBake_brief _ _ (.inl rfl), hout]; rfl)
      rw [ht] at runs
      rw [State.bakeNotices_brief _ _ _ (.inl rfl)] at attaches
      rw [if_neg notLong, hshort]
      exact ⟨t, r', l, runs, attaches⟩

end Sys2Proof.Machine
end

section
namespace Sys2Proof.Machine

/-! ### What a pop does to the records of its list (R100, R101)

Settlements never change what a record is charged up to its zone's W, `State.settledConsumed`: so a pop keeps it of every record,
whether it deals with the record or passes over it. -/

section
variable {s : State} {i : Nat} {r : Record}

theorem State.settledConsumed_zoneless (s : State) (hz : r.zonePart = none) : s.settledConsumed r = r.consumed := by
  simp only [State.settledConsumed, hz]

/-- A record that has been charged up to its zone's W is charged no more. -/
theorem State.settledConsumed_settled {r' : Record} {zp zp' : ZonePart} (hz : r.zonePart = some zp)
    (hz' : r'.zonePart = some zp') (stamp : zp'.stamp = (s.zone zp'.zone).wear) (consumed : r'.consumed = s.settledConsumed r) :
    s.settledConsumed r' = s.settledConsumed r := by
  have capped : s.settledConsumed r ≤ 4294967295 := by
    simp only [State.settledConsumed, hz]
    exact Nat.min_le_left ..
  have once : s.settledConsumed r' = min 4294967295 (r'.consumed + ((s.zone zp'.zone).wear - zp'.stamp)) := by
    simp only [State.settledConsumed, hz']
  rw [once, stamp, Nat.sub_self, Nat.add_zero, consumed, Nat.min_eq_right capped]

/-- A settlement with its crossings leaves a record in its zone, or takes it out of every zone, and charges it (R80, R85). -/
theorem State.settleCross_charges (hr : s.record? i = some r) (st : Option Byte) (b : Bool) :
    ∃ r', (s.settleCross i st b).record? i = some r' ∧ r'.consumed = s.settledConsumed r ∧
      (r'.zonePart = none ∨ (r'.zonePart.map ZonePart.zone = r.zonePart.map ZonePart.zone)) := by
  cases hz : r.zonePart with
  | none =>
    have same : s.settleCross i st b = s := by simp only [State.settleCross, hr, hz]
    exact ⟨r, by rw [same, hr], (s.settledConsumed_zoneless hz).symm, .inl hz⟩
  | some zp =>
    obtain ⟨r1, hr1⟩ : ∃ r1, r1 = r.settle (s.zone zp.zone).wear := ⟨_, rfl⟩
    have form1 : r1 = _ := hr1.trans (Record.settle_zoned hz _)
    obtain ⟨r2, hr2⟩ : ∃ r2, r2 = r1.crossedAll (s.classOf r1) := ⟨_, rfl⟩
    have crossed := s.crossAll_set_record? i r1 st
    have consumed : r2.consumed = s.settledConsumed r := by
      rw [hr2, Record.crossedAll_consumed, form1]
      simp only [State.settledConsumed, hz]
    have zone : r2.zonePart = none ∨ r2.zonePart.map ZonePart.zone = some zp.zone := by
      rcases Record.crossedAll_zonePart (s.classOf r1) r1 with stays | ⟨gone, -⟩
      · right
        rw [hr2, stays, form1]
        rfl
      · exact .inl (hr2 ▸ gone)
    rw [← hr2] at crossed
    have form : s.settleCross i st b =
        if b || (r1.cross? (s.classOf r1)).isSome then (((s.setRecord i r1).crossAll i st).unlist zp.zone i).enlist i
        else (s.setRecord i r1).crossAll i st := by
      simp only [State.settleCross, hr, hz, ← hr1]
    rw [form]
    split
    · refine ⟨_, State.enlist_record? (r := r2) crossed, consumed, zone.imp (fun gone => ?_) fun stays => ?_⟩
      · rw [gone]; rfl
      · rw [Option.map_map]
        exact stays
    · exact ⟨r2, crossed, consumed, zone⟩

/-- A settlement charges a record once for all. -/
theorem State.settleCross_account (hr : s.record? i = some r) (st : Option Byte) (b : Bool) :
    ∃ r', (s.settleCross i st b).record? i = some r' ∧ s.settledConsumed r' = s.settledConsumed r := by
  obtain ⟨r', hr', consumed, zone⟩ := State.settleCross_charges hr st b
  refine ⟨r', hr', ?_⟩
  cases hz' : r'.zonePart with
  | none => rw [s.settledConsumed_zoneless hz', consumed]
  | some zp' =>
    rcases zone with gone | stays
    · exact nomatch hz'.symm.trans gone
    · rw [hz'] at stays
      obtain ⟨zp, hz, -⟩ := Option.map_eq_some_iff.mp stays.symm
      have stamp := (State.settleCross_settledAt s i st b r' zp' hr' hz').1
      rw [(s.settleCross_sameAir i st b).wear] at stamp
      exact State.settledConsumed_settled hz hz' stamp consumed

/-- A settlement moves no record to another zone. -/
theorem State.settleCross_zoneOf? (s : State) (i : Nat) (st : Option Byte) (b : Bool) {j : Nat} {y : Fin 32}
    (h : (s.settleCross i st b).zoneOf? j = some y) : s.zoneOf? j = some y := by
  by_cases hj : j = i
  · subst hj
    cases hr : s.record? j with
    | none =>
      have same : s.settleCross j st b = s := by simp only [State.settleCross, hr]
      rwa [same] at h
    | some r =>
      obtain ⟨r', hr', -, zone⟩ := State.settleCross_charges hr st b
      rw [State.zoneOf?_of hr'] at h
      rw [State.zoneOf?_of hr]
      rcases zone with gone | stays
      · rw [gone] at h
        cases h
      · rw [← stays, h]
  · rwa [State.zoneOf?_congr (State.settleCross_record?_ne s st b hj)] at h

theorem State.enlist_watch (s : State) (i : Nat) (y : Fin 32) :
    ((s.enlist i).zone y).watch = (s.zone y).watch ∨
      (s.zoneOf? i = some y ∧ ∀ j, j ∈ ((s.enlist i).zone y).watch ↔ j = i ∨ j ∈ (s.zone y).watch) := by
  unfold State.enlist
  split
  · next r hr =>
    split
    · next zp hz =>
      by_cases hy : y = zp.zone
      · subst hy
        refine .inr ⟨by rw [State.zoneOf?_of hr, hz]; rfl, fun j => ?_⟩
        rw [State.setZone_zone_self]
        exact mem_insertWatch ..
      · rw [State.setZone_zone_ne _ _ hy]
        exact .inl rfl
    · exact .inl rfl
  · exact .inl rfl

/-- A settlement brings no record but its own into a list. -/
theorem State.settleCross_watch (s : State) (i : Nat) (st : Option Byte) (b : Bool) {j : Nat} {y : Fin 32}
    (h : j ∈ ((s.settleCross i st b).zone y).watch) : j = i ∨ j ∈ (s.zone y).watch := by
  unfold State.settleCross at h
  split at h
  · next r _ =>
    split at h
    · next zp _ =>
      simp only [] at h
      have unlisted : ∀ a : State, j ∈ ((a.unlist zp.zone i).zone y).watch → j ∈ (a.zone y).watch := fun a m => by
        rw [State.unlist_watch] at m
        split at m
        · next e => exact e ▸ List.mem_of_mem_erase m
        · exact m
      split at h
      · rcases State.enlist_watch (((s.setRecord i (r.settle (s.zone zp.zone).wear)).crossAll i st).unlist zp.zone i) i y
          with same | ⟨-, mem⟩
        · rw [same] at h
          exact .inr (s.crossAll_set_watch i _ st y ▸ unlisted _ h)
        · exact ((mem j).mp h).imp_right fun m => s.crossAll_set_watch i _ st y ▸ unlisted _ m
      · exact .inr (s.crossAll_set_watch i _ st y ▸ h)
    · exact .inr h
  · exact .inr h

/-- A settlement touches the list of the record's own zone alone. -/
theorem State.settleCross_zone_ne (s : State) {i : Nat} (st : Option Byte) (b : Bool) {y : Fin 32} (h : s.zoneOf? i ≠ some y) :
    (s.settleCross i st b).zone y = s.zone y := by
  have watch : ((s.settleCross i st b).zone y).watch = (s.zone y).watch := by
    unfold State.settleCross
    split
    · next r hr =>
      split
      · next zp hz =>
        have ne : y ≠ zp.zone := fun e => h (by rw [State.zoneOf?_of hr, hz, e]; rfl)
        simp only []
        split
        · have off : ((((s.setRecord i (r.settle (s.zone zp.zone).wear)).crossAll i st).unlist zp.zone i).zone y).watch =
              (s.zone y).watch := by rw [State.unlist_watch, if_neg ne, s.crossAll_set_watch]
          rcases State.enlist_watch (((s.setRecord i (r.settle (s.zone zp.zone).wear)).crossAll i st).unlist zp.zone i) i y
            with same | ⟨own, -⟩
          · rw [same, off]
          · have crossed := s.crossAll_set_record? i (r.settle (s.zone zp.zone).wear) st
            rw [State.zoneOf?_of (s := ((s.setRecord i _).crossAll i st).unlist zp.zone i) crossed] at own
            rcases Record.crossedAll_zonePart (s.classOf (r.settle (s.zone zp.zone).wear)) (r.settle (s.zone zp.zone).wear)
              with stays | ⟨gone, -⟩
            · rw [stays, Record.settle_zoned hz] at own
              exact absurd (Option.some.inj own).symm ne
            · rw [gone] at own
              cases own
        · exact s.crossAll_set_watch i _ st y
      · rfl
    · rfl
  have air := s.settleCross_sameAir i st b y
  calc (s.settleCross i st b).zone y
      = { ((s.settleCross i st b).zone y).air with watch := ((s.settleCross i st b).zone y).watch } := rfl
    _ = { (s.zone y).air with watch := (s.zone y).watch } := by rw [air, watch]
    _ = s.zone y := rfl

end

/-! #### The walk -/

section
variable {s : State} {i : Nat} {r : Record} (z : Fin 32) (l : List Nat)

theorem popWalk_record?_ne (h : i ∉ l) (s : State) : (popWalk z l s).record? i = s.record? i := by
  induction l generalizing s with
  | nil => rfl
  | cons j rest ih =>
    obtain ⟨ne, off⟩ := List.ne_and_not_mem_of_not_mem_cons h
    unfold popWalk
    split
    · split
      · split
        · rw [ih off]
          split
          · rfl
          · exact State.settleCross_record?_ne s none true ne
        · rfl
      · exact ih off s
    · exact ih off s

/-- What a record is charged up to W is the same after a pop. -/
theorem popWalk_account (hr : s.record? i = some r) :
    ∃ r', (popWalk z l s).record? i = some r' ∧ s.settledConsumed r' = s.settledConsumed r := by
  induction l generalizing s r with
  | nil => exact ⟨r, hr, rfl⟩
  | cons j rest ih =>
    unfold popWalk
    split
    · next q hq =>
      split
      · split
        · split
          · exact ih hr
          · have air := s.settleCross_sameAir j none true
            obtain ⟨r1, hr1, account⟩ : ∃ r1, (s.settleCross j none true).record? i = some r1 ∧
                s.settledConsumed r1 = s.settledConsumed r := by
              by_cases hij : i = j
              · subst hij
                exact State.settleCross_account hr none true
              · exact ⟨r, by rw [State.settleCross_record?_ne s none true hij, hr], rfl⟩
            obtain ⟨r', hr', later⟩ := ih hr1
            rw [air.settledConsumed, air.settledConsumed] at later
            exact ⟨r', hr', later.trans account⟩
        · exact ⟨r, hr, rfl⟩
      · exact ih hr
    · exact ih hr

/-- A pop leaves a record whose key lies above W (R100). -/
theorem popWalk_above (hr : s.record? i = some r) {zp : ZonePart} (hz : r.zonePart = some zp)
    (above : (s.zone z).wear < zp.key) : (popWalk z l s).record? i = some r := by
  induction l generalizing s with
  | nil => exact hr
  | cons j rest ih =>
    unfold popWalk
    split
    · next q hq =>
      split
      · next zq hzq =>
        split
        · next due =>
          have ne : i ≠ j := by
            rintro rfl
            cases hr.symm.trans hq
            cases hz.symm.trans hzq
            omega
          split
          · exact ih hr above
          · refine ih ?_ ?_
            · rw [State.settleCross_record?_ne s none true ne, hr]
            · rw [(s.settleCross_sameAir j none true).wear]
              exact above
        · exact hr
      · exact ih hr above
    · exact ih hr above

/-- A pop brings into a list no record but those it walks over. -/
theorem popWalk_watch {j : Nat} {y : Fin 32} (h : j ∈ ((popWalk z l s).zone y).watch) : j ∈ l ∨ j ∈ (s.zone y).watch := by
  induction l generalizing s with
  | nil => exact .inr h
  | cons i rest ih =>
    unfold popWalk at h
    split at h
    · split at h
      · split at h
        · rcases ih h with later | now
          · exact .inl (List.mem_cons_of_mem i later)
          · split at now
            · exact .inr now
            · exact (s.settleCross_watch i none true now).imp_left fun e => by rw [e]; exact List.mem_cons_self
        · exact .inr h
      · exact (ih h).imp_left (List.mem_cons_of_mem i)
    · exact (ih h).imp_left (List.mem_cons_of_mem i)

/-- A pop over records of its zone touches no other zone. -/
theorem popWalk_zone_ne (own : ∀ j ∈ l, ∀ y, s.zoneOf? j = some y → y = z) {y : Fin 32} (hy : y ≠ z) :
    (popWalk z l s).zone y = s.zone y := by
  induction l generalizing s with
  | nil => rfl
  | cons i rest ih =>
    have rest_own := fun j hj => own j (List.mem_cons_of_mem i hj)
    unfold popWalk
    split
    · split
      · split
        · split
          · exact ih rest_own
          · rw [ih fun j hj x hx => rest_own j hj x (s.settleCross_zoneOf? i none true hx)]
            exact s.settleCross_zone_ne none true fun h => hy (own i List.mem_cons_self y h)
        · rfl
      · exact ih rest_own
    · exact ih rest_own

theorem State.settleNotices_zone {s t : State} {r : Record} {st : Option Byte} {n : Notice} (h : n ∈ s.settleNotices t r st) :
    n.zone = r.zonePart.map ZonePart.zone := by
  unfold State.settleNotices at h
  split at h
  · next zp hz =>
    obtain ⟨kind, -, rfl⟩ := List.mem_map.mp h
    rw [hz]
    rfl
  · cases h

/-- The notices of a pop over records of its zone name the zone (R102). -/
theorem popWalk_posts_own (s : State) :
    ∃ ns, (∀ n ∈ ns, n.OfPop ∧ ((∀ j ∈ l, ∀ y, s.zoneOf? j = some y → y = z) → n.zone = some z)) ∧ s.Posts (popWalk z l s) ns := by
  induction l generalizing s with
  | nil => exact ⟨[], by simp, .nothing rfl rfl⟩
  | cons i rest ih =>
    have passed : ∃ ns, (∀ n ∈ ns, n.OfPop ∧ ((∀ j ∈ i :: rest, ∀ y, s.zoneOf? j = some y → y = z) → n.zone = some z)) ∧
        s.Posts (popWalk z rest s) ns := by
      obtain ⟨ns, each, posts⟩ := ih s
      exact ⟨ns, fun n hn => (each n hn).imp_right fun k own => k fun j hj => own j (List.mem_cons_of_mem i hj), posts⟩
    unfold popWalk
    split
    · next r hr =>
      split
      · next zp hz =>
        split
        · split
          · exact passed
          · obtain ⟨ns, each, posts⟩ := ih (s.settleCross i none true)
            refine ⟨s.settleNotices s r none ++ ns, fun n hn => ?_, (State.settleCross_posts hr none true).trans posts⟩
            rcases List.mem_append.mp hn with now | later
            · refine ⟨State.settleNotices_ofPop now, fun own => ?_⟩
              rw [State.settleNotices_zone now, hz, Option.map_some,
                own i List.mem_cons_self zp.zone (by rw [State.zoneOf?_of hr, hz]; rfl)]
            · exact (each n later).imp_right fun k own => k fun j hj y hy =>
                own j (List.mem_cons_of_mem i hj) y (s.settleCross_zoneOf? i none true hy)
        · exact ⟨[], by simp, .nothing rfl rfl⟩
      · exact passed
    · exact passed

end

/-! #### Steps 5 and 6 of an advance -/

/-- The records in the list of a zone name no other zone. -/
def State.OwnList (s : State) (z : Fin 32) : Prop := ∀ i ∈ (s.zone z).watch, ∀ y, s.zoneOf? i = some y → y = z

theorem State.Lists.ownList {s : State} {h : Hands} (k : s.Lists h) (z : Fin 32) : s.OwnList z := fun i hi _ hy =>
  Option.some.inj (hy.symm.trans ((k.mem z i).mp hi).2)

theorem State.ListsRight.lists {s : State} (h : s.ListsRight) : s.Lists s.hands := (s.listsRight_iff.mp h).2.1

theorem State.SameLists.ownList {s t : State} (e : s.SameLists t) {z : Fin 32} (h : s.OwnList z) : t.OwnList z := by
  intro i hi y hy
  rw [e.watch] at hi
  rw [State.zoneOf?_congr (e.records i)] at hy
  exact h i hi y hy

section
variable (s : State) (z : Fin 32)

/-- The notices of a pop, of its zone where the records in its list are (R100, R102). -/
theorem State.pop_posts_own : ∃ ns, (∀ n ∈ ns, n.OfPop ∧ (s.OwnList z → n.zone = some z)) ∧ s.Posts (s.pop z) ns :=
  popWalk_posts_own z _ s

/-- Steps 5 and 6 of an advance: the notice of the stale flag, then those of the pop (R67, R100). -/
theorem State.refreshPop_posts_own (st : Option Byte) :
    ∃ ns, (∀ n ∈ ns, n.OfPop ∧ (s.OwnList z → n.zone = some z)) ∧
      s.Posts (s.refreshPop z st) (s.staleNotices (s.refreshPop z st) z st ++ ns) := by
  obtain ⟨ns, each, popped⟩ := (s.refreshZone z st).pop_posts_own z
  have stale : ((s.refreshPop z st).zone z).stale = ((s.refreshZone z st).zone z).stale := by
    show ((s.refreshPop z st).zone z).air.stale = ((s.refreshZone z st).zone z).air.stale
    rw [State.refreshPop, State.pop_sameAir]
  have said : s.staleNotices (s.refreshPop z st) z st = s.staleNotices (s.refreshZone z st) z st := by
    simp only [State.staleNotices, stale]
  refine ⟨ns, fun n hn => (each n hn).imp_right fun k own => k ((s.refreshZone_same z st).ownList own), ?_⟩
  rw [said]
  exact (s.refreshZone_posts z st).trans popped

end

end Sys2Proof.Machine
end

section
namespace Sys2Proof.Machine

/-! ### What steps 5 and 6 of an advance leave of their zone (R63 to R67) -/

/-- Step 5 speaks of everything in a zone but its list. -/
theorem Zone.Refreshed.of_air {x y : Zone} {t : Tables} {cfg : ZoneConfig} {now : Nat} (h : x.Refreshed t cfg now)
    (air : y.air = x.air) : y.Refreshed t cfg now := by
  show y.air.Refreshed t cfg now
  rw [air]
  exact h

/-- A fresh zone has a fresh reading, and is not stale. -/
theorem Zone.Refreshed.not_stale {x : Zone} {t : Tables} {cfg : ZoneConfig} {now : Nat} (h : x.Refreshed t cfg now)
    {sl : Slot} (mem : sl ∈ x.slots.toList) (valid : sl.valid = true) (recent : now - sl.arrival ≤ cfg.staleness) :
    x.stale = false := by
  obtain ⟨fresh, hf, -, some_fresh⟩ := h
  refine (some_fresh fun none_fresh => ?_).1
  have hit : sl ∈ fresh := hf ▸ List.mem_filter.mpr ⟨mem, by simp [valid, recent]⟩
  rw [none_fresh] at hit
  cases hit

section
variable (s : State) (z : Fin 32) (st : Option Byte)

theorem State.refreshPop_self_air :
    ((s.refreshPop z st).zone z).air = ((s.zone z).refresh s.tables (s.tables.zone z) s.now).air := by
  rw [State.refreshPop_air, if_pos rfl]

theorem State.refreshPop_other {y : Fin 32} (h : y ≠ z) : ((s.refreshPop z st).zone y).air = (s.zone y).air := by
  rw [State.refreshPop_air, if_neg h]

theorem State.refreshPop_refreshed : ((s.refreshPop z st).zone z).Refreshed s.tables (s.tables.zone z) s.now :=
  (Zone.refresh_refreshed ..).of_air (s.refreshPop_self_air z st)

theorem State.refreshPop_slots : ((s.refreshPop z st).zone z).slots = (s.zone z).slots := by
  have h := congrArg Zone.slots (s.refreshPop_self_air z st)
  exact h.trans (Zone.refresh_slots ..)

theorem Zone.charge_slots (x : Zone) (n : Nat) : (x.charge n).slots = x.slots := by
  unfold Zone.charge Zone.addDry
  split <;> rfl

theorem Zone.charge_stale (x : Zone) (n : Nat) : (x.charge n).stale = x.stale := by
  unfold Zone.charge Zone.addDry
  split <;> rfl

theorem State.chargeZone_self : (s.chargeZone z).zone z = (s.zone z).charge s.now := by rw [State.chargeZone_zone, if_pos rfl]

/-- A charge leaves the stale flag: the notice of its change is that of the refresh behind it. -/
theorem State.chargeZone_staleNotices (t : State) : (s.chargeZone z).staleNotices t z st = s.staleNotices t z st := by
  have stale : ((s.chargeZone z).zone z).stale = (s.zone z).stale := by rw [s.chargeZone_self, Zone.charge_stale]
  unfold State.staleNotices
  rw [stale]
  rfl

theorem State.chargeZone_posts : s.Posts (s.chargeZone z) [] := .nothing rfl rfl

end

section
variable {s : State} {z : Fin 32}

theorem State.advance_of (h : (s.tables.zone z).kind ≠ .unset) : s.advance z = (s.chargeZone z).refreshPop z none := by
  rw [State.advance, if_pos ((ZoneConfig.configured_iff _).mpr h)]

theorem State.advance_refreshed (h : (s.tables.zone z).kind ≠ .unset) :
    ((s.advance z).zone z).Refreshed s.tables (s.tables.zone z) s.now := by
  rw [State.advance_of h]
  exact (s.chargeZone z).refreshPop_refreshed z none

theorem State.advance_slots (h : (s.tables.zone z).kind ≠ .unset) : ((s.advance z).zone z).slots = (s.zone z).slots := by
  rw [State.advance_of h, State.refreshPop_slots, State.chargeZone_self, Zone.charge_slots]

/-- An advance posts the notice of the stale flag, then those of its pop, of its zone where its list is right (R67, R102). -/
theorem State.advance_posts_own (h : (s.tables.zone z).kind ≠ .unset) :
    ∃ ns, (∀ n ∈ ns, n.OfPop ∧ (s.OwnList z → n.zone = some z)) ∧
      s.Posts (s.advance z) (s.staleNotices (s.advance z) z none ++ ns) := by
  rw [State.advance_of h]
  obtain ⟨ns, each, posts⟩ := (s.chargeZone z).refreshPop_posts_own z none
  refine ⟨ns, fun n hn => (each n hn).imp_right fun k own => k ((s.chargeZone_same z).ownList own), ?_⟩
  rw [State.chargeZone_staleNotices] at posts
  exact (s.chargeZone_posts z).trans posts

end

/-! ### Timers and their requests (R68, R163) -/

theorem zone?_val (z : Fin 32) : zone? z.val = some z := (zone?_eq_some _ _).mpr rfl

theorem batch?_val (b : Fin 16) : batch? b.val = some b := dif_pos b.isLt

theorem State.timerDue_iff (s : State) (z : Fin 32) : s.timerDue z = true ↔
    (s.tables.zone z).kind ≠ .unset ∧ (s.zone z).lastAdvance + (s.tables.zone z).interval ≤ 4294967295 ∧
      (s.zone z).lastAdvance + (s.tables.zone z).interval ≤ s.now := by
  simp only [State.timerDue, Bool.and_eq_true, ZoneConfig.configured_iff, decide_eq_true_eq, and_assoc]
  rfl

section
variable {s : State} (live : s.live = true)
include live

/-- An advance timer makes one request for its zone at its time, and none before it (R68). -/
theorem execAdvanceTimerExpiry_live (z : Fin 32) :
    exec (.advanceTimerExpiry z.val) s =
      .next (if s.timerDue z = true ∧ ZoneRequest.timer z ∉ s.zoneWait then { s with zoneWait := s.zoneWait ++ [.timer z] }
        else s) := by
  show execAdvanceTimerExpiry z.val s = _
  simp only [execAdvanceTimerExpiry, zone?_val, live, true_and]
  split <;> rfl

/-- A timer request is served at the head of the Zone Engine's queue, and only there (R68). -/
theorem execTimerRequest_live (z : Fin 32) :
    exec (.timerRequest z.val) s =
      .next (if s.zoneWait.head? = some (.timer z) then s.takeZoneRequest.advance z else s) := by
  show execTimerRequest z.val s = _
  simp only [execTimerRequest, zone?_val, live, true_and]
  split <;> rfl

/-- A stale timer makes one request for its batch at its deadline (R163). -/
theorem execStaleTimerExpiry_overdue {b : Fin 16} {x : Batch} (hx : s.batches[b.val] = some x) (due : x.deadline ≤ s.now)
    (posted : x.stalePosted = false) (waits : b ∉ s.batchWait) :
    exec (.staleTimerExpiry b.val) s = .next { s with batchWait := s.batchWait ++ [b] } := by
  have overdue : x.overdue s.now = true := by simp [Batch.overdue, due, posted]
  show execStaleTimerExpiry b.val s = _
  simp only [execStaleTimerExpiry, batch?_val, live, if_true, State.staleExpiry, hx]
  rw [if_pos ⟨overdue, waits⟩]

/-- The request of an overdue batch posts BAKE-STALE once, of its head member (R163). -/
theorem execBakeStale_posts {b : Fin 16} {x : Batch} {i : Nat} {rest : List Nat} {r : Record} (waits : b ∈ s.batchWait)
    (hx : s.batches[b.val] = some x) (head : x.members = i :: rest) (hr : s.record? i = some r) (busy : s.plant.tx ≠ .idle) :
    exec (.bakeStale b.val) s = .next
      { s with
        batchWait := s.batchWait.filter fun n => n != b
        batches := s.batches.set b.val (some { x with stalePosted := true })
        notices := s.notices.arrive
          { kind := .bakeStale, high := false, wallTime := s.wallTime, carrier := some r.id, zone := none
            station := some x.oven, percent := some ((s.tables.cls r.cls).pct r.consumed), reason := none
            extra := .absent, startLost := 0 } } := by
  obtain ⟨s', hs'⟩ : ∃ s', s' = { s with
    batchWait := s.batchWait.filter fun n => n != b
    batches := s.batches.set b.val (some { x with stalePosted := true }) } := ⟨_, rfl⟩
  have record : s'.record? i = some r := by rw [hs']; exact hr
  have plant : s'.plant.tx ≠ .idle := by rw [hs']; exact busy
  have posts : ∀ n, s'.post n = { s' with notices := s'.notices.arrive n } := fun n => by
    simp [State.post, State.kickPlant, plant]
  have served : exec (.bakeStale b.val) s = .next (s'.post
      (s'.notice .bakeStale false ((x.members.head?.bind s'.record?).map Record.id) none (some x.oven)
        (x.members.head?.bind s'.pctOf?) none .absent)) := by
    show execBakeStale b.val s = _
    simp only [execBakeStale, batch?_val, live, waits, and_self, if_true, hx, hs']
    rfl
  have pct : s'.pctOf? i = some ((s'.classOf r).pct r.consumed) := by
    rw [State.pctOf?, record]
    rfl
  rw [head, List.head?_cons, Option.bind_some, Option.bind_some, record, pct] at served
  rw [served, posts, hs']
  rfl

end

/-- Settles O33, from what a timer's expiry makes, and from what an advance leaves of its zone and posts. -/
theorem timersAndTheirRequests : Obligations.TimersAndTheirRequests := by
  unfold Obligations.TimersAndTheirRequests
  refine ⟨fun s live => ⟨fun z kind fits due waits => ?_, fun z idle => ?_, fun z head => ?_,
    fun b x hx due posted waits => execStaleTimerExpiry_overdue live hx due posted waits,
    fun b x i rest r waits hx head hr busy => execBakeStale_posts live waits hx head hr busy⟩, fun s z live head kind => ?_⟩
  · rw [execAdvanceTimerExpiry_live live, if_pos ⟨(s.timerDue_iff z).mpr ⟨kind, fits, due⟩, waits⟩]
  · rw [execAdvanceTimerExpiry_live live, if_neg]
    rintro ⟨due, waits⟩
    obtain ⟨kind, fits, due⟩ := (s.timerDue_iff z).mp due
    rcases idle with unset | early | late | waiting
    · exact kind unset
    · omega
    · omega
    · exact waits waiting
  · rw [execTimerRequest_live live, if_neg head]
  · obtain ⟨taken, ht⟩ : ∃ taken, taken = s.takeZoneRequest := ⟨_, rfl⟩
    have kind' : (taken.tables.zone z).kind ≠ .unset := by rw [ht]; exact kind
    obtain ⟨ns, each, posts⟩ := State.advance_posts_own kind'
    refine ⟨taken.advance z, ?_, ?_, ?_, ?_, ?_, ?_, ⟨ns, fun n hn => ?_, ?_⟩, fun y hy => ?_⟩
    · rw [execTimerRequest_live live, if_pos head, ht]
    · exact (ht ▸ s.zoneWait_frame _ : s.ZoneFrame taken).trans (taken.advance_frame z)
    · exact (State.advance_charged kind').from_air (by rw [ht]; rfl) (by rw [ht]; rfl)
    · rw [State.advance_slots kind', ht]
      rfl
    · rw [State.advance_zoneWait ((ZoneConfig.configured_iff _).mpr kind'), ht]
      rfl
    · have left := State.advance_refreshed kind'
      rw [ht] at left
      rw [ht]
      exact left
    · exact (each n hn).imp_right fun k right => k (by rw [ht]; exact right.lists.ownList z)
    · refine State.Posts.posted ((State.Posts.nothing (t := taken) (by rw [ht]; rfl) (by rw [ht]; rfl)).trans ?_)
      rw [show s.staleNotices (taken.advance z) z none = taken.staleNotices (taken.advance z) z none by rw [ht]; rfl]
      exact posts
    · rw [State.advance_other taken hy, ht]
      rfl

end Sys2Proof.Machine
end

section
namespace Sys2Proof.Machine

/-! ### Sample intake (R61 to R68, R129) -/

/-- The reading an accepted sample writes into its slot (R26, R62). -/
def Telegram.reading (t : Telegram) (now : Nat) : Slot :=
  { temp := max (-400) (min 1250 (tempAt t.body 2)), rh := min 1000 (natAt t.body 4 2), arrival := now, valid := true }

/-- The zone of an accepted sample charged, with the slot written: what steps 5 and 6 of its advance find (R62). -/
def State.sampled (s : State) (z : Fin 32) (slot : Fin 3) (t : Telegram) : State :=
  (s.chargeZone z).setZone z
    { (s.chargeZone z).zone z with slots := ((s.chargeZone z).zone z).slots.set slot.val (t.reading s.now) }

section
variable (s : State) (z : Fin 32) (slot : Fin 3) (t : Telegram)

theorem State.acceptSample_eq : s.acceptSample z slot t = (s.sampled z slot t).refreshPop z (some t.source) := rfl

theorem State.sampled_self :
    (s.sampled z slot t).zone z =
      { (s.zone z).charge s.now with slots := (s.zone z).slots.set slot.val (t.reading s.now) } := by
  unfold State.sampled
  rw [State.setZone_zone_self, State.chargeZone_self]
  simp only [Zone.charge_slots]

theorem State.sampled_other {y : Fin 32} (h : y ≠ z) : (s.sampled z slot t).zone y = s.zone y := by
  rw [State.sampled, State.setZone_zone_ne _ _ h, State.chargeZone_other s h]

theorem State.sampled_frame : s.ZoneFrame (s.sampled z slot t) := (s.chargeZone_frame z).trans (State.setZone_frame ..)

theorem State.sampled_same : s.SameLists (s.sampled z slot t) :=
  (s.chargeZone_same z).trans (.setZone (s.chargeZone z) z rfl)

theorem State.sampled_charged : s.Charged (s.sampled z slot t) z := by
  obtain ⟨wear, dry, last, waits⟩ := s.chargeZone_charged z
  rw [State.chargeZone_self] at wear dry last
  exact ⟨by rw [State.sampled_self]; exact wear, by rw [State.sampled_self]; exact dry,
    by rw [State.sampled_self]; exact last, waits⟩

theorem State.acceptSample_frame : s.ZoneFrame (s.acceptSample z slot t) :=
  (s.sampled_frame z slot t).trans (State.refreshPop_frame ..)

theorem State.acceptSample_charged : s.Charged (s.acceptSample z slot t) z :=
  State.refreshPop_charged (s.sampled_charged z slot t)

theorem State.acceptSample_zoneWait : (s.acceptSample z slot t).zoneWait = s.zoneWait.filter fun q => q != .timer z := by
  rw [State.acceptSample_eq, State.refreshPop_zoneWait]
  rfl

theorem State.acceptSample_slots :
    ((s.acceptSample z slot t).zone z).slots = (s.zone z).slots.set slot.val (t.reading s.now) := by
  rw [State.acceptSample_eq, State.refreshPop_slots, State.sampled_self]

theorem State.acceptSample_refreshed :
    ((s.acceptSample z slot t).zone z).Refreshed s.tables (s.tables.zone z) s.now :=
  (s.sampled z slot t).refreshPop_refreshed z (some t.source)

/-- The reading just written is fresh (R62, R63). -/
theorem State.acceptSample_fresh : ((s.acceptSample z slot t).zone z).stale = false := by
  refine (s.acceptSample_refreshed z slot t).not_stale (sl := t.reading s.now) ?_ rfl ?_
  · rw [State.acceptSample_slots, Vector.mem_toList_iff]
    exact Vector.mem_set ..
  · rw [show (t.reading s.now).arrival = s.now from rfl, Nat.sub_self]
    exact Nat.zero_le _

theorem State.acceptSample_other {y : Fin 32} (h : y ≠ z) : ((s.acceptSample z slot t).zone y).air = (s.zone y).air := by
  rw [State.acceptSample_eq, State.refreshPop_other _ _ _ h, State.sampled_other _ _ _ _ h]

/-- The notices of an accepted sample: ZONE-FRESH with its source where the zone was stale, then those of the pop (R67). -/
theorem State.acceptSample_posts :
    ∃ ns, (∀ n ∈ ns, n.OfPop ∧ (s.OwnList z → n.zone = some z)) ∧
      s.Posts (s.acceptSample z slot t) (s.staleNotices (s.acceptSample z slot t) z (some t.source) ++ ns) := by
  obtain ⟨ns, each, posts⟩ := (s.sampled z slot t).refreshPop_posts_own z (some t.source)
  refine ⟨ns, fun n hn => (each n hn).imp_right fun k own => k ((s.sampled_same z slot t).ownList own), ?_⟩
  have stale : ((s.sampled z slot t).zone z).stale = (s.zone z).stale := by
    rw [State.sampled_self]
    exact Zone.charge_stale ..
  have said : (s.sampled z slot t).staleNotices (s.acceptSample z slot t) z (some t.source) =
      s.staleNotices (s.acceptSample z slot t) z (some t.source) := by
    unfold State.staleNotices
    rw [stale]
    rfl
  rw [← State.acceptSample_eq, said] at posts
  exact (State.Posts.nothing (t := s.sampled z slot t) rfl rfl).trans posts

/-- A sample is accepted for a slot of a configured zone, from a SENSOR station (R61). -/
theorem State.sampleTarget?_eq_some (n : Nat) : s.sampleTarget? t n = some (z, slot) ↔
    zone? n = some z ∧ (byteAt t.body 1).toNat = slot.val ∧ (s.tables.station t.source).cls = .sensor ∧
      (s.tables.zone z).kind ≠ .unset := by
  unfold State.sampleTarget?
  split
  · next y hy =>
    simp only []
    split
    · next small =>
      simp only [ZoneConfig.configured_iff, hy, Option.some.injEq]
      constructor
      · intro h
        split at h
        · next ok =>
          cases h
          exact ⟨rfl, rfl, ok⟩
        · cases h
      · rintro ⟨rfl, e, ok⟩
        rw [if_pos ok]
        exact congrArg some (congrArg (Prod.mk y) (Fin.ext e))
    · next big => exact ⟨nofun, fun h => absurd (h.2.1 ▸ slot.isLt) big⟩
  · next none => exact ⟨nofun, fun h => nomatch none.symm.trans h.1⟩

end

section
variable {s : State} {w : Work} (phase : s.engine.phase = .offering) (work : s.engine.work = some w) (live : s.live = true)
  (head : s.zoneWait.head? = some .engine)
include phase work live head

theorem execSampleIntake_accepts {z : Fin 32} {slot : Fin 3}
    (target : s.takeZoneRequest.sampleTarget? w.tel w.zone = some (z, slot)) :
    exec .sampleIntake s = .next ((s.takeZoneRequest.acceptSample z slot w.tel).placeOutput w .upRelay w.tel) := by
  have turn : s.engineTurn = true := by
    rw [State.engineTurn, State.running_of_live live, head]
    rfl
  simp only [exec, execSampleIntake, phase, work, live, turn, and_self, if_true, target]

theorem execSampleIntake_rejects (target : s.takeZoneRequest.sampleTarget? w.tel w.zone = none) :
    exec .sampleIntake s = .next (s.takeZoneRequest.rejectAmbient.placeOutput w .upRelay w.tel) := by
  have turn : s.engineTurn = true := by
    rw [State.engineTurn, State.running_of_live live, head]
    rfl
  simp only [exec, execSampleIntake, phase, work, live, turn, and_self, if_true, target]

end

/-- Settles O12, from what an accepted sample leaves of its zone and posts; the reading it writes is fresh, so that the zone is
not stale behind it. -/
theorem sampleIntakeTaken : Obligations.SampleIntakeTaken := by
  unfold Obligations.SampleIntakeTaken
  intro s w phase work live head
  refine ⟨fun rejected => ?_, fun z slot hz hslot sensor kind => ?_⟩
  · have none : s.takeZoneRequest.sampleTarget? w.tel w.zone = none := by
      refine Option.eq_none_iff_forall_not_mem.mpr fun (z, slot) accepted => ?_
      obtain ⟨hz, hslot, sensor, kind⟩ := (State.sampleTarget?_eq_some _ _ _ _ _).mp accepted
      rcases rejected with off | big | other | ⟨y, hy, unset⟩
      · exact nomatch off.symm.trans hz
      · omega
      · exact other sensor
      · cases hy.symm.trans hz
        exact kind unset
    rw [execSampleIntake_rejects phase work live head none]
    rfl
  · have target : s.takeZoneRequest.sampleTarget? w.tel w.zone = some (z, slot) :=
      (State.sampleTarget?_eq_some _ _ _ _ _).mpr ⟨hz, hslot, sensor, kind⟩
    obtain ⟨a, ha⟩ : ∃ a, a = s.takeZoneRequest := ⟨_, rfl⟩
    obtain ⟨u, hu⟩ : ∃ u, u = a.acceptSample z slot w.tel := ⟨_, rfl⟩
    have served : s.ZoneFrame u :=
      (show s.ZoneFrame a from ha ▸ s.zoneWait_frame _).trans (hu ▸ a.acceptSample_frame z slot w.tel)
    obtain ⟨framed, engine⟩ := served.engineTo .placing { w with output := some { queue := .upRelay, tel := w.tel } }
    obtain ⟨ns, each, posts⟩ := a.acceptSample_posts z slot w.tel
    refine ⟨u.placeOutput w .upRelay w.tel, ?_, engine, framed, ?_, ?_, ?_, ?_, ?_, ⟨ns, fun n hn => ?_, ?_⟩, fun y hy => ?_⟩
    · rw [execSampleIntake_accepts phase work live head target, hu, ha]
    · have charged : a.Charged u z := hu ▸ a.acceptSample_charged z slot w.tel
      exact (charged.from_air (s := s) (by rw [ha]; rfl) (by rw [ha]; rfl)).of_air rfl id
    · show u.zoneWait = _
      rw [hu, State.acceptSample_zoneWait, ha]
      rfl
    · show (u.zone z).slots = _
      rw [hu, State.acceptSample_slots, ha]
      rfl
    · show (u.zone z).stale = false
      rw [hu, State.acceptSample_fresh]
    · show (u.zone z).Refreshed s.tables (s.tables.zone z) s.now
      have left := a.acceptSample_refreshed z slot w.tel
      rw [← hu, ha] at left
      exact left
    · exact (each n hn).imp_right fun k right => k (by rw [ha]; exact right.lists.ownList z)
    · refine State.Posts.posted (t := u) ((State.Posts.nothing (t := a) (by rw [ha]; rfl) (by rw [ha]; rfl)).trans ?_)
      rw [← hu, ha] at posts
      rw [ha]
      exact posts
    · show (u.zone y).air = (s.zone y).air
      rw [hu, State.acceptSample_other a z slot w.tel hy, ha]
      rfl

end Sys2Proof.Machine
end

section
namespace Sys2Proof.Machine

/-! ### Writing a zone configuration row (R72) -/

/-- A request that the Zone Engine serves ends with the agent's reply, which touches nothing else. -/
theorem State.ZoneFrame.reply {s u : State} (h : s.ZoneFrame u) (t : Telegram) (st : MgmtStatus) (data : List Byte) :
    State.ZoneFrame { s with agent := (s.reply t st data).agent } (u.reply t st data) := by
  refine ⟨?_, h.2⟩
  rw [h.writeFrame.reply]
  exact congrArg (fun x : State => { x with agent := (s.reply t st data).agent }) h.1

/-- The state a zone write steps over to, once the zone is charged as it stood (R72). -/
def State.zonePut (s : State) (z : Fin 32) (row : ZoneConfig) : State :=
  { (if (s.tables.zone z).configured then s.chargeZone z else s) with tables := s.tables.write (.zone z row) }

section
variable (s : State) (z : Fin 32) (row : ZoneConfig)

theorem State.zoneWrite_eq :
    s.zoneWrite z row =
      if (s.tables.zone z).configured && row.configured then
        ((s.zonePut z row).zoneChange z (s.tables.zone z) row).refreshPop z none
      else (s.zonePut z row).zoneChange z (s.tables.zone z) row := by
  unfold State.zoneWrite State.zonePut
  simp only []
  cases (s.tables.zone z).configured <;> rfl

theorem Tables.write_zone_self (t : Tables) : (t.write (.zone z row)).zone z = row := by
  simp [Tables.write, Tables.zone]

theorem State.zonePut_frame : State.ZoneFrame { s with tables := s.tables.write (.zone z row) } (s.zonePut z row) := by
  unfold State.zonePut
  split
  · exact ⟨rfl, fun _ => rfl⟩
  · exact .refl _

theorem State.zonePut_other {y : Fin 32} (h : y ≠ z) : (s.zonePut z row).zone y = s.zone y := by
  unfold State.zonePut
  split
  · exact s.chargeZone_other h
  · rfl

theorem State.zonePut_notices : (s.zonePut z row).notices = s.notices := by
  unfold State.zonePut
  split <;> rfl

variable {s z row}

theorem State.zonePut_configured (old : (s.tables.zone z).kind ≠ .unset) :
    s.zonePut z row = { s.chargeZone z with tables := s.tables.write (.zone z row) } := by
  rw [State.zonePut, if_pos ((ZoneConfig.configured_iff _).mpr old)]

theorem ZoneConfig.configured_eq_false {c : ZoneConfig} (h : c.kind = .unset) : c.configured = false := by
  simp [ZoneConfig.configured, h]

theorem ZoneConfig.configured_eq_true {c : ZoneConfig} (h : c.kind ≠ .unset) : c.configured = true :=
  (ZoneConfig.configured_iff c).mpr h

theorem State.zonePut_unset (old : (s.tables.zone z).kind = .unset) :
    s.zonePut z row = { s with tables := s.tables.write (.zone z row) } := by
  rw [State.zonePut, ZoneConfig.configured_eq_false old]
  rfl

/-- A zone that stays configured is refreshed under its new row (R72). -/
theorem State.zoneWrite_stays (old : (s.tables.zone z).kind ≠ .unset) (new : row.kind ≠ .unset) :
    s.zoneWrite z row = (s.zonePut z row).refreshPop z none := by
  rw [State.zoneWrite_eq, State.zoneChange, ZoneConfig.configured_eq_true old, ZoneConfig.configured_eq_true new]
  rfl

/-- One that ceases to be configured is set stale (R72). -/
theorem State.zoneWrite_leaves (old : (s.tables.zone z).kind ≠ .unset) (new : row.kind = .unset) :
    s.zoneWrite z row = (s.zonePut z row).setZone z (((s.zonePut z row).zone z).setStale row.fallback) := by
  rw [State.zoneWrite_eq, State.zoneChange, ZoneConfig.configured_eq_true old, ZoneConfig.configured_eq_false new]
  rfl

/-- One that becomes configured starts stale, its clocks running from now on (R72). -/
theorem State.zoneWrite_enters (old : (s.tables.zone z).kind = .unset) (new : row.kind ≠ .unset) :
    s.zoneWrite z row =
      (s.zonePut z row).setZone z { (s.zone z).setStale row.fallback with lastAdvance := s.now } := by
  rw [State.zoneWrite_eq, State.zoneChange, ZoneConfig.configured_eq_false old, ZoneConfig.configured_eq_true new,
    State.zonePut_unset old]
  rfl

/-- A write of kind NONE over kind NONE replaces the row (R72). -/
theorem State.zoneWrite_none (old : (s.tables.zone z).kind = .unset) (new : row.kind = .unset) :
    s.zoneWrite z row = { s with tables := s.tables.write (.zone z row) } := by
  rw [State.zoneWrite_eq, State.zoneChange, ZoneConfig.configured_eq_false old, ZoneConfig.configured_eq_false new,
    State.zonePut_unset old]
  rfl

variable (s z row)

/-- The four cases of a zone write, by what is configured before and after. -/
theorem State.zoneWrite_cases {P : State → Prop}
    (stays : (s.tables.zone z).kind ≠ .unset → row.kind ≠ .unset → P ((s.zonePut z row).refreshPop z none))
    (leaves : (s.tables.zone z).kind ≠ .unset → row.kind = .unset →
      P ((s.zonePut z row).setZone z (((s.zonePut z row).zone z).setStale row.fallback)))
    (enters : (s.tables.zone z).kind = .unset → row.kind ≠ .unset →
      P ((s.zonePut z row).setZone z { (s.zone z).setStale row.fallback with lastAdvance := s.now }))
    (none : (s.tables.zone z).kind = .unset → row.kind = .unset → P { s with tables := s.tables.write (.zone z row) }) :
    P (s.zoneWrite z row) := by
  by_cases old : (s.tables.zone z).kind = .unset
  · by_cases new : row.kind = .unset
    · exact State.zoneWrite_none old new ▸ none old new
    · exact State.zoneWrite_enters old new ▸ enters old new
  · by_cases new : row.kind = .unset
    · exact State.zoneWrite_leaves old new ▸ leaves old new
    · exact State.zoneWrite_stays old new ▸ stays old new

theorem State.zoneWrite_frame : State.ZoneFrame { s with tables := s.tables.write (.zone z row) } (s.zoneWrite z row) :=
  State.zoneWrite_cases s z row (fun _ _ => (s.zonePut_frame z row).trans (State.refreshPop_frame ..))
    (fun _ _ => (s.zonePut_frame z row).trans (State.setZone_frame ..))
    (fun _ _ => (s.zonePut_frame z row).trans (State.setZone_frame ..)) fun _ _ => .refl _

theorem State.zoneWrite_other {y : Fin 32} (h : y ≠ z) : ((s.zoneWrite z row).zone y).air = (s.zone y).air := by
  refine State.zoneWrite_cases (P := fun u => (u.zone y).air = (s.zone y).air) s z row (fun _ _ => ?_) (fun _ _ => ?_)
    (fun _ _ => ?_) fun _ _ => rfl
  · rw [State.refreshPop_other _ _ _ h, State.zonePut_other _ _ _ h]
  · rw [State.setZone_zone_ne _ _ h, State.zonePut_other _ _ _ h]
  · rw [State.setZone_zone_ne _ _ h, State.zonePut_other _ _ _ h]

variable {s z row}

/-- A zone that was configured is charged as it stood (R66, R72). -/
theorem State.zoneWrite_charged (old : (s.tables.zone z).kind ≠ .unset) : s.Charged (s.zoneWrite z row) z := by
  have put : s.Charged (s.zonePut z row) z := by
    rw [State.zonePut_configured old]
    exact (s.chargeZone_charged z).of_air rfl id
  refine State.zoneWrite_cases (P := fun u => s.Charged u z) s z row (fun _ _ => State.refreshPop_charged put) (fun _ _ => ?_)
    (fun unset _ => absurd unset old) fun unset _ => absurd unset old
  obtain ⟨wear, dry, last, waits⟩ := put
  exact ⟨by rw [State.setZone_zone_self]; exact wear, by rw [State.setZone_zone_self]; exact dry,
    by rw [State.setZone_zone_self]; exact last, waits⟩

/-- One that was not keeps its figures (R72). -/
theorem State.zoneWrite_clocks (old : (s.tables.zone z).kind = .unset) :
    ((s.zoneWrite z row).zone z).wear = (s.zone z).wear ∧ ((s.zoneWrite z row).zone z).dry = (s.zone z).dry := by
  refine State.zoneWrite_cases (P := fun u => (u.zone z).wear = (s.zone z).wear ∧ (u.zone z).dry = (s.zone z).dry) s z row
    (fun kind _ => absurd old kind) (fun kind _ => absurd old kind) (fun _ _ => ?_) fun _ _ => ⟨rfl, rfl⟩
  rw [State.setZone_zone_self]
  exact ⟨rfl, rfl⟩

theorem State.zoneWrite_starts (old : (s.tables.zone z).kind = .unset) (new : row.kind ≠ .unset) :
    ((s.zoneWrite z row).zone z).lastAdvance = s.now := by
  rw [State.zoneWrite_enters old new, State.setZone_zone_self]

/-- A zone that stays configured keeps its readings, is refreshed under its new row, and posts what an advance does (R67, R72). -/
theorem State.zoneWrite_refreshed (old : (s.tables.zone z).kind ≠ .unset) (new : row.kind ≠ .unset) :
    ((s.zoneWrite z row).zone z).slots = (s.zone z).slots ∧
      ((s.zoneWrite z row).zone z).Refreshed s.tables row s.now ∧
      ∃ ns, (∀ n ∈ ns, n.OfPop ∧ (s.OwnList z → n.zone = some z)) ∧
        s.Posts (s.zoneWrite z row) (s.staleNotices (s.zoneWrite z row) z none ++ ns) := by
  rw [State.zoneWrite_stays old new, State.zonePut_configured old]
  obtain ⟨a, ha⟩ : ∃ a : State, a = { s.chargeZone z with tables := s.tables.write (.zone z row) } := ⟨_, rfl⟩
  have charged : a.zone z = (s.zone z).charge s.now := by
    rw [ha]
    exact s.chargeZone_self z
  rw [← ha]
  refine ⟨?_, ?_, ?_⟩
  · rw [State.refreshPop_slots, charged, Zone.charge_slots]
  · have left := a.refreshPop_refreshed z none
    have config : a.tables.zone z = row := by
      rw [ha]
      exact Tables.write_zone_self z row s.tables
    rw [config] at left
    rw [ha] at left ⊢
    exact left
  · obtain ⟨ns, each, posts⟩ := a.refreshPop_posts_own z none
    have said : a.staleNotices (a.refreshPop z none) z none = s.staleNotices (a.refreshPop z none) z none := by
      rw [← s.chargeZone_staleNotices z none, ha]
      rfl
    rw [said] at posts
    refine ⟨ns, fun n hn => (each n hn).imp_right fun k own => k ?own, ?posts⟩
    case own =>
      rw [ha]
      exact (s.chargeZone_same z).ownList own
    case posts => exact (State.Posts.nothing (s := s) (t := a) (by rw [ha]; rfl) (by rw [ha]; rfl)).trans posts

/-- A write from or to kind NONE posts nothing (R72). -/
theorem State.zoneWrite_silent (h : (s.tables.zone z).kind = .unset ∨ row.kind = .unset) :
    (s.zoneWrite z row).notices = s.notices :=
  State.zoneWrite_cases (P := fun u => u.notices = s.notices) s z row
    (fun old new => absurd h (not_or.mpr ⟨old, new⟩)) (fun _ _ => s.zonePut_notices z row)
    (fun _ _ => s.zonePut_notices z row) fun _ _ => rfl

/-- A zone set stale has no conditions and no reading (R72, R77; log entry 48). -/
theorem Zone.setStale_readings (x : Zone) (fallback : Nat) (j : Fin 3) : (x.setStale fallback).slots[j.val] = .invalid := by
  simp [Zone.setStale]

/-- A zone that becomes or ceases to be configured is stale at its new fallback rate (R72). -/
theorem State.zoneWrite_stale (h : (s.tables.zone z).kind = .unset ↔ row.kind ≠ .unset) :
    ((s.zoneWrite z row).zone z).stale = true ∧ ((s.zoneWrite z row).zone z).fused = none ∧
      ((s.zoneWrite z row).zone z).rate = row.fallback ∧ ((s.zoneWrite z row).zone z).dryOn = false ∧
      ∀ j : Fin 3, ((s.zoneWrite z row).zone z).slots[j.val] = .invalid := by
  refine State.zoneWrite_cases (P := fun u => (u.zone z).stale = true ∧ (u.zone z).fused = none ∧
    (u.zone z).rate = row.fallback ∧ (u.zone z).dryOn = false ∧ ∀ j : Fin 3, (u.zone z).slots[j.val] = .invalid) s z row
    (fun old new => absurd (h.mpr new) old) (fun _ _ => ?_) (fun _ _ => ?_) fun old new => absurd new (h.mp old)
  · rw [State.setZone_zone_self]
    exact ⟨rfl, rfl, rfl, rfl, Zone.setStale_readings _ _⟩
  · rw [State.setZone_zone_self]
    exact ⟨rfl, rfl, rfl, rfl, (s.zone z).setStale_readings row.fallback⟩

/-- A zone with members keeps its kind (R178). -/
theorem State.zoneInUse_iff : s.zoneInUse z row = true ↔ (s.zone z).watch ≠ [] ∧ (s.tables.zone z).kind ≠ row.kind := by
  simp only [State.zoneInUse, Bool.and_eq_true, Bool.not_eq_true', List.isEmpty_eq_false_iff, bne_iff_ne, ne_eq]

end

/-- Settles O39, from the four cases of a zone write: the zone is configured before it, after it, both or neither. -/
theorem zoneRowWritten : Obligations.ZoneRowWritten := by
  unfold Obligations.ZoneRowWritten
  intro s t z row serving setup store turn
  have served : exec .zoneConfigurationWrite s = .next (s.withdrawAgent.zoneWriteRequest t z row) := by
    simp only [exec, execZoneConfigurationWrite, serving.operation?, State.serve, refusal?_writeRow (.inr setup) store,
      State.asZoneRequest_turn turn]
  have free : (s.zone z).watch = [] ∨ (s.tables.zone z).kind = row.kind →
      s.withdrawAgent.zoneWriteRequest t z row = (s.withdrawAgent.zoneWrite z row).reply t .done [] := fun h => by
    refine if_neg fun used => ?_
    obtain ⟨members, change⟩ := State.zoneInUse_iff.mp used
    exact h.elim members change
  refine ⟨fun members change => ?_, fun old new => ?_, fun h => ?_⟩
  · have used : s.withdrawAgent.zoneInUse z row = true := State.zoneInUse_iff.mpr ⟨members, change⟩
    rw [served, State.zoneWriteRequest, if_pos used]
  · rw [served, free (.inr (old.trans new.symm)), State.zoneWrite_none (s := s.withdrawAgent) old new]
    rfl
  · obtain ⟨a, ha⟩ : ∃ a, a = s.withdrawAgent := ⟨_, rfl⟩
    rw [served, free h, ← ha]
    have framed : State.ZoneFrame { s with tables := s.tables.write (.zone z row) } (a.zoneWrite z row) :=
      State.ZoneFrame.trans (by rw [ha]; exact State.zoneWait_frame { s with tables := s.tables.write (.zone z row) } _)
        (a.zoneWrite_frame z row)
    have notices : a.notices = s.notices := by rw [ha]; rfl
    have zone : ∀ y, a.zone y = s.zone y := fun y => by rw [ha]; rfl
    have tables : a.tables = s.tables := by rw [ha]; rfl
    have now : a.now = s.now := by rw [ha]; rfl
    rw [← tables]
    refine ⟨(a.zoneWrite z row).reply t .done [], rfl, ?_, fun y hy => ?_, fun old => ?_, fun old => ?_, fun ⟨old, new⟩ => ?_,
      fun ⟨old, new⟩ => ?_, fun h => ?_, fun h => State.zoneWrite_stale h⟩
    · rw [tables]
      exact framed.reply t .done []
    · exact (zone y).symm ▸ a.zoneWrite_other z row hy
    · exact ((State.zoneWrite_charged old).from_air now (by rw [zone])).of_air rfl id
    · exact (zone z).symm ▸ State.zoneWrite_clocks old
    · exact now ▸ State.zoneWrite_starts old new
    · obtain ⟨slots, refreshed, ns, each, posts⟩ := State.zoneWrite_refreshed old new
      refine ⟨(zone z).symm ▸ slots, now ▸ refreshed, ns,
        fun n hn => (each n hn).imp_right fun k right => k (by rw [ha]; exact right.lists.ownList z), ?_⟩
      rw [ha] at posts ⊢
      exact State.Posts.posted (t := s.withdrawAgent.zoneWrite z row)
        ((State.Posts.nothing (s := s) (t := s.withdrawAgent) rfl rfl).trans posts)
    · exact (State.zoneWrite_silent h).trans notices

end Sys2Proof.Machine
end

section
namespace Sys2Proof.Machine

/-! ### The Zone Engine's work zone by zone

A request that deals with several zones folds one operation over them: what it leaves of a zone but its list is what the
operation leaves of that zone alone, and its notices are theirs one after another. -/

section
variable {f : State → Fin 32 → State}

/-- What a fold leaves of each zone but its list, where the operation works on its own zone only and reads but tables and time. -/
theorem foldl_air {F : Fin 32 → Zone → Zone} {s : State} (frame : ∀ a z, State.ZoneFrame a (f a z))
    (own : ∀ a z y, State.ZoneFrame s a → ((f a z).zone y).air = if y = z then F z (a.zone z).air else (a.zone y).air)
    {zs : List (Fin 32)} (nodup : zs.Nodup) (y : Fin 32) :
    ((zs.foldl f s).zone y).air = if y ∈ zs then F y (s.zone y).air else (s.zone y).air := by
  have from_any : ∀ a, State.ZoneFrame s a →
      ((zs.foldl f a).zone y).air = if y ∈ zs then F y (a.zone y).air else (a.zone y).air := by
    induction zs with
    | nil => exact fun a _ => rfl
    | cons z rest ih =>
      obtain ⟨off, nodup_rest⟩ := List.nodup_cons.mp nodup
      intro a framed
      rw [List.foldl_cons, ih nodup_rest _ (framed.trans (frame a z)), own a z y framed]
      by_cases hy : y = z
      · subst hy
        simp [off]
      · simp [hy]
  exact from_any s (.refl s)

theorem foldl_posts {P : Notice → Prop} (step : ∀ a z, ∃ ns, (∀ n ∈ ns, P n) ∧ State.Posts a (f a z) ns) (zs : List (Fin 32))
    (s : State) : ∃ ns, (∀ n ∈ ns, P n) ∧ s.Posts (zs.foldl f s) ns := by
  induction zs generalizing s with
  | nil => exact ⟨[], by simp, .nothing rfl rfl⟩
  | cons z rest ih =>
    obtain ⟨ns, each, posts⟩ := step s z
    obtain ⟨ms, each', posts'⟩ := ih (f s z)
    exact ⟨ns ++ ms, fun n hn => (List.mem_append.mp hn).elim (each n) (each' n), posts.trans posts'⟩

theorem foldl_zoneWait (step : ∀ (a : State) z, (f a z).zoneWait = a.zoneWait) (zs : List (Fin 32)) (s : State) :
    (zs.foldl f s).zoneWait = s.zoneWait := by
  induction zs generalizing s with
  | nil => rfl
  | cons z rest ih => rw [List.foldl_cons, ih, step]

end

section
variable (zs : List (Fin 32)) (s : State)

theorem foldl_chargeZone_frame : s.ZoneFrame (zs.foldl State.chargeZone s) := foldl_zoneFrame State.chargeZone State.chargeZone_frame zs s

theorem foldl_chargeZone_posts : s.Posts (zs.foldl State.chargeZone s) [] := by
  have kept : (zs.foldl State.chargeZone s).plant = s.plant ∧ (zs.foldl State.chargeZone s).notices = s.notices := by
    induction zs generalizing s with
    | nil => exact ⟨rfl, rfl⟩
    | cons z rest ih => exact ih (s.chargeZone z)
  exact .nothing kept.1 kept.2

/-- A charge withdraws the timer request of its zone, and no later charge brings it back (R68). -/
theorem foldl_chargeZone_zoneWait {q : ZoneRequest} :
    q ∈ (zs.foldl State.chargeZone s).zoneWait ↔ q ∈ s.zoneWait ∧ ∀ z ∈ zs, q ≠ .timer z := by
  induction zs generalizing s with
  | nil => simp
  | cons z rest ih =>
    rw [List.foldl_cons, ih]
    simp only [State.chargeZone, List.mem_filter, bne_iff_ne, List.forall_mem_cons, and_assoc]

variable {zs}

theorem foldl_chargeZone_charged (nodup : zs.Nodup) {z : Fin 32} (hz : z ∈ zs) : s.Charged (zs.foldl State.chargeZone s) z := by
  obtain ⟨wear, dry, last, -⟩ := s.chargeZone_charged z
  have once : (zs.foldl State.chargeZone s).zone z = (s.chargeZone z).zone z := by
    rw [foldl_chargeZone_zone s zs nodup z, if_pos hz, State.chargeZone_self]
  exact ⟨by rw [once]; exact wear, by rw [once]; exact dry, by rw [once]; exact last,
    fun waits => ((foldl_chargeZone_zoneWait zs s).mp waits).2 z hz rfl⟩

end

/-- A charge keeps the conditions of its zone (R66). -/
theorem Zone.charge_conditions (x : Zone) (n : Nat) :
    (x.charge n).rate = x.rate ∧ (x.charge n).dryOn = x.dryOn ∧ (x.charge n).fused = x.fused := by
  unfold Zone.charge Zone.addDry
  split <;> exact ⟨rfl, rfl, rfl⟩

/-! ### A grid write (R73) -/

section
variable (x : Zone) (t : Tables) (cfg : ZoneConfig) (now : Nat)

theorem Zone.regrid_air : (x.regrid t cfg now).air = (x.air.regrid t cfg now).air := by
  have fused : x.air.fusedAtGrid t cfg.staleness now = x.fusedAtGrid t cfg.staleness now := rfl
  simp only [Zone.regrid, show x.air.stale = x.stale from rfl, fused]
  split <;> rfl

/-- A grid write keeps the clocks, the readings and the stale flag of a zone (R73). -/
theorem Zone.regrid_keeps : (x.regrid t cfg now).wear = x.wear ∧ (x.regrid t cfg now).dry = x.dry ∧
    (x.regrid t cfg now).lastAdvance = x.lastAdvance ∧ (x.regrid t cfg now).slots = x.slots ∧
    (x.regrid t cfg now).stale = x.stale := by
  unfold Zone.regrid
  split <;> exact ⟨rfl, rfl, rfl, rfl, rfl⟩

theorem Zone.regrid_stale {x : Zone} (stale : x.stale = true) : x.regrid t cfg now = x := by
  unfold Zone.regrid
  rw [stale]

end

section
variable (s : State) (z : Fin 32)

theorem State.regridPop_frame : s.ZoneFrame (s.regridPop z) := (s.setZone_frame z _).trans (State.pop_frame _ z)

theorem State.regridPop_zoneWait : (s.regridPop z).zoneWait = s.zoneWait := by
  simp only [State.regridPop, State.pop, popWalk_zoneWait]
  rfl

theorem State.regridPop_air (y : Fin 32) : ((s.regridPop z).zone y).air =
    if y = z then ((s.zone z).regrid s.tables (s.tables.zone z) s.now).air else (s.zone y).air := by
  rw [State.regridPop, State.pop_sameAir]
  split
  · next e => rw [e, State.setZone_zone_self]
  · next ne => rw [State.setZone_zone_ne _ _ ne]

theorem State.regridPop_posts : ∃ ns, (∀ n ∈ ns, Notice.OfPop n) ∧ s.Posts (s.regridPop z) ns := by
  obtain ⟨ns, each, posts⟩ := State.pop_posts (s.setZone z ((s.zone z).regrid s.tables (s.tables.zone z) s.now)) z
  exact ⟨ns, each, (s.setZone_posts z _).trans posts⟩

variable (f : Tables → Tables)

/-- The state a grid write steps over to, once every configured zone is charged (R73). -/
def State.gridPut : State :=
  { s.tables.configuredZones.foldl State.chargeZone s with tables := f s.tables }

theorem State.gridChange_eq : s.gridChange f = s.tables.configuredZones.foldl State.regridPop (s.gridPut f) := by
  unfold State.gridChange State.gridPut
  simp only []
  rw [(foldl_chargeZone_frame s.tables.configuredZones s).tables]

theorem State.gridPut_frame : State.ZoneFrame { s with tables := f s.tables } (s.gridPut f) := by
  obtain ⟨form, cores⟩ := foldl_chargeZone_frame s.tables.configuredZones s
  exact ⟨congrArg (fun x : State => { x with tables := f s.tables }) form, cores⟩

theorem State.gridPut_zone : (s.gridPut f).zone z =
    if (s.tables.zone z).kind ≠ .unset then (s.zone z).charge s.now else s.zone z := by
  show (s.tables.configuredZones.foldl State.chargeZone s).zone z = _
  rw [foldl_chargeZone_zone s _ (configuredZones_nodup _) z]
  exact if_congr (mem_configuredZones ..) rfl rfl

theorem State.gridChange_frame : State.ZoneFrame { s with tables := f s.tables } (s.gridChange f) := by
  rw [State.gridChange_eq]
  exact (s.gridPut_frame f).trans (foldl_zoneFrame _ State.regridPop_frame _ _)

theorem State.gridChange_posts : ∃ ns, (∀ n ∈ ns, Notice.OfPop n) ∧ s.Posts (s.gridChange f) ns := by
  obtain ⟨ns, each, posts⟩ := foldl_posts State.regridPop_posts s.tables.configuredZones (s.gridPut f)
  refine ⟨ns, each, ?_⟩
  rw [State.gridChange_eq]
  exact (foldl_chargeZone_posts s.tables.configuredZones s).trans posts

/-- What a grid write leaves of a zone but its list: charged at the rate it had, then with its conditions under the new grid. -/
theorem State.gridChange_air : ((s.gridChange f).zone z).air =
    if (s.tables.zone z).kind ≠ .unset then
      (((s.zone z).charge s.now).regrid (f s.tables) ((f s.tables).zone z) s.now).air
    else (s.zone z).air := by
  have put := s.gridPut_frame f
  rw [State.gridChange_eq, foldl_air (F := fun y x => (x.regrid (f s.tables) ((f s.tables).zone y) s.now).air)
    State.regridPop_frame (fun a y x framed => ?_) (configuredZones_nodup _) z, State.gridPut_zone]
  · simp only [mem_configuredZones]
    split
    · rw [← Zone.regrid_air]
    · rfl
  · rw [State.regridPop_air, framed.tables, framed.now, put.tables, put.now]
    refine if_congr .rfl ?_ rfl
    exact Zone.regrid_air ..

theorem State.gridChange_charged (h : (s.tables.zone z).kind ≠ .unset) : s.Charged (s.gridChange f) z := by
  obtain ⟨wear, dry, last, waits⟩ := foldl_chargeZone_charged s (configuredZones_nodup s.tables) ((mem_configuredZones _ z).mpr h)
  rw [foldl_chargeZone_zone s _ (configuredZones_nodup _) z, if_pos ((mem_configuredZones _ z).mpr h)] at wear dry last
  have air := s.gridChange_air z f
  rw [if_pos h] at air
  obtain ⟨w, d, l, -, -⟩ := ((s.zone z).charge s.now).regrid_keeps (f s.tables) ((f s.tables).zone z) s.now
  refine ⟨((congrArg Zone.wear air).trans w).trans wear, ((congrArg Zone.dry air).trans d).trans dry,
    ((congrArg Zone.lastAdvance air).trans l).trans last, ?_⟩
  rw [State.gridChange_eq, foldl_zoneWait State.regridPop_zoneWait]
  exact waits

end

/-- A write of the grid or of a threshold row leaves the zone rows and the part row. -/
theorem RowWrite.grid_keeps {rw : RowWrite} (h : MgmtOp.command? (.writeRow rw) = some .gridWrite) (t : Tables) :
    rw.isGrid = true ∧ (t.write rw).zones = t.zones ∧ (t.write rw).part = t.part := by
  cases rw with
  | grid | rh | temp => exact ⟨rfl, rfl, rfl⟩
  | _ => cases h

/-- Settles O40, from what a grid write leaves of each zone. -/
theorem gridRowWritten : Obligations.GridRowWritten := by
  unfold Obligations.GridRowWritten
  intro s t rw serving command setup store turn
  obtain ⟨isGrid, zones, part⟩ := RowWrite.grid_keeps command s.tables
  obtain ⟨a, ha⟩ : ∃ a, a = s.withdrawAgent := ⟨_, rfl⟩
  obtain ⟨u, hu⟩ : ∃ u, u = a.gridChange fun tb => tb.write rw := ⟨_, rfl⟩
  have tables : a.tables = s.tables := by rw [ha]; rfl
  have zone : ∀ z, a.zone z = s.zone z := fun z => by rw [ha]; rfl
  have now : a.now = s.now := by rw [ha]; rfl
  have config : ∀ z, (s.tables.write rw).zone z = s.tables.zone z := fun z => by simp only [Tables.zone, zones]
  have served : exec .gridWrite s = .next (u.reply t .done []) := by
    simp only [exec, execGridWrite, serving.operation?, isGrid, if_true, State.serve,
      refusal?_writeRow (.inr setup) store, State.asZoneRequest_turn turn, hu, ha]
  have framed : State.ZoneFrame { s with tables := s.tables.write rw } u := by
    rw [hu]
    refine State.ZoneFrame.trans ?_ (a.gridChange_frame _)
    rw [ha]
    exact State.zoneWait_frame { s with tables := s.tables.write rw } _
  refine ⟨u.reply t .done [], served, ?_, ?_, fun z => ?_⟩
  · have reply := framed.reply t .done []
    have agent : (State.reply { s with tables := s.tables.write rw } t .done []).agent = (s.reply t .done []).agent := by
      simp only [State.reply, State.mgmtReply, part]
    rw [agent] at reply
    exact reply
  · obtain ⟨ns, each, posts⟩ := a.gridChange_posts fun tb => tb.write rw
    refine ⟨ns, each, State.Posts.posted (t := u) ?_⟩
    rw [← hu] at posts
    exact (State.Posts.nothing (s := s) (t := a) (by rw [ha]; rfl) (by rw [ha]; rfl)).trans posts
  · have air := a.gridChange_air z fun tb => tb.write rw
    rw [← hu, tables, zone, now, config] at air
    split at air
    · next kind =>
      rw [if_pos kind]
      obtain ⟨x, hx⟩ : ∃ x, x = (s.zone z).charge s.now := ⟨_, rfl⟩
      have slots : x.slots = (s.zone z).slots := by rw [hx, Zone.charge_slots]
      have flag : x.stale = (s.zone z).stale := by rw [hx, Zone.charge_stale]
      rw [← hx] at air
      obtain ⟨-, -, -, slots', flag'⟩ := x.regrid_keeps (s.tables.write rw) (s.tables.zone z) s.now
      have charged : a.Charged u z := hu ▸ a.gridChange_charged z _ (tables.symm ▸ kind)
      refine ⟨(charged.from_air now (by rw [zone])).of_air rfl id, ((congrArg Zone.slots air).trans slots').trans slots,
        ((congrArg Zone.stale air).trans flag').trans flag, fun stale => ?_, fun fresh some_fresh => ?_,
        fun f fresh aged fused => ?_⟩
      · rw [Zone.regrid_stale _ _ _ (flag.trans stale)] at air
        obtain ⟨rate, dryOn, fused⟩ := (s.zone z).charge_conditions s.now
        rw [← hx] at rate dryOn fused
        exact ⟨(congrArg Zone.rate air).trans rate, (congrArg Zone.dryOn air).trans dryOn, (congrArg Zone.fused air).trans fused⟩
      · refine (Zone.regrid_refreshed (flag.trans fresh) ?_).of_air air
        unfold Zone.HasFresh
        rw [slots]
        exact some_fresh
      · obtain ⟨-, -, fusedKept⟩ := (s.zone z).charge_conditions s.now
        rw [← hx] at fusedKept
        have aged' : ¬x.HasFresh (s.tables.zone z).staleness s.now := by
          unfold Zone.HasFresh
          rw [slots]
          exact aged
        rw [Zone.regrid_aged (flag.trans fresh) aged' (fusedKept.trans fused)] at air
        exact ⟨_, _, congrArg Zone.fused air, rfl, rfl, Tables.rhBand_eq _ f.rh, Tables.tempBand_eq _ f.temp,
          Tables.cell_eq _ f.rh f.temp, congrArg Zone.rate air, congrArg Zone.dryOn air⟩
    · next kind =>
      rw [if_neg kind]
      exact air

end Sys2Proof.Machine
end

section
namespace Sys2Proof.Machine

/-! ### READ-ZONE and LIST-ZONE (R71, R104) -/

/-! #### The bytes of a zone -/

theorem ZoneKind.code_eq_idxOf (k : ZoneKind) : k.code = [ZoneKind.unset, .floor, .dry, .line].idxOf k := by cases k <;> rfl

/-- A temperature is written as a signed 16-bit number (02, section 2.7). -/
theorem tempBytes_eq_optBytes (t : Int) : tempBytes t = optBytes 2 (some (t % 65536).toNat) := by
  rw [tempBytes, BitVec.toNat_ofInt]
  rfl

theorem tempBytes_getD (o : Option Fused) : (o.map fun f => tempBytes f.temp).getD (absentBytes 2) =
    optBytes 2 (o.map fun f => (f.temp % 65536).toNat) := by
  cases o with
  | none => rfl
  | some f => exact tempBytes_eq_optBytes f.temp

/-- READ-ZONE page 0 of a zone as it stands, under a kind. -/
def Zone.readFields (x : Zone) (kind : ZoneKind) : List (Nat × Nat × Option Nat) :=
  [(0, 1, some ([ZoneKind.unset, .floor, .dry, .line].idxOf kind)), (1, 2, x.fused.map fun f => (f.temp % 65536).toNat),
    (3, 2, x.fused.map Fused.rh), (5, 1, some x.stale.toNat), (6, 2, some x.rate), (8, 1, some x.dryOn.toNat),
    (9, 6, some x.wear), (15, 4, some x.dry), (19, 4, some x.lastAdvance), (23, 2, some x.watch.length),
    (25, 1, x.fused.map Fused.rhBand), (26, 1, x.fused.map Fused.tempBand)]

theorem Zone.page0_laidOut (x : Zone) (kind : ZoneKind) : LaidOut (x.page0 kind) 27 (x.readFields kind) := by
  refine laidOut_of_layFields (l := (x.readFields kind).map fun f => f.2) ?bytes ?size ?offsets
  case size => simp only [Zone.readFields, List.map, List.sum_cons, List.sum_nil, Nat.reduceAdd]
  case offsets => simp only [Zone.readFields, List.map, fieldsFrom, Nat.reduceAdd]
  case bytes =>
    rw [Zone.page0, tempBytes_getD, boolByte_eq_optBytes, boolByte_eq_optBytes, ZoneKind.code_eq_idxOf]
    simp only [Zone.readFields, layFields, List.map, List.flatMap_cons, List.flatMap_nil, List.append_assoc, List.append_nil]
    rfl

theorem Slot.image_eq (x : Slot) : x.image = layFields ((x.fields 0).map fun f => f.2) := by
  simp only [Slot.image, Slot.fields, layFields, List.map, List.flatMap_cons, List.flatMap_nil]
  cases x.valid with
  | false => rfl
  | true =>
    rw [if_pos rfl, if_pos rfl, if_pos rfl, if_pos rfl, tempBytes_eq_optBytes]
    simp [optBytes, beBytes]

theorem Zone.slots_toList (x : Zone) : x.slots.toList = [x.slots[0], x.slots[1], x.slots[2]] := by
  refine List.ext_getElem (by simp) fun i h _ => ?_
  rw [Vector.length_toList] at h
  match i, h with
  | 0, _ | 1, _ | 2, _ => simp

theorem Zone.page1_laidOut (x : Zone) : LaidOut x.page1 27 x.slotFields := by
  refine laidOut_of_layFields (l := x.slotFields.map fun f => f.2) ?bytes ?size ?offsets
  case size => simp [Zone.slotFields, Slot.fields]
  case offsets => simp only [Zone.slotFields, Slot.fields, List.map, List.cons_append, List.nil_append, fieldsFrom, Nat.reduceAdd]
  case bytes =>
    rw [Zone.page1, x.slots_toList]
    simp only [List.flatMap_cons, List.flatMap_nil, List.append_nil, Slot.image_eq, ← layFields_append]
    rfl

/-- A zone as READ-ZONE shows it: one of kind NONE stale at its fallback rate, without conditions (log entry 25). -/
def Zone.shown (x : Zone) (c : ZoneConfig) : Zone :=
  if c.kind = .unset then { x with fused := none, stale := true, rate := c.fallback, dryOn := false } else x

theorem State.zonePage_eq (s : State) (z : Fin 32) (page1 : Bool) : s.zonePage z page1 =
    if page1 then (s.zone z).page1 else ((s.zone z).shown (s.tables.zone z)).page0 (s.tables.zone z).kind := by
  unfold State.zonePage Zone.shown
  cases page1
  · by_cases h : (s.tables.zone z).kind = .unset
    · simp [h, ZoneConfig.configured_eq_false h]
    · simp [h, ZoneConfig.configured_eq_true h]
  · rfl

theorem State.zone0Fields_eq (s : State) (z : Fin 32) :
    s.zone0Fields z = ((s.zone z).shown (s.tables.zone z)).readFields (s.tables.zone z).kind := by
  unfold State.zone0Fields Zone.shown
  by_cases h : (s.tables.zone z).kind = .unset
  · simp only [h, if_true, Zone.readFields, Option.map_none]
    rfl
  · simp only [h, if_false, Zone.readFields]

theorem State.zonePage_laidOut (s : State) (z : Fin 32) (page1 : Bool) :
    LaidOut (s.zonePage z page1) 27 (if page1 then (s.zone z).slotFields else s.zone0Fields z) := by
  rw [State.zonePage_eq, State.zone0Fields_eq]
  split
  · exact (s.zone z).page1_laidOut
  · exact Zone.page0_laidOut ..

/-! #### The bytes of a list -/

/-- One entry of LIST-ZONE, of a record in a zone with wear `wear` (R104). -/
def Record.entryFields (r : Record) (wear : Nat) : List (Nat × Option Nat) :=
  [(8, some r.id.toNat), (6, r.zonePart.map ZonePart.key),
    (4, some (match r.zonePart with
      | some zp => min 4294967295 (r.consumed + (wear - zp.stamp))
      | none => r.consumed))]

theorem Record.listEntry_eq (r : Record) (wear : Nat) : r.listEntry wear = layFields (r.entryFields wear) := by
  unfold Record.listEntry Record.entryFields
  cases r.zonePart with
  | none => simp [layFields, optBytes, idBytes]
  | some zp => simp [layFields, optBytes, idBytes, satAdd, Config.max32]

theorem Record.entryFields_size (r : Record) (wear : Nat) : ((r.entryFields wear).map Prod.fst).sum = 18 := rfl

/-- The fields of the k-th of a list of entries of one size. -/
theorem mem_fieldsFrom_flatMap {α : Type} {g : α → List (Nat × Option Nat)} {n : Nat} (size : ∀ a, ((g a).map Prod.fst).sum = n)
    {l : List α} {k : Nat} {a : α} (h : l[k]? = some a) {off : Nat} {x : Nat × Nat × Option Nat}
    (hx : x ∈ fieldsFrom (off + n * k) (g a)) : x ∈ fieldsFrom off (l.flatMap g) := by
  induction l generalizing off k with
  | nil => cases h
  | cons b l ih =>
    rw [List.flatMap_cons, fieldsFrom_append, List.mem_append, size]
    cases k with
    | zero =>
      cases h
      exact .inl hx
    | succ k =>
      refine .inr (ih (k := k) (by simpa using h) ?_)
      rwa [show off + n + n * k = off + n * (k + 1) by ring]

theorem sum_entryFields (wear : Nat) (rs : List Record) :
    ((rs.flatMap fun r => r.entryFields wear).map Prod.fst).sum = 18 * rs.length := by
  induction rs with
  | nil => rfl
  | cons r rs ih =>
    rw [List.flatMap_cons, List.map_append, List.sum_append, ih, r.entryFields_size, List.length_cons]
    omega

/-- Indices that are all in use name records. -/
theorem State.records_of_used (s : State) {l : List Nat} (used : ∀ i ∈ l, s.record? i ≠ none) :
    ∃ rs : List Record, l.map s.record? = rs.map some := by
  induction l with
  | nil => exact ⟨[], rfl⟩
  | cons i l ih =>
    obtain ⟨r, hr⟩ := Option.ne_none_iff_exists'.mp (used i List.mem_cons_self)
    obtain ⟨rs, hrs⟩ := ih fun j hj => used j (List.mem_cons_of_mem i hj)
    exact ⟨r :: rs, by rw [List.map_cons, List.map_cons, hr, hrs]⟩

/-- The bytes of the entries shown. -/
theorem State.listEntries_eq (s : State) (wear : Nat) {l : List Nat} {rs : List Record} (h : l.map s.record? = rs.map some) :
    (l.flatMap fun i => ((s.record? i).map fun r => r.listEntry wear).getD []) =
      layFields (rs.flatMap fun r => r.entryFields wear) := by
  have shown : (l.map s.record?).flatMap (fun o => (o.map fun r => r.listEntry wear).getD []) =
      rs.flatMap fun r => layFields (r.entryFields wear) := by
    rw [h, List.flatMap_map]
    exact congrArg (fun g => rs.flatMap g) (funext fun r => r.listEntry_eq wear)
  rw [List.flatMap_map] at shown
  rw [shown, layFields, List.flatMap_assoc]
  rfl

/-- LIST-ZONE shows the member count and up to two entries, where the listed indices are in use (R104). -/
theorem State.listPage_data (s : State) (z : Fin 32) (pos : Nat) (used : ∀ i ∈ (s.zone z).watch, s.record? i ≠ none) :
    s.ListData z pos (s.listPage z pos) := by
  by_cases kind : (s.tables.zone z).kind = .unset
  · refine ⟨[], 0, (if_pos kind).symm, by simp, ?_, fun k _ _ _ hk => absurd hk (Nat.not_lt_zero k)⟩
    rw [State.listPage, ZoneConfig.configured_eq_false kind]
    exact laidOut_of_layFields (l := [(2, some 0), (1, some 0)]) rfl rfl rfl
  · obtain ⟨out, hout⟩ : ∃ out, out = ((s.zone z).watch.drop pos).take 2 := ⟨_, rfl⟩
    have length : out.length = min 2 ((s.zone z).watch.length - pos) := by simp [hout]
    obtain ⟨rs, hrs⟩ := s.records_of_used (l := out) fun i hi =>
      used i (List.mem_of_mem_drop (List.mem_of_mem_take (hout ▸ hi)))
    have count : rs.length = out.length := by simpa using (congrArg List.length hrs).symm
    have bytes : s.listPage z pos = layFields ([(2, some (s.zone z).watch.length), (1, some out.length)] ++
        rs.flatMap fun r => r.entryFields (s.zone z).wear) := by
      rw [layFields_append, ← s.listEntries_eq _ hrs, State.listPage, if_pos (ZoneConfig.configured_eq_true kind), hout]
      rfl
    obtain ⟨size, fields⟩ := laidOut_of_layFields bytes rfl rfl
    rw [fieldsFrom_append] at fields
    refine ⟨(s.zone z).watch, out.length, (if_neg kind).symm, length, ⟨?_, fun f hf => fields f (List.mem_append_left _ hf)⟩,
      fun k i r zp hk hi hr hz => ?_⟩
    · rw [size, List.map_append, List.sum_append, sum_entryFields, count]
      rfl
    · have at_k : (out.map s.record?)[k]? = some (some r) := by
        rw [List.getElem?_map, hout, List.getElem?_take_of_lt (by omega), List.getElem?_drop, hi, Option.map_some, hr]
      have shown : rs[k]? = some r := by
        rw [hrs, List.getElem?_map] at at_k
        simpa using at_k
      have entry : ∀ f ∈ fieldsFrom (3 + 18 * k) (r.entryFields (s.zone z).wear), FieldAt (s.listPage z pos) f.1 f.2.1 f.2.2 :=
        fun f hf => fields f (List.mem_append_right _ (mem_fieldsFrom_flatMap (fun r => r.entryFields_size _) shown hf))
      simp only [Record.entryFields, hz, fieldsFrom, List.forall_mem_cons, Option.map_some] at entry
      obtain ⟨id, key, consumed, -⟩ := entry
      rw [show 3 + 18 * k + 8 = 11 + 18 * k by omega] at key consumed
      rw [show 11 + 18 * k + 6 = 17 + 18 * k by omega] at consumed
      exact ⟨id, key, consumed⟩

/-! #### The advance before the report -/

/-- An advance brings no record into the list of its zone. -/
theorem State.advance_watch (s : State) (z : Fin 32) {i : Nat} (h : i ∈ ((s.advance z).zone z).watch) : i ∈ (s.zone z).watch := by
  by_cases kind : (s.tables.zone z).kind = .unset
  · rwa [State.advance_none (ZoneConfig.configured_eq_false kind)] at h
  · have watch : (((s.chargeZone z).refreshZone z none).zone z).watch = (s.zone z).watch :=
      ((s.chargeZone_same z).trans ((s.chargeZone z).refreshZone_same z none)).watch z
    rw [State.advance_of kind, State.refreshPop, State.pop] at h
    rw [← watch]
    exact (popWalk_watch z _ h).elim id id

theorem State.ZoneFrame.used {s u : State} (h : s.ZoneFrame u) {i : Nat} (hi : s.record? i ≠ none) : u.record? i ≠ none := by
  intro none
  have core := h.2 i
  rw [none] at core
  exact hi (Option.map_eq_none_iff.mp core.symm)

/-- Settles O42, from the bytes of the two reports and what the advance before them does. -/
theorem zoneReadsAdvance : Obligations.ZoneReadsAdvance := by
  unfold Obligations.ZoneReadsAdvance
  intro s t z turn page1 pos c serving
  obtain ⟨a, ha⟩ : ∃ a, a = s.withdrawAgent := ⟨_, rfl⟩
  obtain ⟨v, hv⟩ : ∃ v, v = a.advance z := ⟨_, rfl⟩
  obtain ⟨data, hdata⟩ : ∃ data, data = if c = .readZone then v.zonePage z page1 else v.listPage z pos := ⟨_, rfl⟩
  have served : exec c s = .next (v.reply t .done data) := by
    rcases serving with ⟨rfl, serving⟩ | ⟨rfl, serving⟩
    · simp only [exec, execReadZone, serving.operation?, State.asZoneRequest_turn turn, hdata, if_true, hv, ha]
    · simp only [exec, execListZone, serving.operation?, State.asZoneRequest_turn turn, hdata, hv, ha]
      rfl
  have framed : s.ZoneFrame v := (ha ▸ s.zoneWait_frame _ : s.ZoneFrame a).trans (hv ▸ a.advance_frame z)
  have agent : (v.reply t .done data).agent = (s.reply t .done data).agent := by rw [framed.writeFrame.reply]
  have zone : ∀ y, a.zone y = s.zone y := fun y => by rw [ha]; rfl
  refine ⟨v.reply t .done data, data, served, ?_, agent, fun read => ?_, fun list used => ?_, ?_, fun y hy => ?_⟩
  · rw [agent]
    exact framed.reply t .done data
  · rw [hdata, if_pos read]
    exact v.zonePage_laidOut z page1
  · rw [hdata, if_neg (by rw [list]; decide)]
    refine v.listPage_data z pos fun i hi => framed.used (used i ?_)
    rw [hv] at hi
    exact zone z ▸ a.advance_watch z hi
  · split
    · next kind =>
      have charged : a.Charged v z := hv ▸ State.advance_charged (by rw [ha]; exact kind)
      exact (charged.from_air (s := s) (by rw [ha]; rfl) (by rw [zone])).of_air rfl id
    · next kind =>
      have idle : v = a := by
        rw [hv, State.advance_none (ZoneConfig.configured_eq_false (by rw [ha]; exact not_not.mp kind))]
      show (v.zone z).air = _
      rw [idle, zone]
  · show (v.zone y).air = _
    rw [hv, State.advance_other a hy, zone]

end Sys2Proof.Machine
end

section
namespace Sys2Proof.Machine

/-! ### One zone's turn in a request that deals with several (R69, R105, R106)

Where the lists are right, a record stands in one list, so that an advance, a refresh or a rekey of one zone leaves the records and
the lists of the others. What such a request leaves of a zone and its records is then what the zone's own turn leaves. -/

theorem State.Lists.chainIn {s : State} {h : Hands} (k : s.Lists h) (z : Fin 32) : s.ChainIn z (s.zone z).watch :=
  ⟨k.once z, fun i hi => State.zoneOf?_eq_some.mp ((k.mem z i).mp hi).2⟩

/-- A listed record, with its place. -/
theorem State.Lists.listed {s : State} {h : Hands} (k : s.Lists h) {z : Fin 32} {i : Nat} {r : Record}
    (hi : i ∈ (s.zone z).watch) (hr : s.record? i = some r) : ∃ zp, r.zonePart = some zp ∧ zp.zone = z := by
  have hz := ((k.mem z i).mp hi).2
  rw [State.zoneOf?_of hr] at hz
  exact Option.map_eq_some_iff.mp hz

/-- A record without a zone part stands in no list. -/
theorem State.Lists.zoneless_unlisted {s : State} {h : Hands} (k : s.Lists h) {i : Nat} {r : Record} (hr : s.record? i = some r)
    (hz : r.zonePart = none) (z : Fin 32) : i ∉ (s.zone z).watch := fun hi => by
  obtain ⟨zp, hzp, -⟩ := k.listed hi hr
  exact nomatch hz.symm.trans hzp

/-- From `s` to `t` nothing happened in other zones than `z`, nor to records that its list does not name. -/
structure State.WithinZone (s t : State) (z : Fin 32) : Prop where
  frame : s.ZoneFrame t
  records : ∀ i, i ∉ (s.zone z).watch → t.record? i = s.record? i
  zones : ∀ y, y ≠ z → t.zone y = s.zone y

theorem State.WithinZone.refl (s : State) (z : Fin 32) : s.WithinZone s z := ⟨.refl s, fun _ _ => rfl, fun _ _ => rfl⟩

section
variable {s : State} {z : Fin 32}

theorem State.refreshPop_within (own : s.OwnList z) (st : Option Byte) : s.WithinZone (s.refreshPop z st) z := by
  have same := s.refreshZone_same z st
  refine ⟨s.refreshPop_frame z st, fun i hi => ?_, fun y hy => ?_⟩
  · rw [State.refreshPop, State.pop, popWalk_record?_ne z _ (by rwa [same.watch]), same.records]
  · have own' : ∀ j ∈ ((s.refreshZone z st).zone z).watch, ∀ x, (s.refreshZone z st).zoneOf? j = some x → x = z :=
      same.ownList own
    rw [State.refreshPop, State.pop, popWalk_zone_ne z _ own' hy, State.refreshZone_zone, if_neg hy]

theorem State.advance_within (own : s.OwnList z) : s.WithinZone (s.advance z) z := by
  by_cases kind : (s.tables.zone z).kind = .unset
  · rw [State.advance_none (ZoneConfig.configured_eq_false kind)]
    exact .refl s z
  · rw [State.advance_of kind]
    have same := s.chargeZone_same z
    have pop := State.refreshPop_within (same.ownList own) none
    refine ⟨(s.chargeZone_frame z).trans pop.frame, fun i hi => ?_, fun y hy => ?_⟩
    · rw [pop.records i (by rwa [same.watch]), same.records]
    · rw [pop.zones y hy, s.chargeZone_other hy]

theorem State.rekeyZone_within (sel : Record → Bool) (chain : s.ChainIn z (s.zone z).watch) :
    s.WithinZone (s.rekeyZone sel z) z := by
  obtain ⟨kept, -⟩ := s.rekeyZone_spec sel z chain
  refine ⟨kept.frame, kept.record, fun y hy => ?_⟩
  calc (s.rekeyZone sel z).zone y
      = { ((s.rekeyZone sel z).zone y).air with watch := ((s.rekeyZone sel z).zone y).watch } := rfl
    _ = { (s.zone y).air with watch := (s.zone y).watch } := by rw [kept.air, kept.watch y hy]
    _ = s.zone y := rfl

end

/-- An operation that works within its zone where the lists are right, and keeps them so. -/
def WorksWithin (f : State → Fin 32 → State) : Prop :=
  ∀ (s : State) (h : Hands) (z : Fin 32), s.Lists h → (f s z).Lists h ∧ s.WithinZone (f s z) z

theorem advance_worksWithin : WorksWithin State.advance := fun s h z k =>
  ⟨s.advance_lists z h k, State.advance_within (k.ownList z)⟩

theorem refreshPop_worksWithin : WorksWithin fun a z => a.refreshPop z none := fun s h z k =>
  ⟨s.refreshPop_lists z none h k, State.refreshPop_within (k.ownList z) none⟩

theorem rekeyZone_worksWithin (sel : Record → Bool) : WorksWithin fun a z => a.rekeyZone sel z := fun s h z k =>
  ⟨s.rekeyZone_lists sel z h k, State.rekeyZone_within sel (k.chainIn z)⟩

/-- Zone `z` had its turn on the way from `s` to `t`: `a` is the state it found, with the zone and its records as in `s`; and
what the turn left of them is what `t` has of them. -/
structure TookTurn (f : State → Fin 32 → State) (h : Hands) (s t : State) (z : Fin 32) (a : State) : Prop where
  lists : a.Lists h
  frame : s.ZoneFrame a
  found : a.zone z = s.zone z
  records : ∀ i ∈ (s.zone z).watch, a.record? i = s.record? i
  zone : t.zone z = (f a z).zone z
  left : ∀ i ∈ (s.zone z).watch, t.record? i = (f a z).record? i

section
variable {f : State → Fin 32 → State} (works : WorksWithin f) {h : Hands}
include works

/-- A fold over zones leaves the zones and the records of the lists it does not come to. -/
theorem foldl_outside {zs : List (Fin 32)} {s : State} (k : s.Lists h) :
    (zs.foldl f s).Lists h ∧ s.ZoneFrame (zs.foldl f s) ∧
      (∀ y, y ∉ zs → (zs.foldl f s).zone y = s.zone y) ∧
      (zs.Nodup → ∀ i, (∀ y ∈ zs, i ∉ (s.zone y).watch) → (zs.foldl f s).record? i = s.record? i) := by
  induction zs generalizing s with
  | nil => exact ⟨k, .refl s, fun _ _ => rfl, fun _ _ _ => rfl⟩
  | cons z rest ih =>
    obtain ⟨k1, within⟩ := works s h z k
    obtain ⟨lists, frame, zones, records⟩ := ih k1
    refine ⟨lists, within.frame.trans frame, fun y hy => ?_, fun nodup i off => ?_⟩
    · obtain ⟨ne, hy⟩ := List.ne_and_not_mem_of_not_mem_cons hy
      exact (zones y hy).trans (within.zones y ne)
    · obtain ⟨hz, nodup⟩ := List.nodup_cons.mp nodup
      refine (records nodup i fun y hy => ?_).trans (within.records i (off z List.mem_cons_self))
      rw [within.zones y fun e => hz (e ▸ hy)]
      exact off y (List.mem_cons_of_mem z hy)

/-- Each zone of a fold has its turn. -/
theorem foldl_turn {zs : List (Fin 32)} (nodup : zs.Nodup) {s : State} (k : s.Lists h) {z : Fin 32} (hz : z ∈ zs) :
    ∃ a, TookTurn f h s (zs.foldl f s) z a := by
  induction zs generalizing s with
  | nil => cases hz
  | cons y rest ih =>
    obtain ⟨notIn, nodup_rest⟩ := List.nodup_cons.mp nodup
    obtain ⟨k1, within⟩ := works s h y k
    have apart : ∀ {x : Fin 32}, x ≠ y → ∀ i ∈ (s.zone x).watch, i ∉ (s.zone y).watch := fun ne i hi hj =>
      ne (Option.some.inj (((k.mem _ i).mp hi).2.symm.trans ((k.mem _ i).mp hj).2))
    by_cases e : z = y
    · subst e
      obtain ⟨-, -, zones, records⟩ := foldl_outside works (zs := rest) k1
      refine ⟨s, k, .refl s, rfl, fun _ _ => rfl, zones z notIn, fun i hi => records nodup_rest i fun x hx => ?_⟩
      have ne : x ≠ z := fun e => notIn (e ▸ hx)
      rw [within.zones x ne]
      exact fun hj => apart ne i hj hi
    · obtain ⟨a, turn⟩ := ih nodup_rest k1 ((List.mem_cons.mp hz).resolve_left e)
      have zone := within.zones z e
      have records : ∀ i ∈ (s.zone z).watch, (f s y).record? i = s.record? i := fun i hi => within.records i (apart e i hi)
      have listed : ∀ {i}, i ∈ (s.zone z).watch → i ∈ ((f s y).zone z).watch := fun hi => by rwa [zone]
      exact ⟨a, turn.lists, within.frame.trans turn.frame, turn.found.trans zone,
        fun i hi => (turn.records i (listed hi)).trans (records i hi), turn.zone, fun i hi => turn.left i (listed hi)⟩

end

end Sys2Proof.Machine
end

section
namespace Sys2Proof.Machine

/-! ### What a turn leaves of the records in its zone's list -/

/-- `settledConsumed` reads the wear of the record's own zone alone. -/
theorem State.settledConsumed_congr {s t : State} {r : Record} (wear : ∀ zp, r.zonePart = some zp → (t.zone zp.zone).wear = (s.zone zp.zone).wear) :
    t.settledConsumed r = s.settledConsumed r := by
  unfold State.settledConsumed
  split
  · next zp hz => rw [wear zp hz]
  · rfl

/-- An attach speaks of the tables, the time and the zone alone. -/
theorem State.Enters.congr {t u : State} {z : Fin 32} {i : Nat} {r r' : Record} (enters : t.Enters z i r r')
    (tables : u.tables = t.tables) (now : u.now = t.now) (air : (u.zone z).air = (t.zone z).air)
    (mem : i ∈ (t.zone z).watch → r'.zonePart.map ZonePart.zone = some z → i ∈ (u.zone z).watch) : u.Enters z i r r' := by
  obtain ⟨c, x, hc, hx, form⟩ := enters
  have wear : (u.zone z).wear = (t.zone z).wear := show (u.zone z).air.wear = (t.zone z).air.wear by rw [air]
  have dry : (u.zone z).dry = (t.zone z).dry := show (u.zone z).air.dry = (t.zone z).air.dry by rw [air]
  refine ⟨c, x, by rw [tables, hc], hx, ?_⟩
  rw [tables, now, wear, dry]
  split at form
  · next gone =>
    rw [if_pos gone]
    exact form
  · next stays =>
    obtain ⟨listed, form⟩ := form
    rw [if_neg stays]
    exact ⟨mem listed (by rw [form]; rfl), form⟩

theorem State.Enters.consumed {t : State} {z : Fin 32} {i : Nat} {r r' : Record} (enters : t.Enters z i r r') :
    r'.consumed = r.consumed := by
  obtain ⟨c, x, -, -, form⟩ := enters
  split at form
  · rw [form]
  · rw [form.2]

/-- Where it stood before, an attach reads of the zone part but the zone and the time of entry: a settlement before it is nothing
but the consumed it charges. -/
theorem State.Enters.of_settle {t : State} {z : Fin 32} {i : Nat} {r r' : Record} {zp : ZonePart} (hz : r.zonePart = some zp)
    {wear : Nat} (enters : t.Enters z i (r.settle wear) r') :
    t.Enters z i { r with consumed := min 4294967295 (r.consumed + (wear - zp.stamp)) } r' := by
  rw [Record.settle_zoned hz] at enters
  obtain ⟨c, x, hc, hx, form⟩ := enters
  refine ⟨c, x, hc, hx, ?_⟩
  simp only [hz]
  simp only [Option.map_some] at form ⊢
  exact form

section
variable {s : State} {i : Nat} {r : Record} {z : Fin 32}

/-- One record of a rekey enters its zone again with what it was charged (R106). -/
theorem State.rekeyRecord_enters (hr : s.record? i = some r) {zp : ZonePart} (hz : r.zonePart = some zp) (own : zp.zone = z) :
    ∃ r', (s.rekeyRecord z i).record? i = some r' ∧
      (s.rekeyRecord z i).Enters z i { r with consumed := s.settledConsumed r } r' := by
  have charged : s.settledConsumed r = min 4294967295 (r.consumed + ((s.zone z).wear - zp.stamp)) := by
    simp only [State.settledConsumed, hz, own]
  obtain ⟨r', hr', enters⟩ := State.attach_enters (State.modRecord_record? hr fun r => r.settle (s.zone z).wear) z none
  rw [charged]
  exact ⟨r', hr', enters.of_settle hz⟩

/-- The records of a chain each enter their zone again. -/
theorem rekeyChain_enters (is : List Nat) {s : State} (chain : s.ChainIn z is) (hi : i ∈ is) (hr : s.record? i = some r) :
    ∃ (a : State) (r' : Record), s.ZoneFrame a ∧ s.SameAir a ∧ (is.foldl (fun a i => a.rekeyRecord z i) s).record? i = some r' ∧
      a.Enters z i { r with consumed := s.settledConsumed r } r' := by
  induction is generalizing s with
  | nil => cases hi
  | cons j rest ih =>
    obtain ⟨nodup, each⟩ := chain
    obtain ⟨notIn, nodup_rest⟩ := List.nodup_cons.mp nodup
    obtain ⟨q, zp, hq, hz, own⟩ := each j List.mem_cons_self
    obtain ⟨kept, -⟩ := own ▸ State.rekeyRecord_spec hq hz
    have later : (s.rekeyRecord z j).ChainIn z rest := ⟨nodup_rest, fun m hm => by
      rw [kept.record m fun e => notIn (List.mem_singleton.mp e ▸ hm)]
      exact each m (List.mem_cons_of_mem j hm)⟩
    by_cases e : i = j
    · subst e
      cases hq.symm.trans hr
      obtain ⟨r', hr', enters⟩ := State.rekeyRecord_enters hq hz own
      obtain ⟨untouched, -⟩ := State.rekeyChain_spec z rest _ later
      exact ⟨_, r', kept.frame, kept.air, by rw [List.foldl_cons, untouched.record i notIn, hr'], enters⟩
    · obtain ⟨a, r', frame, air, hr', enters⟩ := ih later ((List.mem_cons.mp hi).resolve_left e)
        (by rw [kept.record i fun h => e (List.mem_singleton.mp h), hr])
      rw [kept.air.settledConsumed] at enters
      exact ⟨a, r', kept.frame.trans frame, kept.air.trans air, hr', enters⟩

/-- A rekey of one zone: a selected record enters it again, and another stays as it is (R105, R106). -/
theorem State.rekeyZone_record {h : Hands} (sel : Record → Bool) (k : s.Lists h) (hi : i ∈ (s.zone z).watch)
    (hr : s.record? i = some r) :
    (sel r = true → ∃ r', (s.rekeyZone sel z).record? i = some r' ∧
      (s.rekeyZone sel z).Enters z i { r with consumed := (s.rekeyZone sel z).settledConsumed r } r') ∧
    (sel r = false → (s.rekeyZone sel z).record? i = some r) := by
  obtain ⟨kept, -⟩ := s.rekeyZone_spec sel z (k.chainIn z)
  have lists : (s.rekeyZone sel z).Lists h := s.rekeyZone_lists sel z h k
  have picked : s.selected sel i = sel r := by simp only [State.selected, hr]
  obtain ⟨chain, hc⟩ : ∃ c, c = (s.zone z).watch.filter (s.selected sel) := ⟨_, rfl⟩
  obtain ⟨b, hb⟩ : ∃ b, b = s.setZone z { s.zone z with watch := (s.zone z).watch.filter fun i => !s.selected sel i } := ⟨_, rfl⟩
  have fold : s.rekeyZone sel z = chain.foldl (fun a i => a.rekeyRecord z i) b := by rw [hc, hb]; rfl
  have record : b.record? = s.record? := by rw [hb]; rfl
  have air : s.SameAir b := by rw [hb]; exact State.setZone_sameAir rfl
  have frame : s.ZoneFrame b := by rw [hb]; exact State.setZone_frame ..
  have chained : b.ChainIn z chain := ⟨hc ▸ (k.once z).filter _, fun j hj => by
    rw [record]
    exact (k.chainIn z).2 j (List.mem_of_mem_filter (hc ▸ hj))⟩
  refine ⟨fun yes => ?_, fun no => ?_⟩
  · have inChain : i ∈ chain := hc ▸ List.mem_filter.mpr ⟨hi, picked.trans yes⟩
    obtain ⟨a, r', frame', air', hr', enters⟩ := rekeyChain_enters chain chained inChain (by rw [record, hr])
    rw [← fold] at hr'
    refine ⟨r', hr', ?_⟩
    rw [air.settledConsumed, ← kept.air.settledConsumed] at enters
    refine enters.congr ?_ ?_ ?_ fun _ stands => ?_
    · rw [kept.frame.tables, (frame.trans frame').tables]
    · rw [kept.frame.now, (frame.trans frame').now]
    · rw [kept.air, (air.trans air')]
    · exact (lists.mem z i).mpr ⟨((k.mem z i).mp hi).1, by rw [State.zoneOf?_of hr', stands]⟩
  · have out : i ∉ chain := fun hj => by
      rw [hc, List.mem_filter, picked, no] at hj
      exact Bool.noConfusion hj.2
    obtain ⟨untouched, -⟩ := State.rekeyChain_spec z chain b chained
    rw [fold, untouched.record i out, record, hr]

end

end Sys2Proof.Machine
end

section
namespace Sys2Proof.Machine

/-! ### What the pops and the rekey leave of a record -/

section
variable {s : State} {i : Nat} {r : Record} {z : Fin 32}

/-- A pop moves no record to another zone. -/
theorem popWalk_zoneOf? (z : Fin 32) (l : List Nat) {y : Fin 32} (h : (popWalk z l s).zoneOf? i = some y) : s.zoneOf? i = some y := by
  induction l generalizing s with
  | nil => exact h
  | cons j rest ih =>
    unfold popWalk at h
    split at h
    · split at h
      · split at h
        · split at h
          · exact ih h
          · exact s.settleCross_zoneOf? j none true (ih h)
        · exact h
      · exact ih h
    · exact ih h

/-- What the pop of zone `z`, on the way to `t`, may have made of the record `r` that its list names: `r'` is charged no other
figure up to W, stands in no other zone, and is `r` still when the record is held or its key lies above W (R100, R101). -/
structure State.Popped (t : State) (z : Fin 32) (r r' : Record) : Prop where
  core : r'.core = r.core
  account : t.settledConsumed r' = t.settledConsumed r
  zone : ∀ zp, r'.zonePart = some zp → zp.zone = z
  passed : ∀ zp, r.zonePart = some zp → r.held = true ∨ (t.zone z).wear < zp.key → r' = r

/-- A pop asks of the state it leads to but the wear of its zone. -/
theorem State.Popped.congr {t u : State} {r' : Record} (popped : t.Popped z r r')
    (own : ∃ zp, r.zonePart = some zp ∧ zp.zone = z) (wear : (u.zone z).wear = (t.zone z).wear) : u.Popped z r r' := by
  obtain ⟨zp, hz, rfl⟩ := own
  refine ⟨popped.core, ?_, popped.zone, fun zq hzq => ?_⟩
  · have left : u.settledConsumed r' = t.settledConsumed r' := State.settledConsumed_congr fun zq hzq => by
      rw [popped.zone zq hzq, wear]
    have found : u.settledConsumed r = t.settledConsumed r := State.settledConsumed_congr fun zq hzq => by
      cases hz.symm.trans hzq
      exact wear
    rw [left, found, popped.account]
  · rw [wear]
    exact popped.passed zq hzq

theorem State.pop_popped (hr : s.record? i = some r) {zp : ZonePart} (hz : r.zonePart = some zp) (own : zp.zone = z) :
    ∃ r', (s.pop z).record? i = some r' ∧ (s.pop z).Popped z r r' := by
  obtain ⟨r', hr', account⟩ := popWalk_account z (s.zone z).watch hr
  have air := s.pop_sameAir z
  refine ⟨r', hr', ?_, ?_, fun zq hzq => ?_, fun zq hzq kept => ?_⟩
  · have core := (s.pop_frame z).2 i
    rw [State.pop, hr', hr] at core
    exact Option.some.inj core
  · rw [air.settledConsumed, air.settledConsumed, account]
  · have stood := popWalk_zoneOf? (s := s) z _ (y := zq.zone) ((State.zoneOf?_of hr').trans (by rw [hzq]; rfl))
    rw [State.zoneOf?_of hr, hz] at stood
    exact (Option.some.inj stood).symm.trans own
  · rw [air.wear] at kept
    refine Option.some.inj (hr'.symm.trans ?_)
    rcases kept with held | above
    · exact popWalk_held z _ hr held
    · exact popWalk_above z _ hr hzq above

theorem State.refreshPop_popped (hr : s.record? i = some r) {zp : ZonePart} (hz : r.zonePart = some zp) (own : zp.zone = z)
    (st : Option Byte) : ∃ r', (s.refreshPop z st).record? i = some r' ∧ (s.refreshPop z st).Popped z r r' :=
  State.pop_popped (by rw [State.refreshZone_record?, hr]) hz own

theorem State.advance_popped (kind : (s.tables.zone z).kind ≠ .unset) (hr : s.record? i = some r) {zp : ZonePart}
    (hz : r.zonePart = some zp) (own : zp.zone = z) : ∃ r', (s.advance z).record? i = some r' ∧ (s.advance z).Popped z r r' := by
  rw [State.advance_of kind]
  exact State.refreshPop_popped (by rw [(s.chargeZone_same z).records, hr]) hz own none

/-- What the pops of several zones leave of a listed record is what its own zone's pop leaves of it. -/
theorem TookTurn.popped {f : State → Fin 32 → State} {h : Hands} {s t a : State} (turn : TookTurn f h s t z a) {zp : ZonePart}
    (own : r.zonePart = some zp ∧ zp.zone = z) (hi : i ∈ (s.zone z).watch)
    (pops : ∃ r', (f a z).record? i = some r' ∧ (f a z).Popped z r r') : ∃ r', t.record? i = some r' ∧ t.Popped z r r' := by
  obtain ⟨r', hr', popped⟩ := pops
  exact ⟨r', (turn.left i hi).trans hr', popped.congr ⟨zp, own⟩ (by rw [turn.zone])⟩

end

section
variable {s t : State} {h : Hands} {zs : List (Fin 32)} {z : Fin 32} {i : Nat} {r : Record}

theorem foldl_refreshPop_popped (nodup : zs.Nodup) (k : s.Lists h) (hz : z ∈ zs) (hi : i ∈ (s.zone z).watch)
    (hr : s.record? i = some r) :
    ∃ r', (zs.foldl (fun a z => a.refreshPop z none) s).record? i = some r' ∧
      (zs.foldl (fun a z => a.refreshPop z none) s).Popped z r r' := by
  obtain ⟨a, turn⟩ := foldl_turn refreshPop_worksWithin nodup k hz
  obtain ⟨zp, own⟩ := k.listed hi hr
  exact turn.popped own hi (State.refreshPop_popped (by rw [turn.records i hi, hr]) own.1 own.2 none)

theorem State.advanceAll_popped (nodup : zs.Nodup) (k : s.Lists h) (hz : z ∈ zs) (kind : (s.tables.zone z).kind ≠ .unset)
    (hi : i ∈ (s.zone z).watch) (hr : s.record? i = some r) :
    ∃ r', (s.advanceAll zs).record? i = some r' ∧ (s.advanceAll zs).Popped z r r' := by
  obtain ⟨a, turn⟩ := foldl_turn advance_worksWithin nodup k hz
  obtain ⟨zp, own⟩ := k.listed hi hr
  refine turn.popped own hi (State.advance_popped ?_ (by rw [turn.records i hi, hr]) own.1 own.2)
  rw [turn.frame.tables]
  exact kind

/-- A rekey of several zones: each selected record enters its zone again, and another stays as it is (R105, R106). -/
theorem foldl_rekeyZone_record (sel : Record → Bool) (nodup : zs.Nodup) (k : s.Lists h) (hz : z ∈ zs)
    (hi : i ∈ (s.zone z).watch) (hr : s.record? i = some r) (ht : t = zs.foldl (fun a z => a.rekeyZone sel z) s) :
    (sel r = true → ∃ r', t.record? i = some r' ∧ t.Enters z i { r with consumed := t.settledConsumed r } r') ∧
      (sel r = false → t.record? i = some r) := by
  obtain ⟨a, turn⟩ := foldl_turn (rekeyZone_worksWithin sel) nodup k hz
  obtain ⟨-, frame, -, -⟩ := foldl_outside (rekeyZone_worksWithin sel) (zs := zs) k
  rw [← ht] at turn frame
  obtain ⟨picked, passed⟩ := State.rekeyZone_record (z := z) (r := r) sel turn.lists (by rw [turn.found]; exact hi)
    (by rw [turn.records i hi, hr])
  have left := turn.left i hi
  refine ⟨fun yes => ?_, fun no => left.trans (passed no)⟩
  obtain ⟨r', hr', enters⟩ := picked yes
  obtain ⟨zp, own, rfl⟩ := k.listed hi hr
  have charged : t.settledConsumed r = (a.rekeyZone sel zp.zone).settledConsumed r :=
    State.settledConsumed_congr fun zq hzq => by
      cases own.symm.trans hzq
      rw [turn.zone]
  refine ⟨r', left.trans hr', ?_⟩
  rw [charged]
  have turnFrame := turn.frame.trans (a.rekeyZone_frame sel zp.zone)
  exact enters.congr (frame.tables.trans turnFrame.tables.symm) (frame.now.trans turnFrame.now.symm) (by rw [turn.zone])
    fun listed _ => by rw [turn.zone]; exact listed

/-- A record that the pops found in a list and left as `r`: the rekey behind them charges it what it was charged before (R106). -/
theorem foldl_rekeyZone_popped (sel : Record → Bool) (nodup : zs.Nodup) (k : s.Lists h) (hz : z ∈ zs) (on : ¬h.off i)
    {r0 : Record} (hr : s.record? i = some r) (popped : s.Popped z r0 r)
    (own : ∃ zp, r0.zonePart = some zp ∧ zp.zone = z) (picked : sel r = true)
    (ht : t = zs.foldl (fun a z => a.rekeyZone sel z) s) (air : s.SameAir t) :
    ∃ r', t.record? i = some r' ∧ r'.consumed = t.settledConsumed r0 := by
  have account : t.settledConsumed r = t.settledConsumed r0 := (popped.congr own (air.wear z)).account
  cases hzr : r.zonePart with
  | none =>
    obtain ⟨-, -, -, outside⟩ := foldl_outside (rekeyZone_worksWithin sel) (zs := zs) k
    refine ⟨r, ht ▸ (outside nodup i fun y _ => k.zoneless_unlisted hr hzr y).trans hr, ?_⟩
    rw [← account, State.settledConsumed_zoneless t hzr]
  | some zp =>
    have listed : i ∈ (s.zone z).watch := (k.mem z i).mpr ⟨on, by rw [State.zoneOf?_of hr, hzr, ← popped.zone zp hzr]; rfl⟩
    obtain ⟨enters, -⟩ := foldl_rekeyZone_record sel nodup k hz listed hr ht
    obtain ⟨r', hr', enters⟩ := enters picked
    exact ⟨r', hr', enters.consumed.trans account⟩

end

end Sys2Proof.Machine
end

section
namespace Sys2Proof.Machine

/-! ### No record comes into use while a rekey waits (R178)

Only the create of an OPEN and the relist of a SPLIT bring a record into use; every other command changes, frees or leaves the
records it finds. -/

/-- From `s` to `t` no record has come into use. -/
structure State.NoNew (s t : State) : Prop where
  absent : ∀ i, s.record? i = none → t.record? i = none

namespace State.NoNew

theorem refl (s : State) : s.NoNew s := ⟨fun _ => id⟩

theorem trans {s t u : State} (h : s.NoNew t) (k : t.NoNew u) : s.NoNew u := ⟨fun i hi => k.absent i (h.absent i hi)⟩

theorem of_table {s t : State} (h : t.table = s.table) : s.NoNew t := ⟨fun i hi => by rw [State.record?, h]; exact hi⟩

theorem of_cores {s t : State} (h : s.SameCores t) : s.NoNew t := ⟨fun i hi => by
  have core := h i
  rw [hi] at core
  exact Option.map_eq_none_iff.mp core⟩

theorem of_frame {s t : State} (h : s.ZoneFrame t) : s.NoNew t := of_cores h.2

/-- A change that leaves the table, behind one that brings no record into use. -/
theorem silent {s t u : State} (h : s.NoNew t) (e : u.table = t.table) : s.NoNew u := h.trans (of_table e)

/-- The same, before it. -/
theorem after {s t u : State} (h : t.NoNew u) (e : t.table = s.table) : s.NoNew u := (of_table e).trans h

end State.NoNew

section
variable (s : State)

theorem State.setRecord_noNew {s : State} {i : Nat} {r : Record} (h : s.record? i = some r) (r' : Record) :
    s.NoNew (s.setRecord i r') := ⟨fun j hj => by
  rw [State.setRecord_record?_ne s r' fun e => by rw [e, h] at hj; cases hj]
  exact hj⟩

theorem State.modRecord_noNew (i : Nat) (f : Record → Record) : s.NoNew (s.modRecord i f) := by
  unfold State.modRecord
  split
  · next r hr => exact State.setRecord_noNew hr _
  · exact .refl s

theorem State.removeRecord_noNew (i : Nat) : s.NoNew (s.removeRecord i) := by
  unfold State.removeRecord
  split
  · next r hr =>
    refine ⟨fun j hj => ?_⟩
    have ne : j ≠ i := fun e => by rw [e, hr] at hj; cases hj
    show lookupKey (s.table.remove i r).records j = none
    rw [CarrierTable.remove_records, lookupKey_eraseKey_ne _ ne]
    exact hj
  · exact .refl s

/-! #### The engine's work -/

theorem State.classify_table (t : Telegram) : (s.classify t).table = s.table := by
  unfold State.classify
  simp only []
  repeat' split
  all_goals rfl

theorem State.reissue_noNew (w : Work) (o : RepeatOutcome) (reason : Option Byte) (band : Option Nat) :
    s.NoNew (s.reissue w o reason band) := .of_table (State.compose_table ..)

theorem State.lookupCarrier_noNew (w : Work) (k : TxKind) : s.NoNew (s.lookupCarrier w k) := by
  have opened : s.NoNew (s.lookupOpen w) := by
    unfold State.lookupOpen
    split
    · exact .of_table rfl
    · simp only []
      split
      · exact s.reissue_noNew ..
      · exact .of_table rfl
  have found : ∀ i r, s.NoNew (s.lookupFound w k i r) := fun i r => by
    unfold State.lookupFound
    simp only []
    split
    · exact s.reissue_noNew ..
    · split <;> exact (s.modRecord_noNew i _).silent rfl
  unfold State.lookupCarrier
  repeat' split
  · exact opened
  · exact found _ _
  · exact .of_table rfl
  · exact .of_table rfl

theorem State.lookupQuery_noNew (w : Work) : s.NoNew (s.lookupQuery w) := by
  unfold State.lookupQuery
  split
  · exact (s.modRecord_noNew _ _).silent rfl
  · exact .of_table rfl

theorem State.afterSettle_table (w : Work) (k : TxKind) : (s.afterSettle w k).table = s.table := by
  obtain ⟨p, w', e, -⟩ := s.afterSettle_moves w k
  rw [e]
  rfl

theorem State.answerQuery_noNew (w : Work) : s.NoNew (s.answerQuery w) := by
  unfold State.answerQuery
  split
  · exact (s.modRecord_noNew _ _).silent rfl
  · exact .of_table rfl

theorem State.closeCommit_noNew (w : Work) : s.NoNew (s.closeCommit w) := by
  have remembered : ∀ (a : State) o i, a.NoNew (a.rememberRelease w o i) := fun a o i => by
    unfold State.rememberRelease
    split
    · exact a.modRecord_noNew _ _
    · exact .refl a
  have ringed : ∀ (a : State) o, a.NoNew (a.ringAppend w o) := fun a o => by
    unfold State.ringAppend
    split
    · exact ⟨fun _ => id⟩
    · exact .refl a
  unfold State.closeCommit
  split
  · simp only []
    exact (((remembered ..).trans (remembered ..)).trans (ringed ..)).silent
      ((State.compose_table ..).trans (State.countWorkFault_table ..))
  · exact .refl s

theorem State.openCommit_noNew (w : Work) : s.NoNew (s.openCommit w) := by
  unfold State.openCommit
  simp only []
  split
  · exact s.closeCommit_noNew _
  all_goals exact .of_table rfl

theorem State.relistHeld_frame (w : Work) : s.ZoneFrame (s.relistHeld w) := by
  unfold State.relistHeld
  split
  · exact s.relistStay_frame ..
  · exact .refl s

theorem State.advanceCommit_frame (w : Work) (z : Option (Fin 32)) : s.ZoneFrame (s.advanceCommit w z) := s.advanceAll_frame _

theorem State.commitFault_noNew (w : Work) (f : FaultCode) : s.NoNew (s.commitFault w f) :=
  (State.NoNew.of_frame (s.relistHeld_frame w)).silent rfl

theorem State.commitStay_noNew (w : Work) : s.NoNew (s.commitStay w) :=
  (State.NoNew.of_frame ((s.advanceCommit_frame w none).trans (State.relistHeld_frame _ w))).silent rfl

theorem State.commitZoned_noNew (w : Work) (k : TxKind) (st : Option CarrierState) : s.NoNew (s.commitZoned w k st) := by
  refine .trans (.of_frame (s.advanceCommit_frame w (zone? w.zone))) ?_
  unfold State.commitZoned
  simp only []
  split
  · exact (State.NoNew.of_frame (State.relistTo_frame ..)).silent rfl
  · exact State.commitFault_noNew ..
  · exact State.commitFault_noNew ..

theorem State.commitExpire_noNew (w : Work) : s.NoNew (s.commitExpire w) := by
  refine .trans (.of_frame (s.advanceCommit_frame w none)) ?_
  unfold State.commitExpire
  simp only []
  split
  · exact (State.NoNew.of_frame (State.relistTo_frame ..)).silent rfl
  · exact .of_table rfl

theorem State.commitOpened_noNew (w : Work) : s.NoNew (s.commitOpened w) := by
  refine .trans (.of_frame (s.advanceCommit_frame w (zone? w.zone))) ?_
  unfold State.commitOpened
  simp only []
  split
  · exact ((State.modRecord_noNew ..).trans (.of_frame (State.attach_frame ..))).silent rfl
  · exact (State.removeRecord_noNew ..).silent rfl
  · exact .of_table rfl

theorem State.commitBakeIn_noNew (w : Work) : s.NoNew (s.commitBakeIn w) := by
  refine .trans (.of_frame (s.advanceCommit_frame w none)) ?_
  unfold State.commitBakeIn
  simp only []
  split
  · exact ((State.NoNew.of_frame (State.relistTo_frame ..)).trans (State.modRecord_noNew ..)).silent rfl
  · exact .of_table rfl

theorem State.commitBakeOut_noNew (w : Work) : s.NoNew (s.commitBakeOut w) := by
  unfold State.commitBakeOut
  split
  · exact .of_table rfl
  · next i r bp found =>
    obtain ⟨j, -, found⟩ := Option.bind_eq_some_iff.mp found
    obtain ⟨q, hq, found⟩ := Option.bind_eq_some_iff.mp found
    obtain ⟨b, -, same⟩ := Option.map_eq_some_iff.mp found
    cases same
    simp only []
    split
    · exact (State.setRecord_noNew hq _).silent (State.bakeNotice_table ..)
    · exact (State.setRecord_noNew hq _).silent (State.bakeNotice_table ..)
    all_goals
      have advanced := s.advanceCommit_frame w (zone? w.zone)
      obtain ⟨q', hq'⟩ := Option.ne_none_iff_exists'.mp (advanced.used (i := i) (by rw [hq]; exact Option.some_ne_none _))
      refine .trans (.of_frame advanced) ?_
      split
      · exact (((State.setRecord_noNew hq' _).silent (State.bakeNotice_table ..)).trans
          (.of_frame (State.attach_frame ..))).silent rfl
      · exact State.commitFault_noNew ..

/-- A SPLIT alone makes the transition that creates (R139). -/
theorem TxKind.split_of_transition {k : TxKind} {st : CarrierState} (h : k.transition st = .split) : k = .split := by
  revert h
  cases k <;> cases st <;> decide

/-- The relist of a transaction that asks for no create brings no record into use (R146). -/
theorem State.commitRelistStep_noNew {w : Work} (phase : s.engine.phase = .commitRelist) (work : s.engine.work = some w)
    (asks : s.splitAsks = false) : s.NoNew (s.commitRelistStep w) := by
  unfold State.commitRelistStep
  split
  · next transition =>
    split
    · exact s.commitOpened_noNew w
    · next k _ hk =>
      split
      · exact s.commitZoned_noNew ..
      · exact s.commitZoned_noNew ..
      · exact s.commitExpire_noNew w
      · exact s.commitBakeIn_noNew w
      · exact s.commitBakeOut_noNew w
      · next splits =>
        obtain ⟨st, hst, ht⟩ := Option.map_eq_some_iff.mp splits
        cases TxKind.split_of_transition ht
        have asking : s.splitAsks = true := by
          simp only [State.splitAsks, phase, work, transition, hk, hst, Option.map_some, ht]
          rfl
        exact nomatch asks.symm.trans asking
      · exact s.commitStay_noNew w
    · exact s.commitStay_noNew w
  · exact s.commitStay_noNew w

theorem State.unlinkRecord_noNew (i : Nat) : s.NoNew (s.unlinkRecord i) := by
  unfold State.unlinkRecord
  split
  · exact ((s.modRecord_noNew i _).trans (.of_frame (State.advance_frame ..))).silent rfl
  · exact .refl s

/-- A start keeps the records, or empties the table (R187, R188). -/
theorem State.start_noNew (c : StartCause) : s.NoNew (s.start c) := by
  by_cases hc : c = .powerOn
  · subst hc
    obtain ⟨-, kept, -⟩ := s.start_after .powerOn
    have loaded : s.clearRetained.loadAtStart.table = .empty := by
      unfold State.loadAtStart
      split <;> rfl
    have emptied : (s.startBase .powerOn).table = .empty := by
      show { s.clearRetained.loadAtStart.table with
        records := s.clearRetained.loadAtStart.table.records.map fun p => (p.1, { p.2 with held := false }) } = CarrierTable.empty
      rw [loaded]
      rfl
    refine ⟨fun i _ => Option.eq_none_iff_forall_ne_some.mpr fun r hr => ?_⟩
    obtain ⟨p, hp, -⟩ := kept.ids (by rw [emptied]; exact CarrierTable.empty_canonical) i r hr
    rw [emptied] at hp
    exact nomatch (show none = some p from hp)
  · refine ⟨fun i hi => ?_⟩
    have cores := s.start_cores hc i
    rw [hi] at cores
    exact Option.map_eq_none_iff.mp cores

theorem State.classRekey_noNew (c : Fin 16) (row : ClassRow) : s.NoNew (s.classRekey c row) := by
  refine .trans (.of_frame (s.advanceAll_frame s.tables.configuredZones)) ?_
  refine .after (t := { s.advanceAll s.tables.configuredZones with tables :=
    { (s.advanceAll s.tables.configuredZones).tables with
      classes := (s.advanceAll s.tables.configuredZones).tables.classes.set c.val row } }) (.of_frame ?_) rfl
  exact foldl_zoneFrame (fun a z => a.rekeyZone (fun r => r.cls == c) z) (fun a z => a.rekeyZone_frame _ z) _ _

end

/-! #### Every command -/

/-- An outcome whose next state, if there is one, has no record that was not in use. -/
structure State.NoNewSafe (s : State) (o : Host.Outcome State Fault Refusal) : Prop where
  next : ∀ t, o = .next t → s.NoNew t

namespace State.NoNewSafe

theorem of_next {s t : State} (h : s.NoNew t) : s.NoNewSafe (.next t) := ⟨by rintro _ ⟨⟩; exact h⟩

theorem same (s : State) : s.NoNewSafe (.next s) := of_next (.refl s)

theorem calm {s : State} {o : Host.Outcome State Fault Refusal} (h : s.CalmSafe o) : s.NoNewSafe o :=
  ⟨fun t ht => .of_table (h t ht).table⟩

end State.NoNewSafe

section
variable (s : State)

theorem engineCommands_noNew :
    s.NoNewSafe (execTransactionTake s) ∧ s.NoNewSafe (execSampleIntake s) ∧ s.NoNewSafe (execCarrierLookup s) ∧
      s.NoNewSafe (execRingSearch s) ∧ s.NoNewSafe (execFreeRecordProbe s) ∧ s.NoNewSafe (execSettleRequest s) ∧
      s.NoNewSafe (execPolicyLookup s) ∧ s.NoNewSafe (execCommit s) := by
  refine ⟨?take, ?sample, ?lookup, ?ring, ?probe, ?settle, ?policy, ?commit⟩
  case take =>
    unfold execTransactionTake
    repeat' split
    · exact .of_next (.of_table (State.classify_table ..))
    all_goals exact .same s
  case sample =>
    unfold execSampleIntake
    split
    · split
      · have placed : ∀ {t : State} {w : Work}, s.NoNew t → s.NoNew (t.placeOutput w .upRelay w.tel) := fun h => h.silent rfl
        refine .of_next (placed ?_)
        split
        · exact .after (t := s.takeZoneRequest) (.of_frame (State.acceptSample_frame ..)) rfl
        · exact .of_table rfl
      · exact .same s
    · exact .same s
  case lookup =>
    unfold execCarrierLookup
    repeat' split
    · exact .of_next (s.lookupCarrier_noNew ..)
    · exact .of_next (s.lookupQuery_noNew _)
    all_goals exact .same s
  case ring =>
    unfold execRingSearch
    repeat' split
    · exact .of_next (s.reissue_noNew ..)
    · exact .of_next (.of_table rfl)
    all_goals exact .same s
  case probe =>
    have decided : ∀ w k, (s.decisionReading w k).table = s.table := fun w k => by
      unfold State.decisionReading
      split <;> rfl
    unfold execFreeRecordProbe
    split
    · split
      · split
        · refine .of_next ?_
          split
          · exact .of_table (decided ..)
          · exact .of_table rfl
        · exact .same s
      · exact .same s
    · exact .same s
  case settle =>
    unfold execSettleRequest
    split
    · next w _ _ =>
      split
      · split
        next u w' e =>
        have left : (s.takeZoneRequest.settleEngine w).1 = u := congrArg Prod.fst e
        have settled : s.NoNew u :=
          .after (t := s.takeZoneRequest) (left ▸ .of_frame (State.settleEngine_frame _ w)) rfl
        split
        · exact .of_next (settled.silent (State.afterSettle_table ..))
        · exact .of_next (settled.trans (State.answerQuery_noNew ..))
      · exact .same s
    · exact .same s
  case policy =>
    unfold execPolicyLookup
    split
    · split
      · split
        · next q _ =>
          split
          next u v e =>
          have left : (s.lookupPolicy q).1 = u := congrArg Prod.fst e
          have looked : u.table = s.table := left ▸ (s.lookupPolicy_policyFrame q).table
          exact .of_next (.of_table looked)
        · exact .same s
      · exact .same s
    · exact .same s
  case commit =>
    unfold execCommit
    repeat' split
    · exact .of_next (s.openCommit_noNew _)
    · exact .same s
    · exact .of_next (s.closeCommit_noNew _)
    all_goals exact .same s

theorem placingCommands_noNew :
    s.NoNewSafe (execDelete s) ∧ s.NoNewSafe (execUnlink s) ∧ s.NoNewSafe (execBatchJoin s) ∧ s.NoNewSafe (execBatchLeave s) ∧
      s.NoNewSafe (execOutputPlace s) := by
  refine ⟨?delete, ?unlink, ?join, ?leave, ?place⟩
  case delete =>
    unfold execDelete
    repeat' split
    · exact .of_next ((s.removeRecord_noNew _).silent rfl)
    · exact .of_next (.of_table rfl)
    all_goals exact .same s
  case unlink =>
    unfold execUnlink
    repeat' split
    · exact .of_next ((State.NoNew.after (s := s) (t := s.takeZoneRequest) (State.unlinkRecord_noNew ..) rfl).silent rfl)
    · exact .of_next (.of_table rfl)
    all_goals exact .same s
  case join =>
    unfold execBatchJoin
    repeat' split
    · exact .of_next (.of_table (s.joinBatch_frame ..).2.1)
    · exact .of_next (.of_table rfl)
    all_goals exact .same s
  case leave =>
    unfold execBatchLeave
    repeat' split
    · exact .of_next (.of_table (s.leaveBatch_table ..))
    · exact .of_next (.of_table rfl)
    all_goals exact .same s
  case place =>
    unfold execOutputPlace
    split
    · split
      · split
        · split
          · next placed => exact .of_next (.of_table (congrArg CarrierView.table (State.tryPlace_carriers placed)))
          · refine .of_next ?_
            split <;> exact .of_table rfl
        · exact .of_next (.of_table rfl)
      · exact .same s
    · exact .same s

theorem execTimerRequest_noNew (n : Nat) : s.NoNewSafe (execTimerRequest n s) := by
  unfold execTimerRequest
  repeat' split
  · exact .of_next (.after (t := s.takeZoneRequest) (.of_frame (State.advance_frame ..)) rfl)
  · exact .same s
  · exact ⟨fun _ h => nomatch h⟩

theorem execStartSequence_noNew : s.NoNewSafe (execStartSequence s) := by
  unfold execStartSequence
  split
  · exact .of_next (s.start_noNew _)
  · exact .same s

variable {s} (begun : s.rekeyBegun = true)
include begun

theorem execCreate_rekeying : s.NoNewSafe (execCreate s) := by
  unfold execCreate
  rw [begun]
  split
  · simp only [Bool.not_true, Bool.and_false, Bool.false_eq_true, if_false]
    exact .same s
  · exact .same s

theorem execCommitRelist_rekeying : s.NoNewSafe (execCommitRelist s) := by
  unfold execCommitRelist
  split
  · next w phase work =>
    rw [begun, Bool.true_and]
    refine .of_next ?_
    split
    · next turn =>
      have asks : s.splitAsks = false := by simpa using (Bool.and_eq_true_iff.mp turn).2
      exact .after (t := s.takeZoneRequest) (State.commitRelistStep_noNew _ phase work asks) rfl
    · exact .refl s
  · exact .same s

theorem execClassWrite_rekeying : s.NoNewSafe (execClassWrite s) := by
  obtain ⟨t, c, row, phase⟩ := s.rekeyBegun_iff.mp begun
  simp only [execClassWrite, phase]
  refine .of_next ?_
  split
  · unfold State.rekeyRequest State.asZoneRequest
    split
    · exact .after (t := s.withdrawAgent) ((State.classRekey_noNew ..).silent rfl) rfl
    · split <;> exact .of_table rfl
  · exact .refl s

/-- While a rekey waits, the agent serves no other request. -/
theorem State.operation?_rekeying : s.operation? = none := by
  obtain ⟨t, c, row, phase⟩ := s.rekeyBegun_iff.mp begun
  simp only [State.operation?, State.request?, phase]

theorem agentCommands_rekeying :
    execZoneConfigurationWrite s = .next s ∧ execGridWrite s = .next s ∧ execWriteRecordClass s = .next s ∧
      execWriteRecordConsumed s = .next s ∧ execWriteRecordBakeCount s = .next s ∧ execWriteRecordRetire s = .next s ∧
      execDeleteRecord s = .next s ∧ execReadZone s = .next s ∧ execListZone s = .next s ∧ execLoadImageReplace s = .next s := by
  have none := State.operation?_rekeying begun
  obtain ⟨t, c, row, phase⟩ := s.rekeyBegun_iff.mp begun
  refine ⟨?_, ?_, ?_, ?_, ?_, ?_, ?_, ?_, ?_, ?_⟩
  · simp only [execZoneConfigurationWrite, none]
  · simp only [execGridWrite, none]
  · simp only [execWriteRecordClass, none]
  · simp only [execWriteRecordConsumed, none]
  · simp only [execWriteRecordBakeCount, none]
  · simp only [execWriteRecordRetire, none]
  · simp only [execDeleteRecord, none]
  · simp only [execReadZone, none]
  · simp only [execListZone, none]
  · simp only [execLoadImageReplace, phase]

/-- No command brings a record into use while a rekey waits (R178). -/
theorem exec_noNew (c : Instr) : s.NoNewSafe (exec c s) := by
  obtain ⟨unknownOp, readStatus, setTime, clearStartCause, readRow, readRecord, readBatch, clearRules, clearFaults⟩ := reads_calm s
  obtain ⟨stationWrite, partWrite, policyWrite⟩ := rowWrites_calm s
  obtain ⟨save, saved, load, compare, compared⟩ := images_calm s
  obtain ⟨supplyFail, supplyRecover, supplyReturn, supplyDrop, powerApplied, backupLoss, tick⟩ := monitor_calm s
  obtain ⟨lineBreak, freeze, freezeStop, quiesceStop, supplyLoss⟩ := stops_calm s
  obtain ⟨take, sample, lookup, ring, probe, settle, policy, commit⟩ := engineCommands_noNew s
  obtain ⟨delete, unlink, join, leave, place⟩ := placingCommands_noNew s
  obtain ⟨zoneWrite, gridWrite, writeClass, writeConsumed, writeBakeCount, writeRetire, deleteRecord, readZone, listZone,
    replace⟩ := agentCommands_rekeying begun
  have stays : ∀ {o : Host.Outcome State Fault Refusal}, o = .next s → s.NoNewSafe o := fun e => e ▸ .same s
  cases c with
  | characterReceived port line => exact .calm ((receivers_calm s port).1 line)
  | breakDetected port => exact .calm (receivers_calm s port).2.1
  | breakEnd port => exact .calm (receivers_calm s port).2.2.1
  | lineBreak => exact .calm lineBreak
  | interCharacterTimeout port => exact .calm (receivers_calm s port).2.2.2.2
  | telegramSent port => exact .calm (execTelegramSent_calm s port)
  | startingEnd port => exact .calm (execStartingEnd_calm s port)
  | plantRoutingTake => exact .calm (execPlantRoutingTake_calm s)
  | transactionTake => exact take
  | sampleIntake => exact sample
  | carrierLookup => exact lookup
  | ringSearch => exact ring
  | freeRecordProbe => exact probe
  | settleRequest => exact settle
  | policyLookup => exact policy
  | commit => exact commit
  | commitRelist => exact execCommitRelist_rekeying begun
  | create => exact execCreate_rekeying begun
  | delete => exact delete
  | unlink => exact unlink
  | batchJoin => exact join
  | batchLeave => exact leave
  | outputPlace => exact place
  | advanceTimerExpiry zone => exact .calm (execAdvanceTimerExpiry_calm s zone)
  | timerRequest zone => exact execTimerRequest_noNew s zone
  | staleTimerExpiry batch => exact .calm (batchTimers_calm s batch).1
  | bakeStale batch => exact .calm (batchTimers_calm s batch).2
  | unknownOp => exact .calm unknownOp
  | readStatus => exact .calm readStatus
  | setMode => exact .calm (execSetMode_calm s)
  | setTime => exact .calm setTime
  | readRow => exact .calm readRow
  | stationWrite => exact .calm stationWrite
  | partConfigurationWrite => exact .calm partWrite
  | zoneConfigurationWrite => exact stays zoneWrite
  | gridWrite => exact stays gridWrite
  | classWrite => exact execClassWrite_rekeying begun
  | policyTableWrite => exact .calm policyWrite
  | readRecord => exact .calm readRecord
  | writeRecordClass => exact stays writeClass
  | writeRecordConsumed => exact stays writeConsumed
  | writeRecordBakeCount => exact stays writeBakeCount
  | writeRecordRetire => exact stays writeRetire
  | deleteRecord => exact stays deleteRecord
  | readZone => exact stays readZone
  | listZone => exact stays listZone
  | readBatch => exact .calm readBatch
  | clearRuleCounters => exact .calm clearRules
  | clearFaultCounters => exact .calm clearFaults
  | saveImage => exact .calm save
  | saveImageComplete => exact .calm saved
  | loadImage => exact .calm load
  | loadImageReplace => exact stays replace
  | compareImage => exact .calm compare
  | compareImageComplete => exact .calm compared
  | clearStartCause => exact .calm clearStartCause
  | resetPart => exact .calm (replies_calm s).1
  | replyPlace => exact .calm (replies_calm s).2
  | supplyFail => exact .calm supplyFail
  | supplyRecover => exact .calm supplyRecover
  | freeze => exact .calm freeze
  | freezeStop => exact .calm freezeStop
  | quiesceStop => exact .calm quiesceStop
  | supplyReturn => exact .calm supplyReturn
  | supplyDrop => exact .calm supplyDrop
  | powerApplied => exact .calm powerApplied
  | backupLoss => exact .calm backupLoss
  | startSequence => exact execStartSequence_noNew s
  | monotonicTick => exact .calm tick
  | zeroCharacterLineHigh port => exact .calm (receivers_calm s port).2.2.2.1
  | mainSupplyLoss => exact .calm supplyLoss

end

end Sys2Proof.Machine
end

section
namespace Sys2Proof.Machine

/-! ### The Zone Engine's queue, which an advance reads no more than it writes

A run of timer requests (`State.AllAdvanced`) leaves what the advances of a rekey leave, but for the requests that wait. -/

/-- The same state with other requests waiting for the Zone Engine. -/
def State.waiting (s : State) (q : List ZoneRequest) : State := { s with zoneWait := q }

section
variable (s : State) (q : List ZoneRequest)

theorem State.kickPlant_waiting : (s.waiting q).kickPlant = s.kickPlant.waiting q := by
  unfold State.kickPlant State.plantChoice? State.plantOrder? State.waiting
  simp only
  repeat' split
  all_goals rfl

theorem State.post_waiting (n : Notice) : (s.waiting q).post n = (s.post n).waiting q :=
  State.kickPlant_waiting { s with notices := s.notices.arrive n } q

theorem State.crossOnce_waiting (i : Nat) (st : Option Byte) : (s.waiting q).crossOnce i st = (s.crossOnce i st).waiting q := by
  unfold State.crossOnce
  rw [show (s.waiting q).record? i = s.record? i from rfl]
  cases s.record? i with
  | none => rfl
  | some r =>
    simp only [show (s.waiting q).classOf r = s.classOf r from rfl]
    cases r.cross? (s.classOf r) with
    | none => rfl
    | some p => exact State.post_waiting (s.setRecord i p.1) q _

theorem State.crossAll_waiting (i : Nat) (st : Option Byte) : (s.waiting q).crossAll i st = (s.crossAll i st).waiting q := by
  simp only [State.crossAll, State.crossOnce_waiting]

theorem State.enlist_waiting (i : Nat) : (s.waiting q).enlist i = (s.enlist i).waiting q := by
  unfold State.enlist
  rw [show (s.waiting q).record? i = s.record? i from rfl]
  cases s.record? i with
  | none => rfl
  | some r =>
    simp only []
    cases r.zonePart <;> rfl

theorem State.settleCross_waiting (i : Nat) (st : Option Byte) (b : Bool) :
    (s.waiting q).settleCross i st b = (s.settleCross i st b).waiting q := by
  unfold State.settleCross
  rw [show (s.waiting q).record? i = s.record? i from rfl]
  cases s.record? i with
  | none => rfl
  | some r =>
    simp only []
    cases r.zonePart with
    | none => rfl
    | some zp =>
      obtain ⟨r', hr'⟩ : ∃ r', r' = r.settle (s.zone zp.zone).wear := ⟨_, rfl⟩
      simp only [show (s.waiting q).zone zp.zone = s.zone zp.zone from rfl, ← hr',
        show (s.waiting q).setRecord i r' = (s.setRecord i r').waiting q from rfl, State.crossAll_waiting,
        show (s.waiting q).classOf r' = s.classOf r' from rfl,
        show ∀ a : State, (a.waiting q).unlist zp.zone i = (a.unlist zp.zone i).waiting q from fun _ => rfl, State.enlist_waiting]
      split <;> rfl

theorem popWalk_waiting (z : Fin 32) (l : List Nat) : popWalk z l (s.waiting q) = (popWalk z l s).waiting q := by
  induction l generalizing s with
  | nil => rfl
  | cons i rest ih =>
    unfold popWalk
    rw [show (s.waiting q).record? i = s.record? i from rfl]
    cases s.record? i with
    | none => exact ih s
    | some r =>
      simp only []
      cases r.zonePart with
      | none => exact ih s
      | some zp =>
        simp only [show (s.waiting q).zone z = s.zone z from rfl]
        split
        · split
          · exact ih s
          · rw [State.settleCross_waiting]
            exact ih _
        · rfl

theorem State.refreshZone_waiting (z : Fin 32) (st : Option Byte) : (s.waiting q).refreshZone z st = (s.refreshZone z st).waiting q := by
  unfold State.refreshZone
  simp only [show (s.waiting q).zone z = s.zone z from rfl, show (s.waiting q).tables = s.tables from rfl,
    show (s.waiting q).now = s.now from rfl]
  obtain ⟨x, hx⟩ : ∃ x, x = (s.zone z).refresh s.tables (s.tables.zone z) s.now := ⟨_, rfl⟩
  simp only [← hx]
  split
  · rfl
  · split
    · exact State.post_waiting (s.setZone z x) q _
    · exact State.post_waiting (s.setZone z x) q _

theorem State.refreshPop_waiting (z : Fin 32) (st : Option Byte) : (s.waiting q).refreshPop z st = (s.refreshPop z st).waiting q := by
  unfold State.refreshPop State.pop
  rw [State.refreshZone_waiting]
  exact popWalk_waiting ..

variable {s}

/-- An advance of a configured zone takes the zone's timer request from whatever waits (R68). -/
theorem State.advance_waiting {z : Fin 32} (kind : (s.tables.zone z).kind ≠ .unset) :
    (s.waiting q).advance z = (s.advance z).waiting (q.filter fun r => r != .timer z) := by
  rw [State.advance_of (s := s.waiting q) kind, State.advance_of kind]
  have charged : (s.waiting q).chargeZone z = (s.chargeZone z).waiting (q.filter fun r => r != .timer z) := rfl
  rw [charged, State.refreshPop_waiting]

end

theorem runAll_next {c : Instr} {s t : State} (h : exec c s = .next t) (cs : List Instr) : runAll (c :: cs) s = runAll cs t := by
  simp only [runAll, h]

/-- The timer requests of some configured zones, waiting in their order with no other, advance each and leave none waiting. -/
theorem runAll_timerRequests {zs : List (Fin 32)} (nodup : zs.Nodup) {s : State} (live : s.live = true)
    (configured : ∀ z ∈ zs, (s.tables.zone z).kind ≠ .unset) :
    runAll (zs.map fun z => .timerRequest z.val) (s.waiting (zs.map .timer)) = .next ((s.advanceAll zs).waiting []) := by
  induction zs generalizing s with
  | nil => rfl
  | cons z rest ih =>
    obtain ⟨notIn, nodup_rest⟩ := List.nodup_cons.mp nodup
    have kind := configured z List.mem_cons_self
    have others : ((rest.map ZoneRequest.timer).filter fun r => r != .timer z) = rest.map .timer := by
      refine List.filter_eq_self.mpr fun r hr => ?_
      obtain ⟨y, hy, rfl⟩ := List.mem_map.mp hr
      rw [bne_iff_ne]
      rintro ⟨⟩
      exact notIn hy
    have served : exec (.timerRequest z.val) (s.waiting ((z :: rest).map .timer)) = .next ((s.advance z).waiting (rest.map .timer)) := by
      have head : (s.waiting ((z :: rest).map .timer)).zoneWait.head? = some (.timer z) := rfl
      rw [execTimerRequest_live (s := s.waiting ((z :: rest).map .timer)) live, if_pos head]
      show Host.Outcome.next ((s.waiting (rest.map .timer)).advance z) = _
      rw [State.advance_waiting _ kind, others]
    have frame := s.advance_frame z
    have later : (s.advance z).live = true := by
      rw [← live, frame.1]
      rfl
    rw [List.map_cons, runAll_next served]
    exact ih nodup_rest later fun y hy => frame.tables ▸ configured y (List.mem_cons_of_mem z hy)

theorem configuredZones_eq (t : Tables) :
    t.configuredZones = (List.finRange 32).filter fun z => (t.zone z).kind ≠ .unset := by
  simp [Tables.configuredZones, allZones, ZoneConfig.configured, bne, BEq.beq]

/-- What the advances of a rekey leave, with no request waiting, is what the zones' timer requests leave (R66, R105). -/
theorem State.advanceAll_allAdvanced {s : State} (live : s.live = true) :
    s.AllAdvanced ((s.advanceAll s.tables.configuredZones).waiting []) := by
  refine ⟨s.tables.configuredZones, configuredZones_eq _, ?_⟩
  exact runAll_timerRequests (configuredZones_nodup _) live fun z hz => (mem_configuredZones _ z).mp hz

end Sys2Proof.Machine
end

section
namespace Sys2Proof.Machine

/-! ### A class row with its rekey (R105 to R107) -/

section
variable (s : State) (z : Fin 32) (i : Nat)

theorem State.rekeyRecord_sameAir : s.SameAir (s.rekeyRecord z i) := by
  refine State.SameAir.trans ?_ (State.attach_sameAir _ i z none)
  unfold State.modRecord
  split
  · exact State.setRecord_sameAir s i _
  · exact .refl s

theorem State.rekeyRecord_zoneWait : (s.rekeyRecord z i).zoneWait = s.zoneWait := by
  rw [State.rekeyRecord, State.attach_zoneWait, State.modRecord]
  split <;> rfl

/-- A rekey of a zone leaves readings, conditions and clocks, and the requests that wait. -/
theorem State.rekeyZone_leaves (sel : Record → Bool) :
    s.SameAir (s.rekeyZone sel z) ∧ (s.rekeyZone sel z).zoneWait = s.zoneWait := by
  have chain : ∀ (l : List Nat) (a : State), a.SameAir (l.foldl (fun a i => a.rekeyRecord z i) a) ∧
      (l.foldl (fun a i => a.rekeyRecord z i) a).zoneWait = a.zoneWait := by
    intro l
    induction l with
    | nil => exact fun a => ⟨.refl a, rfl⟩
    | cons i rest ih =>
      intro a
      obtain ⟨air, wait⟩ := ih (a.rekeyRecord z i)
      exact ⟨(a.rekeyRecord_sameAir z i).trans air, wait.trans (a.rekeyRecord_zoneWait z i)⟩
  have aside : s.SameAir (s.setZone z { s.zone z with watch := (s.zone z).watch.filter fun i => !s.selected sel i }) :=
    State.setZone_sameAir rfl
  obtain ⟨air, wait⟩ := chain ((s.zone z).watch.filter (s.selected sel))
    (s.setZone z { s.zone z with watch := (s.zone z).watch.filter fun i => !s.selected sel i })
  exact ⟨aside.trans air, wait⟩

theorem foldl_rekeyZone_leaves (sel : Record → Bool) (zs : List (Fin 32)) (s : State) :
    s.SameAir (zs.foldl (fun a z => a.rekeyZone sel z) s) ∧ (zs.foldl (fun a z => a.rekeyZone sel z) s).zoneWait = s.zoneWait := by
  induction zs generalizing s with
  | nil => exact ⟨.refl s, rfl⟩
  | cons z rest ih =>
    obtain ⟨air, wait⟩ := ih (s.rekeyZone sel z)
    obtain ⟨air', wait'⟩ := s.rekeyZone_leaves z sel
    exact ⟨air'.trans air, wait.trans wait'⟩

end

/-- A class row put in behind the advances of its rekey (R105). -/
def State.classPut (s : State) (c : Fin 16) (row : ClassRow) : State :=
  { s.advanceAll s.tables.configuredZones with tables := s.tables.write (.cls c row) }

section
variable (s : State) (c : Fin 16) (row : ClassRow)

theorem State.classRekey_eq : s.classRekey c row =
    s.tables.configuredZones.foldl (fun a z => a.rekeyZone (fun r => r.cls == c) z) (s.classPut c row) := by
  unfold State.classRekey State.classPut
  simp only [Tables.write]
  rw [(s.advanceAll_frame s.tables.configuredZones).tables]

theorem State.classPut_frame : State.ZoneFrame { s with tables := s.tables.write (.cls c row) } (s.classPut c row) := by
  obtain ⟨form, cores⟩ := s.advanceAll_frame s.tables.configuredZones
  exact ⟨congrArg (fun x : State => { x with tables := s.tables.write (.cls c row) }) form, cores⟩

theorem State.classRekey_frame : State.ZoneFrame { s with tables := s.tables.write (.cls c row) } (s.classRekey c row) := by
  rw [State.classRekey_eq]
  exact (s.classPut_frame c row).trans (foldl_zoneFrame (fun a z => a.rekeyZone (fun r => r.cls == c) z)
    (fun a z => a.rekeyZone_frame _ z) _ _)

theorem State.classRekey_sameAir : (s.advanceAll s.tables.configuredZones).SameAir (s.classRekey c row) := by
  rw [State.classRekey_eq]
  exact (foldl_rekeyZone_leaves _ _ (s.classPut c row)).1

theorem State.classRekey_zoneWait : (s.classRekey c row).zoneWait = (s.advanceAll s.tables.configuredZones).zoneWait := by
  rw [State.classRekey_eq]
  exact (foldl_rekeyZone_leaves _ _ (s.classPut c row)).2

/-- Every configured zone is charged, and no other changes but for its list (R66, R105). -/
theorem State.classRekey_charges (z : Fin 32) :
    if (s.tables.zone z).kind ≠ .unset then s.Charged (s.classRekey c row) z
    else ((s.classRekey c row).zone z).air = (s.zone z).air := by
  have advanced := s.advanceAll_air s.tables.configuredZones (configuredZones_nodup _) z
  simp only [mem_configuredZones, and_self] at advanced
  split at advanced
  · next kind =>
    rw [if_pos kind]
    exact advanced.sameAir (s.classRekey_sameAir c row) (s.classRekey_zoneWait c row)
  · next kind =>
    rw [if_neg kind]
    exact (s.classRekey_sameAir c row z).trans advanced

section
variable {s} {h : Hands} (k : s.Lists h)
include k

theorem State.Lists.advanceAll (zs : List (Fin 32)) : (s.advanceAll zs).Lists h := s.advanceAll_lists zs h k

theorem State.Lists.classPut : (s.classPut c row).Lists h := by
  refine (k.advanceAll s.tables.configuredZones).same ⟨fun _ => rfl, fun _ => rfl, fun z => ?_⟩
  unfold State.kindOf
  rw [(s.advanceAll_frame s.tables.configuredZones).tables]
  rfl

/-- Behind the advances arrive the notices of the rekey's crossings (R102, R106). -/
theorem State.Lists.classRekey_posts :
    (s.advanceAll s.tables.configuredZones).Posts (s.classRekey c row)
      ((s.advanceAll s.tables.configuredZones).rekeyNotices (s.classRekey c row) c) := by
  have lists := k.advanceAll s.tables.configuredZones
  refine State.classRekey_posts _ c row _ ?_ lists.chainIn
  have tables := (s.advanceAll_frame s.tables.configuredZones).tables
  rw [State.classRekey_eq, tables]
  rfl

/-- A record that the advances leave without a zone is not rekeyed (R105). -/
theorem State.Lists.classRekey_zoneless {i : Nat} {r : Record} (hr : (s.advanceAll s.tables.configuredZones).record? i = some r)
    (hz : r.zonePart = none) : (s.classRekey c row).record? i = some r := by
  obtain ⟨-, -, -, outside⟩ := foldl_outside (rekeyZone_worksWithin fun r => r.cls == c) (zs := s.tables.configuredZones)
    (k.classPut c row)
  rw [State.classRekey_eq]
  have put : (s.classPut c row).record? i = some r := hr
  rw [outside (configuredZones_nodup _) i fun y _ => (k.classPut c row).zoneless_unlisted put hz y, put]

/-- A record that the advances leave in a list: rekeyed if it is of the class, and else left (R105, R106). -/
theorem State.Lists.classRekey_listed {z : Fin 32} (kind : (s.tables.zone z).kind ≠ .unset) {i : Nat} {r : Record}
    (hi : i ∈ ((s.advanceAll s.tables.configuredZones).zone z).watch)
    (hr : (s.advanceAll s.tables.configuredZones).record? i = some r) :
    (r.cls = c → ∃ r', (s.classRekey c row).record? i = some r' ∧
      (s.classRekey c row).Enters z i { r with consumed := (s.classRekey c row).settledConsumed r } r') ∧
    (r.cls ≠ c → (s.classRekey c row).record? i = some r) := by
  obtain ⟨picked, passed⟩ := foldl_rekeyZone_record (s := s.classPut c row) (fun r => r.cls == c) (configuredZones_nodup s.tables)
    (k.classPut c row) ((mem_configuredZones _ z).mpr kind) hi hr (s.classRekey_eq c row)
  exact ⟨fun own => picked (beq_iff_eq.mpr own), fun other => passed (beq_eq_false_iff_ne.mpr other)⟩

/-- A record without a zone stays as it is. -/
theorem State.Lists.classRekey_kept {i : Nat} {r : Record} (hr : s.record? i = some r) (hz : r.zonePart = none) :
    (s.classRekey c row).record? i = some r := by
  obtain ⟨-, -, -, outside⟩ := foldl_outside advance_worksWithin (zs := s.tables.configuredZones) k
  refine k.classRekey_zoneless c row ?_ hz
  exact (outside (configuredZones_nodup _) i fun y _ => k.zoneless_unlisted hr hz y).trans hr

/-- A listed record of the class is charged up to W by advance and rekey together (R80, R106). -/
theorem State.Lists.classRekey_consumed {z : Fin 32} (kind : (s.tables.zone z).kind ≠ .unset) {i : Nat} {r : Record}
    (hi : i ∈ (s.zone z).watch) (hr : s.record? i = some r) (own : r.cls = c) :
    ∃ r', (s.classRekey c row).record? i = some r' ∧ r'.consumed = (s.classRekey c row).settledConsumed r := by
  have hz := (mem_configuredZones s.tables z).mpr kind
  obtain ⟨r1, hr1, popped⟩ := State.advanceAll_popped (configuredZones_nodup _) k hz kind hi hr
  have stands := k.listed hi hr
  refine foldl_rekeyZone_popped (s := s.classPut c row) (fun r => r.cls == c) (configuredZones_nodup s.tables)
    (k.classPut c row) hz ((k.mem z i).mp hi).1 hr1 (popped.congr stands rfl) stands ?_ (s.classRekey_eq c row)
    (s.classRekey_sameAir c row)
  exact beq_iff_eq.mpr ((congrArg RecordCore.cls popped.core).trans own)

/-- A listed record that no advance pops is rekeyed as it was, or stays (R101, R105). -/
theorem State.Lists.classRekey_passed {z : Fin 32} (kind : (s.tables.zone z).kind ≠ .unset) {i : Nat} {r : Record}
    (hi : i ∈ (s.zone z).watch) (hr : s.record? i = some r)
    (passed : r.held = true ∨ ((s.classRekey c row).zone z).wear < s.keyOf i) :
    (r.cls = c → ∃ r', (s.classRekey c row).record? i = some r' ∧
      (s.classRekey c row).Enters z i { r with consumed := (s.classRekey c row).settledConsumed r } r') ∧
    (r.cls ≠ c → (s.classRekey c row).record? i = some r) := by
  obtain ⟨r1, hr1, popped⟩ :=
    State.advanceAll_popped (configuredZones_nodup _) k ((mem_configuredZones s.tables z).mpr kind) kind hi hr
  obtain ⟨zp, hzp, hz⟩ := k.listed hi hr
  have key : s.keyOf i = zp.key := by simp only [State.keyOf, hr, hzp]
  rw [key, (s.classRekey_sameAir c row).wear] at passed
  have kept := popped.passed zp hzp passed
  subst kept
  refine k.classRekey_listed c row kind (((k.advanceAll _).mem z i).mpr ⟨((k.mem z i).mp hi).1, ?_⟩) hr1
  rw [State.zoneOf?_of hr1, hzp, ← hz]
  rfl

end

end

end Sys2Proof.Machine
end

section
namespace Sys2Proof.Machine

/-! ### The class write (R178, R186) -/

section
variable {s : State} {t : Telegram} {c : Fin 16} {row : ClassRow}

/-- A class write that R176 lets through is judged by its class's count (R178). -/
theorem exec_classWrite_serving (serving : s.Serving t (.writeRow (.cls c row))) (setup : s.mode = .setup)
    (store : s.store.run = none) : exec .classWrite s = .next (s.classWrite t c row) := by
  simp only [exec, execClassWrite, serving.1, serving.operation?, State.serve, refusal?_writeRow (.inr setup) store]

/-- A rekey that waits is carried out when its turn has come (log entry 11). -/
theorem exec_classWrite_rekeying (phase : s.agent.phase = .rekeying t c row) (live : s.live = true) :
    exec .classWrite s = .next (s.rekeyRequest t c row) := by
  simp only [exec, execClassWrite, phase, live, if_true]

theorem State.classWrite_unused (unused : s.table.classCounts[c.val] = 0) :
    s.classWrite t c row = { s with tables := s.tables.write (.cls c row), agent := (s.reply t .done []).agent } := by
  rw [State.classWrite, if_pos (show s.classCount c = 0 from unused)]
  rfl

theorem State.classWrite_inUse (used : s.table.classCounts[c.val] ≠ 0) (gone : row.floorLife = 0) :
    s.classWrite t c row = s.reply t .inUse [] := by
  rw [State.classWrite, if_neg (show ¬s.classCount c = 0 from used), if_pos gone]

theorem State.classWrite_stopping (used : s.table.classCounts[c.val] ≠ 0) (life : row.floorLife ≠ 0) (stopping : s.stopping = true) :
    s.classWrite t c row = s.dropRequest := by
  rw [State.classWrite, if_neg (show ¬s.classCount c = 0 from used), if_neg life, if_pos stopping]

theorem State.classWrite_begins (used : s.table.classCounts[c.val] ≠ 0) (life : row.floorLife ≠ 0) (live : s.stopping = false)
    (free : ¬s.SplitToCreate) : s.classWrite t c row = (s.beginRekey t c row).rekeyRequest t c row := by
  have asks : ¬s.splitAsks = true := fun h => free (s.splitAsks_iff.mp h)
  rw [State.classWrite, if_neg (show ¬s.classCount c = 0 from used), if_neg life, live, if_neg (by decide), if_neg asks]

end

section
variable {s : State} {t : Telegram} {c : Fin 16} {row : ClassRow} (phase : s.agent.phase = .rekeying t c row)
include phase

theorem State.rekeyBegun_of : s.rekeyBegun = true := s.rekeyBegun_iff.mpr ⟨t, c, row, phase⟩

/-- A freeze discards the rekey that waits (R186; log entry 20). -/
theorem exec_freeze_rekeying (completion : s.agent.completion = none) (monitor : s.retention.monitor = .failPending)
    (quiesce : s.retention.quiesce = none) :
    ∃ u, exec .freeze s = .next u ∧ u.agent = .atStart ∧ u.engine.pause = false ∧ u.tables = s.tables := by
  have dropped := s.beginStop_drops { s.retention with monitor := .freezing } (.inr (.inr ⟨t, c, row, phase⟩))
  rw [completion] at dropped
  exact ⟨_, (exec_freeze_failPending monitor quiesce).trans (congrArg Host.Outcome.next dropped), rfl, rfl, s.outputGone_sameBase.1⟩

/-- Until the row is replaced no command brings a record into use (R178). -/
theorem State.rekeying_holds :
    (s.engine.phase = .commitCreate → exec .create s = .next s) ∧ (s.SplitToCreate → exec .commitRelist s = .next s) ∧
      ∀ cmd u, exec cmd s = .next u → u.agent.phase = .rekeying t c row → ∀ i, s.record? i = none → u.record? i = none := by
  have begun := State.rekeyBegun_of phase
  refine ⟨fun _ => ?_, fun splits => execCommitRelist_waits begun (s.splitAsks_iff.mpr splits), fun cmd u done _ =>
    ((exec_noNew begun cmd).next u done).absent⟩
  show execCreate s = .next s
  unfold execCreate
  rw [begun]
  split
  · simp only [Bool.not_true, Bool.and_false, Bool.false_eq_true, if_false]
  · rfl

/-- At its turn the rekey request is carried out, and the pause lowered (R105; log entry 38). -/
theorem exec_classWrite_turn (live : s.live = true) (turn : s.AgentTurn) :
    exec .classWrite s = .next (((s.withdrawAgent.classRekey c row).setPause false).reply t .done []) := by
  rw [exec_classWrite_rekeying phase live, State.rekeyRequest, State.asZoneRequest_turn turn]

end

/-- The pause is no part of the zones. -/
theorem State.ZoneFrame.setPause {s u : State} (h : s.ZoneFrame u) (p : Bool) : (s.setPause p).ZoneFrame (u.setPause p) := by
  obtain ⟨form, cores⟩ := h
  have engine : u.engine = s.engine := (congrArg State.engine form :)
  refine ⟨?_, cores⟩
  unfold State.setPause
  rw [engine]
  exact congrArg (fun x : State => { x with engine := { s.engine with pause := p } }) form

section
variable {s : State} {t : Telegram} {c : Fin 16} {row : ClassRow}

/-- What becomes of a class write that R176 lets through (R178). -/
theorem State.Serving.classWrite (serving : s.Serving t (.writeRow (.cls c row))) (setup : s.mode = .setup)
    (store : s.store.run = none) :
    (s.table.classCounts[c.val] = 0 →
      exec .classWrite s = .next { s with tables := s.tables.write (.cls c row), agent := (s.reply t .done []).agent }) ∧
    (s.table.classCounts[c.val] ≠ 0 → row.floorLife = 0 → exec .classWrite s = .next (s.reply t .inUse [])) ∧
    (s.table.classCounts[c.val] ≠ 0 → row.floorLife ≠ 0 → s.stopping = true → s.agent.completion = none →
      exec .classWrite s = .next
        { s with engine := { s.engine with pause := false }, agent := { phase := .idle, completion := none } }) ∧
    (s.table.classCounts[c.val] ≠ 0 → row.floorLife ≠ 0 → s.stopping = false → s.SplitToCreate →
      exec .classWrite s = .next s) ∧
    (s.table.classCounts[c.val] ≠ 0 → row.floorLife ≠ 0 → s.stopping = false → ¬s.SplitToCreate →
      exec .classWrite s = exec .classWrite (s.beginRekey t c row)) := by
  have served := exec_classWrite_serving serving setup store
  refine ⟨fun unused => ?_, fun used gone => ?_, fun used life stopping completion => ?_, fun used life live splits => ?_,
    fun used life live free => ?_⟩
  · rw [served, State.classWrite_unused unused]
  · rw [served, State.classWrite_inUse used gone]
  · rw [served, State.classWrite_stopping used life stopping, State.dropRequest, State.agentDrain,
      show (s.setPause false).agent.completion = none from completion]
    rfl
  · rw [served, State.classWrite_holds used life live (s.splitAsks_iff.mpr splits)]
  · have live' : (s.beginRekey t c row).live = true := by
      obtain ⟨-, running, -⟩ := serving
      exact Bool.and_eq_true_iff.mpr ⟨running, congrArg Bool.not live⟩
    rw [served, State.classWrite_begins used life live free, exec_classWrite_rekeying rfl live']

end

/-- Settles O41: the branches of the write, the creates that wait for it, and what advances and rekey leave. -/
theorem classRowWritten : Obligations.ClassRowWritten := by
  unfold Obligations.ClassRowWritten
  intro s t c row
  refine ⟨State.Serving.classWrite, State.rekeying_holds, fun phase live => ⟨fun waits => ?_, fun turn => ?_⟩, exec_freeze_rekeying⟩
  · rw [exec_classWrite_rekeying phase live, State.rekeyRequest, State.asZoneRequest_waits waits]
  · obtain ⟨a, ha⟩ : ∃ a, a = s.withdrawAgent := ⟨_, rfl⟩
    obtain ⟨v, hv⟩ : ∃ v, v = a.advanceAll a.tables.configuredZones := ⟨_, rfl⟩
    obtain ⟨u, hu⟩ : ∃ u, u = a.classRekey c row := ⟨_, rfl⟩
    have framed : State.ZoneFrame { s with tables := s.tables.write (.cls c row) } u := by
      rw [hu]
      refine State.ZoneFrame.trans ?_ (a.classRekey_frame c row)
      rw [ha]
      exact State.zoneWait_frame { s with tables := s.tables.write (.cls c row) } _
    have start : s.Posts a [] := .nothing (by rw [ha]; rfl) (by rw [ha]; rfl)
    refine ⟨(u.setPause false).reply t .done [], v.waiting [], hu ▸ ha ▸ exec_classWrite_turn phase live turn, ?_,
      (framed.setPause false).reply t .done [], fun z => ?_, ?_, fun right => ?_⟩
    · subst ha hv
      exact State.advanceAll_allAdvanced (s := s.withdrawAgent) live
    · have tables : a.tables = s.tables := by rw [ha]; rfl
      have charges := a.classRekey_charges c row z
      rw [← hu, tables] at charges
      subst ha
      split
      · next kind =>
        rw [if_pos kind] at charges
        exact (charges.from_air (s := s) rfl rfl).of_air rfl id
      · next kind =>
        rw [if_neg kind] at charges
        exact charges
    · obtain ⟨l, each, posts⟩ := State.advanceAll_posts a.tables.configuredZones a
      rw [← hv] at posts
      refine ⟨l, each, (start.trans posts).posted, fun right => ?_⟩
      have k : a.Lists s.hands := by
        subst ha
        exact right.lists.same ⟨fun _ => rfl, fun _ => rfl, fun _ => rfl⟩
      have rekeyed := k.classRekey_posts c row
      rw [← hv, ← hu] at rekeyed
      exact (start.trans (posts.trans rekeyed)).posted
    · have k : a.Lists s.hands := by
        subst ha
        exact right.lists.same ⟨fun _ => rfl, fun _ => rfl, fun _ => rfl⟩
      subst ha hv hu
      refine ⟨fun i r hr hz => k.classRekey_zoneless c row hr hz, fun z i r hi kind hr => k.classRekey_listed c row kind hi hr,
        fun i r hr hz => k.classRekey_kept c row hr hz, fun z i r hi kind hr =>
          ⟨fun own => k.classRekey_consumed c row kind hi hr own, fun passed => k.classRekey_passed c row kind hi hr passed⟩⟩

end Sys2Proof.Machine
end

section
namespace Sys2Proof.Machine

/-! ### The steps of a load (R182) -/

/-! #### Notices -/

theorem State.enterNotices_ofPop {s : State} {r : Record} {z : Fin 32} {n : Notice} (h : n ∈ s.enterNotices r z none) : n.OfPop := by
  obtain ⟨k, hk, rfl⟩ := List.mem_map.mp h
  exact ⟨rfl, by simp, by simp, crossingKinds_mem hk⟩

/-- A notice of a pop is of a carrier: it is none of a stale flag. -/
theorem Notice.OfPop.not_stale {n : Notice} (h : n.OfPop) : ¬(n.kind = .zoneStale ∨ n.kind = .zoneFresh) := by
  obtain ⟨-, -, -, kind⟩ := h
  rcases kind with kind | kind | kind <;> rw [kind] <;> decide

section
variable (s : State) (z : Fin 32)

/-- A rekey posts crossings and nothing else (R106). -/
theorem State.rekeyRecord_posts (i : Nat) : ∃ ns, (∀ n ∈ ns, Notice.OfPop n) ∧ s.Posts (s.rekeyRecord z i) ns := by
  cases hr : s.record? i with
  | none =>
    refine ⟨[], by simp, .nothing ?_ ?_⟩ <;> simp only [State.rekeyRecord, State.modRecord, State.attach, hr]
  | some r =>
    have charge : s.Posts (s.modRecord i fun r => r.settle (s.zone z).wear) [] := by
      simp only [State.modRecord, hr]
      exact s.setRecord_posts i _
    exact ⟨_, fun n hn => State.enterNotices_ofPop hn,
      charge.trans (State.attach_posts (State.modRecord_record? hr fun r => r.settle (s.zone z).wear) z none)⟩

theorem State.rekeyZone_posts (sel : Record → Bool) : ∃ ns, (∀ n ∈ ns, Notice.OfPop n) ∧ s.Posts (s.rekeyZone sel z) ns := by
  have chain : ∀ (l : List Nat) (a : State), ∃ ns, (∀ n ∈ ns, Notice.OfPop n) ∧
      a.Posts (l.foldl (fun a i => a.rekeyRecord z i) a) ns := by
    intro l
    induction l with
    | nil => exact fun a => ⟨[], by simp, .nothing rfl rfl⟩
    | cons i rest ih =>
      intro a
      obtain ⟨ns, each, posts⟩ := a.rekeyRecord_posts z i
      obtain ⟨ms, each', posts'⟩ := ih (a.rekeyRecord z i)
      exact ⟨ns ++ ms, fun n hn => (List.mem_append.mp hn).elim (each n) (each' n), posts.trans posts'⟩
  obtain ⟨ns, each, posts⟩ := chain ((s.zone z).watch.filter (s.selected sel))
    (s.setZone z { s.zone z with watch := (s.zone z).watch.filter fun i => !s.selected sel i })
  exact ⟨ns, each, (s.setZone_posts z _).trans posts⟩

end

/-! #### A zone without readings -/

/-- A zone as a change of its configuration from or to kind NONE leaves it: stale, and with no reading (R72, R77). -/
structure Zone.Dark (x : Zone) : Prop where
  stale : x.stale = true
  readings : ∀ j : Fin 3, x.slots[j.val] = .invalid

theorem Zone.Dark.of_air {x y : Zone} (dark : x.Dark) (air : y.air = x.air) : y.Dark := by
  have stale : y.stale = x.stale := (congrArg Zone.stale air :)
  have slots : y.slots = x.slots := (congrArg Zone.slots air :)
  exact ⟨stale.trans dark.stale, fun j => by rw [slots, dark.readings j]⟩

theorem Zone.setStale_dark (x : Zone) (fallback : Nat) : (x.setStale fallback).Dark := ⟨rfl, x.setStale_readings fallback⟩

/-- Without a reading a refresh finds a zone stale, and leaves it so at its fallback rate (R64). -/
theorem Zone.Dark.refresh {x : Zone} (dark : x.Dark) (t : Tables) (cfg : ZoneConfig) (now : Nat) :
    x.refresh t cfg now = { x with fused := none, stale := true, rate := cfg.fallback, dryOn := false } := by
  have fused : x.fusedNow t cfg.staleness now = none := by
    have slots : x.slots.toList = [.invalid, .invalid, .invalid] := by
      rw [x.slots_toList, show x.slots[0] = _ from dark.readings 0, show x.slots[1] = _ from dark.readings 1,
        show x.slots[2] = _ from dark.readings 2]
    unfold Zone.fusedNow
    rw [slots]
    rfl
  unfold Zone.refresh
  rw [fused]

theorem Zone.Dark.refresh_dark {x : Zone} (dark : x.Dark) (t : Tables) (cfg : ZoneConfig) (now : Nat) :
    (x.refresh t cfg now).Dark := by
  rw [dark.refresh]
  exact ⟨rfl, dark.readings⟩

/-- Refreshes post crossings, and a change of the stale flag only of the zones they come to that are not dark (R67). -/
theorem foldl_refreshPop_posts (zs : List (Fin 32)) (dark : Fin 32 → Prop) (s : State) (unlit : ∀ z, dark z → (s.zone z).Dark) :
    ∃ ns : List Notice, (∀ n ∈ ns, n.OfAdvance ∧
        ∀ z, n.zone = some z → (n.kind = .zoneStale ∨ n.kind = .zoneFresh) → z ∈ zs ∧ ¬dark z) ∧
      s.Posts (zs.foldl (fun a z => a.refreshPop z none) s) ns := by
  induction zs generalizing s with
  | nil => exact ⟨[], by simp, .nothing rfl rfl⟩
  | cons z rest ih =>
    obtain ⟨ns, each, posts⟩ := s.refreshPop_posts z none
    have kept : ∀ y, dark y → ((s.refreshPop z none).zone y).Dark := fun y hy => by
      by_cases e : y = z
      · subst e
        exact ((unlit y hy).refresh_dark ..).of_air (s.refreshPop_self_air y none)
      · exact (unlit y hy).of_air (s.refreshPop_other z none e)
    obtain ⟨ms, each', posts'⟩ := ih (s.refreshPop z none) kept
    refine ⟨(s.staleNotices (s.refreshPop z none) z none ++ ns) ++ ms, fun n hn => ?_, posts.trans posts'⟩
    rcases List.mem_append.mp hn with hn | hn
    · rcases List.mem_append.mp hn with hn | hn
      · refine ⟨(State.staleNotices_carrier hn).1, fun y hy _ => ?_⟩
        unfold State.staleNotices at hn
        split at hn
        · cases hn
        · next changed =>
          have of_z : n.zone = some z := by
            split at hn <;> (rw [List.mem_singleton] at hn; rw [hn])
          cases hy.symm.trans of_z
          exact ⟨List.mem_cons_self, fun hd => changed ((unlit z hd).stale.trans (kept z hd).stale.symm)⟩
      · exact ⟨.inl (each n hn), fun _ _ stale => absurd stale (each n hn).not_stale⟩
    · obtain ⟨ofAdvance, flag⟩ := each' n hn
      exact ⟨ofAdvance, fun y hy stale => (flag y hy stale).imp_left (List.mem_cons_of_mem z)⟩

end Sys2Proof.Machine
end

section
namespace Sys2Proof.Machine

/-! #### Zones (R72, R182) -/

/-- What the change of its configuration makes of a zone (R72, up to step 5). -/
def Zone.reconfigured (x : Zone) (old new : ZoneConfig) (now : Nat) : Zone :=
  if old.kind = .unset then
    if new.kind = .unset then x else { x.setStale new.fallback with lastAdvance := now }
  else if new.kind = .unset then x.setStale new.fallback
  else x

section
variable (s : State) (z : Fin 32) (old new : ZoneConfig)

theorem State.zoneChange_frame : s.ZoneFrame (s.zoneChange z old new) := by
  unfold State.zoneChange
  split
  · exact .refl s
  · exact s.setZone_frame z _
  · exact s.setZone_frame z _
  · exact .refl s

theorem State.zoneChange_posts : s.Posts (s.zoneChange z old new) [] := by
  unfold State.zoneChange
  split <;> exact .nothing rfl rfl

theorem State.zoneChange_zoneWait : (s.zoneChange z old new).zoneWait = s.zoneWait := by
  unfold State.zoneChange
  split <;> rfl

theorem State.zoneChange_zone (y : Fin 32) :
    (s.zoneChange z old new).zone y = if y = z then (s.zone z).reconfigured old new s.now else s.zone y := by
  have only : ∀ x : Zone, (s.setZone z x).zone y = if y = z then x else s.zone y := fun x => by
    split
    · next e => rw [e, State.setZone_zone_self]
    · next ne => rw [State.setZone_zone_ne _ _ ne]
  have none : s.zone y = if y = z then s.zone z else s.zone y := by
    split
    · next e => rw [e]
    · rfl
  unfold State.zoneChange Zone.reconfigured
  by_cases ho : old.kind = .unset <;> by_cases hn : new.kind = .unset <;>
    simp only [ho, hn, ZoneConfig.configured_eq_true, ZoneConfig.configured_eq_false, ne_eq, not_false_eq_true, if_true, if_false, only]
  · exact none
  · exact none

end

theorem Zone.reconfigured_air (x : Zone) (old new : ZoneConfig) (now : Nat) :
    (x.reconfigured old new now).air = (x.air.reconfigured old new now).air := by
  unfold Zone.reconfigured
  split <;> split <;> rfl

theorem Zone.refresh_air (x : Zone) (t : Tables) (cfg : ZoneConfig) (now : Nat) :
    (x.refresh t cfg now).air = (x.air.refresh t cfg now).air := by
  unfold Zone.refresh
  rw [show x.air.fusedNow t cfg.staleness now = x.fusedNow t cfg.staleness now from rfl]
  split <;> rfl

/-- The state a load's refreshes start from: every zone that was configured is charged, the rows are in from the image, and each
zone has taken its new configuration (R182). -/
def State.loadPut (s : State) (new : Tables) : State :=
  allZones.foldl (fun a z => a.zoneChange z (s.tables.zone z) (new.zone z))
    { s.tables.configuredZones.foldl State.chargeZone s with tables := { new with part := s.tables.part } }

/-- The state its rekey starts from. -/
def State.loadPopped (s : State) (new : Tables) : State :=
  new.configuredZones.foldl (fun a z => a.refreshPop z none) (s.loadPut new)

/-- The state its rekey leaves, which `loadReplace` gives the part's configuration of the image as well (R170). -/
def State.loadRekeyed (s : State) (new : Tables) : State :=
  new.configuredZones.foldl (fun a z => a.rekeyZone (fun _ => true) z) (s.loadPopped new)

section
variable (s : State) (new : Tables)

theorem State.loadPut_frame : State.ZoneFrame { s with tables := { new with part := s.tables.part } } (s.loadPut new) := by
  obtain ⟨form, cores⟩ := foldl_chargeZone_frame s.tables.configuredZones s
  have put : State.ZoneFrame { s with tables := { new with part := s.tables.part } }
      { s.tables.configuredZones.foldl State.chargeZone s with tables := { new with part := s.tables.part } } :=
    ⟨congrArg (fun x : State => { x with tables := { new with part := s.tables.part } }) form, cores⟩
  exact put.trans (foldl_zoneFrame (fun a z => a.zoneChange z (s.tables.zone z) (new.zone z)) (fun a z => a.zoneChange_frame z _ _) _ _)

theorem State.loadPopped_frame : State.ZoneFrame { s with tables := { new with part := s.tables.part } } (s.loadPopped new) :=
  (s.loadPut_frame new).trans (foldl_zoneFrame (fun a z => a.refreshPop z none) (fun a z => a.refreshPop_frame z none) _ _)

theorem State.loadRekeyed_frame : State.ZoneFrame { s with tables := { new with part := s.tables.part } } (s.loadRekeyed new) :=
  (s.loadPopped_frame new).trans
    (foldl_zoneFrame (fun a z => a.rekeyZone (fun _ => true) z) (fun a z => a.rekeyZone_frame _ z) _ _)

theorem State.loadReplace_frame : State.ZoneFrame { s with tables := new } (s.loadReplace new) := by
  obtain ⟨form, cores⟩ := s.loadRekeyed_frame new
  exact ⟨congrArg (fun x : State => { x with tables := new }) form, cores⟩

/-- A load's zone, charged if it was configured, under its new configuration. -/
def State.loadedZone (z : Fin 32) : Zone :=
  (if (s.tables.zone z).kind = .unset then s.zone z else (s.zone z).charge s.now).reconfigured (s.tables.zone z) (new.zone z) s.now

theorem State.loadPut_air (z : Fin 32) : ((s.loadPut new).zone z).air = (s.loadedZone new z).air := by
  obtain ⟨a, ha⟩ : ∃ a, a = { s.tables.configuredZones.foldl State.chargeZone s with
    tables := { new with part := s.tables.part } } := ⟨_, rfl⟩
  have frame := foldl_chargeZone_frame s.tables.configuredZones s
  have charged : a.zone z = if (s.tables.zone z).kind = .unset then s.zone z else (s.zone z).charge s.now := by
    rw [ha]
    refine (foldl_chargeZone_zone s _ (configuredZones_nodup _) z).trans ?_
    simp only [mem_configuredZones, ne_eq, ite_not]
  have now : a.now = s.now := by
    rw [ha]
    exact frame.now
  have air := foldl_air (f := fun a z => a.zoneChange z (s.tables.zone z) (new.zone z)) (s := a)
    (F := fun z x => (x.reconfigured (s.tables.zone z) (new.zone z) s.now).air) (fun a z => a.zoneChange_frame z _ _)
    (fun b z y framed => ?_) (zs := allZones) (List.nodup_finRange 32) z
  · rw [if_pos (show z ∈ allZones from List.mem_finRange z), ← Zone.reconfigured_air, charged] at air
    unfold State.loadPut
    rw [← ha]
    exact air
  · rw [State.zoneChange_zone, framed.now.trans now]
    split
    · exact Zone.reconfigured_air ..
    · rfl

/-- Behind a load: a configured zone is as the refresh leaves it, another as its new configuration does (R72). -/
theorem State.loadReplace_air (z : Fin 32) : ((s.loadReplace new).zone z).air =
    if (new.zone z).kind = .unset then (s.loadedZone new z).air
    else ((s.loadedZone new z).refresh new (new.zone z) s.now).air := by
  have rekeyed : ((s.loadReplace new).zone z).air = ((s.loadPopped new).zone z).air :=
    (foldl_rekeyZone_leaves (fun _ => true) new.configuredZones (s.loadPopped new)).1 z
  have now : (s.loadPut new).now = s.now := (s.loadPut_frame new).now
  have tables : (s.loadPut new).tables = { new with part := s.tables.part } := (s.loadPut_frame new).tables
  have popped := foldl_air (f := fun a z => a.refreshPop z none) (s := s.loadPut new)
    (F := fun z x => (x.refresh new (new.zone z) s.now).air) (fun a z => a.refreshPop_frame z none) (fun a z y framed => ?_)
    (configuredZones_nodup new) z
  · simp only [mem_configuredZones, ne_eq, ite_not, s.loadPut_air new, ← Zone.refresh_air] at popped
    rw [rekeyed]
    exact popped
  · rw [State.refreshPop_air, framed.tables, tables, framed.now, now, ← Zone.refresh_air]
    rfl

end

end Sys2Proof.Machine
end

section
namespace Sys2Proof.Machine

section
variable {s : State} {new : Tables} {z : Fin 32}

/-! #### What a load leaves of a zone -/

theorem State.loadedZone_stays (old : (s.tables.zone z).kind ≠ .unset) (kept : (new.zone z).kind ≠ .unset) :
    s.loadedZone new z = (s.zone z).charge s.now := by
  rw [State.loadedZone, Zone.reconfigured, if_neg old, if_neg old, if_neg kept]

theorem State.loadedZone_leaves (old : (s.tables.zone z).kind ≠ .unset) (gone : (new.zone z).kind = .unset) :
    s.loadedZone new z = ((s.zone z).charge s.now).setStale (new.zone z).fallback := by
  rw [State.loadedZone, Zone.reconfigured, if_neg old, if_neg old, if_pos gone]

theorem State.loadedZone_enters (old : (s.tables.zone z).kind = .unset) (begun : (new.zone z).kind ≠ .unset) :
    s.loadedZone new z = { (s.zone z).setStale (new.zone z).fallback with lastAdvance := s.now } := by
  rw [State.loadedZone, Zone.reconfigured, if_pos old, if_pos old, if_neg begun]

theorem State.loadedZone_none (old : (s.tables.zone z).kind = .unset) (none : (new.zone z).kind = .unset) :
    s.loadedZone new z = s.zone z := by
  rw [State.loadedZone, Zone.reconfigured, if_pos old, if_pos old, if_pos none]

/-- A zone that becomes or ceases to be configured is dark, until a sample comes (R72). -/
theorem State.loadedZone_dark (h : (s.tables.zone z).kind = .unset ↔ (new.zone z).kind ≠ .unset) : (s.loadedZone new z).Dark := by
  by_cases old : (s.tables.zone z).kind = .unset
  · rw [State.loadedZone_enters old (h.mp old)]
    exact ⟨rfl, (s.zone z).setStale_readings (new.zone z).fallback⟩
  · rw [State.loadedZone_leaves old (not_not.mp fun kept => old (h.mpr kept))]
    exact Zone.setStale_dark ..

/-- A refresh keeps the clocks: a loaded zone has those it was put in with. -/
theorem State.loadReplace_clocks (s : State) (new : Tables) (z : Fin 32) :
    ((s.loadReplace new).zone z).wear = (s.loadedZone new z).wear ∧ ((s.loadReplace new).zone z).dry = (s.loadedZone new z).dry ∧
      ((s.loadReplace new).zone z).lastAdvance = (s.loadedZone new z).lastAdvance := by
  have air := s.loadReplace_air new z
  split at air
  · exact ⟨(congrArg Zone.wear air :), (congrArg Zone.dry air :), (congrArg Zone.lastAdvance air :)⟩
  · exact ⟨(congrArg Zone.wear air :).trans (Zone.refresh_wear ..), (congrArg Zone.dry air :).trans (Zone.refresh_dry ..),
      (congrArg Zone.lastAdvance air :).trans (Zone.refresh_lastAdvance ..)⟩

/-- The load withdraws the timer requests of the zones it charges (R68). -/
theorem State.loadReplace_zoneWait (s : State) (new : Tables) :
    (s.loadReplace new).zoneWait = (s.tables.configuredZones.foldl State.chargeZone s).zoneWait := by
  refine ((foldl_rekeyZone_leaves (fun _ => true) new.configuredZones (s.loadPopped new)).2.trans
    (foldl_zoneWait (fun a z => a.refreshPop_zoneWait z none) _ _)).trans ?_
  exact foldl_zoneWait (f := fun a z => a.zoneChange z (s.tables.zone z) (new.zone z)) (fun a z => a.zoneChange_zoneWait z _ _) _ _

/-- A zone that was configured is charged as it stood (R66, R72). -/
theorem State.loadReplace_charged (old : (s.tables.zone z).kind ≠ .unset) : s.Charged (s.loadReplace new) z := by
  obtain ⟨wear, dry, last⟩ := s.loadReplace_clocks new z
  obtain ⟨wear', dry', last', -⟩ := s.chargeZone_charged z
  rw [State.chargeZone_self] at wear' dry' last'
  obtain ⟨-, -, -, waits⟩ := foldl_chargeZone_charged s (configuredZones_nodup s.tables) ((mem_configuredZones _ z).mpr old)
  rw [← s.loadReplace_zoneWait new] at waits
  by_cases gone : (new.zone z).kind = .unset
  · rw [State.loadedZone_leaves old gone] at wear dry last
    exact ⟨wear.trans wear', dry.trans dry', last.trans last', waits⟩
  · rw [State.loadedZone_stays old gone] at wear dry last
    exact ⟨wear.trans wear', dry.trans dry', last.trans last', waits⟩

/-- One that stays configured keeps its readings, and takes its conditions under the new rows and grid (R63 to R65, R72). -/
theorem State.loadReplace_refreshed (old : (s.tables.zone z).kind ≠ .unset) (kept : (new.zone z).kind ≠ .unset) :
    ((s.loadReplace new).zone z).slots = (s.zone z).slots ∧ ((s.loadReplace new).zone z).Refreshed new (new.zone z) s.now := by
  have air := s.loadReplace_air new z
  rw [if_neg kept, State.loadedZone_stays old kept] at air
  exact ⟨(congrArg Zone.slots air :).trans ((Zone.refresh_slots ..).trans (Zone.charge_slots ..)),
    (Zone.refresh_refreshed ..).of_air air⟩

/-- One that was not keeps W and D; its clocks run from now on if it is configured, and else it does not change (R72). -/
theorem State.loadReplace_unset (old : (s.tables.zone z).kind = .unset) :
    ((s.loadReplace new).zone z).wear = (s.zone z).wear ∧ ((s.loadReplace new).zone z).dry = (s.zone z).dry ∧
      if (new.zone z).kind = .unset then ((s.loadReplace new).zone z).air = (s.zone z).air
      else ((s.loadReplace new).zone z).lastAdvance = s.now := by
  obtain ⟨wear, dry, last⟩ := s.loadReplace_clocks new z
  split
  · next none =>
    have air := s.loadReplace_air new z
    rw [State.loadedZone_none old none] at wear dry air
    rw [if_pos none] at air
    exact ⟨wear, dry, air⟩
  · next begun =>
    rw [State.loadedZone_enters old begun] at wear dry last
    exact ⟨wear, dry, last⟩

/-- One that becomes or ceases to be configured is stale at its new fallback rate (R72). -/
theorem State.loadReplace_stale (h : (s.tables.zone z).kind = .unset ↔ (new.zone z).kind ≠ .unset) :
    ((s.loadReplace new).zone z).stale = true ∧ ((s.loadReplace new).zone z).fused = none ∧
      ((s.loadReplace new).zone z).rate = (new.zone z).fallback ∧ ((s.loadReplace new).zone z).dryOn = false ∧
      ∀ j : Fin 3, ((s.loadReplace new).zone z).slots[j.val] = .invalid := by
  obtain ⟨x, hx⟩ : ∃ x, x = (s.loadReplace new).zone z := ⟨_, rfl⟩
  have dark := State.loadedZone_dark h
  have air := s.loadReplace_air new z
  rw [dark.refresh, ← hx] at air
  rw [← hx]
  split at air
  · next gone =>
    have old : (s.tables.zone z).kind ≠ .unset := fun old => h.mp old gone
    obtain ⟨stale, readings⟩ := dark.of_air air
    rw [State.loadedZone_leaves old gone] at air
    exact ⟨stale, (congrArg Zone.fused air :), (congrArg Zone.rate air :), (congrArg Zone.dryOn air :), readings⟩
  · have slots : x.slots = (s.loadedZone new z).slots := (congrArg Zone.slots air :)
    exact ⟨(congrArg Zone.stale air :), (congrArg Zone.fused air :), (congrArg Zone.rate air :), (congrArg Zone.dryOn air :),
      fun j => by rw [slots, dark.readings j]⟩

/-- A load posts what advances and crossings post; a change of the stale flag only of a zone configured before and after (R67,
R72). -/
theorem State.loadReplace_posts (s : State) (new : Tables) :
    ∃ l : List Notice, (∀ n ∈ l, n.OfAdvance ∧
        ∀ z, n.zone = some z → (n.kind = .zoneStale ∨ n.kind = .zoneFresh) →
          (s.tables.zone z).kind ≠ .unset ∧ (new.zone z).kind ≠ .unset) ∧
      s.Posts (s.loadReplace new) l := by
  have charged := foldl_chargeZone_posts s.tables.configuredZones s
  have put : State.Posts { s.tables.configuredZones.foldl State.chargeZone s with tables := { new with part := s.tables.part } }
      (s.loadPut new) [] := by
    obtain ⟨ns, none, posts⟩ := foldl_posts (P := fun _ => False) (f := fun a z => a.zoneChange z (s.tables.zone z) (new.zone z))
      (fun a z => ⟨[], by simp, a.zoneChange_posts z _ _⟩) allZones _
    rwa [List.eq_nil_iff_forall_not_mem.mpr none] at posts
  obtain ⟨ns, each, popped⟩ := foldl_refreshPop_posts new.configuredZones
    (fun z => (s.tables.zone z).kind = .unset ∧ (new.zone z).kind ≠ .unset) (s.loadPut new)
    fun z ⟨old, begun⟩ => (State.loadedZone_dark ⟨fun _ => begun, fun _ => old⟩).of_air (s.loadPut_air new z)
  obtain ⟨ms, crossings, rekeyed⟩ := foldl_posts (f := fun a z => a.rekeyZone (fun _ => true) z)
    (fun a z => a.rekeyZone_posts z fun _ => true) new.configuredZones (s.loadPopped new)
  refine ⟨ns ++ ms, fun n hn => (List.mem_append.mp hn).elim (fun hn => ?_) fun hn => ?_, ?_⟩
  · obtain ⟨ofAdvance, flag⟩ := each n hn
    refine ⟨ofAdvance, fun z hz stale => ?_⟩
    obtain ⟨mem, lit⟩ := flag z hz stale
    have kept := (mem_configuredZones new z).mp mem
    exact ⟨fun old => lit ⟨old, kept⟩, kept⟩
  · exact ⟨.inl (crossings n hn), fun _ _ stale => absurd stale (crossings n hn).not_stale⟩
  · have whole := (charged.trans (put.trans (popped.trans rekeyed))).trans
      (.nothing (t := s.loadReplace new) rfl rfl)
    simpa using whole

end

end Sys2Proof.Machine
end

section
namespace Sys2Proof.Machine

section
variable {s : State} {new : Tables} {h : Hands}

/-! #### What a load leaves of the records -/

/-- Of the tables an attach reads but the class rows and the zones' rows. -/
theorem State.Enters.retable {t : State} {z : Fin 32} {i : Nat} {r r' : Record} (enters : t.Enters z i r r')
    (classes : t.tables.cls = new.cls) (zones : t.tables.zone = new.zone) : State.Enters { t with tables := new } z i r r' := by
  obtain ⟨c, x, hc, hx, form⟩ := enters
  rw [classes] at hc
  rw [zones] at form
  exact ⟨c, x, hc, hx, form⟩

theorem State.loadPut_same (s : State) (new : Tables) :
    State.SameLists { s with tables := { new with part := s.tables.part } } (s.loadPut new) := by
  have charged := foldl_chargeZone_same s.tables.configuredZones s
  have put : State.SameLists { s with tables := { new with part := s.tables.part } }
      { s.tables.configuredZones.foldl State.chargeZone s with tables := { new with part := s.tables.part } } :=
    ⟨charged.records, charged.watch, fun _ => rfl⟩
  exact put.trans (.foldl (fun a z => a.zoneChange_same z _ _) allZones _)

/-- A load that is not refused keeps the lists right, no zone with members changing its kind (R182). -/
theorem State.Lists.loadPut (k : s.Lists h) (free : ∀ z, (s.zone z).watch ≠ [] → (s.tables.zone z).kind = (new.zone z).kind) :
    (s.loadPut new).Lists h := by
  have same := s.loadPut_same new
  refine k.rekinded same.records same.watch fun z => ?_
  rw [same.kinds]
  exact or_iff_not_imp_left.mpr fun members => (free z members).symm

section
variable (k : s.Lists h) (free : ∀ z, (s.zone z).watch ≠ [] → (s.tables.zone z).kind = (new.zone z).kind)
include k free

theorem State.Lists.loadPopped : (s.loadPopped new).Lists h :=
  (foldl_outside refreshPop_worksWithin (zs := new.configuredZones) (k.loadPut free)).1

/-- A record without a zone stays as it is. -/
theorem State.Lists.loadReplace_kept {i : Nat} {r : Record} (hr : s.record? i = some r) (hz : r.zonePart = none) :
    (s.loadReplace new).record? i = some r := by
  have put := k.loadPut free
  have put_record : (s.loadPut new).record? i = some r := ((s.loadPut_same new).records i).trans hr
  obtain ⟨-, -, -, unpopped⟩ := foldl_outside refreshPop_worksWithin (zs := new.configuredZones) put
  have popped : (s.loadPopped new).record? i = some r :=
    (unpopped (configuredZones_nodup _) i fun y _ => put.zoneless_unlisted put_record hz y).trans put_record
  have lists := k.loadPopped free
  obtain ⟨-, -, -, unkeyed⟩ := foldl_outside (rekeyZone_worksWithin fun _ => true) (zs := new.configuredZones) lists
  exact (unkeyed (configuredZones_nodup _) i fun y _ => lists.zoneless_unlisted popped hz y).trans popped

/-- What the refreshes leave of a listed record, the pop of its zone left of it. -/
theorem State.Lists.loadPopped_popped {z : Fin 32} (configured : z ∈ new.configuredZones) {i : Nat} {r : Record}
    (hi : i ∈ (s.zone z).watch) (hr : s.record? i = some r) :
    ∃ r', (s.loadPopped new).record? i = some r' ∧ (s.loadPopped new).Popped z r r' := by
  have same := s.loadPut_same new
  refine foldl_refreshPop_popped (configuredZones_nodup new) (k.loadPut free) configured ?_ ((same.records i).trans hr)
  rw [same.watch]
  exact hi

/-- A record that the refreshes left in a list enters its zone again under the new rows (R106). -/
theorem State.Lists.loadReplace_enters {z : Fin 32} (configured : z ∈ new.configuredZones) {i : Nat} {r : Record}
    (hi : i ∈ ((s.loadPopped new).zone z).watch) (hr : (s.loadPopped new).record? i = some r) :
    ∃ r', (s.loadReplace new).record? i = some r' ∧
      (s.loadReplace new).Enters z i { r with consumed := (s.loadReplace new).settledConsumed r } r' := by
  obtain ⟨enters, -⟩ := foldl_rekeyZone_record (t := s.loadRekeyed new) (fun _ => true) (configuredZones_nodup new)
    (k.loadPopped free) configured hi hr rfl
  obtain ⟨r', hr', enters⟩ := enters rfl
  have tables : (s.loadRekeyed new).tables = { new with part := s.tables.part } := (s.loadRekeyed_frame new).tables
  exact ⟨r', hr', enters.retable (by rw [tables]; rfl) (by rw [tables]; rfl)⟩

/-- A listed record is charged up to W by refresh and rekey together; one that no pop touches enters its zone again as it was
(R80, R101, R106). -/
theorem State.Lists.loadReplace_listed {z : Fin 32} (kind : (s.tables.zone z).kind ≠ .unset) {i : Nat} {r : Record}
    (hi : i ∈ (s.zone z).watch) (hr : s.record? i = some r) :
    ∃ r', (s.loadReplace new).record? i = some r' ∧ r'.consumed = (s.loadReplace new).settledConsumed r ∧
      ((r.held = true ∨ ((s.loadReplace new).zone z).wear < s.keyOf i) →
        (s.loadReplace new).Enters z i { r with consumed := (s.loadReplace new).settledConsumed r } r') := by
  have configured : z ∈ new.configuredZones := (mem_configuredZones new z).mpr (free z (List.ne_nil_of_mem hi) ▸ kind)
  have lists := k.loadPopped free
  have air : (s.loadPopped new).SameAir (s.loadRekeyed new) :=
    (foldl_rekeyZone_leaves (fun _ => true) new.configuredZones (s.loadPopped new)).1
  have stands := k.listed hi hr
  have on := ((k.mem z i).mp hi).1
  obtain ⟨r1, hr1, popped⟩ := k.loadPopped_popped free configured hi hr
  obtain ⟨r', hr', account⟩ := foldl_rekeyZone_popped (t := s.loadRekeyed new) (fun _ => true) (configuredZones_nodup new) lists
    configured on hr1 popped stands rfl rfl air
  refine ⟨r', hr', account, fun untouched => ?_⟩
  obtain ⟨zp, hzp, hz⟩ := stands
  have key : s.keyOf i = zp.key := by simp only [State.keyOf, hr, hzp]
  have wear : ((s.loadReplace new).zone z).wear = ((s.loadPopped new).zone z).wear := air.wear z
  rw [key, wear] at untouched
  have kept := popped.passed zp hzp untouched
  subst kept
  have listed : i ∈ ((s.loadPopped new).zone z).watch := (lists.mem z i).mpr ⟨on, by
    rw [State.zoneOf?_of hr1, hzp, ← hz]
    rfl⟩
  obtain ⟨r'', hr'', enters⟩ := k.loadReplace_enters free configured listed hr1
  cases hr'.symm.trans hr''
  exact enters

end

end

/-! #### The request -/

section
variable {s : State} {t : Telegram}

/-- What becomes of a LOAD-IMAGE that R176 lets through (R182 step 1). -/
theorem State.Serving.loadImage (serving : s.Serving t .loadImage) (setup : s.mode = .setup) (store : s.store.run = none) :
    (s.store.good? = none →
      exec .loadImage s = .next
        { s with engine := { s.engine with pause := false }, agent := (s.reply t .imageBad []).agent }) ∧
    (s.store.good? ≠ none →
      exec .loadImage s = .next
        { s with engine := { s.engine with pause := true }, agent := { s.agent with phase := .loading t } }) := by
  have served : exec .loadImage s = .next (s.beginLoad t) := by
    simp only [exec, execLoadImage, serving.operation?, s.refusal?_loadImage.mpr ⟨setup, store⟩]
  rw [served]
  unfold State.beginLoad
  refine ⟨fun bad => ?_, fun good => ?_⟩
  · rw [bad]
    rfl
  · obtain ⟨new, hnew⟩ := Option.ne_none_iff_exists'.mp good
    rw [hnew]
    rfl

/-- The replacement request waits its turn at the Zone Engine (R69; log entries 5 and 11). -/
theorem exec_loadImageReplace (phase : s.agent.phase = .loading t) (live : s.live = true) :
    exec .loadImageReplace s = .next (s.asZoneRequest fun a => a.loadRequest t) := by
  simp only [exec, execLoadImageReplace, phase, live, if_true]

/-- The in-use check (R182 step 2). -/
theorem State.loadInUse_iff (s : State) (new : Tables) : s.loadInUse new = true ↔
    (∃ c : Fin 16, s.table.classCounts[c.val] ≠ 0 ∧ (new.cls c).floorLife = 0) ∨
      ∃ z, (s.zone z).watch ≠ [] ∧ (s.tables.zone z).kind ≠ (new.zone z).kind := by
  simp only [State.loadInUse, Bool.or_eq_true, List.any_eq_true, allZones, List.mem_finRange, true_and, State.zoneInUse_iff,
    Bool.and_eq_true, bne_iff_ne, Bool.not_eq_true', ClassRow.configured, State.classCount]
  simp

end

/-- Settles O46: the branches of the request, and what charge, refresh and rekey leave of a replacement. -/
theorem imageLoaded : Obligations.ImageLoaded := by
  unfold Obligations.ImageLoaded
  intro s t
  refine ⟨State.Serving.loadImage, fun phase live waits => ?_, fun new phase live good turn => ?_⟩
  · rw [exec_loadImageReplace phase live, State.asZoneRequest_waits waits]
  obtain ⟨u, hu⟩ : ∃ u, u = s.withdrawAgent.loadReplace new := ⟨_, rfl⟩
  have served : exec .loadImageReplace s = .next
      (if s.withdrawAgent.loadInUse new then (s.withdrawAgent.setPause false).reply t .inUse []
        else (u.setPause false).reply t .done []) := by
    rw [exec_loadImageReplace phase live, State.asZoneRequest_turn turn, State.loadRequest,
      show s.withdrawAgent.store.good? = some new from good, hu]
  have inUse := s.withdrawAgent.loadInUse_iff new
  refine ⟨fun used => by rw [served, if_pos (inUse.mpr used)]; rfl, fun lives kinds => ?_⟩
  have unused : ¬s.withdrawAgent.loadInUse new = true := fun used => (inUse.mp used).elim
    (fun ⟨c, used, gone⟩ => lives c used gone) fun ⟨z, members, change⟩ => change (kinds z members)
  have framed : State.ZoneFrame { s with tables := new } u :=
    hu ▸ State.ZoneFrame.trans (State.zoneWait_frame { s with tables := new } _) (s.withdrawAgent.loadReplace_frame new)
  refine ⟨(u.setPause false).reply t .done [], by rw [served, if_neg unused], (framed.setPause false).reply t .done [],
    fun z old => ?_, ?_, fun z old kept => ?_, fun z old => ?_, fun z h => ?_, fun right => ?_⟩
  · have charged : s.withdrawAgent.Charged u z := hu ▸ State.loadReplace_charged old
    exact (charged.from_air (s := s) rfl rfl).of_air rfl id
  · obtain ⟨l, each, posts⟩ := s.withdrawAgent.loadReplace_posts new
    rw [← hu] at posts
    have start : s.Posts s.withdrawAgent [] := .nothing rfl rfl
    exact ⟨l, (start.trans posts).posted, each⟩
  · have left := State.loadReplace_refreshed (s := s.withdrawAgent) old kept
    rw [← hu] at left
    exact left
  · have left := State.loadReplace_unset (s := s.withdrawAgent) (new := new) old
    rw [← hu] at left
    exact left
  · have left := State.loadReplace_stale (s := s.withdrawAgent) h
    rw [← hu] at left
    exact left
  · have k : s.withdrawAgent.Lists s.hands := right.lists.same ⟨fun _ => rfl, fun _ => rfl, fun _ => rfl⟩
    have kept : ∀ i r, s.record? i = some r → r.zonePart = none → u.record? i = some r := fun i r hr hz =>
      hu ▸ k.loadReplace_kept kinds hr hz
    refine ⟨kept, fun z i r hi kind hr => ?_⟩
    have left := k.loadReplace_listed kinds kind hi hr
    rw [← hu] at left
    exact left

end Sys2Proof.Machine
end
